-- ==== Sys2Proof/Word.lean ====
section
/-! DEFINITION. The word types of the machine and their plainest arithmetic.
Numbers follow spec 00_scope.md R6 and R7: bit 0 is the least significant bit. -/

namespace Sys2Proof

/-- One byte. -/
abbrev Byte := BitVec 8

/-- A 16-bit word: selectors, `IP`, `SP`, `FLAGS`. -/
abbrev Word16 := BitVec 16

/-- A 32-bit word: `EFLAGS`, `EIP`, `ESP`. -/
abbrev Word32 := BitVec 32

/-- A 64-bit word: linear addresses, `RIP`, `RSP`, the CET registers. -/
abbrev Word64 := BitVec 64

end Sys2Proof
end

