-- ==== Sys2Proof/Config.lean ====
section
/-! DEFINITION. What an implementation fixes (spec 00_scope.md R5) and the free values.
The parameters that are plain data form the record `Config`, which a machine state carries and no
step writes; so a claim holds for every value of them. The free values are constants without a body:
no proof can see what they are. Those of them that speak of a machine state, of a hidden segment part or
of control registers (`Config.translate`, `Config.hiddenPart`, `Config.otherShadowStackEnabled`,
`Config.otherEndbranchEnabled`) stand in Machine/State.lean, where those types are. -/

namespace Sys2Proof

/-- Which predicate an enabling predicate of CET is: `ShadowStackEnabled` and `EndbranchEnabled` are
parameters, used and never defined (00_scope.md R5, 42_delivery_frames.md R200, 92 D17). -/
inductive EnableRule where
  /-- The usual definition, which R200 gives. -/
  | usual
  /-- Any predicate of the control registers and the level: a constant without a body (log 17). -/
  | other
  deriving DecidableEq, Repr

/-- Where the software interrupt redirection bit map lies: the parameter `V86_REDIR_BITMAP`, in the TSS
and nowhere located (00_scope.md R5, 20_memory.md R70, 92 D19). -/
inductive RedirectionMap where
  /-- The usual place: the 32 bytes below the I/O permission bit map, whose 16-bit base lies at an
  offset of the 32-bit TSS, usually 102 (R70); a 16-bit TSS has no such field. -/
  | belowIoMap (field : Nat)
  /-- The 32 bytes from an offset of the TSS on. -/
  | inTss (offset : Nat)
  /-- Anywhere: the bit is any value. -/
  | other
  deriving DecidableEq, Repr

/-- The implementation parameters of spec 00_scope.md R5 that are plain data. -/
structure Config where
  /-- `N`, the maximum linear-address width in bits (R5, 93 U14). -/
  linearWidth : Nat
  /-- `HAS_IA32E`: whether `IA32_EFER.LMA` can be 1. -/
  hasIa32e : Bool
  /-- `HAS_VME`: whether `CR4.VME` can be 1. -/
  hasVme : Bool
  /-- `HAS_CET_SS`: whether shadow stacks can be enabled. -/
  hasCetSs : Bool
  /-- `HAS_CET_IBT`: whether end-branch tracking can be enabled. -/
  hasCetIbt : Bool
  /-- `INT1_HW_DEBUG`: whether hardware debug takes `INT1` (40 R116). -/
  int1HwDebug : Bool
  /-- `V86_IVT_BASE`: linear address of the virtual-8086 vector table (20_memory.md R70). -/
  v86IvtBase : Word64
  /-- `V86_REDIR_BITMAP` (20_memory.md R70). -/
  redirectionMap : RedirectionMap
  /-- `ShadowStackEnabled` (42_delivery_frames.md R200). -/
  shadowStackRule : EnableRule
  /-- `EndbranchEnabled` (R200). -/
  endbranchRule : EnableRule
  deriving DecidableEq, Repr

/-- A padding byte of a selector pushed in a 4- or 8-byte slot: any value (20_memory.md R61, 93 U3).
The argument is the number of the draw. -/
opaque Config.padByte : Nat → Byte

/-- Whether a byte that an abandoned delivery had written keeps its new value (60_exceptions.md
R241, 93 U4). Arguments: the number of the draw and the byte's physical address. -/
opaque Config.keepsWrite : Nat → Nat → Bool

/-- The new shadow-stack pointer where the source leaves it unset: any value (42_delivery_frames.md
R175, 93 U19; log 36). The argument is the number of the draw. -/
opaque Config.unsetShadowPointer : Nat → Word64

/-- The software interrupt redirection bit of a vector when no location is given: the parameter says
so, or the usual one meets a 16-bit TSS (20_memory.md R70, 00_scope.md R5 `V86_REDIR_BITMAP`).
Arguments: the number of the draw and the vector. -/
opaque Config.redirectionBit : Nat → Nat → Bool

/-- Which read of a delivery or a fetch a byte belongs to: no two bytes of one delivery have the same
use and the same linear address. -/
inductive ReadUse where
  | fetch
  | gate
  | codeDescriptor
  | taskDescriptor
  /-- The stack pointer and selector in the TSS. -/
  | newStack
  | stackDescriptor
  | ioMapBase
  | redirectionBits
  | vector
  | shadowTable
  | token
  | pop
  deriving DecidableEq, Repr

/-- The byte a read of memory that other agents can write answers: the oracle of 20_memory.md R72 (92
D9). Arguments: the number of the draw, the read, and the byte's linear address. -/
opaque Config.agentByte : Nat → ReadUse → Word64 → Byte

/-- Which of the bytes that fail is the first of an access whose bytes are accessed in any order
(20_memory.md R56, 93 U11). Arguments: the number of the draw and the access's linear address; the
answer is taken modulo the number of failing bytes. -/
opaque Config.firstFailure : Nat → Word64 → Nat

end Sys2Proof
end

