-- ==== Sys2Proof/Machine/State.lean ====
section
/-! DEFINITION. The state of one logical processor (spec 10_state.md R13 to R38), the reasons a step
can stop, and the state after reset. -/

namespace Sys2Proof.Machine

/-- Memory: bytes at physical addresses, addresses strictly rising, no entry equal to what an
unlisted address reads as (20_memory.md R50; the form is `Memory.wf`). -/
abbrev Memory := List Host.Cell

/-- The hidden part of a segment register, which is what a segment descriptor holds (10_state.md
R21 to R23, 20_memory.md R68). `limit` is in bytes, after granularity scaling. -/
structure Hidden where
  base : Word64
  limit : Word32
  /-- S: 1 for a code or data segment, 0 for a system descriptor. -/
  s : Bool
  typ : BitVec 4
  dpl : BitVec 2
  present : Bool
  /-- L: 64-bit code segment. -/
  l : Bool
  /-- D or B: default size of a code segment, stack-pointer width of a stack segment. -/
  db : Bool
  deriving DecidableEq, Repr, Inhabited

/-- A segment register: the visible selector and the hidden part (10_state.md R21). -/
structure SegReg where
  sel : Word16
  hid : Hidden
  deriving DecidableEq, Repr

/-- `IDTR` and `GDTR` (10_state.md R28, R29); the limit is the offset of the last valid byte. -/
structure TableReg where
  base : Word64
  limit : Word16
  deriving DecidableEq, Repr

/-- `LDTR` (10_state.md R29). -/
structure LdtReg where
  sel : Word16
  base : Word64
  limit : Word32
  deriving DecidableEq, Repr

/-- The format of the current TSS outside IA-32e mode; in IA-32e mode it is the 64-bit one
(10_state.md R30). -/
inductive TssFormat where
  | tss16
  | tss32
  deriving DecidableEq, Repr

/-- The task register, which names the current TSS (10_state.md R30). -/
structure TaskReg where
  sel : Word16
  base : Word64
  limit : Word32
  format : TssFormat
  deriving DecidableEq, Repr

/-- The general registers other than the stack pointer: a frame no rule touches (10_state.md R17). -/
structure GeneralRegs where
  rax : Word64
  rbx : Word64
  rcx : Word64
  rdx : Word64
  rbp : Word64
  rsi : Word64
  rdi : Word64
  r8 : Word64
  r9 : Word64
  r10 : Word64
  r11 : Word64
  r12 : Word64
  r13 : Word64
  r14 : Word64
  r15 : Word64
  deriving DecidableEq, Repr

/-- The control bits of `CR0` that the rules read: protection enable (10_state.md R25), alignment
mask (20_memory.md R55), paging (20_memory.md R57). -/
structure Cr0 where
  pe : Bool
  am : Bool
  pg : Bool
  deriving DecidableEq, Repr

/-- The control bits of `CR4` that the rules read: virtual-8086 mode extensions (10_state.md R26),
CET (42_delivery_frames.md R200). -/
structure Cr4 where
  vme : Bool
  cet : Bool
  deriving DecidableEq, Repr

/-- What an admitted range of physical addresses is (20_memory.md R56, R71). -/
inductive RegionKind where
  /-- Plain memory, which only this processor writes. -/
  | ram
  /-- Memory that other agents can write: what it holds is answered by an oracle (R72). -/
  | shared
  /-- Device memory; delivery with a table or stack there is refused (R56). -/
  | device
  deriving DecidableEq, Repr

/-- An admitted range: `size` bytes from `base` (20_memory.md R71). -/
structure Region where
  base : Nat
  size : Nat
  kind : RegionKind
  deriving DecidableEq, Repr

/-- An event the outside world has made pending (60_exceptions.md R235). -/
inductive ExternalEvent where
  /-- A maskable external interrupt, with its vector. -/
  | interrupt (vector : BitVec 8)
  /-- A nonmaskable interrupt. -/
  | nmi
  deriving DecidableEq, Repr

/-- The state of the machine. INVENTORY.md lists the rule that names each field. -/
structure State where
  cfg : Config
  rip : Word64
  rsp : Word64
  gprs : GeneralRegs
  eflags : Word32
  cs : SegReg
  ss : SegReg
  ds : SegReg
  es : SegReg
  fs : SegReg
  gs : SegReg
  cpl : BitVec 2
  cr0 : Cr0
  cr4 : Cr4
  /-- `IA32_EFER.LMA` (R27). -/
  lma : Bool
  idtr : TableReg
  gdtr : TableReg
  ldtr : LdtReg
  tr : TaskReg
  dr6 : Word64
  /-- The faulting-address register of a page fault (93 U7). -/
  faultAddr : Word64
  ssp : Word64
  pl0Ssp : Word64
  pl1Ssp : Word64
  pl2Ssp : Word64
  pl3Ssp : Word64
  /-- `IA32_INTERRUPT_SSP_TABLE_ADDR` (R34). -/
  intSspTable : Word64
  sCet : Word64
  uCet : Word64
  mem : Memory
  /-- The admitted addresses (20_memory.md R71). -/
  regions : List Region
  /-- Events made pending from outside, oldest first (60_exceptions.md R235). -/
  pending : List ExternalEvent
  /-- The number under which free values are drawn: the model's own field (log 5). -/
  draws : Nat
  deriving DecidableEq, Repr

/-- The exceptions the entry names (60_exceptions.md R220). -/
inductive ExcName where
  | db
  | bp
  | of
  | ud
  | ts
  | np
  | ss
  | gp
  | pf
  | ac
  deriving DecidableEq, Repr

/-- The reasons the machine stops with a fault. -/
inductive Fault where
  /-- A check failed while a nested exception was being delivered; the source has no rule for it
  (60_exceptions.md R243, 93 U16). Raised by `raiseException`. Safe: the run ends. -/
  | nestedDeliveryFailed (first second : ExcName)
  /-- A fetch or a delivery touched a physical address outside the admitted set (20_memory.md R71).
  Raised by `resolve`. Safe: the run ends. -/
  | addressNotAdmitted (address : Nat)
  deriving DecidableEq, Repr

/-- The reasons the model refuses to give a step. -/
inductive Refusal where
  /-- No meaning for the instruction yet; raised by no arm of `exec`. Safe. -/
  | notModelled (mnemonic : String)
  /-- The byte at an opcode's place is outside the entry (30_encoding.md R86, R88). Raised by
  `fetchFrom`. Safe. -/
  | outsideSpec (b : Byte)
  /-- The instruction's bytes straddle the code-segment limit or the top of the address space
  (10_state.md R15, 93 U13). Raised by `fetchByte`. Safe. -/
  | straddlesLimit
  /-- `SWITCH-TASKS` is reached, which no source defines: the spec's `TaskSwitchNotModelled`
  (41_delivery_gates.md R147, 93 U15). Raised by `taskGate`. Safe. -/
  | taskSwitch
  /-- Hardware debug takes `INT1` (40_int_instructions.md R116, 93 U5). Raised by `execInt1`. Safe. -/
  | int1HardwareDebug
  /-- The pushes would wrap the stack pointer through 0 (20_memory.md R62, 93 U12). Raised by
  `stackRoom`. Safe. -/
  | stackWrap
  /-- The launch state breaks the mode invariants of 10_state.md R37, or R21 in real-address or
  virtual-8086 mode. Raised by `step`. Safe. -/
  | illegalModes
  /-- A fetch, a table or a stack lies in device memory (20_memory.md R56). Raised by `resolve`.
  Safe. -/
  | deviceMemory (address : Nat)
  /-- The end-branch tracker waits, and what it obliges the next instruction to be is not in the
  source (93 U8, 42_delivery_frames.md R212). Raised by `step`. Safe. -/
  | endbranchPending
  deriving DecidableEq, Repr

/-- What a memory access is for (20_memory.md R57). -/
inductive AccessOp where
  | read
  | write
  | fetch
  | shadowRead
  | shadowWrite
  deriving DecidableEq, Repr

/-- The kind of an access, as translation sees it (20_memory.md R57). -/
structure Access where
  op : AccessOp
  supervisor : Bool
  deriving DecidableEq, Repr

/-- The answer of the translation: a physical address, or a page fault with its fault code and
faulting address (20_memory.md R57, 93 U7). -/
inductive Translation where
  | physical (address : Word64)
  | pageFault (code : Word32) (address : Word64)
  deriving DecidableEq, Repr, Inhabited

/-- What an enabling predicate of CET can depend on beside the level: the control bits, the mode and the
two CET registers (42_delivery_frames.md R200, log 17). -/
structure CetControl where
  cr0 : Cr0
  cr4 : Cr4
  lma : Bool
  vm : Bool
  sCet : Word64
  uCet : Word64
  deriving DecidableEq, Repr

end Sys2Proof.Machine

namespace Sys2Proof

/-- `Translate(state, la, width, kind)`: where the byte at linear address `la`, one of an access of
`width` bytes, lies when paging is on; uninterpreted (20_memory.md R57). -/
opaque Config.translate :
  Machine.State → Word64 → Nat → Machine.Access → Machine.Translation

/-- The hidden part a segment register holds after it is loaded with a NULL selector: any value (93
U9, U20). The argument is the number of the draw. -/
opaque Config.hiddenPart : Nat → Machine.Hidden

/-- `ShadowStackEnabled` where it is not the usual predicate: any one (00_scope.md R5, 42 R200). -/
opaque Config.otherShadowStackEnabled : Machine.CetControl → BitVec 2 → Bool

/-- `EndbranchEnabled` where it is not the usual predicate: any one (00_scope.md R5, 42 R200). -/
opaque Config.otherEndbranchEnabled : Machine.CetControl → BitVec 2 → Bool

end Sys2Proof

namespace Sys2Proof.Machine

/-- The hidden part of every segment register after reset, but for the base of `CS` (10_state.md R38,
log 1). -/
def Hidden.afterReset : Hidden :=
  { base := 0#64, limit := 0xFFFF#32, s := true, typ := 0b0011#4, dpl := 0#2, present := true,
    l := false, db := false }

/-- The state after power-up or reset. The source gives `idtr.base` (70_reset_and_hazards.md R270);
every other value is the family's (10_state.md R38, log 1) or the model's (logs 2, 3, 10, 15, 22,
27). -/
def State.reset : State :=
  { cfg :=
      { linearWidth := 48, hasIa32e := true, hasVme := true, hasCetSs := true, hasCetIbt := true,
        int1HwDebug := false, v86IvtBase := 0#64, redirectionMap := .belowIoMap 102,
        shadowStackRule := .usual, endbranchRule := .usual }
    rip := 0xFFF0#64
    rsp := 0#64
    gprs :=
      { rax := 0#64, rbx := 0#64, rcx := 0#64, rdx := 0#64, rbp := 0#64, rsi := 0#64, rdi := 0#64,
        r8 := 0#64, r9 := 0#64, r10 := 0#64, r11 := 0#64, r12 := 0#64, r13 := 0#64, r14 := 0#64,
        r15 := 0#64 }
    eflags := 2#32
    cs := { sel := 0xF000#16, hid := { Hidden.afterReset with base := 0xFFFF0000#64 } }
    ss := { sel := 0#16, hid := Hidden.afterReset }
    ds := { sel := 0#16, hid := Hidden.afterReset }
    es := { sel := 0#16, hid := Hidden.afterReset }
    fs := { sel := 0#16, hid := Hidden.afterReset }
    gs := { sel := 0#16, hid := Hidden.afterReset }
    cpl := 0#2
    cr0 := { pe := false, am := false, pg := false }
    cr4 := { vme := false, cet := false }
    lma := false
    idtr := { base := 0#64, limit := 0xFFFF#16 }
    gdtr := { base := 0#64, limit := 0xFFFF#16 }
    ldtr := { sel := 0#16, base := 0#64, limit := 0xFFFF#32 }
    tr := { sel := 0#16, base := 0#64, limit := 0xFFFF#32, format := .tss32 }
    dr6 := 0xFFFF0FF0#64
    faultAddr := 0#64
    ssp := 0#64
    pl0Ssp := 0#64
    pl1Ssp := 0#64
    pl2Ssp := 0#64
    pl3Ssp := 0#64
    intSspTable := 0#64
    sCet := 0#64
    uCet := 0#64
    mem := []
    regions := [{ base := 0, size := 2 ^ 64, kind := .ram }]
    pending := []
    draws := 0 }

end Sys2Proof.Machine
end

