-- ==== Sys2Proof/Machine/Registers.lean ====
section
/-! DEFINITION. The named updates of the state and the reads of registers by their partial names.
Laws/State.lean has one lemma per field for each update. -/

namespace Sys2Proof.Machine

/-- Memory replaced. -/
def State.setMem (s : State) (m : Memory) : State := { s with mem := m }

/-- The counter of free values replaced. -/
def State.setDraws (s : State) (n : Nat) : State := { s with draws := n }

/-- The state in which the free values of one more step are drawn. -/
def State.tick (s : State) : State := s.setDraws (s.draws + 1)

/-- `RIP` written whole (10_state.md R14). -/
def State.setRip (s : State) (v : Word64) : State := { s with rip := v }

/-- `RSP` written whole (10_state.md R16). -/
def State.setRsp (s : State) (v : Word64) : State := { s with rsp := v }

/-- `EFLAGS` written whole (10_state.md R18). -/
def State.setFlags (s : State) (v : Word32) : State := { s with eflags := v }

/-- `CS`, selector and hidden part (10_state.md R22). -/
def State.setCs (s : State) (r : SegReg) : State := { s with cs := r }

/-- `SS`, selector and hidden part (10_state.md R23). -/
def State.setSs (s : State) (r : SegReg) : State := { s with ss := r }

/-- The four data segment registers (10_state.md R24). -/
def State.setData (s : State) (ds es fs gs : SegReg) : State :=
  { s with ds := ds, es := es, fs := fs, gs := gs }

/-- `CPL` (10_state.md R22). -/
def State.setCpl (s : State) (v : BitVec 2) : State := { s with cpl := v }

/-- `SSP` (10_state.md R32). -/
def State.setSsp (s : State) (v : Word64) : State := { s with ssp := v }

/-- `IA32_PL3_SSP`, the only one of the four that delivery writes (10_state.md R33). -/
def State.setPl3Ssp (s : State) (v : Word64) : State := { s with pl3Ssp := v }

/-- `IA32_S_CET` (10_state.md R35). -/
def State.setSCet (s : State) (v : Word64) : State := { s with sCet := v }

/-- `IA32_U_CET` (10_state.md R35). -/
def State.setUCet (s : State) (v : Word64) : State := { s with uCet := v }

/-- The faulting-address register (93_implementation_defined.md U7). -/
def State.setFaultAddr (s : State) (v : Word64) : State := { s with faultAddr := v }

/-- The events still pending (60_exceptions.md R235). -/
def State.setPending (s : State) (l : List ExternalEvent) : State := { s with pending := l }

/-- The low 32 bits, zero-extended: a linear address outside 64-bit mode (20_memory.md R51). -/
def low32 (v : Word64) : Word64 := (v.setWidth 32).setWidth 64

/-- The low 16 bits, zero-extended. -/
def low16 (v : Word64) : Word64 := (v.setWidth 16).setWidth 64

/-- `v` with its low 16 bits replaced: a write of `SP`. -/
def putLow16 (v : Word64) (x : Word16) : Word64 := v.extractLsb' 16 48 ++ x

/-- `v` with its low 32 bits replaced: a write of `ESP`. -/
def putLow32 (v : Word64) (x : Word32) : Word64 := v.extractLsb' 32 32 ++ x

/-- The shadow-stack pointer to load on entry to a privilege level, `IA32_PLi_SSP` (10_state.md
R33). -/
def State.plSsp (s : State) (d : BitVec 2) : Word64 :=
  if d = 0#2 then s.pl0Ssp else if d = 1#2 then s.pl1Ssp else if d = 2#2 then s.pl2Ssp else s.pl3Ssp

/-- The operating modes (00_scope.md R2). -/
inductive Mode where
  | realAddress
  | protectedMode
  | virtual8086
  | compatibility
  | bits64
  deriving DecidableEq, Repr

end Sys2Proof.Machine
end

