-- ==== Sys2Proof/Machine/Flags.lean ====
section
/-! DEFINITION. The flags: where each stands in EFLAGS (10_state.md R18) and every flag computation
of the entry (R19). -/

namespace Sys2Proof.Machine

/-- `TF`, trap flag. -/
def tfBit : Nat := 8
/-- `IF`, interrupt flag. -/
def ifBit : Nat := 9
/-- `OF`, overflow flag. -/
def ofBit : Nat := 11
/-- `IOPL`, two bits from here. -/
def ioplBit : Nat := 12
/-- `NT`, nested task. -/
def ntBit : Nat := 14
/-- `RF`, resume flag. -/
def rfBit : Nat := 16
/-- `VM`, virtual-8086 mode. -/
def vmBit : Nat := 17
/-- `AC`, alignment check. -/
def acBit : Nat := 18
/-- `VIF`, virtual interrupt flag. -/
def vifBit : Nat := 19

/-- A flag image with one bit cleared. -/
def clearBit (f : Word32) (i : Nat) : Word32 := f &&& ~~~(1#32 <<< i)

/-- `EFLAGS.OF`. -/
def State.overflow (s : State) : Bool := s.eflags.getLsbD ofBit
/-- `EFLAGS.IF`. -/
def State.interruptFlag (s : State) : Bool := s.eflags.getLsbD ifBit
/-- `EFLAGS.VM`. -/
def State.vm (s : State) : Bool := s.eflags.getLsbD vmBit
/-- `EFLAGS.AC`. -/
def State.ac (s : State) : Bool := s.eflags.getLsbD acBit
/-- `EFLAGS.VIF`. -/
def State.vif (s : State) : Bool := s.eflags.getLsbD vifBit
/-- `EFLAGS.IOPL`. -/
def State.iopl (s : State) : BitVec 2 := s.eflags.extractLsb' ioplBit 2

/-- The clears of real-address mode: `IF`, `TF`, `AC` (41_delivery_gates.md R132). -/
def realFlags (f : Word32) : Word32 := clearBit (clearBit (clearBit f ifBit) tfBit) acBit

/-- The clears of a delivery through a gate: `TF`, `VM`, `RF`, `NT`, and `IF` unless it is a trap
gate (42_delivery_frames.md R184, R190, R199). -/
def gateFlags (trap : Bool) (f : Word32) : Word32 :=
  let g := clearBit (clearBit (clearBit (clearBit f tfBit) vmBit) rfBit) ntBit
  if trap then g else clearBit g ifBit

/-- The clears of a VME redirection: `TF`, and `IF` when `IOPL = 3`, else `VIF`
(40_int_instructions.md R110). -/
def redirectFlags (iopl : BitVec 2) (f : Word32) : Word32 :=
  clearBit (clearBit f (if iopl = 3#2 then ifBit else vifBit)) tfBit

/-- The image a VME redirection pushes: `EFLAGS[15:0]`, and when `IOPL < 3` with `VIF` in the place
of `IF` and 3 in the place of `IOPL` (40_int_instructions.md R110). -/
def redirectImage (f : Word32) : Word16 :=
  let low := f.setWidth 16
  if f.extractLsb' ioplBit 2 = 3#2 then low
  else
    let cleared := low &&& ~~~(1#16 <<< ifBit)
    let withVif := if f.getLsbD vifBit then cleared ||| (1#16 <<< ifBit) else cleared
    withVif ||| (3#16 <<< ioplBit)

end Sys2Proof.Machine
end

