-- ==== Sys2Proof/Machine/Memory.lean ====
section
/-! DEFINITION. Bytes of physical memory: reading, writing, the canonical form, and the memory an
abandoned delivery leaves. -/

namespace Sys2Proof.Machine

/-- What an address that memory does not list reads as. DESIGN CHOICE (log 3): the spec gives no
power-on contents. -/
def Memory.background : Byte := 0#8

/-- The byte at a physical address. -/
def Memory.read : Memory → Nat → Byte
  | [], _ => Memory.background
  | (k, b) :: m, a => if k = a then b else Memory.read m a

/-- Memory with the byte at a physical address replaced, in canonical form. -/
def Memory.write : Memory → Nat → Byte → Memory
  | [], a, v => if v = Memory.background then [] else [(a, v)]
  | (k, b) :: m, a, v =>
    if a < k then
      if v = Memory.background then (k, b) :: m else (a, v) :: (k, b) :: m
    else if a = k then
      if v = Memory.background then m else (a, v) :: m
    else (k, b) :: Memory.write m a v

/-- Every listed address is at least `lo` and below 2^64, the addresses rise strictly, and no entry
equals what an unlisted address reads as. -/
def Memory.wfFrom : Nat → Memory → Bool
  | _, [] => true
  | lo, (k, b) :: m =>
    decide (lo ≤ k) && decide (k < 2 ^ 64) && decide (b ≠ Memory.background) &&
      Memory.wfFrom (k + 1) m

/-- The canonical form of memory: equal memories are equal lists. -/
def Memory.wf (m : Memory) : Bool := Memory.wfFrom 0 m

/-- The listed addresses at which two memories differ. -/
def Memory.differing (old new : Memory) : List Nat :=
  ((old ++ new).map (·.1)).filter fun a => decide (new.read a ≠ old.read a)

/-- `old` with the bytes of `new` at those differing addresses that `pick` selects: what memory may
hold after an abandoned delivery (60_exceptions.md R241). -/
def Memory.blend (pick : Nat → Bool) (old new : Memory) : Memory :=
  (Memory.differing old new).foldl (fun m a => if pick a then m.write a (new.read a) else m) old

end Sys2Proof.Machine
end

