-- ==== Sys2Proof/Machine/Access.lean ====
section
/-! DEFINITION. Accesses to memory by linear address: translation, admitted addresses, loads and
stores (20_memory.md R50 to R58, 00_scope.md R9), and what can stop a delivery (00_scope.md R8). -/

namespace Sys2Proof.Machine

/-- An exception with its error code, when it has one, and for a page fault the faulting address
(60_exceptions.md R220, R226). -/
structure Exc where
  name : ExcName
  code : Option Word32
  addr : Option Word64
  deriving DecidableEq, Repr

/-- What ends a delivery before its end. `raise` is `#XX(e)` (00_scope.md R8); `dirty` is the state
at that moment, whose memory holds the writes made so far (60_exceptions.md R241). -/
inductive Stop where
  | raise (x : Exc) (dirty : State)
  | fault (f : Fault)
  | refuse (r : Refusal)
  deriving DecidableEq, Repr

/-- A computation that may stop. -/
abbrev Run (α : Type) := Except Stop α

/-- A check of a procedure: when it fails the procedure stops at once (41_delivery_gates.md R130). -/
def require (c : Bool) (st : Stop) : Run Unit := if c then .ok () else .error st

/-- `raise XX(code)`. -/
def raiseCode (n : ExcName) (code : Word32) (s : State) : Stop := .raise ⟨n, some code, none⟩ s

/-- The error code `EXT` (60_exceptions.md R226). -/
def extCode (ext : Bool) : Word32 := if ext then 1#32 else 0#32

/-- `raise XX` without an error code. -/
def raisePlain (n : ExcName) (s : State) : Stop := .raise ⟨n, none, none⟩ s

/-- 64-bit mode: `IA32_EFER.LMA = 1` and `CS.L = 1` (00_scope.md R2). -/
def State.mode64 (s : State) : Bool := s.lma && s.cs.hid.l

/-- The operating mode (00_scope.md R2). -/
def State.mode (s : State) : Mode :=
  if s.cr0.pe then
    if s.lma then (if s.cs.hid.l then .bits64 else .compatibility)
    else if s.vm then .virtual8086 else .protectedMode
  else .realAddress

/-- Paging is on (20_memory.md R57); never in real-address mode, whose exception list has no `#PF`
(60_exceptions.md R228). -/
def State.pagingOn (s : State) : Bool := s.cr0.pe && s.cr0.pg

/-- The admitted range a physical address lies in (20_memory.md R71). -/
def State.regionAt (s : State) (p : Nat) : Option RegionKind :=
  (s.regions.find? fun r => decide (r.base ≤ p) && decide (p < r.base + r.size)).map (·.kind)

/-- The translation of one byte's linear address: the identity with paging off (20_memory.md R57). -/
def State.translate (s : State) (la : Word64) (w : Nat) (k : Access) : Translation :=
  if s.pagingOn then Config.translate s la w k else .physical la

/-- The physical address of the byte at linear address `la`, one byte of an access of `w` bytes
(20_memory.md R56, R57, R71). -/
def resolve (s : State) (la : Word64) (w : Nat) (k : Access) : Run Nat :=
  match s.translate la w k with
  | .pageFault code address => .error (.raise ⟨.pf, some code, some address⟩ s)
  | .physical p =>
    match s.regionAt p.toNat with
    | some .ram => .ok p.toNat
    | some .shared => .ok p.toNat
    | some .device => .error (.refuse (.deviceMemory p.toNat))
    | none => .error (.fault (.addressNotAdmitted p.toNat))

/-- Linear address of byte `i` of an access at `la`: 64 bits in IA-32e mode, 32 bits outside it
(20_memory.md R50, R51). -/
def State.byteAddr (s : State) (la : Word64) (i : Nat) : Word64 :=
  if s.lma then la + BitVec.ofNat 64 i else low32 (la + BitVec.ofNat 64 i)

/-- The byte read at linear address `la`, which lies at physical address `p`: what this processor
wrote or was given there, but the oracle's answer where other agents can write (20_memory.md R72). -/
def State.readByte (s : State) (u : ReadUse) (la : Word64) (p : Nat) : Byte :=
  if s.regionAt p = some .shared then Config.agentByte s.draws u la else s.mem.read p

/-- Bytes `i` to `i + n - 1` of an access of width `w` at `la`, the first the least significant
(20_memory.md R52). -/
def loadFrom (s : State) (u : ReadUse) (k : Access) (w : Nat) (la : Word64) : Nat → Nat → Run Word64
  | _, 0 => .ok 0#64
  | i, n + 1 => do
    let p ← resolve s (s.byteAddr la i) w k
    let rest ← loadFrom s u k w la (i + 1) n
    .ok ((rest <<< 8) ||| (s.readByte u (s.byteAddr la i) p).setWidth 64)

/-- The reasons why bytes `i` to `i + n - 1` of an access do not resolve, one for each that does not. -/
def failures (s : State) (k : Access) (w : Nat) (la : Word64) : Nat → Nat → List Stop
  | _, 0 => []
  | i, n + 1 =>
    match resolve s (s.byteAddr la i) w k with
    | .ok _ => failures s k w la (i + 1) n
    | .error st => st :: failures s k w la (i + 1) n

/-- The failure an access reports: its only one, or that of any failing byte, since the bytes are
accessed in any order (20_memory.md R56, 93 U11; log 6). -/
def State.reported (s : State) (la : Word64) (st : Stop) (sts : List Stop) : Stop :=
  if sts.isEmpty then st
  else (st :: sts).getD (Config.firstFailure s.draws la % (sts.length + 1)) st

/-- `MemRead(la, w)` (00_scope.md R9). -/
def load (s : State) (u : ReadUse) (k : Access) (w : Nat) (la : Word64) : Run Word64 :=
  match failures s k w la 0 w with
  | [] => loadFrom s u k w la 0 w
  | st :: sts => .error (s.reported la st sts)

/-- Byte `i` of a value, counted from the least significant. -/
def byteOf (v : Word64) (i : Nat) : Byte := v.extractLsb' (8 * i) 8

/-- Write bytes `i` to `i + n - 1` of `v` into `m`, leaving out those whose address does not
resolve. -/
def storeFrom (s : State) (k : Access) (w : Nat) (la : Word64) (v : Word64) :
    Nat → Nat → Memory → Memory
  | _, 0, m => m
  | i, n + 1, m =>
    match resolve s (s.byteAddr la i) w k with
    | .ok p => storeFrom s k w la v (i + 1) n (m.write p (byteOf v i))
    | .error _ => storeFrom s k w la v (i + 1) n m

/-- The same stop with another state of memory. -/
def Stop.withDirty (d : State) : Stop → Stop
  | .raise x _ => .raise x d
  | .fault f => .fault f
  | .refuse r => .refuse r

/-- `MemWrite(la, w, v)` (00_scope.md R9). When a byte does not resolve the access stops; an aligned
access has then written nothing, a misaligned one any of its other bytes (20_memory.md R56). -/
def store (s : State) (k : Access) (w : Nat) (la : Word64) (v : Word64) : Run State :=
  let m := storeFrom s k w la v 0 w s.mem
  match failures s k w la 0 w with
  | [] => .ok (s.setMem m)
  | st :: sts =>
    .error ((s.reported la st sts).withDirty (if la.toNat % w = 0 then s else s.setMem m))

/-- A read with supervisor privilege, as delivery reads its tables (20_memory.md R57). -/
def tableRead : Access := ⟨.read, true⟩

/-- `LA_adjust`: bits 63 down to `N` get the value of bit `N - 1` (20_memory.md R58). -/
def laAdjust (n : Nat) (a : Word64) : Word64 :=
  if a.getLsbD (n - 1) then a ||| (BitVec.allOnes 64 <<< n) else a &&& ~~~(BitVec.allOnes 64 <<< n)

/-- The address is canonical (20_memory.md R58). -/
def State.canonical (s : State) (a : Word64) : Bool := decide (laAdjust s.cfg.linearWidth a = a)

/-- All `n` bytes from `a` on are canonical. -/
def State.canonicalBytes (s : State) (a : Word64) (n : Nat) : Bool :=
  (List.range n).all fun i => s.canonical (a + BitVec.ofNat 64 i)

end Sys2Proof.Machine
end

