-- ==== Sys2Proof/Machine/Cet.lean ====
section
/-! DEFINITION. Control-flow enforcement: the enabling predicates, shadow-stack primitives, the
supervisor token, end-branch arming (42_delivery_frames.md R200 to R212). -/

namespace Sys2Proof.Machine

/-- The CET register of a privilege level: `IA32_U_CET` at level 3, else `IA32_S_CET` (R200). -/
def State.cetReg (s : State) (p : BitVec 2) : Word64 := if p = 3#2 then s.uCet else s.sCet

/-- What the parameters `ShadowStackEnabled` and `EndbranchEnabled` read (R200, log 17). -/
def State.cetControl (s : State) : CetControl := ⟨s.cr0, s.cr4, s.lma, s.vm, s.sCet, s.uCet⟩

/-- What both usual predicates of R200 need: `CR4.CET = 1`, `CR0.PE = 1`, `EFLAGS.VM = 0`. -/
def State.cetOn (s : State) : Bool := s.cr4.cet && s.cr0.pe && !s.vm

/-- `ShadowStackEnabled(p)`, a parameter; usually with `SH_STK_EN`, bit 0 (R200, 00_scope.md R5). -/
def State.shadowStackEnabled (s : State) (p : BitVec 2) : Bool :=
  s.cfg.hasCetSs &&
    match s.cfg.shadowStackRule with
    | .usual => s.cetOn && (s.cetReg p).getLsbD 0
    | .other => Config.otherShadowStackEnabled s.cetControl p

/-- `EndbranchEnabled(p)`, a parameter; usually with `ENDBR_EN`, bit 2 (R200, 00_scope.md R5). -/
def State.endbranchEnabled (s : State) (p : BitVec 2) : Bool :=
  s.cfg.hasCetIbt &&
    match s.cfg.endbranchRule with
    | .usual => s.cetOn && (s.cetReg p).getLsbD 2
    | .other => Config.otherEndbranchEnabled s.cetControl p

/-- `TRACKER`, 1 being `WAIT_FOR_ENDBRANCH` (10_state.md R35). -/
def trackerBit : Nat := 11

/-- `SUPPRESS` (10_state.md R35). -/
def suppressBit : Nat := 10

/-- A CET register with `TRACKER = WAIT_FOR_ENDBRANCH` and `SUPPRESS = 0`. -/
def armed (v : Word64) : Word64 := (v ||| (1#64 <<< trackerBit)) &&& ~~~(1#64 <<< suppressBit)

/-- End-branch arming at the level arrived at (R211, R212). -/
def armEndbranch (s : State) : State :=
  if s.endbranchEnabled s.cpl then
    if s.cpl = 3#2 then s.setUCet (armed s.uCet) else s.setSCet (armed s.sCet)
  else s

/-- A shadow-stack access, made with the privilege of the `CPL` in force. So are all of them: the three
pushes, the read and the write of the token's compare-exchange, the 4-byte alignment store. At `CPL` 3,
as in an intra-privilege delivery there with or without an IST, they are user accesses, elsewhere
supervisor accesses. 20_memory.md R57 leaves open which accesses are supervisor ones and settles only the
table reads and the inter-privilege pushes: DESIGN CHOICE, unsafe (log 7). -/
def State.shadowAccess (s : State) (op : AccessOp) : Access := ⟨op, decide (s.cpl ≠ 3#2)⟩

/-- `ShadowStackPush8B(v)` (R203). -/
def shadowPush (v : Word64) (s : State) : Run State :=
  let t := s.setSsp (s.ssp - 8#64)
  store t (t.shadowAccess .shadowWrite) 8 t.ssp v

/-- `shadow_stack_lock_cmpxchg8b(addr, new, expected)`: answers the old value; writes only when it is
the expected one (R204). The read has the kind of a shadow-stack read, and only the write that a match
makes has that of a shadow-stack write, which is the model's choice (log 17). -/
def shadowCmpxchg8b (a new expected : Word64) (s : State) : Run (Word64 × State) := do
  let old ← load s .token (s.shadowAccess .shadowRead) 8 a
  if old = expected then do
    let t ← store s (s.shadowAccess .shadowWrite) 8 a new
    .ok (old, t)
  else .ok (old, s)

/-- The tests of a candidate shadow-stack pointer that come before its token is read (R206). -/
def State.shadowPointerOk (s : State) (p : Word64) : Bool :=
  decide (p &&& 7#64 = 0#64) &&
    decide (p &&& ~~~31#64 = (p - 24#64) &&& ~~~31#64) &&
    (s.mode64 || decide (p >>> 32 = 0#64))

/-- `VerifyAndBusyToken(p)`: every failure is `#GP(0)` (R206, R207). `CS` is the new one already. -/
def verifyAndBusyToken (p : Word64) (s : State) : Run State := do
  require (s.shadowPointerOk p) (raiseCode .gp 0#32 s)
  let r ← shadowCmpxchg8b p (p ||| 1#64) p s
  require (decide (r.1 = p)) (raiseCode .gp 0#32 s)
  .ok r.2

/-- The linear instruction pointer, `CS` base plus instruction pointer: the offset itself in 64-bit
mode, 32 bits elsewhere (20_memory.md R51). -/
def State.lip (s : State) : Word64 := if s.mode64 then s.rip else low32 (s.cs.hid.base + s.rip)

/-- The three pushes that link the old shadow stack: old `CS`, old linear instruction pointer, old
`SSP` (R208, R210). -/
def shadowLink (old : State) (oldSsp : Word64) (s : State) : Run State := do
  let t ← shadowPush (old.cs.sel.setWidth 64) s
  let u ← shadowPush old.lip t
  shadowPush oldSsp u

/-- The shadow-stack switch of an inter-privilege delivery, with the new `CPL`; `old` is the state
`Deliver` was entered with (R208). -/
def shadowSwitch (old : State) (newSsp : Word64) (s : State) : Run State :=
  if s.shadowStackEnabled s.cpl then do
    let t ← verifyAndBusyToken newSsp (s.setSsp newSsp)
    if old.ss.hid.dpl = 3#2 then .ok t else shadowLink old s.ssp t
  else .ok s

/-- The shadow-stack switch of a delivery from virtual-8086 mode (R209). -/
def shadowSwitchV86 (newSsp : Word64) (s : State) : Run State :=
  if s.shadowStackEnabled 0#2 then verifyAndBusyToken newSsp (s.setSsp newSsp) else .ok s

/-- The token is verified when `CHECK_SS_TOKEN` is set (R210). -/
def verifyIf (checkToken : Bool) (p : Word64) (s : State) : Run State :=
  if checkToken then verifyAndBusyToken p s else .ok s

/-- The shadow-stack steps of an intra-privilege delivery; `checkToken` is `CHECK_SS_TOKEN` (R210). -/
def shadowIntra (old : State) (newSsp : Word64) (checkToken : Bool) (s : State) : Run State :=
  if s.shadowStackEnabled s.cpl then do
    let t ← verifyIf checkToken newSsp s
    let u ← store t (t.shadowAccess .shadowWrite) 4 (newSsp - 4#64) 0#64
    shadowLink old t.ssp (u.setSsp (newSsp &&& ~~~7#64))
  else .ok s

/-- The shadow-stack pointer a gate's IST selects: entry `ist` of the table at
`IA32_INTERRUPT_SSP_TABLE_ADDR` (20_memory.md R70). -/
def istShadowPointer (s : State) (ist : BitVec 3) : Run Word64 :=
  load s .shadowTable tableRead 8 (s.intSspTable + BitVec.ofNat 64 (ist.toNat * 8))

end Sys2Proof.Machine
end

