-- ==== Sys2Proof/Machine/Descriptors.lean ====
section
/-! DEFINITION. Selectors, segment descriptors and gates as they lie in memory (20_memory.md R63 to
R68, adopted by 92 D22). -/

namespace Sys2Proof.Machine

/-- The requested privilege level, bits 1:0 (R67). -/
def selRpl (sel : Word16) : BitVec 2 := sel.extractLsb' 0 2

/-- The local/global bit: true names the LDT (R67). -/
def selLocal (sel : Word16) : Bool := sel.getLsbD 2

/-- The index, bits 15:3 (R67). -/
def selIndex (sel : Word16) : Nat := (sel.extractLsb' 3 13).toNat

/-- A NULL selector: bits 15:2 all zero (R67). -/
def selNull (sel : Word16) : Bool := decide (sel.extractLsb' 2 14 = 0#14)

/-- A selector with its RPL replaced: `CS(RPL) := CPL` (42_delivery_frames.md R182). -/
def withRpl (sel : Word16) (rpl : BitVec 2) : Word16 := sel.extractLsb' 2 14 ++ rpl

/-- The fields of an 8-byte segment descriptor (R68). -/
def Hidden.parse (q : Word64) : Hidden :=
  let raw : BitVec 20 := q.extractLsb' 48 4 ++ q.extractLsb' 0 16
  { base := (q.extractLsb' 56 8 ++ q.extractLsb' 16 24).setWidth 64
    limit := if q.getLsbD 55 then (raw.setWidth 32 <<< 12) ||| 0xFFF#32 else raw.setWidth 32
    s := q.getLsbD 44
    typ := q.extractLsb' 40 4
    dpl := q.extractLsb' 45 2
    present := q.getLsbD 47
    l := q.getLsbD 53
    db := q.getLsbD 54 }

/-- A code segment: S = 1, type bit 3 = 1 (R68). -/
def Hidden.isCode (h : Hidden) : Bool := h.s && h.typ.getLsbD 3

/-- The conforming attribute of a code segment (R68). -/
def Hidden.conforming (h : Hidden) : Bool := h.typ.getLsbD 2

/-- A writable data segment: S = 1, type bit 3 = 0, type bit 1 = 1 (R68). -/
def Hidden.isWritableData (h : Hidden) : Bool := h.s && !h.typ.getLsbD 3 && h.typ.getLsbD 1

/-- An available TSS: S = 0, type `0001` or `1001` (R68, 90 C12). -/
def Hidden.isAvailableTss (h : Hidden) : Bool :=
  !h.s && (decide (h.typ = 0b0001#4) || decide (h.typ = 0b1001#4))

/-- The base of the table a selector names (R67). -/
def State.tableBase (s : State) (sel : Word16) : Word64 :=
  if selLocal sel then s.ldtr.base else s.gdtr.base

/-- The limit of the table a selector names (R67). -/
def State.tableLimit (s : State) (sel : Word16) : Nat :=
  if selLocal sel then s.ldtr.limit.toNat else s.gdtr.limit.toNat

/-- The selector is within its descriptor table limits (R67). -/
def State.selInLimits (s : State) (sel : Word16) : Bool :=
  decide (8 * selIndex sel + 7 ≤ s.tableLimit sel)

/-- Linear address of the descriptor a selector names (R67). -/
def State.descriptorAddr (s : State) (sel : Word16) : Word64 :=
  s.tableBase sel + BitVec.ofNat 64 (8 * selIndex sel)

/-- Read the descriptor a selector names (R67, R68). -/
def readDescriptor (s : State) (u : ReadUse) (sel : Word16) : Run Hidden := do
  let q ← load s u tableRead 8 (s.descriptorAddr sel)
  .ok (Hidden.parse q)

/-- The size of a gate (41_delivery_gates.md R155). -/
inductive GateSize where
  | bits16
  | bits32
  | bits64
  deriving DecidableEq, Repr

/-- The push width of a gate's size, in bytes (20_memory.md R60). -/
def GateSize.width : GateSize → Nat
  | .bits16 => 2
  | .bits32 => 4
  | .bits64 => 8

/-- The kinds of gate. -/
inductive GateType where
  | task
  /-- An interrupt gate (`trap` false) or a trap gate (`trap` true). -/
  | procedure (size : GateSize) (trap : Bool)
  deriving DecidableEq, Repr

/-- A gate descriptor (R65, R66). `typ` is `none` when the entry is no gate of the mode. -/
structure Gate where
  typ : Option GateType
  dpl : BitVec 2
  present : Bool
  sel : Word16
  offset : Word64
  ist : BitVec 3
  deriving DecidableEq, Repr

/-- The type field of an 8-byte gate, bits 4:0 of byte 5 (R65). -/
def gateType32 (t : BitVec 5) : Option GateType :=
  if t = 0b00101#5 then some .task
  else if t = 0b00110#5 then some (.procedure .bits16 false)
  else if t = 0b00111#5 then some (.procedure .bits16 true)
  else if t = 0b01110#5 then some (.procedure .bits32 false)
  else if t = 0b01111#5 then some (.procedure .bits32 true)
  else none

/-- The type field of a 16-byte gate (R66). -/
def gateType64 (t : BitVec 5) : Option GateType :=
  if t = 0b01110#5 then some (.procedure .bits64 false)
  else if t = 0b01111#5 then some (.procedure .bits64 true)
  else none

/-- The offset of an 8-byte gate at the gate's width, zero-extended (R65, 42_delivery_frames.md
R178). -/
def gateOffset32 (q : Word64) : Option GateType → Word64
  | some (.procedure .bits32 _) => (q.extractLsb' 48 16 ++ q.extractLsb' 0 16).setWidth 64
  | _ => (q.extractLsb' 0 16).setWidth 64

/-- The fields of an 8-byte gate (R65). -/
def Gate.parse32 (q : Word64) : Gate :=
  { typ := gateType32 (q.extractLsb' 40 5)
    dpl := q.extractLsb' 45 2
    present := q.getLsbD 47
    sel := q.extractLsb' 16 16
    offset := gateOffset32 q (gateType32 (q.extractLsb' 40 5))
    ist := 0#3 }

/-- The fields of a 16-byte gate, from its two 8-byte halves (R66). -/
def Gate.parse64 (lo hi : Word64) : Gate :=
  { typ := gateType64 (lo.extractLsb' 40 5)
    dpl := lo.extractLsb' 45 2
    present := lo.getLsbD 47
    sel := lo.extractLsb' 16 16
    offset := hi.extractLsb' 0 32 ++ (lo.extractLsb' 48 16 ++ lo.extractLsb' 0 16)
    ist := lo.extractLsb' 32 3 }

/-- Bytes of one IDT entry: 4 in real-address mode, 8 outside IA-32e mode, 16 in it (R63). -/
def State.idtEntrySize (s : State) : Nat := if !s.cr0.pe then 4 else if s.lma then 16 else 8

/-- The vector's IDT entry is within the IDT limit (R63). -/
def State.idtInLimits (s : State) (vector : Nat) : Bool :=
  decide (s.idtEntrySize * vector + (s.idtEntrySize - 1) ≤ s.idtr.limit.toNat)

/-- Linear address of a vector's IDT entry (R63). -/
def State.idtEntryAddr (s : State) (vector : Nat) : Word64 :=
  s.idtr.base + BitVec.ofNat 64 (s.idtEntrySize * vector)

/-- Read the 8-byte gate of a vector (R65). -/
def readGate32 (s : State) (vector : Nat) : Run Gate := do
  let q ← load s .gate tableRead 8 (s.idtEntryAddr vector)
  .ok (Gate.parse32 q)

/-- Read the 16-byte gate of a vector, as two 8-byte reads (R56, R66). Their order is given nowhere; the
model reads the half at the lower address first (log 38). -/
def readGate64 (s : State) (vector : Nat) : Run Gate := do
  let lo ← load s .gate tableRead 8 (s.idtEntryAddr vector)
  let hi ← load s .gate tableRead 8 (s.idtEntryAddr vector + 8#64)
  .ok (Gate.parse64 lo hi)

/-- The selector and offset of a real-address-mode entry, read as two 2-byte halves, the offset at the
lower address (R53, R64); the selector first, as 41_delivery_gates.md R133 writes it. -/
def readFarPointer (s : State) (la : Word64) : Run (Word16 × Word16) := do
  let sel ← load s .vector tableRead 2 (la + 2#64)
  let off ← load s .vector tableRead 2 la
  .ok (sel.setWidth 16, off.setWidth 16)

end Sys2Proof.Machine
end

