-- ==== Sys2Proof/Machine/Events.lean ====
section
/-! DEFINITION. Events, their vectors and error codes (00_scope.md R10, 60_exceptions.md R220 to
R226). -/

namespace Sys2Proof.Machine

/-- The kind of an event (00_scope.md R10). -/
inductive EventKind where
  | intN
  | int3
  | into
  | int1
  | external
  | nmi
  | exception
  deriving DecidableEq, Repr

/-- What is delivered: a vector, a kind, and an error code or none (00_scope.md R10). -/
structure Event where
  vector : Nat
  kind : EventKind
  code : Option Word32
  deriving DecidableEq, Repr

/-- A software interrupt: `INT n`, `INT3`, `INTO`, not `INT1` (00_scope.md R10). -/
def EventKind.software : EventKind → Bool
  | .intN => true
  | .int3 => true
  | .into => true
  | .int1 => false
  | .external => false
  | .nmi => false
  | .exception => false

/-- `EXT` of an event: 0 for a software interrupt, else 1 (60_exceptions.md R223). -/
def Event.ext (ev : Event) : Bool := !ev.kind.software

/-- The vector of an exception (60_exceptions.md R220). -/
def ExcName.vector : ExcName → Nat
  | .db => 1
  | .bp => 3
  | .of => 4
  | .ud => 6
  | .ts => 10
  | .np => 11
  | .ss => 12
  | .gp => 13
  | .pf => 14
  | .ac => 17

/-- Whether the exception carries an error code (60_exceptions.md R220, R221). -/
def ExcName.hasCode : ExcName → Bool
  | .db => false
  | .bp => false
  | .of => false
  | .ud => false
  | .ts => true
  | .np => true
  | .ss => true
  | .gp => true
  | .pf => true
  | .ac => true

/-- The event that delivers an exception (60_exceptions.md R240). -/
def Exc.event (x : Exc) : Event := ⟨x.name.vector, .exception, x.code⟩

/-- The vector an NMI uses (60_exceptions.md R235). -/
def nmiVector : Nat := 2

/-- The event that delivers what the outside made pending (60_exceptions.md R235). -/
def ExternalEvent.event : ExternalEvent → Event
  | .interrupt vector => ⟨vector.toNat, .external, none⟩
  | .nmi => ⟨nmiVector, .nmi, none⟩

/-- `error_code(num, idt, ext)` (60_exceptions.md R225); the mask is `FFFCH` (90 C18). -/
def errorCode (num : Nat) (idt ext : Bool) : Word32 :=
  if idt then BitVec.ofNat 32 ((num <<< 3) ||| 2) ||| extCode ext
  else BitVec.ofNat 32 (num &&& 0xFFFC) ||| extCode ext

/-- `error_code(vector, 1, EXT)` of an event. -/
def Event.vectorCode (ev : Event) : Word32 := errorCode ev.vector true ev.ext

/-- `error_code(selector, 0, EXT)` of an event. -/
def Event.selectorCode (ev : Event) (sel : Word16) : Word32 := errorCode sel.toNat false ev.ext

/-- The error code `EXT` of an event: it contains a NULL selector. -/
def Event.nullCode (ev : Event) : Word32 := extCode ev.ext

end Sys2Proof.Machine
end

