-- ==== Sys2Proof/Machine/Stack.lean ====
section
/-! DEFINITION. The stack: the width of its pointer, pushes and pops, padding, room, alignment
checking (20_memory.md R55, R59 to R62). -/

namespace Sys2Proof.Machine

/-- Which stack pointer a push uses (20_memory.md R59). -/
inductive PtrWidth where
  | sp
  | esp
  | rsp
  deriving DecidableEq, Repr

/-- Bits of the pointer. -/
def PtrWidth.bits : PtrWidth → Nat
  | .sp => 16
  | .esp => 32
  | .rsp => 64

/-- The pointer of a stack segment outside 64-bit mode: `ESP` when its B attribute is 1, else `SP`
(20_memory.md R59). -/
def Hidden.ptrWidth (h : Hidden) : PtrWidth := if h.db then .esp else .sp

/-- The pointer of a push of `w` bytes (20_memory.md R59): 8-byte pushes are made in IA-32e mode only
and use `RSP`; real-address mode uses `SP`, and so does the virtual-8086 task's own stack
(40_int_instructions.md R110 writes `SS:SP`), whatever its B attribute: DEDUCED, unsafe where that is 1
(log 31). -/
def State.ptrWidth (s : State) (w : Nat) : PtrWidth :=
  if w = 8 then .rsp
  else if !s.cr0.pe || s.vm then .sp
  else s.ss.hid.ptrWidth

/-- A stack-pointer value at a width, zero-extended. -/
def PtrWidth.trunc (p : PtrWidth) (v : Word64) : Word64 :=
  match p with
  | .sp => low16 v
  | .esp => low32 v
  | .rsp => v

/-- `RSP` after its part of a width has been written; the bits above are kept (20_memory.md R59). -/
def PtrWidth.put (p : PtrWidth) (old v : Word64) : Word64 :=
  match p with
  | .sp => putLow16 old (v.setWidth 16)
  | .esp => putLow32 old (v.setWidth 32)
  | .rsp => v

/-- The linear address of the top of the stack for an access through a pointer of a width; with
`RSP` the segment base is not used (20_memory.md R51, R60). -/
def State.stackTop (s : State) (p : PtrWidth) : Word64 :=
  match p with
  | .rsp => s.rsp
  | .sp => low32 (s.ss.hid.base + low16 s.rsp)
  | .esp => low32 (s.ss.hid.base + low32 s.rsp)

/-- What the pushes of one delivery have in common: their width, whether they are supervisor
accesses (20_memory.md R57), whether the selected gate's DPL is 3 (R55), and `EXT` of the event. -/
structure PushCtx where
  width : Nat
  supervisor : Bool
  gateDpl3 : Bool
  ext : Bool
  deriving DecidableEq, Repr

/-- Alignment checking is enabled: `CR0.AM`, `EFLAGS.AC`, `CPL = 3` (20_memory.md R55). -/
def State.alignmentChecked (s : State) : Bool := s.cr0.am && s.ac && decide (s.cpl = 3#2)

/-- The stack pointer lowered by `w` (20_memory.md R60). -/
def State.lowered (s : State) (w : Nat) : State :=
  s.setRsp ((s.ptrWidth w).put s.rsp (s.rsp - BitVec.ofNat 64 w))

/-- `Push_w(v)` (20_memory.md R60), with the alignment check of R55. -/
def push (c : PushCtx) (v : Word64) (s : State) : Run State := do
  let t := s.lowered c.width
  let la := t.stackTop (t.ptrWidth c.width)
  require (!(c.gateDpl3 && s.alignmentChecked && decide (la.toNat % c.width ≠ 0)))
    (raiseCode .ac (extCode c.ext) s)
  store t ⟨.write, c.supervisor⟩ c.width la v

/-- What one slot of a frame holds: a value, or a selector padded to the slot (20_memory.md R61). -/
inductive Slot where
  | word (v : Word64)
  | selector (sel : Word16)
  deriving DecidableEq, Repr

/-- `n` padding bytes, drawn from number `d` on. -/
def padding (d : Nat) : Nat → Word64
  | 0 => 0#64
  | n + 1 => (padding (d + 1) n <<< 8) ||| (Config.padByte d).setWidth 64

/-- How many padding bytes a slot of `w` bytes takes. -/
def Slot.pads (w : Nat) : Slot → Nat
  | .word _ => 0
  | .selector _ => w - 2

/-- The value pushed for a slot of `w` bytes, its padding drawn from number `d` on. -/
def Slot.value (w d : Nat) : Slot → Word64
  | .word v => v
  | .selector sel => (padding d (w - 2) <<< 16) ||| sel.setWidth 64

/-- Push one slot. -/
def pushSlot (c : PushCtx) (x : Slot) (s : State) : Run State :=
  push c (x.value c.width s.draws) (s.setDraws (s.draws + x.pads c.width))

/-- Push slots in order, the first at the highest address. -/
def pushAll (c : PushCtx) : List Slot → State → Run State
  | [], s => .ok s
  | x :: xs, s => do
    let t ← pushSlot c x s
    pushAll c xs t

/-- The segment is an expand-down data segment (20_memory.md R68). -/
def Hidden.expandDown (h : Hidden) : Bool := h.s && !h.typ.getLsbD 3 && h.typ.getLsbD 2

/-- The room predicate once `n ≤ sp` (20_memory.md R62). -/
def Hidden.hasRoom (h : Hidden) (p : PtrWidth) (sp n : Nat) : Bool :=
  if h.expandDown then decide (h.limit.toNat < sp - n) && decide (sp - 1 ≤ 2 ^ p.bits - 1)
  else decide (sp - 1 ≤ h.limit.toNat)

/-- `StackHasRoom(S, sp, n)`, the failure being `noRoom`; the case `sp < n`, in which the pushes
would wrap through 0, is refused (20_memory.md R62). -/
def stackRoom (h : Hidden) (p : PtrWidth) (sp n : Nat) (noRoom : Stop) : Run Unit :=
  if sp < n then .error (.refuse .stackWrap) else require (h.hasRoom p sp n) noRoom

/-- A pop of `w` bytes: what a push wrote, read back, and the pointer raised (60_exceptions.md
R245). -/
def pop (w : Nat) (s : State) : Run (Word64 × State) := do
  let p := s.ptrWidth w
  let v ← load s .pop ⟨.read, decide (s.cpl ≠ 3#2)⟩ w (s.stackTop p)
  .ok (v, s.setRsp (p.put s.rsp (s.rsp + BitVec.ofNat 64 w)))

end Sys2Proof.Machine
end

