-- ==== Sys2Proof/Machine/Frames.lean ====
section
/-! DEFINITION. The three procedures that end a delivery through an interrupt or trap gate
(42_delivery_frames.md R170 to R199). Each takes the event, the target and the state `Deliver` was
entered with, and answers the state at the handler's first instruction or what stopped it. -/

namespace Sys2Proof.Machine

/-- What an interrupt or trap gate leads to: its size and kind, its fields, and the new code-segment
descriptor. -/
structure Target where
  size : GateSize
  trap : Bool
  gate : Gate
  desc : Hidden
  deriving DecidableEq, Repr

/-- The slot of the error code, when the event has one (60_exceptions.md R221). -/
def Event.codeSlots (ev : Event) : List Slot :=
  match ev.code with
  | none => []
  | some c => [.word (c.setWidth 64)]

/-- Bytes of a frame of `slots` slots plus the error code (R176, R188, R195). -/
def frameBytes (t : Target) (slots : Nat) (ev : Event) : Nat :=
  t.size.width * (slots + ev.codeSlots.length)

/-- The pushes of a delivery (20_memory.md R55, R57, R60). -/
def Target.pushCtx (t : Target) (supervisor : Bool) (ev : Event) : PushCtx :=
  ⟨t.size.width, supervisor, decide (t.gate.dpl = 3#2), ev.ext⟩

/-- Flags and return pointer, as every frame has them (40_int_instructions.md R104). -/
def returnSlots (old : State) : List Slot :=
  [.word (old.eflags.setWidth 64), .selector old.cs.sel, .word old.rip]

/-- The far pointer to the old stack: the selector first, so at the higher address (R179). -/
def stackSlots (old : State) : List Slot := [.selector old.ss.sel, .word old.rsp]

/-- The selectors a delivery from virtual-8086 mode pushes first (R190). -/
def dataSlots (old : State) : List Slot :=
  [.selector old.gs.sel, .selector old.fs.sel, .selector old.ds.sel, .selector old.es.sel]

/-- `CS` and the instruction pointer from the gate (R178). -/
def Target.enterCode (t : Target) (s : State) : State :=
  (s.setCs ⟨t.gate.sel, t.desc⟩).setRip t.gate.offset

/-- `CPL := p; CS(RPL) := CPL` (R182, R191, R199). -/
def enterLevel (p : BitVec 2) (s : State) : State :=
  (s.setCpl p).setCs ⟨withRpl s.cs.sel p, s.cs.hid⟩

/-- The instruction-pointer check: within the new code-segment limit, canonical in IA-32e mode
(R177, R189, R196). -/
def Target.offsetOk (t : Target) (s : State) : Bool :=
  if s.lma then s.canonical t.gate.offset
  else decide (t.gate.offset.toNat ≤ t.desc.limit.toNat)

/-- Bytes of a stack pointer in a TSS (20_memory.md R69). -/
def TssFormat.width : TssFormat → Nat
  | .tss16 => 2
  | .tss32 => 4

/-- The stack segment and pointer for level `d` from a 32-bit or 16-bit TSS, with the checks in
their order (R171 to R173; at `d = 0` R186, R187). -/
def newStackLegacy (ev : Event) (d : BitVec 2) (s : State) : Run (SegReg × Word64) := do
  let w := s.tr.format.width
  let off := d.toNat * (2 * w) + w
  require (decide (off + (w + 1) ≤ s.tr.limit.toNat)) (raiseCode .ts (ev.selectorCode s.tr.sel) s)
  let sel ← load s .newStack tableRead 2 (s.tr.base + BitVec.ofNat 64 (off + w))
  let ptr ← load s .newStack tableRead w (s.tr.base + BitVec.ofNat 64 off)
  let newSs : Word16 := sel.setWidth 16
  require (!selNull newSs) (raiseCode .ts ev.nullCode s)
  require (s.selInLimits newSs && decide (selRpl newSs = d))
    (raiseCode .ts (ev.selectorCode newSs) s)
  let hid ← readDescriptor s .stackDescriptor newSs
  require (decide (hid.dpl = d) && hid.isWritableData) (raiseCode .ts (ev.selectorCode newSs) s)
  require hid.present (raiseCode .ss (ev.selectorCode newSs) s)
  .ok (⟨newSs, hid⟩, ptr)

/-- Offset in the 64-bit TSS of the stack pointer: of the level when the gate's IST is 0, else of
the IST entry (R174, R193). -/
def tss64Offset (d : BitVec 2) (ist : BitVec 3) : Nat :=
  if ist = 0#3 then d.toNat * 8 + 4 else ist.toNat * 8 + 28

/-- The stack pointer from the 64-bit TSS, which must lie within the TSS limit; the address must be
canonical (R174, R193, 92 D27), which the model asks of all 8 bytes of the field (log 13). -/
def newStack64 (ev : Event) (off : Nat) (s : State) : Run Word64 := do
  require
    (decide (off + 7 ≤ s.tr.limit.toNat) && s.canonicalBytes (s.tr.base + BitVec.ofNat 64 off) 8)
    (raiseCode .ts (ev.selectorCode s.tr.sel) s)
  load s .newStack tableRead 8 (s.tr.base + BitVec.ofNat 64 off)

/-- `NewRSP & FFFFFFFFFFFFFFF0H` (R177, R196). -/
def align16 (v : Word64) : Word64 := v &&& ~~~15#64

/-- The stack test of a 64-bit gate: the new pointer and every byte of the frame below it, once
aligned, are canonical (R176, R195, 92 D27). -/
def State.frameCanonical (s : State) (newRsp : Word64) (n : Nat) : Bool :=
  s.canonical newRsp && s.canonicalBytes (align16 newRsp - BitVec.ofNat 64 n) n

/-- The new stack of an inter-privilege delivery: the `SS` register and the pointer, and the state
with the draw of a hidden part counted (R171 to R174). In IA-32e mode `SS` becomes a NULL selector
with RPL the new level; its hidden part is any value (93 U9) but for the DPL, which is the level
(R208 names it the old `CPL`; log 9). -/
def newStack (ev : Event) (t : Target) (s : State) : Run (SegReg × Word64 × State) :=
  if s.lma then do
    let ptr ← newStack64 ev (tss64Offset t.desc.dpl t.gate.ist) s
    let hid := { Config.hiddenPart s.draws with dpl := t.desc.dpl }
    .ok (⟨t.desc.dpl.setWidth 16, hid⟩, ptr, s.setDraws (s.draws + 1))
  else do
    let r ← newStackLegacy ev t.desc.dpl s
    .ok (r.1, r.2, s)

/-- The new shadow-stack pointer of an inter-privilege delivery (R175). When the gate's IST is nonzero
and shadow stacks are not enabled at level 0 the source leaves it unset (93 U19), and here it is any
value. Nothing uses it under the usual predicate, which is the same at levels 0 to 2; an `other` one may
enable shadow stacks at the new level alone. That and the test of level 0, where 20_memory.md R70 names
the level arrived at, are the model's choice (log 36). -/
def newShadowPointer (t : Target) (s : State) : Run Word64 :=
  if s.lma && decide (t.gate.ist ≠ 0#3) then
    if s.shadowStackEnabled 0#2 then istShadowPointer s t.gate.ist
    else .ok (Config.unsetShadowPointer s.draws)
  else .ok (s.plSsp t.desc.dpl)

/-- Room for `n` bytes on the new stack (R176, R188). -/
def newStackRoom (ev : Event) (t : Target) (newSs : SegReg) (ptr : Word64) (n : Nat) (s : State) :
    Run Unit :=
  match t.size with
  | .bits64 => require (s.frameCanonical ptr n) (raiseCode .ss ev.nullCode s)
  | _ =>
    let p := newSs.hid.ptrWidth
    stackRoom newSs.hid p (p.trunc ptr).toNat n (raiseCode .ss (ev.selectorCode newSs.sel) s)

/-- `SS` and the stack pointer loaded: `ESP := NewESP` outside IA-32e mode, `RSP` rounded down to a
multiple of 16 in it (R177). -/
def enterStack (newSs : SegReg) (ptr : Word64) (s : State) : State :=
  (s.setSs newSs).setRsp (if s.lma then align16 ptr else putLow32 s.rsp (ptr.setWidth 32))

/-- The user shadow-stack pointer saved when level 3 is left with shadow stacks enabled there
(R182). -/
def saveUserSsp (s : State) : State :=
  if s.shadowStackEnabled s.cpl && decide (s.cpl = 3#2) then
    s.setPl3Ssp (if s.lma then laAdjust s.cfg.linearWidth s.ssp else s.ssp)
  else s

/-- INTER-PRIVILEGE-LEVEL-INTERRUPT (R170 to R185). -/
def interPrivilege (ev : Event) (t : Target) (old : State) : Run State := do
  let (newSs, ptr, s) ← newStack ev t old
  let newSsp ← newShadowPointer t s
  newStackRoom ev t newSs ptr (frameBytes t 5 ev) s
  require (t.offsetOk s) (raiseCode .gp ev.nullCode s)
  let s1 := t.enterCode (enterStack newSs ptr s)
  let s2 ← pushAll (t.pushCtx true ev) (stackSlots old ++ returnSlots old ++ ev.codeSlots) s1
  let s3 := enterLevel t.desc.dpl (saveUserSsp s2)
  let s4 ← shadowSwitch old newSsp s3
  let s5 := armEndbranch s4
  .ok (s5.setFlags (gateFlags t.trap s5.eflags))

/-- A data segment register made NULL, with any hidden part (R191, 93 U20). -/
def nullSegment (d : Nat) : SegReg := ⟨0#16, Config.hiddenPart d⟩

/-- `GS := 0; FS := 0; DS := 0; ES := 0` (R191). -/
def nullDataSegments (s : State) : State :=
  (s.setData (nullSegment s.draws) (nullSegment (s.draws + 1)) (nullSegment (s.draws + 2))
    (nullSegment (s.draws + 3))).setDraws (s.draws + 4)

/-- INTERRUPT-FROM-VIRTUAL-8086-MODE (R186 to R192). Its pushes, on the ring-0 stack, are supervisor
accesses, like those of an inter-privilege delivery: 20_memory.md R57 names only the latter, and
10_state.md R19 lists the two apart. DESIGN CHOICE, unsafe with paging on (log 7). -/
def fromVirtual8086 (ev : Event) (t : Target) (old : State) : Run State := do
  let (newSs, ptr) ← newStackLegacy ev 0#2 old
  newStackRoom ev t newSs ptr (frameBytes t 9 ev) old
  require (t.offsetOk old) (raiseCode .gp ev.nullCode old)
  let s1 := enterStack newSs ptr (old.setFlags (gateFlags t.trap old.eflags))
  let s2 ← pushAll (t.pushCtx true ev)
    (dataSlots old ++ stackSlots old ++ returnSlots old ++ ev.codeSlots) s1
  let s3 := enterLevel 0#2 (t.enterCode (nullDataSegments s2))
  let s4 ← shadowSwitchV86 old.pl0Ssp s3
  .ok (armEndbranch s4)

/-- The stack pointer of an intra-privilege delivery in IA-32e mode: the IST stack, or the current
one (R193). -/
def intraStack64 (ev : Event) (t : Target) (s : State) : Run Word64 :=
  if t.gate.ist = 0#3 then .ok s.rsp else newStack64 ev (tss64Offset 0#2 t.gate.ist) s

/-- The shadow-stack pointer of an intra-privilege delivery and `CHECK_SS_TOKEN` (R193, R194). -/
def intraShadowPointer (t : Target) (s : State) : Run (Word64 × Bool) :=
  if s.lma && decide (t.gate.ist ≠ 0#3) && s.shadowStackEnabled s.cpl then do
    let p ← istShadowPointer s t.gate.ist
    .ok (p, true)
  else .ok (s.ssp, false)

/-- The stack test and the stack pointer of an intra-privilege delivery (R193 to R196). -/
def intraStack (ev : Event) (t : Target) (s : State) : Run (State × Word64 × Bool) :=
  if s.lma then do
    let ptr ← intraStack64 ev t s
    let (newSsp, check) ← intraShadowPointer t s
    require (s.frameCanonical ptr (frameBytes t 5 ev)) (raiseCode .ss ev.nullCode s)
    require (t.offsetOk s) (raiseCode .gp ev.nullCode s)
    .ok (s.setRsp (align16 ptr), newSsp, check)
  else do
    let p := s.ptrWidth t.size.width
    stackRoom s.ss.hid p (p.trunc s.rsp).toNat (frameBytes t 3 ev) (raiseCode .ss ev.nullCode s)
    require (t.offsetOk s) (raiseCode .gp ev.nullCode s)
    .ok (s, s.ssp, false)

/-- The frame and `CS:RIP` of an intra-privilege delivery, in the order of R197 and R198: outside IA-32e
mode the error code is pushed after `CS:EIP` has been loaded; in IA-32e mode, where the old stack
pointer is pushed always, before. -/
def intraFrame (ev : Event) (t : Target) (old s : State) : Run State :=
  let c := t.pushCtx (decide (old.cpl ≠ 3#2)) ev
  if old.lma then do
    let u ← pushAll c (stackSlots old ++ returnSlots old ++ ev.codeSlots) s
    .ok (t.enterCode u)
  else do
    let u ← pushAll c (returnSlots old) s
    pushAll c ev.codeSlots (t.enterCode u)

/-- INTRA-PRIVILEGE-LEVEL-INTERRUPT (R193 to R199). -/
def intraPrivilege (ev : Event) (t : Target) (old : State) : Run State := do
  let (s, newSsp, check) ← intraStack ev t old
  let s2 ← intraFrame ev t old s
  let s3 := enterLevel s2.cpl s2
  let s4 ← shadowIntra old newSsp check s3
  let s5 := armEndbranch s4
  .ok (s5.setFlags (gateFlags t.trap s5.eflags))

end Sys2Proof.Machine
end

