-- ==== Sys2Proof/Machine/Gates.lean ====
section
/-! DEFINITION. From the vector to the handler's code segment: PROTECTED-MODE, IA-32e-MODE,
TASK-GATE, TRAP-OR-INTERRUPT-GATE (41_delivery_gates.md R134 to R156). `s` is the state `Deliver`
was entered with. -/

namespace Sys2Proof.Machine

/-- The test of a gate's code-segment descriptor: a code segment with DPL at most CPL, in IA-32e mode
with L = 1 and D = 0 (R150, R151). -/
def State.codeSegmentOk (s : State) (h : Hidden) : Bool :=
  h.isCode && decide (h.dpl ≤ s.cpl) && (!s.lma || (h.l && !h.db))

/-- TRAP-OR-INTERRUPT-GATE (R148 to R153). In IA-32e mode the descriptor's address must be canonical
(R149, 92 D27), which the model asks of all 8 bytes of the descriptor (log 13). -/
def trapOrInterruptGate (ev : Event) (size : GateSize) (trap : Bool) (g : Gate) (s : State) :
    Run State := do
  require (!selNull g.sel) (raiseCode .gp ev.nullCode s)
  require (s.selInLimits g.sel && (!s.lma || s.canonicalBytes (s.descriptorAddr g.sel) 8))
    (raiseCode .gp (ev.selectorCode g.sel) s)
  let desc ← readDescriptor s .codeDescriptor g.sel
  require (s.codeSegmentOk desc) (raiseCode .gp (ev.selectorCode g.sel) s)
  require desc.present (raiseCode .np (ev.selectorCode g.sel) s)
  let t : Target := ⟨size, trap, g, desc⟩
  if !desc.conforming && decide (desc.dpl < s.cpl) then
    if !s.vm then interPrivilege ev t s
    else do
      require (decide (desc.dpl = 0#2)) (raiseCode .gp (ev.selectorCode g.sel) s)
      fromVirtual8086 ev t s
  else do
    require (!s.vm) (raiseCode .gp (ev.selectorCode g.sel) s)
    require (desc.conforming || decide (desc.dpl = s.cpl)) (raiseCode .gp (ev.selectorCode g.sel) s)
    intraPrivilege ev t s

/-- TASK-GATE up to `SWITCH-TASKS`, which no source defines and the model refuses (R143 to R147). The
NULL test is named by the exception lists alone (60_exceptions.md R227, R229); its error code is `EXT`
by either formula. Its place is not said: it is made first, so for a NULL selector descriptor 0 is never
read and a page fault or a stop of that read cannot occur. DESIGN CHOICE, unsafe there (log 42). -/
def taskGate (ev : Event) (g : Gate) (s : State) : Run State := do
  require (!selNull g.sel) (raiseCode .gp ev.nullCode s)
  require (!selLocal g.sel && s.selInLimits g.sel) (raiseCode .gp (ev.selectorCode g.sel) s)
  let tss ← readDescriptor s .taskDescriptor g.sel
  require tss.isAvailableTss (raiseCode .gp (ev.selectorCode g.sel) s)
  require tss.present (raiseCode .np (ev.selectorCode g.sel) s)
  .error (.refuse .taskSwitch)

/-- The gate-DPL check, made for software interrupts only; its error code has EXT = 0 (R135, R140). -/
def gateDplCheck (ev : Event) (g : Gate) (s : State) : Run Unit :=
  require (!(ev.kind.software && decide (g.dpl < s.cpl)))
    (raiseCode .gp (errorCode ev.vector true false) s)

/-- PROTECTED-MODE (R134 to R137). -/
def protectedMode (ev : Event) (s : State) : Run State := do
  require (s.idtInLimits ev.vector) (raiseCode .gp ev.vectorCode s)
  let g ← readGate32 s ev.vector
  match g.typ with
  | none => .error (raiseCode .gp ev.vectorCode s)
  | some gt => do
    gateDplCheck ev g s
    require g.present (raiseCode .np ev.vectorCode s)
    match gt with
    | .task => taskGate ev g s
    | .procedure size trap => trapOrInterruptGate ev size trap g s

/-- IA-32e-MODE (R138 to R142). The first test never fires from `execInto`, which has made it
already; it stands as the source wrote it. -/
def ia32eMode (ev : Event) (s : State) : Run State := do
  require (!(decide (ev.kind = .into) && s.cs.hid.l)) (raisePlain .ud s)
  require (s.idtInLimits ev.vector && s.canonicalBytes (s.idtEntryAddr ev.vector) 16)
    (raiseCode .gp ev.vectorCode s)
  let g ← readGate64 s ev.vector
  match g.typ with
  | some (.procedure size trap) => do
    gateDplCheck ev g s
    require g.present (raiseCode .np ev.vectorCode s)
    trapOrInterruptGate ev size trap g s
  | _ => .error (raiseCode .gp ev.vectorCode s)

end Sys2Proof.Machine
end

