-- ==== Sys2Proof/Machine/Ops.lean ====
section
/-! DEFINITION. Taking an event: `Deliver` (40_int_instructions.md R107 to R112, 41_delivery_gates.md
R131 to R133), a nested exception (60_exceptions.md R240 to R244), and what a return pops (R245). -/

namespace Sys2Proof.Machine

/-- `CS` loaded the real-address or virtual-8086 way: base is selector times 16, the rest of the
hidden part is kept (41 R133, 40 R110, 92 D30), a limit of `FFFFH` with it (10_state.md R21). -/
def enterRealCode (sel off : Word16) (s : State) : State :=
  (s.setCs ⟨sel, { s.cs.hid with base := sel.setWidth 64 <<< 4 }⟩).setRip (off.setWidth 64)

/-- The access by which real-address mode reads its vector table and pushes. -/
def realPushCtx : PushCtx := ⟨2, true, false, false⟩

/-- REAL-ADDRESS-MODE (41_delivery_gates.md R131 to R133), in the order it is written: checks, pushes,
then the read of the vector's entry (R130; log 11). The clears of R132 are made together, since no
access of this mode sees the flags. -/
def realAddressMode (ev : Event) (s : State) : Run State := do
  require (s.idtInLimits ev.vector) (raisePlain .gp s)
  stackRoom s.ss.hid .sp (low16 s.rsp).toNat 6 (raisePlain .ss s)
  let s1 ← pushAll realPushCtx (returnSlots s) s
  let s2 := s1.setFlags (realFlags s1.eflags)
  let (sel, off) ← readFarPointer s2 (s2.idtEntryAddr ev.vector)
  .ok (enterRealCode sel off s2)

/-- Linear address of the software interrupt redirection bit map, where the parameter
`V86_REDIR_BITMAP` gives it one (20_memory.md R70, log 18). -/
def redirectionMapAddr (s : State) : Run (Option Word64) :=
  match s.cfg.redirectionMap, s.tr.format with
  | .belowIoMap field, .tss32 => do
    let map ← load s .ioMapBase tableRead 2 (s.tr.base + BitVec.ofNat 64 field)
    .ok (some (s.tr.base + map - 32#64))
  | .inTss offset, _ => .ok (some (s.tr.base + BitVec.ofNat 64 offset))
  | .belowIoMap _, .tss16 => .ok none
  | .other, _ => .ok none

/-- The software interrupt redirection bit of a vector (40_int_instructions.md R109, 20_memory.md R70):
bit `vector` of the map; where the map has no location, any value, drawn under the number of the step
(log 18). -/
def redirectionBit (vector : Nat) (s : State) : Run Bool := do
  match ← redirectionMapAddr s with
  | some a => do
    let byte ← load s .redirectionBits tableRead 1 (a + BitVec.ofNat 64 (vector / 8))
    .ok (byte.getLsbD (vector % 8))
  | none => .ok (Config.redirectionBit s.draws vector)

/-- The pushes of a VME redirection, on the virtual-8086 task's own stack (40 R110). -/
def redirectPushCtx : PushCtx := ⟨2, false, false, false⟩

/-- VME redirection with the vector's bit clear: the handler of the virtual-8086 program
(40_int_instructions.md R110). The 4-byte entry (20_memory.md R53) holds the offset in its low half.
Where `SP` is below 6, R110 and 93 U21 ask for `#SS(0)`, 20_memory.md R62 and 93 U12 for the refusal of
pushes that would wrap: the model refuses. What room is, and that it is tested once, before the pushes,
is taken from R62. DESIGN CHOICE, safe where it refuses (log 41). -/
def redirectToProgram (ev : Event) (s : State) : Run State := do
  stackRoom s.ss.hid .sp (low16 s.rsp).toNat 6 (raiseCode .ss 0#32 s)
  let s1 ← pushAll redirectPushCtx
    [.word ((redirectImage s.eflags).setWidth 64), .selector s.cs.sel, .word s.rip] s
  let s2 := s1.setFlags (redirectFlags s1.iopl s1.eflags)
  let q ← load s2 .vector ⟨.read, false⟩ 4 (s.cfg.v86IvtBase + BitVec.ofNat 64 (4 * ev.vector))
  .ok (enterRealCode (q.extractLsb' 16 16) (q.setWidth 16) s2)

/-- `Deliver(vector, kind, errcode)` (40_int_instructions.md R107). The instruction pointer of `s` is
the return pointer. -/
def deliver (ev : Event) (s : State) : Run State :=
  if !s.cr0.pe then realAddressMode ev s
  else if s.vm && decide (ev.kind = .intN) && !s.cr4.vme && decide (s.iopl < 3#2) then
    .error (raiseCode .gp 0#32 s)
  else if s.vm && decide (ev.kind = .intN) && s.cr4.vme then do
    let bit ← redirectionBit ev.vector s
    if !bit then redirectToProgram ev s
    else if s.iopl = 3#2 then protectedMode ev s
    else .error (raiseCode .gp 0#32 s)
  else if !s.lma then protectedMode ev s
  else ia32eMode ev s

/-- The state an abandoned delivery leaves: every register as `before`, the bytes it had written old
or new, each by a free choice (60_exceptions.md R241). -/
def abandon (before dirty : State) : State :=
  (before.setMem (Memory.blend (Config.keepsWrite dirty.draws) before.mem dirty.mem)).setDraws
    (dirty.draws + 1)

/-- The faulting address of a page fault is recorded (93 U7). -/
def recordFaultAddr (x : Exc) (s : State) : State :=
  match x.addr with
  | none => s
  | some a => s.setFaultAddr a

/-- Take an exception: deliver it with `EXT = 1` and its error code, the return pointer being the
instruction pointer of `s` (60_exceptions.md R240, R242). A failed check in this delivery ends the
run: no third event is delivered (R243). -/
def raiseException (x : Exc) (s : State) : Host.Outcome State Fault Refusal :=
  match deliver x.event (recordFaultAddr x s) with
  | .ok t => .next t
  | .error (.raise y _) => .fault (.nestedDeliveryFailed x.name y.name)
  | .error (.fault f) => .fault f
  | .error (.refuse r) => .refused r

/-- Take an event: deliver it from `entry`; when a check raises an exception, the event is dropped
and the exception is taken from the state as it was `before` (60_exceptions.md R240, R241). -/
def takeEvent (ev : Event) (before entry : State) : Host.Outcome State Fault Refusal :=
  match deliver ev entry with
  | .ok t => .next t
  | .error (.raise x dirty) => raiseException x (abandon before dirty)
  | .error (.fault f) => .fault f
  | .error (.refuse r) => .refused r

/-- What a return pops: `n` slots of `w` bytes, the last pushed first, so the instruction pointer,
`CS`, the flags, and then what else the frame holds (60_exceptions.md R245). The instruction that
does this, `IRET`, is outside the spec (00_scope.md R4). -/
def popSlots (w : Nat) : Nat → State → Run (List Word64 × State)
  | 0, s => .ok ([], s)
  | n + 1, s => do
    let (v, t) ← pop w s
    let (vs, u) ← popSlots w n t
    .ok (v :: vs, u)

end Sys2Proof.Machine
end

