-- ==== Sys2Proof/Machine/Operands.lean ====
section
/-! DEFINITION. What an instruction's form gives its meaning: the event it delivers and the address
of the next instruction (10_state.md R15, 30_encoding.md R82, R83). -/

namespace Sys2Proof.Machine

/-- Width of the instruction pointer: 64 bits in 64-bit mode, else the code segment's default size
(10_state.md R15). -/
def State.ipWidth (s : State) : PtrWidth :=
  if s.mode64 then .rsp else if s.cs.hid.db then .esp else .sp

/-- `next_ip`: the address of the byte after an instruction of `n` bytes, wrapped at the width in
force (10_state.md R15). -/
def nextIp (s : State) (n : Nat) : Word64 := s.ipWidth.trunc (s.rip + BitVec.ofNat 64 n)

/-- The state with the instruction pointer past an instruction of `n` bytes. -/
def advance (n : Nat) (s : State) : State := s.setRip (nextIp s n)

/-- The event of `INT3`: vector 3 (R100). -/
def int3Event : Event := ⟨ExcName.bp.vector, .int3, none⟩

/-- The event of `INT imm8`: the vector is the immediate, zero-extended (R101, R82). -/
def intNEvent (imm8 : Nat) : Event := ⟨imm8, .intN, none⟩

/-- The event of `INTO`: vector 4 (R102). -/
def intoEvent : Event := ⟨ExcName.of.vector, .into, none⟩

/-- The event of `INT1`: vector 1 (R103). -/
def int1Event : Event := ⟨ExcName.db.vector, .int1, none⟩

/-- `#UD`, which carries no error code (60_exceptions.md R220). -/
def invalidOpcode : Exc := ⟨.ud, none, none⟩

end Sys2Proof.Machine
end

