-- ==== Sys2Proof/Machine/Interrupts.lean ====
section
/-! DEFINITION. The meanings of the four instructions (40_int_instructions.md R100 to R103). The
instruction pointer of `s` is the address of the instruction's first byte. -/

namespace Sys2Proof.Machine

/-- `INT3` (R100): `#UD` with LOCK; else the breakpoint trap. -/
def execInt3 (lock : Bool) (s : State) : Host.Outcome State Fault Refusal :=
  if lock then raiseException invalidOpcode s
  else takeEvent int3Event s (advance 1 s)

/-- `INT imm8` (R101): `#UD` with LOCK; else the interrupt of the immediate's vector. -/
def execIntImm8 (lock : Bool) (imm8 : Nat) (s : State) : Host.Outcome State Fault Refusal :=
  if lock then raiseException invalidOpcode s
  else takeEvent (intNEvent imm8) s (advance 2 s)

/-- `INTO` (R102): `#UD` with LOCK, and in 64-bit mode whatever `OF` holds; else the overflow trap
when `OF = 1`, and nothing but the advance when `OF = 0`. -/
def execInto (lock : Bool) (s : State) : Host.Outcome State Fault Refusal :=
  if lock then raiseException invalidOpcode s
  else if s.mode64 then raiseException invalidOpcode s
  else if s.overflow then takeEvent intoEvent s (advance 1 s)
  else .next (advance 1 s)

/-- `INT1` (R103): `#UD` with LOCK; refused when hardware debug takes the instruction (R116); else
the debug trap. `DR6` is not written. -/
def execInt1 (lock : Bool) (s : State) : Host.Outcome State Fault Refusal :=
  if lock then raiseException invalidOpcode s
  else if s.cfg.int1HwDebug then .refused .int1HardwareDebug
  else takeEvent int1Event s (advance 1 s)

end Sys2Proof.Machine
end

