-- ==== Sys2Proof/Syntax.lean ====
section
/-! DEFINITION. The instructions of the entry (spec 30_encoding.md R80), one constructor per row of
the opcode table. `lock` says whether the instruction carries the LOCK prefix (R85), which every
instruction rule R100 to R103 tests first. The immediate is the vector, an index 0 to 255 (R82). -/

namespace Sys2Proof

/-- The instruction set. -/
inductive Instr where
  /-- `CC`: generate breakpoint trap (R100). -/
  | int3 (lock : Bool)
  /-- `CD ib`: generate software interrupt with the vector of the immediate byte (R101). -/
  | intImm8 (lock : Bool) (imm8 : Nat)
  /-- `CE`: generate overflow trap if the overflow flag is 1 (R102). -/
  | into (lock : Bool)
  /-- `F1`, also `ICEBP`: generate debug trap (R103). -/
  | int1 (lock : Bool)
  deriving DecidableEq, Repr

/-- Whether the instruction carries the LOCK prefix. -/
def Instr.locked : Instr → Bool
  | .int3 lock => lock
  | .intImm8 lock _ => lock
  | .into lock => lock
  | .int1 lock => lock

/-- Length in bytes without a prefix (R80, R89): two for `INT imm8`, one for the others. -/
def Instr.opcodeLength : Instr → Nat
  | .int3 _ => 1
  | .intImm8 _ _ => 2
  | .into _ => 1
  | .int1 _ => 1

/-- Length in bytes with the LOCK prefix, when there is one. -/
def Instr.length (i : Instr) : Nat :=
  if i.locked then i.opcodeLength + 1 else i.opcodeLength

end Sys2Proof
end

