-- ==== Sys2Proof/Machine/Dispatch.lean ====
section
/-! DEFINITION. One arm per instruction. -/

namespace Sys2Proof.Machine

def exec (i : Instr) (s : State) : Host.Outcome State Fault Refusal :=
  match i with
  | .int3 lock => Sys2Proof.Machine.execInt3 lock s
  | .intImm8 lock imm8 => Sys2Proof.Machine.execIntImm8 lock imm8 s
  | .into lock => Sys2Proof.Machine.execInto lock s
  | .int1 lock => Sys2Proof.Machine.execInt1 lock s

end Sys2Proof.Machine
end

