-- ==== Sys2Proof/WellFormed.lean ====
section
/-! DEFINITION. Which instruction terms have an encoding. -/

namespace Sys2Proof

/-- The operands are values the encoding can hold: the immediate of `INT imm8` is one byte, a
vector 0 to 255 (spec 30_encoding.md R81, R82). The other forms have no operand. -/
def Instr.wellFormed : Instr → Bool
  | .int3 _ => true
  | .intImm8 _ imm8 => decide (imm8 < 256)
  | .into _ => true
  | .int1 _ => true

end Sys2Proof
end

