-- ==== Sys2Proof/Decode.lean ====
section
/-! DEFINITION. Decoding and encoding, from spec 30_encoding.md R80 to R89 and 00_scope.md R9.
Decoding reads a list of bytes, the one at the instruction pointer first. It is total: it answers an
instruction with its length, asks for one more byte, or rejects the byte that has no meaning in the
entry (R86, R88). -/

namespace Sys2Proof

/-- What the decoder says of the bytes it has been given. -/
inductive Decoded where
  /-- The first `length` bytes are this instruction. -/
  | instr (i : Instr) (length : Nat)
  /-- The bytes so far are the beginning of an instruction; one more is needed. -/
  | needMore
  /-- This byte stands where an opcode must stand and is none of `CC`, `CD`, `CE`, `F1`: outside the
  entry (R86, R88), refused and not `#UD`. -/
  | outside (b : Byte)
  deriving DecidableEq, Repr

/-- The LOCK prefix byte (R85). -/
def lockByte : Byte := 0xF0#8

/-- The bytes from the opcode on (R83); `lock` says that the LOCK prefix stood before them. -/
def decodeOpcode (lock : Bool) : List Byte → Decoded
  | [] => .needMore
  | b0 :: rest =>
    if b0 = 0xCC#8 then .instr (.int3 lock) (Instr.int3 lock).length
    else if b0 = 0xCE#8 then .instr (.into lock) (Instr.into lock).length
    else if b0 = 0xF1#8 then .instr (.int1 lock) (Instr.int1 lock).length
    else if b0 = 0xCD#8 then
      match rest with
      | [] => .needMore
      | ib :: _ => .instr (.intImm8 lock ib.toNat) (Instr.intImm8 lock ib.toNat).length
    else .outside b0

/-- Decode the bytes at the instruction pointer: an optional LOCK prefix, then the opcode (R83, R85). -/
def decode : List Byte → Decoded
  | [] => .needMore
  | b0 :: rest => if b0 = lockByte then decodeOpcode true rest else decodeOpcode false (b0 :: rest)

/-- The opcode bytes of an instruction (R81), without prefix. -/
def encodeOpcode : Instr → List Byte
  | .int3 _ => [0xCC#8]
  | .intImm8 _ imm8 => [0xCD#8, BitVec.ofNat 8 imm8]
  | .into _ => [0xCE#8]
  | .int1 _ => [0xF1#8]

/-- The bytes of an instruction, the one at the lowest address first (R81, R85). -/
def encode (i : Instr) : List Byte :=
  if i.locked then lockByte :: encodeOpcode i else encodeOpcode i

/-- The longest encoding: LOCK, `CD`, `ib`. -/
def maxLength : Nat := 3

/-- The first `n` bytes of an instruction word whose bit 0 is the least significant bit of the first
byte. -/
def wordBytes (w : Nat) : Nat → List Byte
  | 0 => []
  | n + 1 => BitVec.ofNat 8 w :: wordBytes (w / 256) n

/-- The instruction the decoder reads from a word of the opcode table: `nbits` bits of `w`, the
bits above them zero. -/
def decodeTableWord (nbits w : Nat) : Option Instr :=
  match decode (wordBytes (w % 2 ^ nbits) maxLength) with
  | .instr i _ => some i
  | .needMore => none
  | .outside _ => none

end Sys2Proof
end

