-- ==== Sys2Proof/Machine/Fetch.lean ====
section
/-! DEFINITION. Fetching an instruction (30_encoding.md R89, 10_state.md R15, 20_memory.md R75), the
launch-state test (10_state.md R37) and the choice of a pending event (60_exceptions.md R235, R236). -/

namespace Sys2Proof.Machine

/-- The segment register is as real-address and virtual-8086 mode have it: its base is its selector
times 16, its limit `FFFFH` (10_state.md R21). -/
def SegReg.realStyle (r : SegReg) : Bool :=
  decide (r.hid.base = r.sel.setWidth 64 <<< 4) && decide (r.hid.limit = 0xFFFF#32)

/-- `CS` as it is from power-up or reset until it is first loaded, with a base that is not its selector
times 16 (10_state.md R38, log 39). -/
def SegReg.resetCode (r : SegReg) : Bool :=
  decide (r.sel = 0xF000#16) && decide (r.hid.base = 0xFFFF0000#64) &&
    decide (r.hid.limit = 0xFFFF#32)

/-- Every segment register is as real-address and virtual-8086 mode have it, but `CS` of real-address
mode may be as reset left it (10_state.md R21, log 39). -/
def State.realSegments (s : State) : Bool :=
  (s.cs.realStyle || (!s.cr0.pe && s.cs.resetCode)) && s.ss.realStyle && s.ds.realStyle &&
    s.es.realStyle && s.fs.realStyle && s.gs.realStyle

/-- The mode invariants of 10_state.md R37, that a mode bit is set only where the implementation has
the mode (00_scope.md R5), and that real-address and virtual-8086 mode have the segments of R21. -/
def State.legalModes (s : State) : Bool :=
  (!s.lma || (s.cr0.pe && !s.vm && s.cfg.hasIa32e)) &&
    (!s.vm || (s.cr0.pe && decide (s.cpl = 3#2))) &&
    (s.cr0.pe || decide (s.cpl = 0#2)) &&
    (!s.cr4.vme || s.cfg.hasVme) &&
    ((s.cr0.pe && !s.vm) || s.realSegments)

/-- The offset in the code segment of the instruction's byte `i`, not wrapped. It is counted from the
part of `RIP` that the pointer's width names (10_state.md R14, R15); with a 16-bit code segment and a
`RIP` above `FFFFH` that is the model's choice (log 37). -/
def State.codeOffset (s : State) (i : Nat) : Nat := (s.ipWidth.trunc s.rip).toNat + i

/-- The offset can be fetched from: below the top of the pointer's range, and canonical in 64-bit
mode, within the limit of `CS` elsewhere. -/
def State.codeOffsetOk (s : State) (off : Nat) : Bool :=
  decide (off < 2 ^ s.ipWidth.bits) &&
    (if s.mode64 then s.canonical (BitVec.ofNat 64 off) else decide (off ≤ s.cs.hid.limit.toNat))

/-- Linear address of an offset in the code segment (20_memory.md R51). -/
def State.codeAddr (s : State) (off : Nat) : Word64 :=
  if s.mode64 then BitVec.ofNat 64 off else low32 (s.cs.hid.base + BitVec.ofNat 64 off)

/-- Byte `i` of the instruction lies in the code segment, and no top of the address space lies between
it and the first byte (10_state.md R15). -/
def State.codeByteOk (s : State) (i : Nat) : Bool :=
  s.codeOffsetOk (s.codeOffset i) &&
    (s.mode64 || decide ((s.codeAddr (s.codeOffset 0)).toNat + i < 2 ^ 32))

/-- A fetch, made with the privilege of the `CPL` in force: 20_memory.md R57 leaves it open, DESIGN
CHOICE, unsafe (log 7). -/
def State.fetchAccess (s : State) : Access := ⟨.fetch, decide (s.cpl ≠ 3#2)⟩

/-- Fetch byte `i` of the instruction. An instruction that begins outside the code segment faults
before it executes (R89, log 14); one that begins inside and ends outside, or past the top of the
address space, is refused (10_state.md R15, 93 U13). Each byte is an access of its own, which `Translate`
sees with width 1: the 2-byte fetch of `CD ib` (20_memory.md R53) and a LOCK byte before it are made as
separate one-byte accesses, the lower byte first, whose failure is then the one reported. DESIGN CHOICE,
unsafe (log 40). -/
def fetchByte (s : State) (i : Nat) : Run Byte := do
  require (s.codeByteOk i)
    (if i = 0 then raiseCode .gp 0#32 s else .refuse .straddlesLimit)
  let p ← resolve s (s.codeAddr (s.codeOffset i)) 1 s.fetchAccess
  .ok (s.readByte .fetch (s.codeAddr (s.codeOffset i)) p)

/-- Fetch bytes, the lowest first (log 40), until the decoder has an instruction, at most `n` more; `got`
are the bytes so far. -/
def fetchFrom (s : State) : Nat → List Byte → Run Instr
  | 0, _ => .error (.refuse .straddlesLimit)
  | n + 1, got => do
    let b ← fetchByte s got.length
    match decode (got ++ [b]) with
    | .instr i _ => .ok i
    | .needMore => fetchFrom s n (got ++ [b])
    | .outside x => .error (.refuse (.outsideSpec x))

/-- Fetch and decode the instruction at the instruction pointer. -/
def fetch (s : State) : Run Instr := fetchFrom s maxLength []

/-- An external event can be taken: an NMI always, an interrupt when `IF = 1` (60_exceptions.md R236). -/
def ExternalEvent.takeable (interruptFlag : Bool) : ExternalEvent → Bool
  | .interrupt _ => interruptFlag
  | .nmi => true

/-- The oldest pending event that can be taken, and those that stay pending. -/
def nextEvent (interruptFlag : Bool) :
    List ExternalEvent → Option (ExternalEvent × List ExternalEvent)
  | [] => none
  | e :: es =>
    if e.takeable interruptFlag then some (e, es)
    else (nextEvent interruptFlag es).map fun r => (r.1, e :: r.2)

/-- The outside makes an event pending (60_exceptions.md R235). -/
def State.post (s : State) (e : ExternalEvent) : State := s.setPending (s.pending ++ [e])

/-- The end-branch tracker of the level in force waits (10_state.md R36 (b)). -/
def State.endbranchWaits (s : State) : Bool :=
  s.endbranchEnabled s.cpl && (s.cetReg s.cpl).getLsbD trackerBit

/-- Where the fetch reads the instruction's byte `i`. -/
def State.fetchPlace (s : State) (i : Nat) : Nat :=
  match s.translate (s.codeAddr (s.codeOffset i)) 1 s.fetchAccess with
  | .physical p => p.toNat
  | .pageFault _ _ => (s.codeAddr (s.codeOffset i)).toNat

/-- Bytes stored where the fetch reads bytes `i`, `i + 1` and so on of the next instruction. -/
def placeCode (s : State) : Nat → List Byte → Memory → Memory
  | _, [], m => m
  | i, b :: bs, m => placeCode s (i + 1) bs (m.write (s.fetchPlace i) b)

end Sys2Proof.Machine
end

