-- ==== Sys2Proof/Machine/Step.lean ====
section
/-! DEFINITION. One step of the machine: a pending external event, or the instruction at the
instruction pointer (60_exceptions.md R238, R240). -/

namespace Sys2Proof.Machine

/-- Fetch the instruction and run it; a fault of the fetch is taken before the instruction executes
(30_encoding.md R89). -/
def runInstruction (s : State) : Host.Outcome State Fault Refusal :=
  match fetch s with
  | .ok i => exec i s
  | .error (.raise x dirty) => raiseException x (abandon s dirty)
  | .error (.fault f) => .fault f
  | .error (.refuse r) => .refused r

/-- One step: `runInstruction` or the delivery of a pending event, at the state in which this step's
free values are drawn. -/
def step (s : State) : Host.Outcome State Fault Refusal :=
  if !s.legalModes then .refused .illegalModes
  else
    match nextEvent s.interruptFlag s.pending with
    | some (e, rest) => takeEvent e.event (s.tick.setPending rest) (s.tick.setPending rest)
    | none => if s.endbranchWaits then .refused .endbranchPending else runInstruction s.tick

/-- `s` with an instruction word, numbered as the opcode table numbers it, stored where `step` fetches
its next instruction, and no event pending before it. -/
def State.withFetchWord (s : State) (nbits w : Nat) : State :=
  (s.setPending []).setMem (placeCode s 0 (wordBytes (w % 2 ^ nbits) maxLength) s.mem)

end Sys2Proof.Machine
end

