-- ==== Sys2Proof/Safety.lean ====
section
/-! DEFINITION. The terms claims are stated in: the invariant of every step, what a step leaves alone,
plain memory, frames, and the instructions that trap. -/

namespace Sys2Proof.Machine

/-- What holds in every state a run reaches from a state where it holds: memory in canonical form;
the mode invariants of 10_state.md R37, with the segments of R21 in real-address and virtual-8086 mode;
`SS.DPL` is `CPL` (42_delivery_frames.md R208 calls
`oldSS.DPL` the old `CPL`) and outside real-address and virtual-8086 mode so is the RPL of `CS`
(10_state.md R22); the instruction pointer is canonical in 64-bit mode and 32 bits wide elsewhere
(R14); the fixed bits of EFLAGS read as R18 says. -/
structure State.Inv (s : State) : Prop where
  memory : s.mem.wf = true
  modes : s.legalModes = true
  stackLevel : s.ss.hid.dpl = s.cpl
  codeLevel : s.cr0.pe = true → s.vm = false → selRpl s.cs.sel = s.cpl
  canonicalIp : s.mode64 = true → s.canonical s.rip = true
  narrowIp : s.mode64 = false → low32 s.rip = s.rip
  fixedFlags : s.eflags &&& 0xFFC0802A#32 = 2#32

/-- The state that no step writes: parameters, general registers, control bits, table registers,
`DR6`, the shadow-stack registers but `SSP` and `IA32_PL3_SSP`, the admitted addresses (10_state.md
R13, R17, R25 to R31, R33, R34). -/
structure SameSystem (s t : State) : Prop where
  cfg : t.cfg = s.cfg
  gprs : t.gprs = s.gprs
  cr0 : t.cr0 = s.cr0
  cr4 : t.cr4 = s.cr4
  lma : t.lma = s.lma
  idtr : t.idtr = s.idtr
  gdtr : t.gdtr = s.gdtr
  ldtr : t.ldtr = s.ldtr
  tr : t.tr = s.tr
  dr6 : t.dr6 = s.dr6
  pl0Ssp : t.pl0Ssp = s.pl0Ssp
  pl1Ssp : t.pl1Ssp = s.pl1Ssp
  pl2Ssp : t.pl2Ssp = s.pl2Ssp
  intSspTable : t.intSspTable = s.intSspTable
  regions : t.regions = s.regions

/-- The four data segment registers are as they were. -/
def SameData (s t : State) : Prop := t.ds = s.ds ∧ t.es = s.es ∧ t.fs = s.fs ∧ t.gs = s.gs

/-- The bytes `i` to `i + n - 1` of `v` written at given addresses. -/
def putBytes (addr : Nat → Nat) (v : Word64) : Nat → Nat → Memory → Memory
  | _, 0, m => m
  | i, n + 1, m => putBytes addr v (i + 1) n (m.write (addr i) (byteOf v i))

/-- The value of the bytes `i` to `i + n - 1` at given addresses, the first the least significant. -/
def getBytes (addr : Nat → Nat) (m : Memory) : Nat → Nat → Word64
  | _, 0 => 0#64
  | i, n + 1 => (getBytes addr m (i + 1) n <<< 8) ||| (m.read (addr i)).setWidth 64

/-- The event an instruction without LOCK delivers when it traps (40_int_instructions.md R100 to
R103). -/
def trapEvent : Instr → Event
  | .int3 _ => int3Event
  | .intImm8 _ imm8 => intNEvent imm8
  | .into _ => intoEvent
  | .int1 _ => int1Event

/-- The instruction traps in this state: it carries no LOCK; `INTO` is not in 64-bit mode and finds
`OF = 1`; `INT1` is not taken by hardware debug (R100 to R103, R116). -/
def traps (i : Instr) (s : State) : Bool :=
  !i.locked &&
    match i with
    | .int3 _ => true
    | .intImm8 _ _ => true
    | .into _ => !s.mode64 && s.overflow
    | .int1 _ => !s.cfg.int1HwDebug

/-- Memory with paging off, every physical address admitted plain memory, in canonical form. -/
structure PlainMemory (s : State) : Prop where
  paging : s.pagingOn = false
  ram : ∀ a, a < 2 ^ 64 → s.regionAt a = some .ram
  form : s.mem.wf = true

/-- The value of `w` bytes at linear address `la`, when memory is plain. -/
def State.value (s : State) (w : Nat) (la : Word64) : Word64 :=
  getBytes (fun j => (s.byteAddr la j).toNat) s.mem 0 w

/-- The bytes from linear address `la` on, when memory is plain. -/
def State.bytesAt (s : State) (la : Word64) (k : Nat) : Byte := s.mem.read (s.byteAddr la k).toNat

/-- The 8-byte segment descriptor with bytes `b 0` to `b 7` has the fields of `h`: the table of
20_memory.md R68. -/
structure DescriptorBytes (b : Nat → Byte) (h : Hidden) : Prop where
  base : h.base = (b 7 ++ b 4 ++ b 3 ++ b 2).setWidth 64
  /-- Bits 19:16 are the low half of byte 6; with G, its bit 7, the limit counts units of 4 KByte. -/
  limit : h.limit.toNat =
    if (b 6).getLsbD 7 then ((b 6).extractLsb' 0 4 ++ b 1 ++ b 0).toNat * 4096 + 4095
    else ((b 6).extractLsb' 0 4 ++ b 1 ++ b 0).toNat
  s : h.s = (b 5).getLsbD 4
  typ : h.typ = (b 5).extractLsb' 0 4
  dpl : h.dpl = (b 5).extractLsb' 5 2
  present : h.present = (b 5).getLsbD 7
  l : h.l = (b 6).getLsbD 5
  db : h.db = (b 6).getLsbD 6
  code : h.isCode = ((b 5).getLsbD 4 && (b 5).getLsbD 3)
  conforming : h.conforming = (b 5).getLsbD 2
  writable : h.isWritableData = ((b 5).getLsbD 4 && !(b 5).getLsbD 3 && (b 5).getLsbD 1)
  expandDown : h.expandDown = ((b 5).getLsbD 4 && !(b 5).getLsbD 3 && (b 5).getLsbD 2)
  /-- S = 0 and type 0001 or 1001. -/
  availableTss : h.isAvailableTss = true ↔
    (b 5).extractLsb' 0 5 = 0b00001#5 ∨ (b 5).extractLsb' 0 5 = 0b01001#5

/-- The gate with bytes `b 0`, `b 1` and so on has the fields of `g`: 16 bytes in IA-32e mode (`long`),
else 8; the tables of 20_memory.md R65 and R66, with the size and kind of 41_delivery_gates.md R155. -/
structure GateBytes (long : Bool) (b : Nat → Byte) (g : Gate) : Prop where
  sel : g.sel = b 3 ++ b 2
  dpl : g.dpl = (b 5).extractLsb' 5 2
  present : g.present = (b 5).getLsbD 7
  ist : g.ist = if long then (b 4).extractLsb' 0 3 else 0#3
  task : g.typ = some .task ↔ long = false ∧ (b 5).extractLsb' 0 5 = 0b00101#5
  procedure : ∀ size trap, g.typ = some (.procedure size trap) ↔
    (trap = (b 5).getLsbD 0 ∧
      match size with
      | .bits16 => long = false ∧ (b 5).extractLsb' 1 4 = 0b0011#4
      | .bits32 => long = false ∧ (b 5).extractLsb' 1 4 = 0b0111#4
      | .bits64 => long = true ∧ (b 5).extractLsb' 1 4 = 0b0111#4)
  /-- At the gate's width. -/
  offset : ∀ size trap, g.typ = some (.procedure size trap) → g.offset =
    match size with
    | .bits16 => (b 1 ++ b 0).setWidth 64
    | .bits32 => (b 7 ++ b 6 ++ b 1 ++ b 0).setWidth 64
    | .bits64 => b 11 ++ b 10 ++ b 9 ++ b 8 ++ (b 7 ++ b 6 ++ b 1 ++ b 0)

/-- The state whose stack pointer has been lowered by `k` pushes of `w` bytes (20_memory.md R60). -/
def State.afterPushes (s : State) (w k : Nat) : State :=
  s.setRsp ((s.ptrWidth w).put s.rsp (s.rsp - BitVec.ofNat 64 (w * k)))

/-- Linear address of the slot that push number `k`, counted from 0, of `w` bytes writes. -/
def State.slotAddr (s : State) (w k : Nat) : Word64 :=
  (s.afterPushes w (k + 1)).stackTop (s.ptrWidth w)

/-- The `n` bytes of memory `m` at linear address `la` are the low bytes of `v`. -/
def State.holds (s : State) (m : Memory) (n : Nat) (la v : Word64) : Prop :=
  ∀ j, j < n → m.read (s.byteAddr la j).toNat = byteOf v j

/-- What a slot of `w` bytes holds: a value whole, of a selector its two low bytes (20_memory.md
R61). -/
def State.holdsSlot (s : State) (m : Memory) (w : Nat) (la : Word64) : Slot → Prop
  | .word v => s.holds m w la v
  | .selector sel => s.holds m 2 la (sel.setWidth 64)

/-- The slots `xs`, of `w` bytes each, were pushed from state `s`, and `t` is on that stack: the
pointer is below them, each holds what was pushed, the first at the highest address, and every byte
outside them reads as it did. -/
structure Frame (s : State) (w : Nat) (xs : List Slot) (t : State) : Prop where
  pointer : t.rsp = (s.afterPushes w xs.length).rsp
  slots : ∀ k x, xs[k]? = some x → s.holdsSlot t.mem w (s.slotAddr w k) x
  others : ∀ a, (∀ k j, k < xs.length → j < w → (s.byteAddr (s.slotAddr w k) j).toNat ≠ a) →
    t.mem.read a = s.mem.read a

/-- `n` pushes of `w` bytes do not wrap the stack pointer through 0 (20_memory.md R62); 8-byte pushes
may. -/
def State.fits (s : State) (w n : Nat) : Prop :=
  w = 8 ∨ w * n ≤ ((s.ptrWidth w).trunc s.rsp).toNat

/-- No push of a frame of `n` slots of a gate's width raises `#AC` (20_memory.md R55): the gate's DPL is
not 3, alignment checking is not enabled, or every slot lies at a multiple of its width. -/
def Target.aligned (t : Target) (n : Nat) (s : State) : Prop :=
  t.gate.dpl = 3#2 → s.cr0.am = true → s.eflags.getLsbD 18 = true → s.cpl = 3#2 →
    ∀ k, k < n → (s.slotAddr t.size.width k).toNat % t.size.width = 0

/-- CET acts at no level: neither predicate holds at one (42_delivery_frames.md R200). -/
def CetOff (s : State) : Prop :=
  ∀ p, s.shadowStackEnabled p = false ∧ s.endbranchEnabled p = false

/-- `x` is `s` on the new stack: `SS` loaded, and the stack pointer `ptr`, rounded down to a multiple of
16 in IA-32e mode, in bits 31:0 only outside it, where the bits above stay (42_delivery_frames.md R177,
R190; log 12). -/
structure EntersStack (ss : SegReg) (ptr : Word64) (s x : State) : Prop where
  rest : x = (s.setSs ss).setRsp x.rsp
  long : s.lma = true → x.rsp = ptr &&& 0xFFFFFFFFFFFFFFF0#64
  legacy : s.lma = false → ∀ k, k < 64 →
    x.rsp.getLsbD k = if k < 32 then ptr.getLsbD k else s.rsp.getLsbD k

/-- The event is sent to the IDT: protection is on, and an `INT n` of a virtual-8086 task has
`IOPL = 3` (40_int_instructions.md R107, R108), with `CR4.VME = 1` also the vector's redirection bit set
(R111, where `LMA` is 0 as in every virtual-8086 mode: 10_state.md R37); `INTO` is not in 64-bit mode
(41_delivery_gates.md R138). -/
structure ReachesIdt (ev : Event) (s : State) : Prop where
  pe : s.cr0.pe = true
  dispatch : s.vm = true → ev.kind = .intN → s.iopl = 3#2 ∧
    (s.cr4.vme = true → s.lma = false ∧ redirectionBit ev.vector s = .ok true)
  into64 : s.mode64 = true → ev.kind ≠ .into

/-- The entry lies inside the IDT (20_memory.md R63), in IA-32e mode at canonical addresses
(41_delivery_gates.md R139), and was read as the gate `g`. -/
structure GateRead (ev : Event) (g : Gate) (s : State) : Prop where
  inIdt : if s.lma then 16 * ev.vector + 15 ≤ s.idtr.limit.toNat
    else 8 * ev.vector + 7 ≤ s.idtr.limit.toNat
  canonical : s.lma = true → ∀ j, j < 16 →
    s.canonical (s.idtr.base + BitVec.ofNat 64 (16 * ev.vector) + BitVec.ofNat 64 j) = true
  read : (if s.lma then readGate64 s ev.vector else readGate32 s ev.vector) = .ok g

/-- The limit of the table a selector names: bit 2 set, the LDT's, else the GDT's (20_memory.md R67). -/
def State.limitFor (s : State) (sel : Word16) : Nat :=
  if sel.getLsbD 2 then s.ldtr.limit.toNat else s.gdtr.limit.toNat

/-- Linear address of the descriptor a selector names: its table's base plus 8 times its bits 15:3
(20_memory.md R67). -/
def State.placeFor (s : State) (sel : Word16) : Word64 :=
  (if sel.getLsbD 2 then s.ldtr.base else s.gdtr.base) + BitVec.ofNat 64 (8 * (sel.toNat / 8))

/-- The event reaches its gate, and every check up to and including the code segment's present bit
passes (41_delivery_gates.md R134 to R136, R139 to R141, R148 to R152). -/
structure Opens (ev : Event) (t : Target) (s : State) : Prop where
  reaches : ReachesIdt ev s
  gate : GateRead ev t.gate s
  typ : t.gate.typ = some (.procedure t.size t.trap)
  gateDpl : ev.kind.software = true → s.cpl ≤ t.gate.dpl
  gatePresent : t.gate.present = true
  notNull : 4 ≤ t.gate.sel.toNat
  inTable : 8 * (t.gate.sel.toNat / 8) + 7 ≤ s.limitFor t.gate.sel
  descCanonical : s.lma = true → ∀ j, j < 8 →
    s.canonical (s.placeFor t.gate.sel + BitVec.ofNat 64 j) = true
  readCode : readDescriptor s .codeDescriptor t.gate.sel = .ok t.desc
  code : s.codeSegmentOk t.desc = true
  codePresent : t.desc.present = true

/-- `u` is what an instruction that delivers `ev` answers, from every state whose pointer, moved past
the instruction, makes it `s` (40_int_instructions.md R100 to R103). -/
def Completes (ev : Event) (s u : State) : Prop :=
  ∀ i s0, traps i s0 = true → trapEvent i = ev → s = advance i.opcodeLength s0 → exec i s0 = .next u

/-- Memory `m` is what a delivery that raised `x` may leave, having begun with `old` and written it to
`dirty` (60_exceptions.md R241): in canonical form, every byte as in one of the two, and `old` itself when
the exception is one whose checks precede every write. -/
structure Abandoned (x : Exc) (old dirty m : Memory) : Prop where
  form : m.wf = true
  bytes : ∀ a, m.read a = old.read a ∨ m.read a = dirty.read a
  early : x.name = .ts ∨ x.name = .np ∨ x.name = .ss ∨ x.name = .ud → m = old

/-- From a state with legal modes, a step or a single instruction answers `t`. -/
def Runs (s t : State) : Prop :=
  s.legalModes = true ∧ (step s = .next t ∨ ∃ i, exec i s = .next t)

end Sys2Proof.Machine
end

