-- ==== Sys2Proof/Certificates/Slice0/Obligations.lean ====
section
/-! DEFINITION. The statements for the provers. Each docstring names the rules it formalises. -/

open Sys2Proof Sys2Proof.Machine

/-! Encoding (30_encoding.md). -/

/-- Decoding the encoding of a well-formed instruction, whatever bytes follow it, answers the
instruction and its length: every operand at every value (R80, R81, R83, R85, R89). LOCK is one `F0H`
before the opcode (log 28). -/
def Obligations.DecodeOfEncodeIsTheInstruction : Prop :=
  ∀ (i : Instr) (rest : List Byte), i.wellFormed = true →
    decode (encode i ++ rest) = .instr i i.length

/-- Bytes that decode to an instruction begin with its encoding, the instruction is well-formed, and
the length is that of the encoding: no byte sequence has a second meaning (R80 to R83, R85). LOCK is
one `F0H` before the opcode (log 28). -/
def Obligations.DecodedBytesAreTheEncoding : Prop :=
  ∀ (l : List Byte) (i : Instr) (n : Nat), decode l = .instr i n →
    i.wellFormed = true ∧ n = i.length ∧ l.take n = encode i

/-- Words written out from the opcode table decode to the instructions they stand for (R80, R83, R85,
R87): `CC`, `CD 21`, `CD FF`, `CD 03`, `CE`, `F1`, `F0 CD 21`. LOCK is one `F0H` before the opcode (log
28). -/
def Obligations.SpecWordsDecode : Prop :=
  decode [0xCC#8] = .instr (.int3 false) 1 ∧
    decode [0xCD#8, 0x21#8] = .instr (.intImm8 false 33) 2 ∧
    decode [0xCD#8, 0xFF#8] = .instr (.intImm8 false 255) 2 ∧
    decode [0xCD#8, 0x03#8] = .instr (.intImm8 false 3) 2 ∧
    decode [0xCE#8] = .instr (.into false) 1 ∧
    decode [0xF1#8] = .instr (.int1 false) 1 ∧
    decode [0xF0#8, 0xCD#8, 0x21#8] = .instr (.intImm8 true 33) 3

/-- A byte other than `CC`, `CD`, `CE`, `F1` at the opcode's place, with or without LOCK before it, is
outside the entry: the step is refused by name and no `#UD` is raised (R86, R88). `s.tick` is `s` with
its counter of free values advanced, which a step does first. How LOCK stands before an opcode is log
28. -/
def Obligations.OpcodesOutsideTheEntryAreRefused : Prop :=
  ∀ (s : State) (b : Byte), s.legalModes = true → nextEvent s.interruptFlag s.pending = none →
    s.endbranchWaits = false → b ≠ 0xCC#8 → b ≠ 0xCD#8 → b ≠ 0xCE#8 → b ≠ 0xF1#8 →
    (b ≠ 0xF0#8 → fetchByte s.tick 0 = .ok b → step s = .refused (.outsideSpec b)) ∧
      (fetchByte s.tick 0 = .ok 0xF0#8 → fetchByte s.tick 1 = .ok b →
        step s = .refused (.outsideSpec b))

/-! The step (60_exceptions.md, 10_state.md). -/

/-- When no event can be taken and the end-branch tracker does not wait, and the bytes at the
instruction pointer are those of a well-formed instruction, the step is that instruction's: `exec`
of it, which moves the pointer itself (R89, R238). `exec` runs at `s.tick`, which is `s` with the
model's counter of free values advanced. First, where those bytes lie in plain memory (R75, 20_memory.md
R51): byte `j`, when it is inside the code segment, at `RIP + j` in 64-bit mode, elsewhere at the base of
`CS` plus its offset, cut to 32 bits. That the offset is counted from the low 16 bits of `RIP` with
`CS.D = 0`, also when `RIP` is above `FFFFH`, is the model's choice (log 37). -/
def Obligations.StepRunsTheDecodedInstruction : Prop :=
  (∀ (s : State) (j off : Nat), PlainMemory s →
    (s.mode64 = true → s.rip.toNat + j < 2 ^ 64 →
      s.canonical (s.rip + BitVec.ofNat 64 j) = true →
      fetchByte s j = .ok (s.mem.read (s.rip.toNat + j))) ∧
    (s.mode64 = false → off = s.rip.toNat % (if s.cs.hid.db then 2 ^ 32 else 2 ^ 16) →
      off + j ≤ s.cs.hid.limit.toNat → off + j < (if s.cs.hid.db then 2 ^ 32 else 2 ^ 16) →
      (s.cs.hid.base.toNat + off) % 2 ^ 32 + j < 2 ^ 32 →
      fetchByte s j = .ok (s.mem.read ((s.cs.hid.base.toNat + off + j) % 2 ^ 32)))) ∧
  ∀ (s : State) (i : Instr), s.legalModes = true → i.wellFormed = true →
    nextEvent s.interruptFlag s.pending = none → s.endbranchWaits = false →
    (∀ j b, (encode i)[j]? = some b → fetchByte s.tick j = .ok b) →
    step s = exec i s.tick ∧ s.tick = { s with draws := s.draws + 1 }

/-- The oldest pending event that can be taken is delivered before the next instruction: when its
delivery ends well the step answers its end, with that event no longer pending (R235, R238). First, what
can be taken, an NMI always and an external interrupt exactly when `IF`, bit 9 of EFLAGS, is 1 (R236);
and what is delivered, the interrupt's vector or for an NMI vector 2 (presumed: log 15), of kind
`external` or `nmi`, without an error code (R235). Its place among several is the model's (log 15). -/
def Obligations.PendingEventIsDelivered : Prop :=
  (∀ (s : State) (v : BitVec 8),
    ((ExternalEvent.interrupt v).takeable s.interruptFlag = true ↔ s.eflags.getLsbD 9 = true) ∧
    ExternalEvent.nmi.takeable s.interruptFlag = true ∧
    (ExternalEvent.interrupt v).event = ⟨v.toNat, .external, none⟩ ∧
    ExternalEvent.nmi.event = ⟨2, .nmi, none⟩) ∧
  ∀ (s t : State) (e : ExternalEvent) (before after : List ExternalEvent),
    s.legalModes = true → s.pending = before ++ e :: after →
    (∀ x ∈ before, x.takeable s.interruptFlag = false) → e.takeable s.interruptFlag = true →
    deliver e.event (s.tick.setPending (before ++ after)) = .ok t →
    step s = .next t ∧ t.pending = before ++ after

/-- While `IF = 0` no maskable interrupt is taken: with nothing else pending, whatever the step does,
every one of them stays pending (R236). -/
def Obligations.MaskedInterruptsStayPending : Prop :=
  ∀ (s t : State), s.interruptFlag = false → (∀ e ∈ s.pending, e ≠ .nmi) → step s = .next t →
    t.pending = s.pending

/-- A launch state that breaks the mode invariants is refused: `LMA` without `PE` or with `VM`, `VM`
without `PE` or with `CPL` not 3, `PE = 0` with `CPL` not 0 (10_state.md R37); and in real-address and
virtual-8086 mode a segment register whose limit is not `FFFFH` or whose base is not its selector times
16 (R21). Two parts are the model's: that a state which breaks R21 is refused, and that `CS` of
real-address mode may be as power-up left it, `F000H` with base `FFFF0000H` (log 39). That the step
refuses what R37 says a model should refuse is log 21. -/
def Obligations.IllegalModesAreRefused : Prop :=
  ∀ s : State,
    ((s.lma = true ∧ (s.cr0.pe = false ∨ s.vm = true)) ∨
      (s.vm = true ∧ (s.cr0.pe = false ∨ s.cpl ≠ 3#2)) ∨ (s.cr0.pe = false ∧ s.cpl ≠ 0#2) ∨
      ((s.cr0.pe = false ∨ s.vm = true) ∧ ∃ r, r ∈ [s.cs, s.ss, s.ds, s.es, s.fs, s.gs] ∧
        (r.hid.limit ≠ 0xFFFF#32 ∨ (r.hid.base.toNat ≠ 16 * r.sel.toNat ∧
          ¬(r = s.cs ∧ s.cr0.pe = false ∧ r.sel = 0xF000#16 ∧ r.hid.base = 0xFFFF0000#64))))) →
    step s = .refused .illegalModes

/-- An instruction that begins inside the code segment and whose next byte lies outside it, or past the
top of the address space, is refused (10_state.md R15, 93 U13): `CD` or LOCK as the last byte inside,
or LOCK `CD` with only the immediate outside. Outside 64-bit mode the byte is outside when its offset
is above the limit of `CS` or the width of the pointer, or when 4 GiB lies between the linear address
of the first byte and its own; in 64-bit mode, when its address is not canonical or passes the top. Two
parts are the model's: that offsets are counted from the part of `RIP` the pointer's width names (log
37), and the refusal at the pointer's width and where addresses stop being canonical (log 14). -/
def Obligations.StraddlingInstructionIsRefused : Prop :=
  ∀ (s : State) (got : List Byte) (n off : Nat), s.legalModes = true →
    nextEvent s.interruptFlag s.pending = none → s.endbranchWaits = false →
    (got = [0xCD#8] ∨ got = [0xF0#8] ∨ got = [0xF0#8, 0xCD#8]) → n = got.length →
    (∀ j b, got[j]? = some b → fetchByte s.tick j = .ok b) →
    off = (s.ipWidth.trunc s.rip).toNat →
    ((s.mode64 = true ∧ (2 ^ 64 ≤ s.rip.toNat + n ∨
        s.canonical (s.rip + BitVec.ofNat 64 n) = false)) ∨
      (s.mode64 = false ∧ (s.cs.hid.limit.toNat < off + n ∨
        (if s.cs.hid.db then 2 ^ 32 else 2 ^ 16) ≤ off + n ∨
        2 ^ 32 ≤ (s.cs.hid.base.toNat + off) % 2 ^ 32 + n))) →
    step s = .refused .straddlesLimit

/-- While the end-branch tracker of the level in force waits, the next instruction is refused (93 U8,
42_delivery_frames.md R212). The refusal is the model's choice (log 16). -/
def Obligations.WaitingTrackerRefusesTheInstruction : Prop :=
  ∀ s : State, s.legalModes = true → nextEvent s.interruptFlag s.pending = none →
    s.endbranchEnabled s.cpl = true → (s.cetReg s.cpl).getLsbD 11 = true →
    step s = .refused .endbranchPending

/-! The instructions (40_int_instructions.md). -/

/-- `INTO` with `OF = 0`, in every mode but 64-bit mode, moves the instruction pointer past itself
and changes nothing else (R102). -/
def Obligations.IntoNotTakenOnlyAdvances : Prop :=
  ∀ s : State, s.mode64 = false → s.eflags.getLsbD 11 = false →
    exec (.into false) s = .next { s with rip := s.ipWidth.trunc (s.rip + 1#64) }

/-- `INTO` in 64-bit mode raises `#UD` whatever `OF` holds: with the invalid-opcode delivery (no error
code, the return pointer being the instruction's own address) it completes (R102, R84). That the vector
is 6 is presumed (R220; log 30). When a check fails in that delivery the run ends with a fault that names
both exceptions, which is the spec's decision D6 (R243; log 20). -/
def Obligations.IntoIsInvalidIn64BitMode : Prop :=
  ∀ (s t : State) (lock : Bool), s.lma = true → s.cs.hid.l = true →
    (deliver ⟨6, .exception, none⟩ s = .ok t → exec (.into lock) s = .next t) ∧
      ∀ x d, deliver ⟨6, .exception, none⟩ s = .error (.raise x d) →
        exec (.into lock) s = .fault (.nestedDeliveryFailed .ud x.name)

/-- Any of the four with the LOCK prefix raises `#UD` instead of executing: nothing of its own vector
is looked up, and the invalid-opcode delivery, on vector 6 (R220; log 30), is made from the state of the
instruction itself (30_encoding.md R85, 60_exceptions.md R232). When a check fails in that delivery the
run ends with a fault that names both exceptions: the source has no rule for it, and the end of the run
is the spec's decision D6 (R243; log 20). The instruction's address is that of its `F0` byte (log 28). -/
def Obligations.LockRaisesInvalidOpcode : Prop :=
  ∀ (s : State) (i : Instr), i.locked = true →
    (∀ t, deliver ⟨6, .exception, none⟩ s = .ok t → exec i s = .next t) ∧
      (∀ x d, deliver ⟨6, .exception, none⟩ s = .error (.raise x d) →
        exec i s = .fault (.nestedDeliveryFailed .ud x.name))

/-- `INT1` is refused when hardware debug takes it, and traps otherwise (R103, R116). What hardware
debug does is not described; the parameter, and the refusal, are log 29. -/
def Obligations.Int1UnderHardwareDebugIsRefused : Prop :=
  ∀ s : State, (s.cfg.int1HwDebug = true → exec (.int1 false) s = .refused .int1HardwareDebug) ∧
    (s.cfg.int1HwDebug = false → ∀ t, deliver ⟨1, .int1, none⟩ (s.setRip (nextIp s 1)) = .ok t →
      exec (.int1 false) s = .next t)

/-- `INT3` and the two-byte `CD 03` are delivered alike wherever the virtual-8086 tests do not apply
(R100, 30_encoding.md R87). -/
def Obligations.OneByteAndTwoByteBreakpointAgree : Prop :=
  ∀ s : State, (s.cr0.pe = false ∨ s.vm = false) → deliver int3Event s = deliver (intNEvent 3) s

/-- The instruction pointer after an instruction wraps at 16 bits with a 16-bit code segment, at 32
bits with a 32-bit one, at 64 bits in 64-bit mode (10_state.md R15). -/
def Obligations.NextPointerWrapsAtItsWidth : Prop :=
  ∀ (s : State) (n : Nat),
    (s.mode64 = true → (nextIp s n).toNat = (s.rip.toNat + n) % 2 ^ 64) ∧
      (s.mode64 = false → s.cs.hid.db = true → (nextIp s n).toNat = (s.rip.toNat + n) % 2 ^ 32) ∧
      (s.mode64 = false → s.cs.hid.db = false → (nextIp s n).toNat = (s.rip.toNat + n) % 2 ^ 16)

/-! Real-address and virtual-8086 mode (41_delivery_gates.md R131 to R133, 40 R107 to R112). -/

/-- Real-address mode, any event, all of memory plain: with the vector inside the table's limit and 6
bytes of room the delivery ends well. Flags, `CS`, `IP` are pushed as words, no error code; `IF`, `TF`,
`AC` are cleared; `CS:IP` comes from the table, `CS` base being selector times 16; nothing else
changes. So every trapping instruction completes there. Bits 63:16 of `RSP` stay (20_memory.md R59; log
12). The table is read after the pushes, in the order R132 and R133 write (R130; log 11), so from the
memory that holds the frame. `CS` keeps the limit and every attribute of its hidden part, which is the
model's reading of R133 (log 35); `SP` is used whatever the B attribute of `SS` (log 31); the halves of
the entry and the byte order are those the spec adopts (R64, 92 D30; log 4). -/
def Obligations.RealModeDeliveryCompletes : Prop :=
  ∀ (ev : Event) (s : State), s.cr0.pe = false → s.lma = false → PlainMemory s →
    4 * ev.vector + 3 ≤ s.idtr.limit.toNat → 6 ≤ (low16 s.rsp).toNat →
    s.ss.hid.hasRoom .sp (low16 s.rsp).toNat 6 = true →
    ∃ (m : Memory) (d : Nat) (off sel : Word16) (u : State),
      off = ((s.setMem m).value 2
        (s.idtr.base + BitVec.ofNat 64 (4 * ev.vector))).setWidth 16 ∧
      sel = ((s.setMem m).value 2
        (s.idtr.base + BitVec.ofNat 64 (4 * ev.vector) + 2#64)).setWidth 16 ∧
      u = (((((s.setMem m).setDraws d).setRip (off.setWidth 64)).setRsp
        (putLow16 s.rsp ((s.rsp - 6#64).setWidth 16))).setFlags (realFlags s.eflags)).setCs
          ⟨sel, { s.cs.hid with base := sel.setWidth 64 <<< 4 }⟩ ∧
      Frame s 2 [.word (s.eflags.setWidth 64), .selector s.cs.sel, .word s.rip] u ∧
      deliver ev s = .ok u ∧ Completes ev s u

/-- `INT3`, `INT imm8`, `INTO` with `OF = 1` and `INT1` (not taken by hardware debug), without LOCK,
complete in real-address mode: for every state with the vector inside the table's limit and 6 bytes of
room, all of memory plain, `exec` answers a next state. Flags, `CS` and the address of the following
instruction are on the stack, and `CS:IP` is the entry of the instruction's vector (R100 to R103), read
after the pushes, in the order R132 and R133 write (R130; log 11). The bits of `RSP` above `SP` stay
(log 12). First, in every mode, the whole event of each instruction: its vector, its own kind
(00_scope.md R10), no error code (60_exceptions.md R221). As in the statement before, `SP` is used
whatever the B attribute (log 31), and the entry's halves and the byte order are those the spec adopts
(log 4). -/
def Obligations.TrapsCompleteInRealAddressMode : Prop :=
  (∀ i, trapEvent i = match i with
    | .int3 _ => ⟨3, .int3, none⟩
    | .intImm8 _ n => ⟨n, .intN, none⟩
    | .into _ => ⟨4, .into, none⟩
    | .int1 _ => ⟨1, .int1, none⟩) ∧
  ∀ (i : Instr) (s : State), i.wellFormed = true → traps i s = true → s.cr0.pe = false →
    s.lma = false → PlainMemory s → 4 * (trapEvent i).vector + 3 ≤ s.idtr.limit.toNat →
    6 ≤ (low16 s.rsp).toNat → s.ss.hid.hasRoom .sp (low16 s.rsp).toNat 6 = true →
    ∃ u, exec i s = .next u ∧
      Frame s 2 [.word (s.eflags.setWidth 64), .selector s.cs.sel,
        .word (nextIp s i.opcodeLength)] u ∧
      u.rip = (s.setMem u.mem).value 2 (s.idtr.base + BitVec.ofNat 64 (4 * (trapEvent i).vector)) ∧
      u.cs.sel.setWidth 64 = (s.setMem u.mem).value 2
        (s.idtr.base + BitVec.ofNat 64 (4 * (trapEvent i).vector) + 2#64)

/-- In real-address mode a vector outside the table's limit raises `#GP`, and a stack without 6 bytes
of room raises `#SS`, neither with an error code; pushes that would wrap the pointer are refused
(R131, 20_memory.md R62). Without room means, with `sp` the value of `SP`: `sp - 1` above the limit, or
for an expand-down data segment `sp - 6` not above it. `SP` is used whatever the B attribute (log 31). -/
def Obligations.RealModeChecks : Prop :=
  ∀ (ev : Event) (s : State) (sp : Nat), s.cr0.pe = false → sp = s.rsp.toNat % 2 ^ 16 →
    (s.idtr.limit.toNat < 4 * ev.vector + 3 →
      deliver ev s = .error (.raise ⟨.gp, none, none⟩ s)) ∧
    (4 * ev.vector + 3 ≤ s.idtr.limit.toNat →
      (sp < 6 → deliver ev s = .error (.refuse .stackWrap)) ∧
      (6 ≤ sp →
        (if s.ss.hid.s = true ∧ s.ss.hid.typ.getLsbD 3 = false ∧ s.ss.hid.typ.getLsbD 2 = true then
          sp - 6 ≤ s.ss.hid.limit.toNat
        else s.ss.hid.limit.toNat < sp - 1) →
        deliver ev s = .error (.raise ⟨.ss, none, none⟩ s)))

/-- What a return pops in real-address mode is what the delivery pushed: the instruction pointer, `CS`
and the flags before the clears, and the stack pointer is where it was (60_exceptions.md R245). Two
parts are not the spec's own words: that a return pops in the reverse order, which R245 infers by
symmetry and the model has as `popSlots`, a function beside the delivery that no step calls (log 24);
and that the stack pointer comes back whole, which rests on the bits of `RSP` above `SP` being kept
(log 12). `SP` is used whatever the B attribute (log 31). -/
def Obligations.ReturnPopsTheRealModeFrame : Prop :=
  ∀ (ev : Event) (s u : State), s.cr0.pe = false → s.lma = false → PlainMemory s →
    deliver ev s = .ok u →
    popSlots 2 3 u = .ok ([low16 s.rip, s.cs.sel.setWidth 64, (s.eflags.setWidth 16).setWidth 64],
      u.setRsp s.rsp)

/-- In virtual-8086 mode with `CR4.VME = 0` and `IOPL < 3`, `INT n` raises `#GP(0)`, taken from the
state of the instruction itself, so its return pointer addresses the instruction (R108). -/
def Obligations.Virtual8086IoplCheck : Prop :=
  ∀ (s : State) (imm8 : Nat), s.cr0.pe = true → s.vm = true → s.cr4.vme = false → s.iopl ≠ 3#2 →
    exec (.intImm8 false imm8) s =
      raiseException ⟨.gp, some 0#32, none⟩ (s.setDraws (s.draws + 1))

/-- `INT3`, `INTO` and `INT1` in virtual-8086 mode pass neither the IOPL check nor the redirection,
whatever `IOPL` and `CR4.VME` are: they go to the protected-mode procedure (R105). -/
def Obligations.OtherTrapsSkipTheVirtual8086Tests : Prop :=
  ∀ (s : State) (i : Instr), s.cr0.pe = true → s.lma = false → (∀ l n, i ≠ .intImm8 l n) →
    deliver (trapEvent i) s = protectedMode (trapEvent i) s

/-- VME redirection, the vector's bit clear and room for 6 bytes: the flags' low word (with `VIF` in
the place of `IF` and 3 in the place of `IOPL` when `IOPL < 3`), `CS` and `IP` are pushed on the task's
own stack, `CS:IP` comes from the 4-byte entry of the vector table at `V86_IVT_BASE`, its low half the
offset, and nothing else changes (R110; `SP` whatever the B attribute, bits 63:16 of `RSP` kept, room
by 20_memory.md R62: logs 31, 12, 41). The table is read after the pushes, as R110 writes it. A map
without a location, whose bit is any value, is covered. First, the vector's bit where the map has one
(R109, R70, a parameter: log 18): bit `n mod 8` of byte `n div 8`, usually of the 32 bytes below the
I/O permission bit map, whose 16-bit base is in the 32-bit TSS. `CS` keeps the limit and every
attribute of its hidden part, which is the model's reading (log 35): the D attribute so kept decides
the width of the next pointer. The pushed image is the spec's decision 92 D29, the layout of the entry
92 D30 (log 4); for the order of pushes and table read see also log 11. -/
def Obligations.VmeRedirectionCompletes : Prop :=
  (∀ (s : State) (n field off : Nat), PlainMemory s →
    (s.cfg.redirectionMap = .belowIoMap field → s.tr.format = .tss32 →
      redirectionBit n s = .ok ((s.bytesAt (s.tr.base +
        s.value 2 (s.tr.base + BitVec.ofNat 64 field) - 32#64 + BitVec.ofNat 64 (n / 8)) 0).getLsbD
          (n % 8))) ∧
    (s.cfg.redirectionMap = .inTss off →
      redirectionBit n s = .ok ((s.bytesAt (s.tr.base + BitVec.ofNat 64 off +
        BitVec.ofNat 64 (n / 8)) 0).getLsbD (n % 8)))) ∧
  ∀ (ev : Event) (s : State), s.cr0.pe = true → s.lma = false → s.vm = true → s.cr4.vme = true →
    ev.kind = .intN → PlainMemory s → redirectionBit ev.vector s = .ok false →
    6 ≤ (low16 s.rsp).toNat → s.ss.hid.hasRoom .sp (low16 s.rsp).toNat 6 = true →
    ∃ (m : Memory) (d : Nat) (q : Word64) (sel : Word16) (u : State),
      q = (s.setMem m).value 4 (s.cfg.v86IvtBase + BitVec.ofNat 64 (4 * ev.vector)) ∧
      sel = q.extractLsb' 16 16 ∧
      u = (((((s.setMem m).setDraws d).setRip (low16 q)).setRsp
        (putLow16 s.rsp ((s.rsp - 6#64).setWidth 16))).setFlags
          (redirectFlags s.iopl s.eflags)).setCs
            ⟨sel, { s.cs.hid with base := sel.setWidth 64 <<< 4 }⟩ ∧
      Frame s 2 [.word ((redirectImage s.eflags).setWidth 64), .selector s.cs.sel, .word s.rip] u ∧
      deliver ev s = .ok u ∧ Completes ev s u

/-- VME, the vector's bit set: with `IOPL = 3` the protected-mode procedure, with `IOPL < 3` `#GP(0)`
(R111). What that procedure checks and does for this form the statements over `ReachesIdt`, which takes
it in, say: the gate, the code segment, the new stack, the frame and its completion. -/
def Obligations.VmeRedirectionBitSet : Prop :=
  ∀ (ev : Event) (s : State), s.cr0.pe = true → s.vm = true → s.cr4.vme = true →
    ev.kind = .intN → redirectionBit ev.vector s = .ok true →
    (s.iopl = 3#2 → deliver ev s = protectedMode ev s ∧ (s.lma = false → ReachesIdt ev s)) ∧
    (s.iopl ≠ 3#2 → deliver ev s = .error (.raise ⟨.gp, some 0#32, none⟩ s))

/-- VME redirection, the vector's bit clear, without room for 6 bytes raises `#SS(0)`; pushes that
would wrap the pointer are refused (R110, 20_memory.md R62, 93 U21). That `SP` below 6 is refused (R62,
93 U12) and not `#SS(0)`, and that R62 says what room is, are the model's choice (log 41). `SP` is used
whatever the B attribute (log 31). -/
def Obligations.VmeRedirectionNeedsRoom : Prop :=
  ∀ (ev : Event) (s : State), s.cr0.pe = true → s.vm = true → s.cr4.vme = true →
    ev.kind = .intN → redirectionBit ev.vector s = .ok false →
    ((low16 s.rsp).toNat < 6 → deliver ev s = .error (.refuse .stackWrap)) ∧
    (6 ≤ (low16 s.rsp).toNat → s.ss.hid.hasRoom .sp (low16 s.rsp).toNat 6 = false →
      deliver ev s = .error (.raise ⟨.ss, some 0#32, none⟩ s))

/-! Flags (10_state.md R18, R19). -/

/-- Which bits each kind of delivery clears: real-address mode `TF`, `IF`, `AC`; a gate `TF`, `NT`,
`RF`, `VM`, and `IF` unless it is a trap gate; a VME redirection `TF` and `IF` (`IOPL = 3`) or `VIF`.
No other bit changes (R19, 41 R132, 42 R184, R190, R199, 40 R110). -/
def Obligations.FlagClearsOfEachPath : Prop :=
  ∀ (f : Word32) (trap : Bool) (p : BitVec 2) (k : Nat),
    (realFlags f).getLsbD k = (f.getLsbD k && decide (k ≠ 8 ∧ k ≠ 9 ∧ k ≠ 18)) ∧
    (gateFlags trap f).getLsbD k =
      (f.getLsbD k && decide (k ≠ 8 ∧ k ≠ 14 ∧ k ≠ 16 ∧ k ≠ 17 ∧ (trap = false → k ≠ 9))) ∧
    (redirectFlags p f).getLsbD k =
      (f.getLsbD k && decide (k ≠ 8 ∧ (p = 3#2 → k ≠ 9) ∧ (p ≠ 3#2 → k ≠ 19)))

/-- The flags image a VME redirection pushes: the low word as it is when `IOPL = 3`; when `IOPL < 3`,
bit 9 is `VIF`, bits 12 and 13 are 1, and the other bits are as they are (40 R110). The bit positions,
and that the other bits stay, are the spec's decision 92 D29. -/
def Obligations.RedirectionImageBits : Prop :=
  ∀ (f : Word32) (k : Nat), k < 16 →
    (redirectImage f).getLsbD k =
      if f.extractLsb' 12 2 = 3#2 then f.getLsbD k
      else if k = 9 then f.getLsbD 19 else if k = 12 ∨ k = 13 then true else f.getLsbD k

/-- Over a step, and over any instruction, no flag is set, and the only flags cleared are `TF`, `IF`,
`NT`, `RF`, `VM`, `AC`, `VIF`: the arithmetic flags, `IOPL` and every reserved bit stay (R19, R114). -/
def Obligations.FlagsAreOnlyCleared : Prop :=
  ∀ (s t : State), Runs s t → ∀ k,
    (t.eflags.getLsbD k = true → s.eflags.getLsbD k = true) ∧
    (s.eflags.getLsbD k = true → t.eflags.getLsbD k = false →
      k = 8 ∨ k = 9 ∨ k = 14 ∨ k = 16 ∨ k = 17 ∨ k = 18 ∨ k = 19)

/-! Gates and code segments (41_delivery_gates.md R134 to R156). -/

/-- The checks of the IDT entry, in their order (R134 to R136, R139 to R141): outside the limit, which
must reach byte 8v + 7, in IA-32e mode 16v + 15 (20_memory.md R63), or not canonical, or no gate,
`#GP(vector)`; a software interrupt through a gate of too low a DPL, `#GP(vector)` with `EXT = 0`,
whether the gate is present or not; not present, `#NP(vector)`. Software interrupts are exactly `INT n`,
`INT3` and `INTO`, and `EXT` is 1 for every other event (00_scope.md R10, R223). The entry's fields stand
where `GateBytes` says (20_memory.md R65, R66; log 4). -/
def Obligations.GateChecksInOrder : Prop :=
  ∀ (ev : Event) (s : State) (g : Gate) (sw : Bool) (v : Nat), ReachesIdt ev s → v = ev.vector →
    (sw = true ↔ ev.kind = .intN ∨ ev.kind = .int3 ∨ ev.kind = .into) →
    (ev.kind.software = sw ∧ ev.ext = !sw) ∧
    ((if s.lma then s.idtr.limit.toNat < 16 * v + 15 ∨ ∃ j, j < 16 ∧
          s.canonical (s.idtr.base + BitVec.ofNat 64 (16 * v) + BitVec.ofNat 64 j) = false
        else s.idtr.limit.toNat < 8 * v + 7) →
      deliver ev s = .error (.raise ⟨.gp, some (errorCode v true (!sw)), none⟩ s)) ∧
    (GateRead ev g s → g.typ = none →
      deliver ev s = .error (.raise ⟨.gp, some (errorCode v true (!sw)), none⟩ s)) ∧
    (GateRead ev g s → g.typ ≠ none → sw = true → g.dpl < s.cpl →
      deliver ev s = .error (.raise ⟨.gp, some (errorCode v true false), none⟩ s)) ∧
    (GateRead ev g s → g.typ ≠ none → (sw = true → s.cpl ≤ g.dpl) → g.present = false →
      deliver ev s = .error (.raise ⟨.np, some (errorCode v true (!sw)), none⟩ s)) ∧
    (PlainMemory s → ∃ g', (if s.lma then readGate64 s v else readGate32 s v) = .ok g' ∧
      GateBytes s.lma
        (s.bytesAt (s.idtr.base + BitVec.ofNat 64 ((if s.lma then 16 else 8) * v))) g')

/-- A delivery through an interrupt or trap gate whose checks pass goes on to its code segment: the DPL
of the gate counts for `INT n`, `INT3` and `INTO` alone, so `INT1`, interrupts, NMIs and exceptions pass
a gate of lower DPL. There the checks are, in their order (R148 to R152): a NULL selector `#GP(EXT)`;
outside its table, which must reach byte 8 index + 7 (20_memory.md R67), or in IA-32e mode its descriptor
not canonical (each of its 8 bytes: log 13), `#GP(selector)`; no code segment, DPL above CPL, or in
IA-32e mode not a 64-bit one, `#GP(selector)`; not present `#NP(selector)`. The descriptor's fields stand
where `DescriptorBytes` says (20_memory.md R68; log 4), whatever it is read for. -/
def Obligations.CodeSegmentChecksInOrder : Prop :=
  ∀ (ev : Event) (size : GateSize) (trap : Bool) (g : Gate) (s : State) (sw : Bool) (i : Nat),
    (sw = true ↔ ev.kind = .intN ∨ ev.kind = .int3 ∨ ev.kind = .into) → i = g.sel.toNat / 8 →
    (ReachesIdt ev s → GateRead ev g s → g.typ = some (.procedure size trap) → g.present = true →
      (sw = true → s.cpl ≤ g.dpl) → deliver ev s = trapOrInterruptGate ev size trap g s) ∧
    (g.sel.toNat < 4 → trapOrInterruptGate ev size trap g s =
      .error (.raise ⟨.gp, some (extCode (!sw)), none⟩ s)) ∧
    (4 ≤ g.sel.toNat → (s.limitFor g.sel < 8 * i + 7 ∨ (s.lma = true ∧ ∃ j, j < 8 ∧
        s.canonical (s.placeFor g.sel + BitVec.ofNat 64 j) = false)) →
      trapOrInterruptGate ev size trap g s =
        .error (.raise ⟨.gp, some (errorCode g.sel.toNat false (!sw)), none⟩ s)) ∧
    (4 ≤ g.sel.toNat → 8 * i + 7 ≤ s.limitFor g.sel →
      (s.lma = true → ∀ j, j < 8 →
        s.canonical (s.placeFor g.sel + BitVec.ofNat 64 j) = true) →
      ∀ h, readDescriptor s .codeDescriptor g.sel = .ok h →
      ((h.s = false ∨ h.typ.getLsbD 3 = false ∨ s.cpl < h.dpl ∨
          (s.lma = true ∧ (h.l = false ∨ h.db = true))) →
        trapOrInterruptGate ev size trap g s =
          .error (.raise ⟨.gp, some (errorCode g.sel.toNat false (!sw)), none⟩ s)) ∧
      (h.s = true → h.typ.getLsbD 3 = true → h.dpl ≤ s.cpl →
        (s.lma = true → h.l = true ∧ h.db = false) → h.present = false →
        trapOrInterruptGate ev size trap g s =
          .error (.raise ⟨.np, some (errorCode g.sel.toNat false (!sw)), none⟩ s))) ∧
    (PlainMemory s → ∀ u, ∃ h, readDescriptor s u g.sel = .ok h ∧
      DescriptorBytes (s.bytesAt (s.placeFor g.sel)) h)

/-- Where an open gate leads (R153, R154): inter-privilege for a non-conforming segment of DPL below
CPL; from virtual-8086 mode only a non-conforming ring-0 segment is reachable, any other raises
`#GP(selector)`; else intra-privilege. -/
def Obligations.OpenGateRouting : Prop :=
  ∀ (ev : Event) (t : Target) (s : State), Opens ev t s →
    (s.vm = false → t.desc.conforming = false → t.desc.dpl < s.cpl →
      deliver ev s = interPrivilege ev t s) ∧
    (s.vm = false → (t.desc.conforming = true ∨ t.desc.dpl = s.cpl) →
      deliver ev s = intraPrivilege ev t s) ∧
    (s.vm = true → s.lma = false → t.desc.conforming = false → t.desc.dpl < s.cpl →
      t.desc.dpl = 0#2 → deliver ev s = fromVirtual8086 ev t s) ∧
    (s.vm = true → s.lma = false →
      (t.desc.conforming = true ∨ t.desc.dpl ≠ 0#2 ∨ t.desc.dpl = s.cpl) →
      deliver ev s =
        .error (.raise ⟨.gp, some (errorCode t.gate.sel.toNat false ev.ext), none⟩ s))

/-- A task gate (R143 to R147): a NULL selector, which the exception lists alone name (60_exceptions.md
R227, R229), `#GP(EXT)`, tested before the descriptor is read, which is the model's choice (log 42); a
local selector or one outside the GDT, `#GP(selector)`; a descriptor that is not an available TSS,
`#GP(selector)`; not present, `#NP(selector)`; else the task switch is reached, which is refused. The
refusal is log 19. -/
def Obligations.TaskGateChecksThenRefusal : Prop :=
  ∀ (ev : Event) (s : State) (g : Gate) (tss : Hidden), ReachesIdt ev s → s.lma = false →
    GateRead ev g s → g.typ = some .task → (ev.kind.software = true → s.cpl ≤ g.dpl) →
    g.present = true →
    (g.sel.toNat < 4 → deliver ev s = .error (.raise ⟨.gp, some (extCode ev.ext), none⟩ s)) ∧
    (4 ≤ g.sel.toNat →
      (g.sel.getLsbD 2 = true ∨ s.gdtr.limit.toNat < 8 * (g.sel.toNat / 8) + 7) → deliver ev s =
        .error (.raise ⟨.gp, some (errorCode g.sel.toNat false ev.ext), none⟩ s)) ∧
    (4 ≤ g.sel.toNat → g.sel.getLsbD 2 = false → 8 * (g.sel.toNat / 8) + 7 ≤ s.gdtr.limit.toNat →
      readDescriptor s .taskDescriptor g.sel = .ok tss →
      (tss.isAvailableTss = false → deliver ev s =
        .error (.raise ⟨.gp, some (errorCode g.sel.toNat false ev.ext), none⟩ s)) ∧
      (tss.isAvailableTss = true → tss.present = false → deliver ev s =
        .error (.raise ⟨.np, some (errorCode g.sel.toNat false ev.ext), none⟩ s)) ∧
      (tss.isAvailableTss = true → tss.present = true →
        deliver ev s = .error (.refuse .taskSwitch)))

/-! Frames (42_delivery_frames.md). -/

/-- The new stack from a 32-bit or 16-bit TSS, in plain memory (R171 to R173, R186, R187): the TSS
limit, then the selector (NULL; table limits and RPL), then the descriptor (DPL and writable data; then
present), each with its exception; when all pass, the selector with its descriptor, and the pointer.
Which of the two formats the TSS has is a field of the task register (log 10); the layouts are those
the spec adopts (log 4). -/
def Obligations.NewStackFromTheTss : Prop :=
  ∀ (ev : Event) (d : BitVec 2) (s : State) (w off : Nat) (sel : Word16) (h : Hidden),
    PlainMemory s → (s.tr.format = .tss32 → w = 4 ∧ off = 8 * d.toNat + 4) →
    (s.tr.format = .tss16 → w = 2 ∧ off = 4 * d.toNat + 2) →
    sel = (s.value 2 (s.tr.base + BitVec.ofNat 64 (off + w))).setWidth 16 →
    DescriptorBytes (s.bytesAt (s.placeFor sel)) h →
    newStackLegacy ev d s =
      if s.tr.limit.toNat < off + w + 1 then
        .error (.raise ⟨.ts, some (errorCode s.tr.sel.toNat false ev.ext), none⟩ s)
      else if sel.toNat < 4 then .error (.raise ⟨.ts, some (extCode ev.ext), none⟩ s)
      else if s.limitFor sel < 8 * (sel.toNat / 8) + 7 ∨ sel.toNat % 4 ≠ d.toNat then
        .error (.raise ⟨.ts, some (errorCode sel.toNat false ev.ext), none⟩ s)
      else if h.dpl ≠ d ∨ h.isWritableData = false then
        .error (.raise ⟨.ts, some (errorCode sel.toNat false ev.ext), none⟩ s)
      else if h.present = false then
        .error (.raise ⟨.ss, some (errorCode sel.toNat false ev.ext), none⟩ s)
      else .ok (⟨sel, h⟩, s.value w (s.tr.base + BitVec.ofNat 64 off))

/-- The new stack pointer from a 64-bit TSS, in plain memory (R174): at `8 d + 4`, or at `8 k + 28` for
a gate with IST `k`; a TSS too small, or a byte of the field whose address is not canonical (that all 8
must be is the model's: log 13), raises `#TS`. The new `SS` is the NULL selector with RPL `d`; the DPL
of its hidden part is the model's (log 9). So too for the IST stack of an intra-privilege delivery
(R193): the pointer at `8 k + 28`, and the same `#TS`. The byte order is log 4. -/
def Obligations.NewStackFromThe64BitTss : Prop :=
  ∀ (ev : Event) (t : Target) (s : State) (off : Nat), PlainMemory s → s.lma = true →
    (t.gate.ist = 0#3 → off = 8 * t.desc.dpl.toNat + 4) →
    (t.gate.ist ≠ 0#3 → off = 8 * t.gate.ist.toNat + 28) →
    ((s.tr.limit.toNat < off + 7 ∨ ∃ j, j < 8 ∧
        s.canonical (s.tr.base + BitVec.ofNat 64 off + BitVec.ofNat 64 j) = false) →
      newStack ev t s =
        .error (.raise ⟨.ts, some (errorCode s.tr.sel.toNat false ev.ext), none⟩ s)) ∧
    (off + 7 ≤ s.tr.limit.toNat →
      (∀ j, j < 8 → s.canonical (s.tr.base + BitVec.ofNat 64 off + BitVec.ofNat 64 j) = true) →
      newStack ev t s =
        .ok (⟨t.desc.dpl.setWidth 16, { Config.hiddenPart s.draws with dpl := t.desc.dpl }⟩,
          s.value 8 (s.tr.base + BitVec.ofNat 64 off), s.setDraws (s.draws + 1)) ∧
        newStack64 ev off s = .ok (s.value 8 (s.tr.base + BitVec.ofNat 64 off))) ∧
    (t.gate.ist ≠ 0#3 → (s.tr.limit.toNat < off + 7 ∨ ∃ j, j < 8 ∧
        s.canonical (s.tr.base + BitVec.ofNat 64 off + BitVec.ofNat 64 j) = false) →
      intraPrivilege ev t s =
        .error (.raise ⟨.ts, some (errorCode s.tr.sel.toNat false ev.ext), none⟩ s))

/-- Intra-privilege delivery outside IA-32e mode, in plain memory with CET off and no push that raises
`#AC` (R193 to R199): flags, return pointer and error code, if any, are pushed on the current stack at
the gate's width; `CS` takes the gate's selector with RPL the unchanged `CPL`; nothing else changes.
First, where a frame lies (20_memory.md R59, R60): with `b` the bits of the pointer, 16 in real-address
and virtual-8086 mode and with a 16-bit stack segment, else 32, and 64 for 8-byte pushes, `n` pushes of
`w` bytes that do not wrap lower the pointer by `w n`, and slot `k` is `w (k + 1)` bytes below the old
top; outside 8-byte pushes the base of `SS` is added and the sum cut to 32 bits. Two parts are the
model's reading: 16 bits in virtual-8086 mode whatever the B attribute, where R59 speaks of
real-address mode alone and 40 R110 writes `SS:SP` (log 31), and that the bits of `RSP` above the
pointer stay (log 12). Then what every frame through a gate shares: an event without an error code has
no slot for one, an event with the code `c` exactly one, which holds `c` zero-extended, or its low 16
bits in 2 bytes (R61, R221, R244; log 32); and `withRpl` replaces bits 1:0 of a selector and keeps bits
15:2 (R156). The byte order is log 4; that no accessed bit of a descriptor is set, so that no other
byte changes, is log 26; where `#AC` is tested is log 25. -/
def Obligations.IntraPrivilegeCompletes : Prop :=
  (∀ (ev : Event) (c : Word32) (sel : Word16) (p : BitVec 2),
    (ev.code = none → ev.codeSlots = []) ∧
    (ev.code = some c → ev.codeSlots = [.word (c.setWidth 64)]) ∧
    (withRpl sel p).extractLsb' 0 2 = p ∧
    (withRpl sel p).extractLsb' 2 14 = sel.extractLsb' 2 14) ∧
  (∀ (s : State) (w n b : Nat),
    b = (if w = 8 then 64 else if s.cr0.pe = false ∨ s.vm = true then 16
      else if s.ss.hid.db then 32 else 16) →
    w * n ≤ s.rsp.toNat % 2 ^ b →
    (s.afterPushes w n).rsp.toNat = s.rsp.toNat - w * n ∧
    ∀ k, k < n → (s.slotAddr w k).toNat =
      if w = 8 then s.rsp.toNat - w * (k + 1)
      else (s.ss.hid.base.toNat + (s.rsp.toNat % 2 ^ b - w * (k + 1))) % 2 ^ 32) ∧
  ∀ (ev : Event) (t : Target) (s : State), Opens ev t s → s.lma = false → s.vm = false →
    (t.desc.conforming = true ∨ t.desc.dpl = s.cpl) → PlainMemory s → CetOff s →
    t.aligned (3 + ev.codeSlots.length) s →
    t.size.width * (3 + ev.codeSlots.length) ≤
      ((s.ptrWidth t.size.width).trunc s.rsp).toNat →
    s.ss.hid.hasRoom (s.ptrWidth t.size.width) ((s.ptrWidth t.size.width).trunc s.rsp).toNat
      (t.size.width * (3 + ev.codeSlots.length)) = true →
    t.gate.offset.toNat ≤ t.desc.limit.toNat →
    ∃ (m : Memory) (d : Nat) (u : State),
      u = (((((s.setMem m).setDraws d).setRip t.gate.offset).setRsp
        (s.afterPushes t.size.width (3 + ev.codeSlots.length)).rsp).setFlags
          (gateFlags t.trap s.eflags)).setCs ⟨withRpl t.gate.sel s.cpl, t.desc⟩ ∧
      Frame s t.size.width ([.word (s.eflags.setWidth 64), .selector s.cs.sel, .word s.rip] ++
        ev.codeSlots) u ∧
      deliver ev s = .ok u ∧ Completes ev s u

/-- Intra-privilege delivery in IA-32e mode, in plain memory with CET off, whatever alignment checking
is (R193 to R199): the stack is the IST stack or the current one, rounded down to 16; the old `SS` and
`RSP` are pushed always, then flags, return pointer and error code, 8 bytes each; `SS` does not change.
Which bytes must be canonical, and that 8-byte pushes add no base, is log 13; the slot of the error
code is log 32. The byte order is log 4; that no accessed bit of a descriptor is set, so that no other
byte changes, is log 26. -/
def Obligations.IntraPrivilege64Completes : Prop :=
  ∀ (ev : Event) (t : Target) (s : State) (ptr : Word64), Opens ev t s → s.lma = true →
    s.vm = false → (t.desc.conforming = true ∨ t.desc.dpl = s.cpl) → PlainMemory s →
    CetOff s →
    (t.gate.ist = 0#3 → ptr = s.rsp) →
    (t.gate.ist ≠ 0#3 → newStack64 ev (8 * t.gate.ist.toNat + 28) s = .ok ptr) →
    s.canonical ptr = true →
    (∀ j, j < 8 * (5 + ev.codeSlots.length) → s.canonical ((ptr &&& ~~~15#64) -
      BitVec.ofNat 64 (8 * (5 + ev.codeSlots.length)) + BitVec.ofNat 64 j) = true) →
    s.canonical t.gate.offset = true →
    ∃ (m : Memory) (d : Nat) (u : State),
      u = (((((s.setMem m).setDraws d).setRip t.gate.offset).setRsp
        ((ptr &&& ~~~15#64) - BitVec.ofNat 64 (8 * (5 + ev.codeSlots.length)))).setFlags
          (gateFlags t.trap s.eflags)).setCs ⟨withRpl t.gate.sel s.cpl, t.desc⟩ ∧
      Frame (s.setRsp (ptr &&& ~~~15#64)) 8 ([.selector s.ss.sel, .word s.rsp,
        .word (s.eflags.setWidth 64), .selector s.cs.sel, .word s.rip] ++ ev.codeSlots) u ∧
      deliver ev s = .ok u ∧ Completes ev s u

/-- Inter-privilege delivery, in plain memory with CET off and no push that raises `#AC` (R170 to
R185): on the new stack, which `entry` is on, the old `SS` and stack pointer, flags, return pointer and
error code; then `CPL` is the new segment's DPL, `SS` the new stack segment, `CS` the gate's selector
with RPL the new `CPL`; nothing else changes. `s1` is `s` with at most a draw counted. The bits of
`RSP` above 31 stay outside IA-32e mode (log 12); the hidden part of `SS` in IA-32e mode, which
`newStack` gives, is log 9; which bytes must be canonical there is log 13; the slot of the error code
is log 32. The byte order is log 4; that no accessed bit of a descriptor is set, so that no other byte
changes, is log 26; where `#AC` is tested is log 25. -/
def Obligations.InterPrivilegeCompletes : Prop :=
  ∀ (ev : Event) (t : Target) (s s1 : State) (ss : SegReg) (ptr : Word64), Opens ev t s →
    s.vm = false → t.desc.conforming = false → t.desc.dpl < s.cpl → PlainMemory s →
    CetOff s → t.aligned (5 + ev.codeSlots.length) (enterStack ss ptr s) →
    newStack ev t s = .ok (ss, ptr, s1) →
    newStackRoom ev t ss ptr (t.size.width * (5 + ev.codeSlots.length)) s = .ok () →
    t.offsetOk s = true →
    ∃ (m : Memory) (d : Nat) (u entry : State), EntersStack ss ptr s entry ∧
      u = (((((((s.setMem m).setDraws d).setRip t.gate.offset).setRsp
        (entry.afterPushes t.size.width (5 + ev.codeSlots.length)).rsp).setFlags
          (gateFlags t.trap s.eflags)).setCs ⟨withRpl t.gate.sel t.desc.dpl, t.desc⟩).setSs
            ss).setCpl t.desc.dpl ∧
      Frame entry t.size.width ([.selector s.ss.sel, .word s.rsp,
        .word (s.eflags.setWidth 64), .selector s.cs.sel, .word s.rip] ++ ev.codeSlots) u ∧
      deliver ev s = .ok u ∧ Completes ev s u

/-- Delivery from virtual-8086 mode, in plain memory with CET off and no push that raises `#AC` (R186
to R192), an `INT n` with `IOPL = 3` among them, with `CR4.VME = 1` when its redirection bit is set
(R111): on the ring-0 stack, which `entry` is on once the flags are cleared, `GS`, `FS`, `DS`, `ES`,
the old `SS` and `ESP`, the flags with `VM` still set, the return pointer and error code; then `CPL` is
0, the four data segment registers hold selector 0, and nothing else changes. The bits of `RSP` above
31 stay (log 12); the hidden parts of the four are any value (log 9); that the error code is pushed,
after `EIP`, is the spec's inference (90_conflicts.md C17), its slot log 32. The byte order is log 4;
that no accessed bit of a descriptor is set, so that no other byte changes, is log 26; where `#AC` is
tested is log 25. -/
def Obligations.FromVirtual8086Completes : Prop :=
  ∀ (ev : Event) (t : Target) (s : State) (ss : SegReg) (ptr : Word64), Opens ev t s →
    s.vm = true → s.lma = false → t.desc.conforming = false → t.desc.dpl = 0#2 → s.cpl = 3#2 →
    PlainMemory s → CetOff (s.setFlags (gateFlags t.trap s.eflags)) →
    t.aligned (9 + ev.codeSlots.length)
      (enterStack ss ptr (s.setFlags (gateFlags t.trap s.eflags))) →
    newStackLegacy ev 0#2 s = .ok (ss, ptr) →
    newStackRoom ev t ss ptr (t.size.width * (9 + ev.codeSlots.length)) s = .ok () →
    t.gate.offset.toNat ≤ t.desc.limit.toNat →
    ∃ (m : Memory) (d n : Nat) (u entry : State),
      EntersStack ss ptr (s.setFlags (gateFlags t.trap s.eflags)) entry ∧
      u = ((((((((s.setMem m).setDraws d).setRip t.gate.offset).setRsp
        (entry.afterPushes t.size.width (9 + ev.codeSlots.length)).rsp).setFlags
          (gateFlags t.trap s.eflags)).setCs ⟨withRpl t.gate.sel 0#2, t.desc⟩).setSs ss).setData
            ⟨0#16, Config.hiddenPart n⟩ ⟨0#16, Config.hiddenPart (n + 1)⟩
            ⟨0#16, Config.hiddenPart (n + 2)⟩ ⟨0#16, Config.hiddenPart (n + 3)⟩).setCpl 0#2 ∧
      Frame entry t.size.width ([.selector s.gs.sel, .selector s.fs.sel, .selector s.ds.sel,
        .selector s.es.sel, .selector s.ss.sel, .word s.rsp, .word (s.eflags.setWidth 64),
        .selector s.cs.sel, .word s.rip] ++ ev.codeSlots) u ∧
      deliver ev s = .ok u ∧ Completes ev s u

/-- The stack check of a delivery outside IA-32e mode, then its instruction-pointer check (R176, R177;
from virtual-8086 mode, with nine slots, R188, R189; intra-privilege R195, R196): without room `#SS(new
SS)` on a new stack and `#SS(EXT)` on the current one, pushes that would wrap the pointer refused
(20_memory.md R62); then, for an offset outside the code segment, `#GP(EXT)`. First, which pointer a
push uses (R59): `RSP` for 8 bytes, `SP` in real-address and virtual-8086 mode, else `ESP` or `SP` as
the B attribute of `SS` is 1 or 0, and so for the room on a new stack; `SP` in virtual-8086 mode
whatever the B attribute is the model's reading of 40 R110 (log 31); and what room for `n` bytes below
`sp` is (R62): in an expand-down data segment `sp - n` above the limit and `sp - 1` within the
pointer's width, in any other segment `sp - 1` at most the limit. What room is, and the refusal, are
R62's definition, the spec's own (92 D11). -/
def Obligations.StackThenPointerChecks : Prop :=
  (∀ (s : State) (h : Hidden) (p : PtrWidth) (w : Nat) (v : Word64),
    h.ptrWidth = (if h.db = true then .esp else .sp) ∧
    s.ptrWidth w = (if w = 8 then .rsp else if s.cr0.pe = false ∨ s.vm = true then .sp
      else if s.ss.hid.db = true then .esp else .sp) ∧
    (p.trunc v).toNat = v.toNat % 2 ^ (match p with
      | .sp => 16
      | .esp => 32
      | .rsp => 64)) ∧
  (∀ (h : Hidden) (p : PtrWidth) (sp n : Nat), h.hasRoom p sp n = true ↔
    if h.s = true ∧ h.typ.getLsbD 3 = false ∧ h.typ.getLsbD 2 = true then
      h.limit.toNat < sp - n ∧ sp - 1 ≤ 2 ^ (match p with
        | .sp => 16
        | .esp => 32
        | .rsp => 64) - 1
    else sp - 1 ≤ h.limit.toNat) ∧
  ∀ (ev : Event) (t : Target) (s : State) (ss : SegReg) (ptr : Word64) (n n9 k cur new : Nat),
    s.lma = false → t.size ≠ .bits64 → n = t.size.width * (5 + ev.codeSlots.length) →
    n9 = t.size.width * (9 + ev.codeSlots.length) →
    k = t.size.width * (3 + ev.codeSlots.length) → new = (ss.hid.ptrWidth.trunc ptr).toNat →
    cur = ((s.ptrWidth t.size.width).trunc s.rsp).toNat →
    (newStackLegacy ev t.desc.dpl s = .ok (ss, ptr) →
      (new < n → interPrivilege ev t s = .error (.refuse .stackWrap)) ∧
      (n ≤ new → ss.hid.hasRoom ss.hid.ptrWidth new n = false → interPrivilege ev t s =
        .error (.raise ⟨.ss, some (errorCode ss.sel.toNat false ev.ext), none⟩ s)) ∧
      (n ≤ new → ss.hid.hasRoom ss.hid.ptrWidth new n = true →
        t.desc.limit.toNat < t.gate.offset.toNat →
        interPrivilege ev t s = .error (.raise ⟨.gp, some (extCode ev.ext), none⟩ s))) ∧
    (newStackLegacy ev 0#2 s = .ok (ss, ptr) →
      (new < n9 → fromVirtual8086 ev t s = .error (.refuse .stackWrap)) ∧
      (n9 ≤ new → ss.hid.hasRoom ss.hid.ptrWidth new n9 = false → fromVirtual8086 ev t s =
        .error (.raise ⟨.ss, some (errorCode ss.sel.toNat false ev.ext), none⟩ s)) ∧
      (n9 ≤ new → ss.hid.hasRoom ss.hid.ptrWidth new n9 = true →
        t.desc.limit.toNat < t.gate.offset.toNat →
        fromVirtual8086 ev t s = .error (.raise ⟨.gp, some (extCode ev.ext), none⟩ s))) ∧
    (cur < k → intraPrivilege ev t s = .error (.refuse .stackWrap)) ∧
    (k ≤ cur → s.ss.hid.hasRoom (s.ptrWidth t.size.width) cur k = false →
      intraPrivilege ev t s = .error (.raise ⟨.ss, some (extCode ev.ext), none⟩ s)) ∧
    (k ≤ cur → s.ss.hid.hasRoom (s.ptrWidth t.size.width) cur k = true →
      t.desc.limit.toNat < t.gate.offset.toNat →
      intraPrivilege ev t s = .error (.raise ⟨.gp, some (extCode ev.ext), none⟩ s))

/-- The same checks in IA-32e mode (R176, R177, R195, R196): the pointer, or one of the `n` bytes of
the frame below it once rounded down to 16, not canonical, `#SS(EXT)`; then an offset that is not
canonical, `#GP(EXT)`. Whatever CET enables, in plain memory, where the table read of a new
shadow-stack pointer (R175, R194), which comes before these checks, succeeds. `s1` is `s` with a draw
counted. Which bytes of the frame are tested is log 13. -/
def Obligations.CanonicalStackThenPointerChecks : Prop :=
  ∀ (ev : Event) (t : Target) (s s1 : State) (ss : SegReg) (ptr bottom : Word64) (n : Nat),
    s.lma = true → t.size = .bits64 → PlainMemory s → n = 8 * (5 + ev.codeSlots.length) →
    bottom = (ptr &&& ~~~15#64) - BitVec.ofNat 64 n →
    (newStack ev t s = .ok (ss, ptr, s1) →
      ((s.canonical ptr = false ∨
          ∃ j, j < n ∧ s.canonical (bottom + BitVec.ofNat 64 j) = false) →
        interPrivilege ev t s = .error (.raise ⟨.ss, some (extCode ev.ext), none⟩ s1)) ∧
      (s.canonical ptr = true → (∀ j, j < n → s.canonical (bottom + BitVec.ofNat 64 j) = true) →
        s.canonical t.gate.offset = false →
        interPrivilege ev t s = .error (.raise ⟨.gp, some (extCode ev.ext), none⟩ s1))) ∧
    (intraStack64 ev t s = .ok ptr →
      ((s.canonical ptr = false ∨
          ∃ j, j < n ∧ s.canonical (bottom + BitVec.ofNat 64 j) = false) →
        intraPrivilege ev t s = .error (.raise ⟨.ss, some (extCode ev.ext), none⟩ s)) ∧
      (s.canonical ptr = true → (∀ j, j < n → s.canonical (bottom + BitVec.ofNat 64 j) = true) →
        s.canonical t.gate.offset = false →
        intraPrivilege ev t s = .error (.raise ⟨.gp, some (extCode ev.ext), none⟩ s)))

/-- A push through a gate raises `#AC(EXT)`, `EXT` that of the event, exactly when the gate's DPL is 3,
alignment checking is enabled, which is `CR0.AM = 1`, `EFLAGS.AC = 1` and `CPL = 3`, and its address is
not a multiple of its width; through a gate of another DPL it raises none (20_memory.md R55, R60). So a
delivery outside IA-32e mode whose checks pass, and whose first slot is such an address, raises
`#AC(EXT)` with nothing written: intra-privilege, inter-privilege, and from virtual-8086 mode. The
completion statements have the frames that lie at multiples of their width. The place of the test, at
each push, is the spec's decision 92 D21 and the model's reading of it (log 25). -/
def Obligations.UnalignedPushRaisesAlignmentCheck : Prop :=
  (∀ (ev : Event) (t : Target) (sup : Bool) (v : Word64) (s : State) (bad : Bool),
    (bad = true ↔ t.gate.dpl = 3#2 ∧ s.cr0.am = true ∧ s.eflags.getLsbD 18 = true ∧ s.cpl = 3#2 ∧
      (s.slotAddr t.size.width 0).toNat % t.size.width ≠ 0) →
    (bad = true →
      push (t.pushCtx sup ev) v s = .error (.raise ⟨.ac, some (extCode ev.ext), none⟩ s)) ∧
    (bad = false → ∀ x d, push (t.pushCtx sup ev) v s = .error (.raise x d) → x.name ≠ .ac)) ∧
  ∀ (ev : Event) (t : Target) (s : State) (ss : SegReg) (ptr : Word64), Opens ev t s →
    s.lma = false → t.gate.dpl = 3#2 → s.cr0.am = true → s.eflags.getLsbD 18 = true →
    s.cpl = 3#2 → t.gate.offset.toNat ≤ t.desc.limit.toNat →
    (s.vm = false → (t.desc.conforming = true ∨ t.desc.dpl = s.cpl) →
      t.size.width * (3 + ev.codeSlots.length) ≤
        ((s.ptrWidth t.size.width).trunc s.rsp).toNat →
      s.ss.hid.hasRoom (s.ptrWidth t.size.width) ((s.ptrWidth t.size.width).trunc s.rsp).toNat
        (t.size.width * (3 + ev.codeSlots.length)) = true →
      (s.slotAddr t.size.width 0).toNat % t.size.width ≠ 0 →
      ∃ d, deliver ev s = .error (.raise ⟨.ac, some (extCode ev.ext), none⟩ d) ∧ d.mem = s.mem) ∧
    (s.vm = false → t.desc.conforming = false → t.desc.dpl < s.cpl →
      newStackLegacy ev t.desc.dpl s = .ok (ss, ptr) →
      newStackRoom ev t ss ptr (t.size.width * (5 + ev.codeSlots.length)) s = .ok () →
      ((enterStack ss ptr s).slotAddr t.size.width 0).toNat % t.size.width ≠ 0 →
      ∃ d, deliver ev s = .error (.raise ⟨.ac, some (extCode ev.ext), none⟩ d) ∧ d.mem = s.mem) ∧
    (s.vm = true → t.desc.conforming = false → t.desc.dpl = 0#2 →
      newStackLegacy ev 0#2 s = .ok (ss, ptr) →
      newStackRoom ev t ss ptr (t.size.width * (9 + ev.codeSlots.length)) s = .ok () →
      ((enterStack ss ptr (s.setFlags (gateFlags t.trap s.eflags))).slotAddr
        t.size.width 0).toNat % t.size.width ≠ 0 →
      ∃ d, deliver ev s = .error (.raise ⟨.ac, some (extCode ev.ext), none⟩ d) ∧ d.mem = s.mem)

/-! CET (42_delivery_frames.md R200 to R212). -/

/-- `VerifyAndBusyToken` in plain memory (R206, R207): the pointer must lie at 24 modulo 32 and, outside
64-bit mode, below 4 GiB; the 8 bytes there must be the pointer itself, busy bit clear; else `#GP(0)`,
nothing changed; when all holds, the 8 bytes become the pointer with the busy bit set, and no other
byte changes. The primitives have the meaning R203 to R205 adopt (log 17); the byte order is log 4. -/
def Obligations.TokenIsVerifiedAndMadeBusy : Prop :=
  ∀ (p : Word64) (s : State), PlainMemory s →
    ((p.toNat % 32 = 24 ∧ (s.mode64 = true ∨ p.toNat < 2 ^ 32) ∧ s.value 8 p = p) →
      ∃ m, verifyAndBusyToken p s = .ok (s.setMem m) ∧ s.holds m 8 p (p ||| 1#64) ∧
        ∀ a, (∀ j, j < 8 → (s.byteAddr p j).toNat ≠ a) → m.read a = s.mem.read a) ∧
    (¬(p.toNat % 32 = 24 ∧ (s.mode64 = true ∨ p.toNat < 2 ^ 32) ∧ s.value 8 p = p) →
      verifyAndBusyToken p s = .error (.raise ⟨.gp, some 0#32, none⟩ s))

/-- The shadow-stack switch, in plain memory. The operation, with a free token at the new pointer: from
ring 3 (R208) and from virtual-8086 mode (R209) the token is made busy and nothing is pushed; from ring
1 or 2 the old `CS`, the old linear instruction pointer (`RIP` in 64-bit mode, else the sum with the
base of `CS` cut to 32 bits: 20_memory.md R51; log 34) and the old `SSP` are pushed below it; no other
byte changes. The delivery, whatever CET enables: once the frame is written and the new level entered,
which is the state `x` (its stack pointer keeps bits 63:32 outside IA-32e mode: log 12), an
inter-privilege delivery is this switch to `p`, then the end-branch arming, then the flags; `p` is
`IA32_PLi_SSP` of the new level, but in IA-32e mode with a nonzero IST it is the entry of the table at
`IA32_INTERRUPT_SSP_TABLE_ADDR` where shadow stacks are enabled at level 0 (R175, 20_memory.md R70),
and any value where they are not; that the test is of level 0, and that the pointer left unset may be
any value, are the model's (log 36). A delivery from virtual-8086 mode is the switch to `IA32_PL0_SSP`
and the arming. `ShadowStackEnabled` and the primitives are log 17; that `SS.DPL` tells the level left,
also after a NULL load of `SS`, is log 9; the hidden `SS` that `newStack` gives, too. The byte order is
log 4; that no accessed bit of a descriptor is set, so that no other byte changes, is log 26; where
`#AC` is tested is log 25; which bytes of a 64-bit frame must be canonical is log 13. -/
def Obligations.ShadowStackSwitch : Prop :=
  (∀ (old s : State) (p lip : Word64), PlainMemory s → p.toNat % 32 = 24 →
    (if old.lma = true ∧ old.cs.hid.l = true then lip = old.rip
      else lip.toNat = (old.cs.hid.base.toNat + old.rip.toNat) % 2 ^ 32) →
    (s.mode64 = true ∨ p.toNat < 2 ^ 32) → s.value 8 p = p →
    (s.shadowStackEnabled s.cpl = true → old.ss.hid.dpl = 3#2 →
      ∃ m, shadowSwitch old p s = .ok ((s.setSsp p).setMem m) ∧ s.holds m 8 p (p ||| 1#64) ∧
        ∀ a, (∀ j, j < 8 → (s.byteAddr p j).toNat ≠ a) → m.read a = s.mem.read a) ∧
    (s.shadowStackEnabled 0#2 = true →
      ∃ m, shadowSwitchV86 p s = .ok ((s.setSsp p).setMem m) ∧ s.holds m 8 p (p ||| 1#64) ∧
        ∀ a, (∀ j, j < 8 → (s.byteAddr p j).toNat ≠ a) → m.read a = s.mem.read a) ∧
    (s.shadowStackEnabled s.cpl = true → old.ss.hid.dpl ≠ 3#2 →
      ∃ m, shadowSwitch old p s = .ok ((s.setSsp (p - 24#64)).setMem m) ∧
        s.holds m 8 p (p ||| 1#64) ∧ s.holds m 8 (p - 8#64) (old.cs.sel.setWidth 64) ∧
        s.holds m 8 (p - 16#64) lip ∧ s.holds m 8 (p - 24#64) s.ssp ∧
        ∀ a, (∀ j, j < 32 → (s.byteAddr (p - 24#64) j).toNat ≠ a) → m.read a = s.mem.read a)) ∧
  ∀ (ev : Event) (t : Target) (s s1 : State) (ss : SegReg) (ptr : Word64), Opens ev t s →
    t.desc.conforming = false → t.desc.dpl < s.cpl → PlainMemory s →
    t.offsetOk s = true →
    (s.vm = false → newStack ev t s = .ok (ss, ptr, s1) →
      newStackRoom ev t ss ptr (t.size.width * (5 + ev.codeSlots.length)) s = .ok () →
      t.aligned (5 + ev.codeSlots.length) (enterStack ss ptr s) →
      ∃ (m : Memory) (d : Nat) (p : Word64) (x entry : State), EntersStack ss ptr s entry ∧
        (s.lma = false ∨ t.gate.ist = 0#3 → p =
          if t.desc.dpl = 0#2 then s.pl0Ssp else if t.desc.dpl = 1#2 then s.pl1Ssp
            else s.pl2Ssp) ∧
        (s.lma = true → t.gate.ist ≠ 0#3 → s.shadowStackEnabled 0#2 = true →
          p = s.value 8 (s.intSspTable + BitVec.ofNat 64 (8 * t.gate.ist.toNat))) ∧
        x = (((((((s.setMem m).setDraws d).setRip t.gate.offset).setRsp
          (entry.afterPushes t.size.width (5 + ev.codeSlots.length)).rsp).setCs
            ⟨withRpl t.gate.sel t.desc.dpl, t.desc⟩).setSs ss).setCpl t.desc.dpl).setPl3Ssp
              (if s.shadowStackEnabled 3#2 = true ∧ s.cpl = 3#2 then
                (if s.lma then laAdjust s.cfg.linearWidth s.ssp else s.ssp) else s.pl3Ssp) ∧
        Frame entry t.size.width ([.selector s.ss.sel, .word s.rsp,
          .word (s.eflags.setWidth 64), .selector s.cs.sel, .word s.rip] ++ ev.codeSlots) x ∧
        deliver ev s = (shadowSwitch s p x >>= fun y =>
          .ok ((armEndbranch y).setFlags (gateFlags t.trap y.eflags)))) ∧
    (s.vm = true → s.lma = false → t.desc.dpl = 0#2 → newStackLegacy ev 0#2 s = .ok (ss, ptr) →
      newStackRoom ev t ss ptr (t.size.width * (9 + ev.codeSlots.length)) s = .ok () →
      t.aligned (9 + ev.codeSlots.length)
        (enterStack ss ptr (s.setFlags (gateFlags t.trap s.eflags))) →
      ∃ (m : Memory) (d n : Nat) (x entry : State),
        EntersStack ss ptr (s.setFlags (gateFlags t.trap s.eflags)) entry ∧
        x = ((((((((s.setMem m).setDraws d).setRip t.gate.offset).setRsp
          (entry.afterPushes t.size.width (9 + ev.codeSlots.length)).rsp).setFlags
            (gateFlags t.trap s.eflags)).setCs ⟨withRpl t.gate.sel 0#2, t.desc⟩).setSs ss).setData
              ⟨0#16, Config.hiddenPart n⟩ ⟨0#16, Config.hiddenPart (n + 1)⟩
              ⟨0#16, Config.hiddenPart (n + 2)⟩ ⟨0#16, Config.hiddenPart (n + 3)⟩).setCpl 0#2 ∧
        Frame entry t.size.width ([.selector s.gs.sel, .selector s.fs.sel, .selector s.ds.sel,
          .selector s.es.sel, .selector s.ss.sel, .word s.rsp, .word (s.eflags.setWidth 64),
          .selector s.cs.sel, .word s.rip] ++ ev.codeSlots) x ∧
        deliver ev s = (shadowSwitchV86 s.pl0Ssp x >>= fun y => .ok (armEndbranch y)))

/-- The shadow-stack steps of an intra-privilege delivery, in plain memory (R210; the bits of `RSP`
above the pointer of a push outside IA-32e mode: log 12). The operation: without a token check, for a
pointer that is a multiple of 4, 4 zero bytes below the pointer, then from its 8-byte boundary down the
old `CS`, the old linear instruction pointer (`RIP` in 64-bit mode, else the sum with the base of `CS`
cut to 32 bits: 20_memory.md R51; log 34) and the old `SSP`; with one (`CHECK_SS_TOKEN = 1`), a free
token at the pointer is made busy and the same three are pushed below it, and any other value there, or
a pointer that fails its tests, raises `#GP(0)`; no other byte changes. The delivery, whatever CET
enables: once the frame is written, which is the state `x`, it is these steps at `p`, then the
end-branch arming, then the flags; `p` is the current `SSP`, without a check, but in IA-32e mode with a
nonzero IST and shadow stacks enabled the entry of the table at `IA32_INTERRUPT_SSP_TABLE_ADDR`, with
the check (R193, R194, 20_memory.md R70). `ShadowStackEnabled` and the primitives are log 17. The byte
order is log 4; that no accessed bit of a descriptor is set, so that no other byte changes, is log 26;
where `#AC` is tested is log 25; which bytes of a 64-bit frame must be canonical is log 13. -/
def Obligations.IntraPrivilegeShadowPushes : Prop :=
  (∀ (old s : State) (p lip : Word64), PlainMemory s → s.shadowStackEnabled s.cpl = true →
    (if old.lma = true ∧ old.cs.hid.l = true then lip = old.rip
      else lip.toNat = (old.cs.hid.base.toNat + old.rip.toNat) % 2 ^ 32) →
    (p.toNat % 4 = 0 →
      ∃ m, shadowIntra old p false s = .ok ((s.setSsp ((p &&& ~~~7#64) - 24#64)).setMem m) ∧
        s.holds m 4 (p - 4#64) 0#64 ∧
        s.holds m 8 ((p &&& ~~~7#64) - 8#64) (old.cs.sel.setWidth 64) ∧
        s.holds m 8 ((p &&& ~~~7#64) - 16#64) lip ∧
        s.holds m 8 ((p &&& ~~~7#64) - 24#64) s.ssp ∧
        ∀ a, (∀ j, j < 24 → (s.byteAddr ((p &&& ~~~7#64) - 24#64) j).toNat ≠ a) →
          (∀ j, j < 4 → (s.byteAddr (p - 4#64) j).toNat ≠ a) → m.read a = s.mem.read a) ∧
    ((p.toNat % 32 = 24 ∧ (s.mode64 = true ∨ p.toNat < 2 ^ 32) ∧ s.value 8 p = p) →
      ∃ m, shadowIntra old p true s = .ok ((s.setSsp (p - 24#64)).setMem m) ∧
        s.holds m 8 p (p ||| 1#64) ∧ s.holds m 8 (p - 8#64) (old.cs.sel.setWidth 64) ∧
        s.holds m 8 (p - 16#64) lip ∧ s.holds m 8 (p - 24#64) s.ssp ∧
        ∀ a, (∀ j, j < 32 → (s.byteAddr (p - 24#64) j).toNat ≠ a) → m.read a = s.mem.read a) ∧
    (¬(p.toNat % 32 = 24 ∧ (s.mode64 = true ∨ p.toNat < 2 ^ 32) ∧ s.value 8 p = p) →
      shadowIntra old p true s = .error (.raise ⟨.gp, some 0#32, none⟩ s))) ∧
  ∀ (ev : Event) (t : Target) (s : State) (ptr : Word64), Opens ev t s → s.vm = false →
    (t.desc.conforming = true ∨ t.desc.dpl = s.cpl) → PlainMemory s →
    (s.lma = false → t.aligned (3 + ev.codeSlots.length) s →
      t.size.width * (3 + ev.codeSlots.length) ≤
        ((s.ptrWidth t.size.width).trunc s.rsp).toNat →
      s.ss.hid.hasRoom (s.ptrWidth t.size.width) ((s.ptrWidth t.size.width).trunc s.rsp).toNat
        (t.size.width * (3 + ev.codeSlots.length)) = true →
      t.gate.offset.toNat ≤ t.desc.limit.toNat →
      ∃ (m : Memory) (d : Nat) (x : State),
        x = ((((s.setMem m).setDraws d).setRip t.gate.offset).setRsp
          (s.afterPushes t.size.width (3 + ev.codeSlots.length)).rsp).setCs
            ⟨withRpl t.gate.sel s.cpl, t.desc⟩ ∧
        Frame s t.size.width ([.word (s.eflags.setWidth 64), .selector s.cs.sel, .word s.rip] ++
          ev.codeSlots) x ∧
        deliver ev s = (shadowIntra s s.ssp false x >>= fun y =>
          .ok ((armEndbranch y).setFlags (gateFlags t.trap y.eflags)))) ∧
    (s.lma = true → (t.gate.ist = 0#3 → ptr = s.rsp) →
      (t.gate.ist ≠ 0#3 → newStack64 ev (8 * t.gate.ist.toNat + 28) s = .ok ptr) →
      s.frameCanonical ptr (8 * (5 + ev.codeSlots.length)) = true →
      s.canonical t.gate.offset = true →
      ∃ (m : Memory) (d : Nat) (p : Word64) (check : Bool) (x : State),
        (t.gate.ist = 0#3 ∨ s.shadowStackEnabled s.cpl = false → p = s.ssp ∧ check = false) ∧
        (t.gate.ist ≠ 0#3 → s.shadowStackEnabled s.cpl = true →
          p = s.value 8 (s.intSspTable + BitVec.ofNat 64 (8 * t.gate.ist.toNat)) ∧
            check = true) ∧
        x = ((((s.setMem m).setDraws d).setRip t.gate.offset).setRsp
          ((ptr &&& ~~~15#64) - BitVec.ofNat 64 (8 * (5 + ev.codeSlots.length)))).setCs
            ⟨withRpl t.gate.sel s.cpl, t.desc⟩ ∧
        Frame (s.setRsp (ptr &&& ~~~15#64)) 8 ([.selector s.ss.sel, .word s.rsp,
          .word (s.eflags.setWidth 64), .selector s.cs.sel, .word s.rip] ++ ev.codeSlots) x ∧
        deliver ev s = (shadowIntra s p check x >>= fun y =>
          .ok ((armEndbranch y).setFlags (gateFlags t.trap y.eflags))))

/-- An inter-privilege delivery that ends well saves the user shadow-stack pointer exactly when it
leaves ring 3 with shadow stacks enabled there: in `IA32_PL3_SSP`, adjusted to the linear-address width
in IA-32e mode; `CPL` and the low two bits of `CS` become the DPL of the new code segment (R182). The
other bits of `CS` are those of the gate's selector. `ShadowStackEnabled` is a parameter (log 17). -/
def Obligations.UserShadowPointerIsSaved : Prop :=
  ∀ (ev : Event) (t : Target) (s u : State), interPrivilege ev t s = .ok u →
    u.pl3Ssp =
      (if s.shadowStackEnabled 3#2 = true ∧ s.cpl = 3#2 then
        (if s.lma then laAdjust s.cfg.linearWidth s.ssp else s.ssp)
      else s.pl3Ssp) ∧
    u.cpl = t.desc.dpl ∧ u.cs.sel.extractLsb' 0 2 = t.desc.dpl ∧
    u.cs.sel.extractLsb' 2 14 = t.gate.sel.extractLsb' 2 14

/-- End-branch arming at the level arrived at (R211, R212): where tracking is enabled, `TRACKER` of the
level's register becomes 1 and `SUPPRESS` 0, and no other bit of either register changes; where it is
not, neither register changes. First, the enabling predicates where the parameters are the usual ones
(R200; log 17): the feature, `CR4.CET = 1`, `CR0.PE = 1`, `EFLAGS.VM = 0`, and of the level's CET
register bit 0 for shadow stacks, bit 2 for tracking. -/
def Obligations.EndbranchArming : Prop :=
  (∀ (s : State) (p : BitVec 2) (r : Word64), r = (if p = 3#2 then s.uCet else s.sCet) →
    (s.cfg.shadowStackRule = .usual → (s.shadowStackEnabled p = true ↔ s.cfg.hasCetSs = true ∧
      s.cr4.cet = true ∧ s.cr0.pe = true ∧ s.eflags.getLsbD 17 = false ∧ r.getLsbD 0 = true)) ∧
    (s.cfg.endbranchRule = .usual → (s.endbranchEnabled p = true ↔ s.cfg.hasCetIbt = true ∧
      s.cr4.cet = true ∧ s.cr0.pe = true ∧ s.eflags.getLsbD 17 = false ∧ r.getLsbD 2 = true))) ∧
  ∀ (s : State) (k : Nat), k < 64 →
    (armEndbranch s).sCet.getLsbD k =
      (if s.endbranchEnabled s.cpl = true ∧ s.cpl ≠ 3#2 ∧ k = 11 then true
       else if s.endbranchEnabled s.cpl = true ∧ s.cpl ≠ 3#2 ∧ k = 10 then false
       else s.sCet.getLsbD k) ∧
    (armEndbranch s).uCet.getLsbD k =
      (if s.endbranchEnabled s.cpl = true ∧ s.cpl = 3#2 ∧ k = 11 then true
       else if s.endbranchEnabled s.cpl = true ∧ s.cpl = 3#2 ∧ k = 10 then false
       else s.uCet.getLsbD k)

/-! Exceptions (60_exceptions.md). -/

/-- `error_code` (R225): a selector's low two bits are replaced by `ext`; a vector is shifted left by
3, with bit 1 set and bit 0 `ext`. The mask is the spec's inference (90_conflicts.md C18). -/
def Obligations.ErrorCodeFormula : Prop :=
  ∀ (num : Nat) (ext : Bool), num < 2 ^ 16 →
    (errorCode num false ext).toNat = num - num % 4 + (if ext then 1 else 0) ∧
    (errorCode num true ext).toNat = 8 * num + 2 + (if ext then 1 else 0)

/-- A delivery that raises a nested exception is abandoned and the exception taken instead (R240), from
a state whose registers and flags are those before the instruction or the event, and whose memory is as
`Abandoned` says: each byte old or as the delivery had written it, all of it old when the exception is
`#TS`, `#NP`, `#SS` or `#UD`, whose checks precede every write (R241). For an instruction that traps
that is its own state, so the return pointer is the instruction's first byte (R242); for a pending
event the state at the boundary it came at, the event no longer pending (log 15). A fetch that raises
an exception has it taken before the instruction executes, from the instruction's own state (R89):
`#GP(0)` when the first byte lies outside the code segment (which exception, and that its offset is
counted by the width of the pointer, are the model's: logs 14, 37), and on either byte the page fault
of its translation; that the bytes are translated one by one, the lower first, and with the privilege
of the `CPL`, is the model's too (logs 40, 7). What the abandoned delivery leaves is the spec's
decision 92 D7; what of it had been written when the check failed is log 6. The first byte of a LOCK
form is its `F0` (log 28). -/
def Obligations.AbandonedDeliveryState : Prop :=
  (∀ (ev : Event) (before entry dirty : State) (x : Exc), before.mem.wf = true →
    entry.mem = before.mem → deliver ev entry = .error (.raise x dirty) →
    ∃ (m : Memory) (d : Nat), Abandoned x before.mem dirty.mem m ∧
      takeEvent ev before entry = raiseException x ((before.setMem m).setDraws d)) ∧
  (∀ (i : Instr) (s dirty : State) (x : Exc), s.mem.wf = true → traps i s = true →
    deliver (trapEvent i) (s.setRip (nextIp s i.opcodeLength)) = .error (.raise x dirty) →
    ∃ (m : Memory) (d : Nat), Abandoned x s.mem dirty.mem m ∧
      exec i s = raiseException x ((s.setMem m).setDraws d)) ∧
  (∀ (s dirty : State) (x : Exc) (e : ExternalEvent) (before after : List ExternalEvent),
    s.mem.wf = true → s.legalModes = true → s.pending = before ++ e :: after →
    (∀ y ∈ before, y.takeable s.interruptFlag = false) → e.takeable s.interruptFlag = true →
    deliver e.event (s.tick.setPending (before ++ after)) = .error (.raise x dirty) →
    ∃ (m : Memory) (d : Nat), Abandoned x s.mem dirty.mem m ∧
      step s = raiseException x (((s.setPending (before ++ after)).setMem m).setDraws d)) ∧
  (∀ (s dirty : State) (x : Exc) (got : List Byte), s.legalModes = true →
    nextEvent s.interruptFlag s.pending = none → s.endbranchWaits = false →
    (got = [] ∨ got = [0xCD#8] ∨ got = [0xF0#8] ∨ got = [0xF0#8, 0xCD#8]) →
    (∀ j b, got[j]? = some b → fetchByte s.tick j = .ok b) →
    fetchByte s.tick got.length = .error (.raise x dirty) →
    ∃ d : Nat, step s = raiseException x (s.setDraws d)) ∧
  ∀ (s : State) (n off : Nat) (la : Word64),
    off = s.rip.toNat % (if s.cs.hid.db then 2 ^ 32 else 2 ^ 16) →
    la = (if s.mode64 then s.rip + BitVec.ofNat 64 n
      else ((s.cs.hid.base + BitVec.ofNat 64 (off + n)).setWidth 32).setWidth 64) →
    (((s.mode64 = true ∧ s.canonical s.rip = false) ∨
        (s.mode64 = false ∧ s.cs.hid.limit.toNat < off)) →
      fetchByte s 0 = .error (.raise ⟨.gp, some 0#32, none⟩ s)) ∧
    (s.codeByteOk n = true → s.pagingOn = true →
      match Config.translate s la 1 ⟨.fetch, decide (s.cpl ≠ 3#2)⟩ with
      | .pageFault c a => fetchByte s n = .error (.raise ⟨.pf, some c, some a⟩ s)
      | .physical p => s.regionAt p.toNat = some .ram → fetchByte s n = .ok (s.mem.read p.toNat))

/-- A nested exception whose own delivery fails a check ends the run with that fault, naming both; one
whose delivery ends well is entered (R240, R243; that the run ends is the spec's decision D6: log 20).
Page faults, which also record an address, are the next statement's. First, the vectors (R220), of which
those but 1, 3 and 4 are presumed (log 30). -/
def Obligations.NestedDeliveryEndsTheRunOrEnters : Prop :=
  (∀ n : ExcName, n.vector = match n with
    | .db => 1
    | .bp => 3
    | .of => 4
    | .ud => 6
    | .ts => 10
    | .np => 11
    | .ss => 12
    | .gp => 13
    | .pf => 14
    | .ac => 17) ∧
  ∀ (x y : Exc) (s d t : State), x.addr = none →
    (deliver ⟨x.name.vector, .exception, x.code⟩ s = .error (.raise y d) →
      raiseException x s = .fault (.nestedDeliveryFailed x.name y.name)) ∧
    (deliver ⟨x.name.vector, .exception, x.code⟩ s = .ok t → raiseException x s = .next t)

/-- A page fault that is taken is delivered with its fault code, from the state whose faulting-address
register holds its address, and the address stands there afterwards (R234, R240, 93 U7). It is taken
whenever that delivery ends well; when a check fails in it the run ends with a fault that names both
exceptions (R243, the spec's decision D6: log 20). The register is the model's (log 8); that the vector
is 14 is presumed (R220; log 30). -/
def Obligations.PageFaultAddressIsRecorded : Prop :=
  ∀ (code : Word32) (addr : Word64) (s t d : State) (y : Exc),
    (raiseException ⟨.pf, some code, some addr⟩ s = .next t →
      t.faultAddr = addr ∧ deliver ⟨14, .exception, some code⟩ (s.setFaultAddr addr) = .ok t) ∧
    (deliver ⟨14, .exception, some code⟩ (s.setFaultAddr addr) = .ok t →
      raiseException ⟨.pf, some code, some addr⟩ s = .next t) ∧
    (deliver ⟨14, .exception, some code⟩ (s.setFaultAddr addr) = .error (.raise y d) →
      raiseException ⟨.pf, some code, some addr⟩ s = .fault (.nestedDeliveryFailed .pf y.name))

/-- A handler never runs at a numerically higher level than the interrupted code (R248, 41 R150). In
real-address mode the level stays (R133), and so it does when virtual-8086 mode is not left (40 R110). -/
def Obligations.PrivilegeNumberNeverRises : Prop :=
  ∀ (s t : State), Runs s t → t.cpl ≤ s.cpl ∧ (s.cr0.pe = false → t.cpl = s.cpl) ∧
    (t.vm = true → t.cpl = s.cpl)

/-- Mode changes (R249): real-address, protected and 64-bit mode are never left; virtual-8086 mode is
left for protected mode only, compatibility mode for 64-bit mode only. -/
def Obligations.ModesLeftByDelivery : Prop :=
  ∀ (s t : State), Runs s t → t.mode = s.mode ∨
    (s.mode = .virtual8086 ∧ t.mode = .protectedMode ∧ t.cpl = 0#2) ∨
    (s.mode = .compatibility ∧ t.mode = .bits64)

/-! Whole-machine rules. -/

/-- No step and no instruction writes the parameters, the general registers but the stack pointer, the
control bits, the table registers, `DR6`, or a shadow-stack register but `SSP` and `IA32_PL3_SSP`
(10_state.md R17, R25 to R31, R33, R34). -/
def Obligations.SystemRegistersAreKept : Prop :=
  ∀ (s t : State), Runs s t → SameSystem s t

/-- `DS`, `ES`, `FS`, `GS` change only on leaving virtual-8086 mode, and then hold selector 0
(10_state.md R24, 42 R191). -/
def Obligations.DataSegmentsChangeOnlyFromVirtual8086 : Prop :=
  ∀ (s t : State), Runs s t →
    (s.vm = false ∨ t.vm = true → SameData s t) ∧
    (s.vm = true → t.vm = false →
      t.ds.sel = 0#16 ∧ t.es.sel = 0#16 ∧ t.fs.sel = 0#16 ∧ t.gs.sel = 0#16)

/-- `CPL`, the DPL of `SS` and, outside real-address and virtual-8086 mode, the RPL of `CS` stay equal;
memory keeps its canonical form, the modes stay legal, with every base of real-address and virtual-8086
mode the selector times 16 and every limit `FFFFH` (R21; `CS` after reset: log 39), the instruction
pointer stays canonical in 64-bit mode and 32 bits wide elsewhere, the fixed bits of EFLAGS stay: every
step keeps the invariant, from every state that meets it. That `SS` gets the DPL of the new level in
IA-32e mode, where its hidden part is any value (93 U9), is the model's reading (log 9) of R208,
"`oldSS.DPL` is the DPL of the stack segment in use before the switch, that is the old `CPL`". That a
base and a limit of real-address and virtual-8086 mode stay so rests on what a load of `CS` keeps there
(log 35), that illegal modes are refused on logs 21 and 39. -/
def Obligations.StepKeepsTheInvariant : Prop :=
  ∀ (s t : State), s.Inv → step s = .next t → t.Inv

/-- The state after reset meets the invariant. Its registers hold the model's reset values (log 1). -/
def Obligations.ResetMeetsTheInvariant : Prop := State.reset.Inv

/-- After power-up or reset `IDTR.base` is 0 (70_reset_and_hazards.md R270). -/
def Obligations.ResetIdtBaseIsZero : Prop := State.reset.idtr.base = 0#64

/-! Memory (20_memory.md). -/

/-- Two memories in canonical form that read alike everywhere are the same list. The form is the
model's own representation; what an unlisted byte reads as is log 3. -/
def Obligations.MemoryFormIsCanonical : Prop :=
  ∀ m n : Memory, m.wf = true → n.wf = true → (∀ a, m.read a = n.read a) → m = n

/-- A value stored and loaded back, in plain memory, little-endian (R52): the load, whatever it is for,
answers the low bytes of what was stored, the least significant at the lowest address. Little-endian is
the spec's decision 92 D1 (log 4). -/
def Obligations.LoadAfterStore : Prop :=
  ∀ (s : State) (u : ReadUse) (k k' : Access) (w : Nat) (la v : Word64), PlainMemory s → w ≤ 8 →
    ∃ t, store s k w la v = .ok t ∧
      load t u k' w la = .ok (v &&& (BitVec.allOnes 64 >>> (64 - 8 * w))) ∧
      ∀ j, j < w → t.mem.read (s.byteAddr la j).toNat = byteOf v j

/-- `LA_adjust` (R58): bits 63 down to `N` take the value of bit `N - 1`, the others stay; an address is
canonical exactly when its bits 63 down to `N` all equal bit `N - 1`. -/
def Obligations.LinearAddressAdjustment : Prop :=
  ∀ (s : State) (a : Word64), 0 < s.cfg.linearWidth → s.cfg.linearWidth ≤ 64 →
    (∀ k, k < 64 → (laAdjust s.cfg.linearWidth a).getLsbD k =
      if s.cfg.linearWidth ≤ k then a.getLsbD (s.cfg.linearWidth - 1) else a.getLsbD k) ∧
    (s.canonical a = true ↔
      ∀ k, s.cfg.linearWidth ≤ k → k < 64 → a.getLsbD k = a.getLsbD (s.cfg.linearWidth - 1))
end

