-- ==== Sys2Proof/Laws/Memory.lean ====
section
/-! SUPPORT. Memory: reading after writing, the canonical form, the blend of two memories. -/

namespace Sys2Proof.Machine

theorem Memory.wfFrom_cons {lo k : Nat} {b : Byte} {m : Memory} :
    Memory.wfFrom lo ((k, b) :: m) = true ↔
      lo ≤ k ∧ k < 2 ^ 64 ∧ b ≠ Memory.background ∧ Memory.wfFrom (k + 1) m = true := by
  simp [Memory.wfFrom, and_assoc]

theorem Memory.wfFrom_mono {m : Memory} {lo lo' : Nat} (h : Memory.wfFrom lo m = true)
    (hl : lo' ≤ lo) : Memory.wfFrom lo' m = true := by
  cases m with
  | nil => rfl
  | cons c m =>
    obtain ⟨k, b⟩ := c
    rw [Memory.wfFrom_cons] at h ⊢
    exact ⟨by omega, h.2⟩

/-- Below its first entry a canonical memory reads as the background. -/
theorem Memory.read_below {m : Memory} {lo a : Nat} (h : Memory.wfFrom lo m = true) (ha : a < lo) :
    m.read a = Memory.background := by
  induction m generalizing lo with
  | nil => rfl
  | cons c m ih =>
    obtain ⟨k, b⟩ := c
    rw [Memory.wfFrom_cons] at h
    rw [Memory.read, if_neg (by omega)]
    exact ih h.2.2.2 (by omega)

theorem Memory.read_write_from {m : Memory} {lo : Nat} (h : Memory.wfFrom lo m = true) (a : Nat)
    (v : Byte) (x : Nat) : (m.write a v).read x = if x = a then v else m.read x := by
  induction m generalizing lo with
  | nil =>
    by_cases hx : x = a
    · by_cases hv : v = Memory.background <;> simp [Memory.write, Memory.read, hv, hx]
    · by_cases hv : v = Memory.background <;> simp [Memory.write, Memory.read, hv, hx, Ne.symm hx]
  | cons c m ih =>
    obtain ⟨k, b⟩ := c
    rw [Memory.wfFrom_cons] at h
    obtain ⟨-, -, hb, hm⟩ := h
    rw [Memory.write]
    split
    · rename_i hak
      split
      · rename_i hv
        by_cases hx : x = a
        · subst hx
          rw [if_pos rfl, hv, Memory.read, if_neg (by omega)]
          exact Memory.read_below hm (by omega)
        · rw [if_neg hx]
      · by_cases hx : x = a
        · subst hx; simp [Memory.read]
        · rw [if_neg hx, Memory.read, if_neg (by omega)]
    · split
      · rename_i hak
        subst hak
        split
        · rename_i hv
          by_cases hx : x = a
          · subst hx
            rw [if_pos rfl, hv]
            exact Memory.read_below hm (by omega)
          · rw [if_neg hx, Memory.read, if_neg (by omega)]
        · by_cases hx : x = a
          · subst hx; simp [Memory.read]
          · rw [if_neg hx, Memory.read, Memory.read, if_neg (by omega), if_neg (by omega)]
      · rename_i hlt hne
        rw [Memory.read, Memory.read]
        by_cases hk : k = x
        · rw [if_pos hk, if_pos hk, if_neg (by omega)]
        · rw [if_neg hk, if_neg hk]
          exact ih hm

/-- Reading after one write: the written byte at its address, every other as before. -/
theorem Memory.read_write {m : Memory} (h : m.wf = true) (a : Nat) (v : Byte) (x : Nat) :
    (m.write a v).read x = if x = a then v else m.read x :=
  Memory.read_write_from h a v x

theorem Memory.write_wfFrom {m : Memory} {lo : Nat} (h : Memory.wfFrom lo m = true) {a : Nat}
    (hlo : lo ≤ a) (ha : a < 2 ^ 64) (v : Byte) : Memory.wfFrom lo (m.write a v) = true := by
  induction m generalizing lo with
  | nil =>
    rw [Memory.write]
    split
    · rfl
    · exact Memory.wfFrom_cons.2 ⟨hlo, ha, ‹_›, rfl⟩
  | cons c m ih =>
    obtain ⟨k, b⟩ := c
    have h' := Memory.wfFrom_cons.1 h
    obtain ⟨hk, hk64, hb, hm⟩ := h'
    rw [Memory.write]
    split
    · split
      · exact h
      · exact Memory.wfFrom_cons.2 ⟨hlo, ha, ‹_›, Memory.wfFrom_cons.2 ⟨by omega, hk64, hb, hm⟩⟩
    · split
      · split
        · exact Memory.wfFrom_mono hm (by omega)
        · exact Memory.wfFrom_cons.2 ⟨hlo, ha, ‹_›, by subst_vars; exact hm⟩
      · exact Memory.wfFrom_cons.2 ⟨hk, hk64, hb, ih hm (by omega)⟩

/-- A write at an address below 2^64 keeps the canonical form. -/
theorem Memory.write_wf {m : Memory} (h : m.wf = true) {a : Nat} (ha : a < 2 ^ 64) (v : Byte) :
    (m.write a v).wf = true :=
  Memory.write_wfFrom h (Nat.zero_le a) ha v

/-- The listed addresses of a canonical memory are below 2^64. -/
theorem Memory.key_lt {m : Memory} {lo : Nat} (h : Memory.wfFrom lo m = true) {c : Host.Cell}
    (hc : c ∈ m) : c.1 < 2 ^ 64 := by
  induction m generalizing lo with
  | nil => cases hc
  | cons d m ih =>
    obtain ⟨k, b⟩ := d
    rw [Memory.wfFrom_cons] at h
    cases hc with
    | head => exact h.2.1
    | tail _ ht => exact ih h.2.2.2 ht

/-- An address a memory does not list reads as the background. -/
theorem Memory.read_of_not_listed {m : Memory} {a : Nat} (h : a ∉ m.map (·.1)) :
    m.read a = Memory.background := by
  induction m with
  | nil => rfl
  | cons c m ih =>
    obtain ⟨k, b⟩ := c
    simp only [List.map_cons, List.mem_cons, not_or] at h
    rw [Memory.read, if_neg (fun e => h.1 e.symm)]
    exact ih h.2

theorem Memory.mem_differing {old new : Memory} {a : Nat} :
    a ∈ Memory.differing old new ↔ new.read a ≠ old.read a := by
  constructor
  · intro h
    simpa using (List.mem_filter.1 h).2
  · intro h
    refine List.mem_filter.2 ⟨?_, by simpa using h⟩
    by_contra hn
    rw [List.map_append, List.mem_append, not_or] at hn
    exact h (by rw [Memory.read_of_not_listed hn.1, Memory.read_of_not_listed hn.2])

theorem Memory.blend_fold {pick : Nat → Bool} {new : Memory} {l : List Nat} {m : Memory}
    (hm : m.wf = true) (hl : ∀ a ∈ l, a < 2 ^ 64) :
    let r := l.foldl (fun m a => if pick a then m.write a (new.read a) else m) m
    r.wf = true ∧ ∀ x, r.read x = if x ∈ l ∧ pick x = true then new.read x else m.read x := by
  induction l generalizing m with
  | nil => simp [hm]
  | cons a l ih =>
    simp only [List.foldl_cons]
    by_cases hp : pick a = true
    · simp only [hp, if_true]
      have hw := Memory.write_wf hm (hl a (by simp)) (new.read a)
      obtain ⟨h1, h2⟩ := ih hw (fun b hb => hl b (by simp [hb]))
      refine ⟨h1, fun x => ?_⟩
      rw [h2, Memory.read_write hm]
      by_cases hx : x = a
      · subst hx; simp [hp]
      · simp [hx]
    · simp only [hp]
      obtain ⟨h1, h2⟩ := ih hm (fun b hb => hl b (by simp [hb]))
      refine ⟨h1, fun x => ?_⟩
      simp only [Bool.false_eq_true, if_false]
      rw [h2]
      by_cases hx : x = a
      · subst hx; simp [hp]
      · simp [hx]

theorem Memory.differing_lt {old new : Memory} (ho : old.wf = true) (hn : new.wf = true) {a : Nat}
    (h : a ∈ Memory.differing old new) : a < 2 ^ 64 := by
  have h' := (List.mem_filter.1 h).1
  simp only [List.map_append, List.mem_append, List.mem_map] at h'
  rcases h' with ⟨c, hc, rfl⟩ | ⟨c, hc, rfl⟩
  · exact Memory.key_lt ho hc
  · exact Memory.key_lt hn hc

/-- A blend keeps the canonical form. -/
theorem Memory.blend_wf {pick : Nat → Bool} {old new : Memory} (ho : old.wf = true)
    (hn : new.wf = true) : (Memory.blend pick old new).wf = true :=
  (Memory.blend_fold ho (fun _ ha => Memory.differing_lt ho hn ha)).1

/-- A blend holds, byte by byte, the new value where picked and the old one elsewhere. -/
theorem Memory.read_blend {pick : Nat → Bool} {old new : Memory} (ho : old.wf = true)
    (hn : new.wf = true) (x : Nat) :
    (Memory.blend pick old new).read x = if pick x then new.read x else old.read x := by
  have h := (Memory.blend_fold (pick := pick) (new := new) ho
    (fun _ ha => Memory.differing_lt ho hn ha)).2 x
  rw [Memory.blend, h]
  by_cases hd : new.read x = old.read x
  · simp [Memory.mem_differing, hd]
  · simp [Memory.mem_differing, hd]

/-- A memory blended with itself is itself. -/
@[simp] theorem Memory.blend_self (pick : Nat → Bool) (m : Memory) : Memory.blend pick m m = m := by
  have : Memory.differing m m = [] := by simp [Memory.differing]
  rw [Memory.blend, this]; rfl

/-- Memory after reset is in canonical form. -/
theorem State.reset_mem_wf : State.reset.mem.wf = true := rfl

end Sys2Proof.Machine
end

