-- ==== Sys2Proof/Laws/Run.lean ====
section
/-! SUPPORT. Taking apart a computation that may stop. -/

namespace Sys2Proof.Machine

variable {α β : Type}

@[simp] theorem Run.ok_bind (a : α) (f : α → Run β) : ((Except.ok a : Run α) >>= f) = f a := rfl

@[simp] theorem Run.error_bind (e : Stop) (f : α → Run β) :
    ((Except.error e : Run α) >>= f) = .error e := rfl

/-- A sequence that ends well: its first part did, and so did the rest. -/
theorem Run.bind_eq_ok {x : Run α} {f : α → Run β} {b : β} :
    (x >>= f) = .ok b ↔ ∃ a, x = .ok a ∧ f a = .ok b := by
  cases x <;> simp

/-- A sequence that stops: its first part did, or the rest did. -/
theorem Run.bind_eq_error {x : Run α} {f : α → Run β} {e : Stop} :
    (x >>= f) = .error e ↔ x = .error e ∨ ∃ a, x = .ok a ∧ f a = .error e := by
  cases x <;> simp

@[simp] theorem require_eq_ok {c : Bool} {st : Stop} {u : Unit} :
    require c st = .ok u ↔ c = true := by
  cases c <;> simp [require]

@[simp] theorem require_eq_error {c : Bool} {st e : Stop} :
    require c st = .error e ↔ c = false ∧ st = e := by
  cases c <;> simp [require]

@[simp] theorem require_true (st : Stop) : require true st = .ok () := rfl

@[simp] theorem require_false (st : Stop) : require false st = .error st := rfl

end Sys2Proof.Machine
end

