-- ==== Sys2Proof/Laws/State.lean ====
section
/-! SUPPORT. What each named update of the state does to each field, and which reads of the state it
leaves alone. Every lemma is true by unfolding. -/

namespace Sys2Proof.Machine

@[simp] theorem State.tick_eq (s : State) : s.tick = s.setDraws (s.draws + 1) := rfl

section
variable (s : State) (v : Memory)
@[simp] theorem State.setMem_cfg : (s.setMem v).cfg = s.cfg := rfl
@[simp] theorem State.setMem_rip : (s.setMem v).rip = s.rip := rfl
@[simp] theorem State.setMem_rsp : (s.setMem v).rsp = s.rsp := rfl
@[simp] theorem State.setMem_gprs : (s.setMem v).gprs = s.gprs := rfl
@[simp] theorem State.setMem_eflags : (s.setMem v).eflags = s.eflags := rfl
@[simp] theorem State.setMem_cs : (s.setMem v).cs = s.cs := rfl
@[simp] theorem State.setMem_ss : (s.setMem v).ss = s.ss := rfl
@[simp] theorem State.setMem_ds : (s.setMem v).ds = s.ds := rfl
@[simp] theorem State.setMem_es : (s.setMem v).es = s.es := rfl
@[simp] theorem State.setMem_fs : (s.setMem v).fs = s.fs := rfl
@[simp] theorem State.setMem_gs : (s.setMem v).gs = s.gs := rfl
@[simp] theorem State.setMem_cpl : (s.setMem v).cpl = s.cpl := rfl
@[simp] theorem State.setMem_cr0 : (s.setMem v).cr0 = s.cr0 := rfl
@[simp] theorem State.setMem_cr4 : (s.setMem v).cr4 = s.cr4 := rfl
@[simp] theorem State.setMem_lma : (s.setMem v).lma = s.lma := rfl
@[simp] theorem State.setMem_idtr : (s.setMem v).idtr = s.idtr := rfl
@[simp] theorem State.setMem_gdtr : (s.setMem v).gdtr = s.gdtr := rfl
@[simp] theorem State.setMem_ldtr : (s.setMem v).ldtr = s.ldtr := rfl
@[simp] theorem State.setMem_tr : (s.setMem v).tr = s.tr := rfl
@[simp] theorem State.setMem_dr6 : (s.setMem v).dr6 = s.dr6 := rfl
@[simp] theorem State.setMem_faultAddr : (s.setMem v).faultAddr = s.faultAddr := rfl
@[simp] theorem State.setMem_ssp : (s.setMem v).ssp = s.ssp := rfl
@[simp] theorem State.setMem_pl0Ssp : (s.setMem v).pl0Ssp = s.pl0Ssp := rfl
@[simp] theorem State.setMem_pl1Ssp : (s.setMem v).pl1Ssp = s.pl1Ssp := rfl
@[simp] theorem State.setMem_pl2Ssp : (s.setMem v).pl2Ssp = s.pl2Ssp := rfl
@[simp] theorem State.setMem_pl3Ssp : (s.setMem v).pl3Ssp = s.pl3Ssp := rfl
@[simp] theorem State.setMem_intSspTable : (s.setMem v).intSspTable = s.intSspTable := rfl
@[simp] theorem State.setMem_sCet : (s.setMem v).sCet = s.sCet := rfl
@[simp] theorem State.setMem_uCet : (s.setMem v).uCet = s.uCet := rfl
@[simp] theorem State.setMem_mem : (s.setMem v).mem = v := rfl
@[simp] theorem State.setMem_regions : (s.setMem v).regions = s.regions := rfl
@[simp] theorem State.setMem_pending : (s.setMem v).pending = s.pending := rfl
@[simp] theorem State.setMem_draws : (s.setMem v).draws = s.draws := rfl
@[simp] theorem State.setMem_overflow :
    (s.setMem v).overflow = s.overflow := rfl
@[simp] theorem State.setMem_interruptFlag :
    (s.setMem v).interruptFlag = s.interruptFlag := rfl
@[simp] theorem State.setMem_vm :
    (s.setMem v).vm = s.vm := rfl
@[simp] theorem State.setMem_ac :
    (s.setMem v).ac = s.ac := rfl
@[simp] theorem State.setMem_vif :
    (s.setMem v).vif = s.vif := rfl
@[simp] theorem State.setMem_iopl :
    (s.setMem v).iopl = s.iopl := rfl
@[simp] theorem State.setMem_mode64 :
    (s.setMem v).mode64 = s.mode64 := rfl
@[simp] theorem State.setMem_mode :
    (s.setMem v).mode = s.mode := rfl
@[simp] theorem State.setMem_pagingOn :
    (s.setMem v).pagingOn = s.pagingOn := rfl
@[simp] theorem State.setMem_regionAt (p : Nat) :
    (s.setMem v).regionAt p = s.regionAt p := rfl
@[simp] theorem State.setMem_byteAddr (la : Word64) (i : Nat) :
    (s.setMem v).byteAddr la i = s.byteAddr la i := rfl
@[simp] theorem State.setMem_canonical (a : Word64) :
    (s.setMem v).canonical a = s.canonical a := rfl
@[simp] theorem State.setMem_canonicalBytes (a : Word64) (n : Nat) :
    (s.setMem v).canonicalBytes a n = s.canonicalBytes a n := rfl
@[simp] theorem State.setMem_ptrWidth (w : Nat) :
    (s.setMem v).ptrWidth w = s.ptrWidth w := rfl
@[simp] theorem State.setMem_alignmentChecked :
    (s.setMem v).alignmentChecked = s.alignmentChecked := rfl
@[simp] theorem State.setMem_cetReg (p : BitVec 2) :
    (s.setMem v).cetReg p = s.cetReg p := rfl
@[simp] theorem State.setMem_cetOn :
    (s.setMem v).cetOn = s.cetOn := rfl
@[simp] theorem State.setMem_cetControl :
    (s.setMem v).cetControl = s.cetControl := rfl
@[simp] theorem State.setMem_shadowStackEnabled (p : BitVec 2) :
    (s.setMem v).shadowStackEnabled p = s.shadowStackEnabled p := rfl
@[simp] theorem State.setMem_endbranchEnabled (p : BitVec 2) :
    (s.setMem v).endbranchEnabled p = s.endbranchEnabled p := rfl
@[simp] theorem State.setMem_shadowAccess (op : AccessOp) :
    (s.setMem v).shadowAccess op = s.shadowAccess op := rfl
@[simp] theorem State.setMem_plSsp (p : BitVec 2) :
    (s.setMem v).plSsp p = s.plSsp p := rfl
@[simp] theorem State.setMem_stackTop (p : PtrWidth) :
    (s.setMem v).stackTop p = s.stackTop p := rfl
@[simp] theorem State.setMem_lip :
    (s.setMem v).lip = s.lip := rfl
@[simp] theorem State.setMem_tableBase (sel : Word16) :
    (s.setMem v).tableBase sel = s.tableBase sel := rfl
@[simp] theorem State.setMem_tableLimit (sel : Word16) :
    (s.setMem v).tableLimit sel = s.tableLimit sel := rfl
@[simp] theorem State.setMem_selInLimits (sel : Word16) :
    (s.setMem v).selInLimits sel = s.selInLimits sel := rfl
@[simp] theorem State.setMem_descriptorAddr (sel : Word16) :
    (s.setMem v).descriptorAddr sel = s.descriptorAddr sel := rfl
@[simp] theorem State.setMem_idtEntrySize :
    (s.setMem v).idtEntrySize = s.idtEntrySize := rfl
@[simp] theorem State.setMem_idtInLimits (vector : Nat) :
    (s.setMem v).idtInLimits vector = s.idtInLimits vector := rfl
@[simp] theorem State.setMem_idtEntryAddr (vector : Nat) :
    (s.setMem v).idtEntryAddr vector = s.idtEntryAddr vector := rfl
@[simp] theorem State.setMem_codeSegmentOk (h : Hidden) :
    (s.setMem v).codeSegmentOk h = s.codeSegmentOk h := rfl
@[simp] theorem State.setMem_frameCanonical (a : Word64) (n : Nat) :
    (s.setMem v).frameCanonical a n = s.frameCanonical a n := rfl
@[simp] theorem State.setMem_ipWidth :
    (s.setMem v).ipWidth = s.ipWidth := rfl
end

section
variable (s : State) (v : Nat)
@[simp] theorem State.setDraws_cfg : (s.setDraws v).cfg = s.cfg := rfl
@[simp] theorem State.setDraws_rip : (s.setDraws v).rip = s.rip := rfl
@[simp] theorem State.setDraws_rsp : (s.setDraws v).rsp = s.rsp := rfl
@[simp] theorem State.setDraws_gprs : (s.setDraws v).gprs = s.gprs := rfl
@[simp] theorem State.setDraws_eflags : (s.setDraws v).eflags = s.eflags := rfl
@[simp] theorem State.setDraws_cs : (s.setDraws v).cs = s.cs := rfl
@[simp] theorem State.setDraws_ss : (s.setDraws v).ss = s.ss := rfl
@[simp] theorem State.setDraws_ds : (s.setDraws v).ds = s.ds := rfl
@[simp] theorem State.setDraws_es : (s.setDraws v).es = s.es := rfl
@[simp] theorem State.setDraws_fs : (s.setDraws v).fs = s.fs := rfl
@[simp] theorem State.setDraws_gs : (s.setDraws v).gs = s.gs := rfl
@[simp] theorem State.setDraws_cpl : (s.setDraws v).cpl = s.cpl := rfl
@[simp] theorem State.setDraws_cr0 : (s.setDraws v).cr0 = s.cr0 := rfl
@[simp] theorem State.setDraws_cr4 : (s.setDraws v).cr4 = s.cr4 := rfl
@[simp] theorem State.setDraws_lma : (s.setDraws v).lma = s.lma := rfl
@[simp] theorem State.setDraws_idtr : (s.setDraws v).idtr = s.idtr := rfl
@[simp] theorem State.setDraws_gdtr : (s.setDraws v).gdtr = s.gdtr := rfl
@[simp] theorem State.setDraws_ldtr : (s.setDraws v).ldtr = s.ldtr := rfl
@[simp] theorem State.setDraws_tr : (s.setDraws v).tr = s.tr := rfl
@[simp] theorem State.setDraws_dr6 : (s.setDraws v).dr6 = s.dr6 := rfl
@[simp] theorem State.setDraws_faultAddr : (s.setDraws v).faultAddr = s.faultAddr := rfl
@[simp] theorem State.setDraws_ssp : (s.setDraws v).ssp = s.ssp := rfl
@[simp] theorem State.setDraws_pl0Ssp : (s.setDraws v).pl0Ssp = s.pl0Ssp := rfl
@[simp] theorem State.setDraws_pl1Ssp : (s.setDraws v).pl1Ssp = s.pl1Ssp := rfl
@[simp] theorem State.setDraws_pl2Ssp : (s.setDraws v).pl2Ssp = s.pl2Ssp := rfl
@[simp] theorem State.setDraws_pl3Ssp : (s.setDraws v).pl3Ssp = s.pl3Ssp := rfl
@[simp] theorem State.setDraws_intSspTable : (s.setDraws v).intSspTable = s.intSspTable := rfl
@[simp] theorem State.setDraws_sCet : (s.setDraws v).sCet = s.sCet := rfl
@[simp] theorem State.setDraws_uCet : (s.setDraws v).uCet = s.uCet := rfl
@[simp] theorem State.setDraws_mem : (s.setDraws v).mem = s.mem := rfl
@[simp] theorem State.setDraws_regions : (s.setDraws v).regions = s.regions := rfl
@[simp] theorem State.setDraws_pending : (s.setDraws v).pending = s.pending := rfl
@[simp] theorem State.setDraws_draws : (s.setDraws v).draws = v := rfl
@[simp] theorem State.setDraws_overflow :
    (s.setDraws v).overflow = s.overflow := rfl
@[simp] theorem State.setDraws_interruptFlag :
    (s.setDraws v).interruptFlag = s.interruptFlag := rfl
@[simp] theorem State.setDraws_vm :
    (s.setDraws v).vm = s.vm := rfl
@[simp] theorem State.setDraws_ac :
    (s.setDraws v).ac = s.ac := rfl
@[simp] theorem State.setDraws_vif :
    (s.setDraws v).vif = s.vif := rfl
@[simp] theorem State.setDraws_iopl :
    (s.setDraws v).iopl = s.iopl := rfl
@[simp] theorem State.setDraws_mode64 :
    (s.setDraws v).mode64 = s.mode64 := rfl
@[simp] theorem State.setDraws_mode :
    (s.setDraws v).mode = s.mode := rfl
@[simp] theorem State.setDraws_pagingOn :
    (s.setDraws v).pagingOn = s.pagingOn := rfl
@[simp] theorem State.setDraws_regionAt (p : Nat) :
    (s.setDraws v).regionAt p = s.regionAt p := rfl
@[simp] theorem State.setDraws_byteAddr (la : Word64) (i : Nat) :
    (s.setDraws v).byteAddr la i = s.byteAddr la i := rfl
@[simp] theorem State.setDraws_canonical (a : Word64) :
    (s.setDraws v).canonical a = s.canonical a := rfl
@[simp] theorem State.setDraws_canonicalBytes (a : Word64) (n : Nat) :
    (s.setDraws v).canonicalBytes a n = s.canonicalBytes a n := rfl
@[simp] theorem State.setDraws_ptrWidth (w : Nat) :
    (s.setDraws v).ptrWidth w = s.ptrWidth w := rfl
@[simp] theorem State.setDraws_alignmentChecked :
    (s.setDraws v).alignmentChecked = s.alignmentChecked := rfl
@[simp] theorem State.setDraws_cetReg (p : BitVec 2) :
    (s.setDraws v).cetReg p = s.cetReg p := rfl
@[simp] theorem State.setDraws_cetOn :
    (s.setDraws v).cetOn = s.cetOn := rfl
@[simp] theorem State.setDraws_cetControl :
    (s.setDraws v).cetControl = s.cetControl := rfl
@[simp] theorem State.setDraws_shadowStackEnabled (p : BitVec 2) :
    (s.setDraws v).shadowStackEnabled p = s.shadowStackEnabled p := rfl
@[simp] theorem State.setDraws_endbranchEnabled (p : BitVec 2) :
    (s.setDraws v).endbranchEnabled p = s.endbranchEnabled p := rfl
@[simp] theorem State.setDraws_shadowAccess (op : AccessOp) :
    (s.setDraws v).shadowAccess op = s.shadowAccess op := rfl
@[simp] theorem State.setDraws_plSsp (p : BitVec 2) :
    (s.setDraws v).plSsp p = s.plSsp p := rfl
@[simp] theorem State.setDraws_stackTop (p : PtrWidth) :
    (s.setDraws v).stackTop p = s.stackTop p := rfl
@[simp] theorem State.setDraws_lip :
    (s.setDraws v).lip = s.lip := rfl
@[simp] theorem State.setDraws_tableBase (sel : Word16) :
    (s.setDraws v).tableBase sel = s.tableBase sel := rfl
@[simp] theorem State.setDraws_tableLimit (sel : Word16) :
    (s.setDraws v).tableLimit sel = s.tableLimit sel := rfl
@[simp] theorem State.setDraws_selInLimits (sel : Word16) :
    (s.setDraws v).selInLimits sel = s.selInLimits sel := rfl
@[simp] theorem State.setDraws_descriptorAddr (sel : Word16) :
    (s.setDraws v).descriptorAddr sel = s.descriptorAddr sel := rfl
@[simp] theorem State.setDraws_idtEntrySize :
    (s.setDraws v).idtEntrySize = s.idtEntrySize := rfl
@[simp] theorem State.setDraws_idtInLimits (vector : Nat) :
    (s.setDraws v).idtInLimits vector = s.idtInLimits vector := rfl
@[simp] theorem State.setDraws_idtEntryAddr (vector : Nat) :
    (s.setDraws v).idtEntryAddr vector = s.idtEntryAddr vector := rfl
@[simp] theorem State.setDraws_codeSegmentOk (h : Hidden) :
    (s.setDraws v).codeSegmentOk h = s.codeSegmentOk h := rfl
@[simp] theorem State.setDraws_frameCanonical (a : Word64) (n : Nat) :
    (s.setDraws v).frameCanonical a n = s.frameCanonical a n := rfl
@[simp] theorem State.setDraws_ipWidth :
    (s.setDraws v).ipWidth = s.ipWidth := rfl
end

section
variable (s : State) (v : Word64)
@[simp] theorem State.setRip_cfg : (s.setRip v).cfg = s.cfg := rfl
@[simp] theorem State.setRip_rip : (s.setRip v).rip = v := rfl
@[simp] theorem State.setRip_rsp : (s.setRip v).rsp = s.rsp := rfl
@[simp] theorem State.setRip_gprs : (s.setRip v).gprs = s.gprs := rfl
@[simp] theorem State.setRip_eflags : (s.setRip v).eflags = s.eflags := rfl
@[simp] theorem State.setRip_cs : (s.setRip v).cs = s.cs := rfl
@[simp] theorem State.setRip_ss : (s.setRip v).ss = s.ss := rfl
@[simp] theorem State.setRip_ds : (s.setRip v).ds = s.ds := rfl
@[simp] theorem State.setRip_es : (s.setRip v).es = s.es := rfl
@[simp] theorem State.setRip_fs : (s.setRip v).fs = s.fs := rfl
@[simp] theorem State.setRip_gs : (s.setRip v).gs = s.gs := rfl
@[simp] theorem State.setRip_cpl : (s.setRip v).cpl = s.cpl := rfl
@[simp] theorem State.setRip_cr0 : (s.setRip v).cr0 = s.cr0 := rfl
@[simp] theorem State.setRip_cr4 : (s.setRip v).cr4 = s.cr4 := rfl
@[simp] theorem State.setRip_lma : (s.setRip v).lma = s.lma := rfl
@[simp] theorem State.setRip_idtr : (s.setRip v).idtr = s.idtr := rfl
@[simp] theorem State.setRip_gdtr : (s.setRip v).gdtr = s.gdtr := rfl
@[simp] theorem State.setRip_ldtr : (s.setRip v).ldtr = s.ldtr := rfl
@[simp] theorem State.setRip_tr : (s.setRip v).tr = s.tr := rfl
@[simp] theorem State.setRip_dr6 : (s.setRip v).dr6 = s.dr6 := rfl
@[simp] theorem State.setRip_faultAddr : (s.setRip v).faultAddr = s.faultAddr := rfl
@[simp] theorem State.setRip_ssp : (s.setRip v).ssp = s.ssp := rfl
@[simp] theorem State.setRip_pl0Ssp : (s.setRip v).pl0Ssp = s.pl0Ssp := rfl
@[simp] theorem State.setRip_pl1Ssp : (s.setRip v).pl1Ssp = s.pl1Ssp := rfl
@[simp] theorem State.setRip_pl2Ssp : (s.setRip v).pl2Ssp = s.pl2Ssp := rfl
@[simp] theorem State.setRip_pl3Ssp : (s.setRip v).pl3Ssp = s.pl3Ssp := rfl
@[simp] theorem State.setRip_intSspTable : (s.setRip v).intSspTable = s.intSspTable := rfl
@[simp] theorem State.setRip_sCet : (s.setRip v).sCet = s.sCet := rfl
@[simp] theorem State.setRip_uCet : (s.setRip v).uCet = s.uCet := rfl
@[simp] theorem State.setRip_mem : (s.setRip v).mem = s.mem := rfl
@[simp] theorem State.setRip_regions : (s.setRip v).regions = s.regions := rfl
@[simp] theorem State.setRip_pending : (s.setRip v).pending = s.pending := rfl
@[simp] theorem State.setRip_draws : (s.setRip v).draws = s.draws := rfl
@[simp] theorem State.setRip_overflow :
    (s.setRip v).overflow = s.overflow := rfl
@[simp] theorem State.setRip_interruptFlag :
    (s.setRip v).interruptFlag = s.interruptFlag := rfl
@[simp] theorem State.setRip_vm :
    (s.setRip v).vm = s.vm := rfl
@[simp] theorem State.setRip_ac :
    (s.setRip v).ac = s.ac := rfl
@[simp] theorem State.setRip_vif :
    (s.setRip v).vif = s.vif := rfl
@[simp] theorem State.setRip_iopl :
    (s.setRip v).iopl = s.iopl := rfl
@[simp] theorem State.setRip_mode64 :
    (s.setRip v).mode64 = s.mode64 := rfl
@[simp] theorem State.setRip_mode :
    (s.setRip v).mode = s.mode := rfl
@[simp] theorem State.setRip_pagingOn :
    (s.setRip v).pagingOn = s.pagingOn := rfl
@[simp] theorem State.setRip_regionAt (p : Nat) :
    (s.setRip v).regionAt p = s.regionAt p := rfl
@[simp] theorem State.setRip_byteAddr (la : Word64) (i : Nat) :
    (s.setRip v).byteAddr la i = s.byteAddr la i := rfl
@[simp] theorem State.setRip_canonical (a : Word64) :
    (s.setRip v).canonical a = s.canonical a := rfl
@[simp] theorem State.setRip_canonicalBytes (a : Word64) (n : Nat) :
    (s.setRip v).canonicalBytes a n = s.canonicalBytes a n := rfl
@[simp] theorem State.setRip_ptrWidth (w : Nat) :
    (s.setRip v).ptrWidth w = s.ptrWidth w := rfl
@[simp] theorem State.setRip_alignmentChecked :
    (s.setRip v).alignmentChecked = s.alignmentChecked := rfl
@[simp] theorem State.setRip_cetReg (p : BitVec 2) :
    (s.setRip v).cetReg p = s.cetReg p := rfl
@[simp] theorem State.setRip_cetOn :
    (s.setRip v).cetOn = s.cetOn := rfl
@[simp] theorem State.setRip_cetControl :
    (s.setRip v).cetControl = s.cetControl := rfl
@[simp] theorem State.setRip_shadowStackEnabled (p : BitVec 2) :
    (s.setRip v).shadowStackEnabled p = s.shadowStackEnabled p := rfl
@[simp] theorem State.setRip_endbranchEnabled (p : BitVec 2) :
    (s.setRip v).endbranchEnabled p = s.endbranchEnabled p := rfl
@[simp] theorem State.setRip_shadowAccess (op : AccessOp) :
    (s.setRip v).shadowAccess op = s.shadowAccess op := rfl
@[simp] theorem State.setRip_plSsp (p : BitVec 2) :
    (s.setRip v).plSsp p = s.plSsp p := rfl
@[simp] theorem State.setRip_stackTop (p : PtrWidth) :
    (s.setRip v).stackTop p = s.stackTop p := rfl
@[simp] theorem State.setRip_tableBase (sel : Word16) :
    (s.setRip v).tableBase sel = s.tableBase sel := rfl
@[simp] theorem State.setRip_tableLimit (sel : Word16) :
    (s.setRip v).tableLimit sel = s.tableLimit sel := rfl
@[simp] theorem State.setRip_selInLimits (sel : Word16) :
    (s.setRip v).selInLimits sel = s.selInLimits sel := rfl
@[simp] theorem State.setRip_descriptorAddr (sel : Word16) :
    (s.setRip v).descriptorAddr sel = s.descriptorAddr sel := rfl
@[simp] theorem State.setRip_idtEntrySize :
    (s.setRip v).idtEntrySize = s.idtEntrySize := rfl
@[simp] theorem State.setRip_idtInLimits (vector : Nat) :
    (s.setRip v).idtInLimits vector = s.idtInLimits vector := rfl
@[simp] theorem State.setRip_idtEntryAddr (vector : Nat) :
    (s.setRip v).idtEntryAddr vector = s.idtEntryAddr vector := rfl
@[simp] theorem State.setRip_codeSegmentOk (h : Hidden) :
    (s.setRip v).codeSegmentOk h = s.codeSegmentOk h := rfl
@[simp] theorem State.setRip_frameCanonical (a : Word64) (n : Nat) :
    (s.setRip v).frameCanonical a n = s.frameCanonical a n := rfl
@[simp] theorem State.setRip_ipWidth :
    (s.setRip v).ipWidth = s.ipWidth := rfl
end

section
variable (s : State) (v : Word64)
@[simp] theorem State.setRsp_cfg : (s.setRsp v).cfg = s.cfg := rfl
@[simp] theorem State.setRsp_rip : (s.setRsp v).rip = s.rip := rfl
@[simp] theorem State.setRsp_rsp : (s.setRsp v).rsp = v := rfl
@[simp] theorem State.setRsp_gprs : (s.setRsp v).gprs = s.gprs := rfl
@[simp] theorem State.setRsp_eflags : (s.setRsp v).eflags = s.eflags := rfl
@[simp] theorem State.setRsp_cs : (s.setRsp v).cs = s.cs := rfl
@[simp] theorem State.setRsp_ss : (s.setRsp v).ss = s.ss := rfl
@[simp] theorem State.setRsp_ds : (s.setRsp v).ds = s.ds := rfl
@[simp] theorem State.setRsp_es : (s.setRsp v).es = s.es := rfl
@[simp] theorem State.setRsp_fs : (s.setRsp v).fs = s.fs := rfl
@[simp] theorem State.setRsp_gs : (s.setRsp v).gs = s.gs := rfl
@[simp] theorem State.setRsp_cpl : (s.setRsp v).cpl = s.cpl := rfl
@[simp] theorem State.setRsp_cr0 : (s.setRsp v).cr0 = s.cr0 := rfl
@[simp] theorem State.setRsp_cr4 : (s.setRsp v).cr4 = s.cr4 := rfl
@[simp] theorem State.setRsp_lma : (s.setRsp v).lma = s.lma := rfl
@[simp] theorem State.setRsp_idtr : (s.setRsp v).idtr = s.idtr := rfl
@[simp] theorem State.setRsp_gdtr : (s.setRsp v).gdtr = s.gdtr := rfl
@[simp] theorem State.setRsp_ldtr : (s.setRsp v).ldtr = s.ldtr := rfl
@[simp] theorem State.setRsp_tr : (s.setRsp v).tr = s.tr := rfl
@[simp] theorem State.setRsp_dr6 : (s.setRsp v).dr6 = s.dr6 := rfl
@[simp] theorem State.setRsp_faultAddr : (s.setRsp v).faultAddr = s.faultAddr := rfl
@[simp] theorem State.setRsp_ssp : (s.setRsp v).ssp = s.ssp := rfl
@[simp] theorem State.setRsp_pl0Ssp : (s.setRsp v).pl0Ssp = s.pl0Ssp := rfl
@[simp] theorem State.setRsp_pl1Ssp : (s.setRsp v).pl1Ssp = s.pl1Ssp := rfl
@[simp] theorem State.setRsp_pl2Ssp : (s.setRsp v).pl2Ssp = s.pl2Ssp := rfl
@[simp] theorem State.setRsp_pl3Ssp : (s.setRsp v).pl3Ssp = s.pl3Ssp := rfl
@[simp] theorem State.setRsp_intSspTable : (s.setRsp v).intSspTable = s.intSspTable := rfl
@[simp] theorem State.setRsp_sCet : (s.setRsp v).sCet = s.sCet := rfl
@[simp] theorem State.setRsp_uCet : (s.setRsp v).uCet = s.uCet := rfl
@[simp] theorem State.setRsp_mem : (s.setRsp v).mem = s.mem := rfl
@[simp] theorem State.setRsp_regions : (s.setRsp v).regions = s.regions := rfl
@[simp] theorem State.setRsp_pending : (s.setRsp v).pending = s.pending := rfl
@[simp] theorem State.setRsp_draws : (s.setRsp v).draws = s.draws := rfl
@[simp] theorem State.setRsp_overflow :
    (s.setRsp v).overflow = s.overflow := rfl
@[simp] theorem State.setRsp_interruptFlag :
    (s.setRsp v).interruptFlag = s.interruptFlag := rfl
@[simp] theorem State.setRsp_vm :
    (s.setRsp v).vm = s.vm := rfl
@[simp] theorem State.setRsp_ac :
    (s.setRsp v).ac = s.ac := rfl
@[simp] theorem State.setRsp_vif :
    (s.setRsp v).vif = s.vif := rfl
@[simp] theorem State.setRsp_iopl :
    (s.setRsp v).iopl = s.iopl := rfl
@[simp] theorem State.setRsp_mode64 :
    (s.setRsp v).mode64 = s.mode64 := rfl
@[simp] theorem State.setRsp_mode :
    (s.setRsp v).mode = s.mode := rfl
@[simp] theorem State.setRsp_pagingOn :
    (s.setRsp v).pagingOn = s.pagingOn := rfl
@[simp] theorem State.setRsp_regionAt (p : Nat) :
    (s.setRsp v).regionAt p = s.regionAt p := rfl
@[simp] theorem State.setRsp_byteAddr (la : Word64) (i : Nat) :
    (s.setRsp v).byteAddr la i = s.byteAddr la i := rfl
@[simp] theorem State.setRsp_canonical (a : Word64) :
    (s.setRsp v).canonical a = s.canonical a := rfl
@[simp] theorem State.setRsp_canonicalBytes (a : Word64) (n : Nat) :
    (s.setRsp v).canonicalBytes a n = s.canonicalBytes a n := rfl
@[simp] theorem State.setRsp_ptrWidth (w : Nat) :
    (s.setRsp v).ptrWidth w = s.ptrWidth w := rfl
@[simp] theorem State.setRsp_alignmentChecked :
    (s.setRsp v).alignmentChecked = s.alignmentChecked := rfl
@[simp] theorem State.setRsp_cetReg (p : BitVec 2) :
    (s.setRsp v).cetReg p = s.cetReg p := rfl
@[simp] theorem State.setRsp_cetOn :
    (s.setRsp v).cetOn = s.cetOn := rfl
@[simp] theorem State.setRsp_cetControl :
    (s.setRsp v).cetControl = s.cetControl := rfl
@[simp] theorem State.setRsp_shadowStackEnabled (p : BitVec 2) :
    (s.setRsp v).shadowStackEnabled p = s.shadowStackEnabled p := rfl
@[simp] theorem State.setRsp_endbranchEnabled (p : BitVec 2) :
    (s.setRsp v).endbranchEnabled p = s.endbranchEnabled p := rfl
@[simp] theorem State.setRsp_shadowAccess (op : AccessOp) :
    (s.setRsp v).shadowAccess op = s.shadowAccess op := rfl
@[simp] theorem State.setRsp_plSsp (p : BitVec 2) :
    (s.setRsp v).plSsp p = s.plSsp p := rfl
@[simp] theorem State.setRsp_lip :
    (s.setRsp v).lip = s.lip := rfl
@[simp] theorem State.setRsp_tableBase (sel : Word16) :
    (s.setRsp v).tableBase sel = s.tableBase sel := rfl
@[simp] theorem State.setRsp_tableLimit (sel : Word16) :
    (s.setRsp v).tableLimit sel = s.tableLimit sel := rfl
@[simp] theorem State.setRsp_selInLimits (sel : Word16) :
    (s.setRsp v).selInLimits sel = s.selInLimits sel := rfl
@[simp] theorem State.setRsp_descriptorAddr (sel : Word16) :
    (s.setRsp v).descriptorAddr sel = s.descriptorAddr sel := rfl
@[simp] theorem State.setRsp_idtEntrySize :
    (s.setRsp v).idtEntrySize = s.idtEntrySize := rfl
@[simp] theorem State.setRsp_idtInLimits (vector : Nat) :
    (s.setRsp v).idtInLimits vector = s.idtInLimits vector := rfl
@[simp] theorem State.setRsp_idtEntryAddr (vector : Nat) :
    (s.setRsp v).idtEntryAddr vector = s.idtEntryAddr vector := rfl
@[simp] theorem State.setRsp_codeSegmentOk (h : Hidden) :
    (s.setRsp v).codeSegmentOk h = s.codeSegmentOk h := rfl
@[simp] theorem State.setRsp_frameCanonical (a : Word64) (n : Nat) :
    (s.setRsp v).frameCanonical a n = s.frameCanonical a n := rfl
@[simp] theorem State.setRsp_ipWidth :
    (s.setRsp v).ipWidth = s.ipWidth := rfl
end

section
variable (s : State) (v : Word32)
@[simp] theorem State.setFlags_cfg : (s.setFlags v).cfg = s.cfg := rfl
@[simp] theorem State.setFlags_rip : (s.setFlags v).rip = s.rip := rfl
@[simp] theorem State.setFlags_rsp : (s.setFlags v).rsp = s.rsp := rfl
@[simp] theorem State.setFlags_gprs : (s.setFlags v).gprs = s.gprs := rfl
@[simp] theorem State.setFlags_eflags : (s.setFlags v).eflags = v := rfl
@[simp] theorem State.setFlags_cs : (s.setFlags v).cs = s.cs := rfl
@[simp] theorem State.setFlags_ss : (s.setFlags v).ss = s.ss := rfl
@[simp] theorem State.setFlags_ds : (s.setFlags v).ds = s.ds := rfl
@[simp] theorem State.setFlags_es : (s.setFlags v).es = s.es := rfl
@[simp] theorem State.setFlags_fs : (s.setFlags v).fs = s.fs := rfl
@[simp] theorem State.setFlags_gs : (s.setFlags v).gs = s.gs := rfl
@[simp] theorem State.setFlags_cpl : (s.setFlags v).cpl = s.cpl := rfl
@[simp] theorem State.setFlags_cr0 : (s.setFlags v).cr0 = s.cr0 := rfl
@[simp] theorem State.setFlags_cr4 : (s.setFlags v).cr4 = s.cr4 := rfl
@[simp] theorem State.setFlags_lma : (s.setFlags v).lma = s.lma := rfl
@[simp] theorem State.setFlags_idtr : (s.setFlags v).idtr = s.idtr := rfl
@[simp] theorem State.setFlags_gdtr : (s.setFlags v).gdtr = s.gdtr := rfl
@[simp] theorem State.setFlags_ldtr : (s.setFlags v).ldtr = s.ldtr := rfl
@[simp] theorem State.setFlags_tr : (s.setFlags v).tr = s.tr := rfl
@[simp] theorem State.setFlags_dr6 : (s.setFlags v).dr6 = s.dr6 := rfl
@[simp] theorem State.setFlags_faultAddr : (s.setFlags v).faultAddr = s.faultAddr := rfl
@[simp] theorem State.setFlags_ssp : (s.setFlags v).ssp = s.ssp := rfl
@[simp] theorem State.setFlags_pl0Ssp : (s.setFlags v).pl0Ssp = s.pl0Ssp := rfl
@[simp] theorem State.setFlags_pl1Ssp : (s.setFlags v).pl1Ssp = s.pl1Ssp := rfl
@[simp] theorem State.setFlags_pl2Ssp : (s.setFlags v).pl2Ssp = s.pl2Ssp := rfl
@[simp] theorem State.setFlags_pl3Ssp : (s.setFlags v).pl3Ssp = s.pl3Ssp := rfl
@[simp] theorem State.setFlags_intSspTable : (s.setFlags v).intSspTable = s.intSspTable := rfl
@[simp] theorem State.setFlags_sCet : (s.setFlags v).sCet = s.sCet := rfl
@[simp] theorem State.setFlags_uCet : (s.setFlags v).uCet = s.uCet := rfl
@[simp] theorem State.setFlags_mem : (s.setFlags v).mem = s.mem := rfl
@[simp] theorem State.setFlags_regions : (s.setFlags v).regions = s.regions := rfl
@[simp] theorem State.setFlags_pending : (s.setFlags v).pending = s.pending := rfl
@[simp] theorem State.setFlags_draws : (s.setFlags v).draws = s.draws := rfl
@[simp] theorem State.setFlags_mode64 :
    (s.setFlags v).mode64 = s.mode64 := rfl
@[simp] theorem State.setFlags_pagingOn :
    (s.setFlags v).pagingOn = s.pagingOn := rfl
@[simp] theorem State.setFlags_regionAt (p : Nat) :
    (s.setFlags v).regionAt p = s.regionAt p := rfl
@[simp] theorem State.setFlags_byteAddr (la : Word64) (i : Nat) :
    (s.setFlags v).byteAddr la i = s.byteAddr la i := rfl
@[simp] theorem State.setFlags_canonical (a : Word64) :
    (s.setFlags v).canonical a = s.canonical a := rfl
@[simp] theorem State.setFlags_canonicalBytes (a : Word64) (n : Nat) :
    (s.setFlags v).canonicalBytes a n = s.canonicalBytes a n := rfl
@[simp] theorem State.setFlags_cetReg (p : BitVec 2) :
    (s.setFlags v).cetReg p = s.cetReg p := rfl
@[simp] theorem State.setFlags_shadowAccess (op : AccessOp) :
    (s.setFlags v).shadowAccess op = s.shadowAccess op := rfl
@[simp] theorem State.setFlags_plSsp (p : BitVec 2) :
    (s.setFlags v).plSsp p = s.plSsp p := rfl
@[simp] theorem State.setFlags_stackTop (p : PtrWidth) :
    (s.setFlags v).stackTop p = s.stackTop p := rfl
@[simp] theorem State.setFlags_lip :
    (s.setFlags v).lip = s.lip := rfl
@[simp] theorem State.setFlags_tableBase (sel : Word16) :
    (s.setFlags v).tableBase sel = s.tableBase sel := rfl
@[simp] theorem State.setFlags_tableLimit (sel : Word16) :
    (s.setFlags v).tableLimit sel = s.tableLimit sel := rfl
@[simp] theorem State.setFlags_selInLimits (sel : Word16) :
    (s.setFlags v).selInLimits sel = s.selInLimits sel := rfl
@[simp] theorem State.setFlags_descriptorAddr (sel : Word16) :
    (s.setFlags v).descriptorAddr sel = s.descriptorAddr sel := rfl
@[simp] theorem State.setFlags_idtEntrySize :
    (s.setFlags v).idtEntrySize = s.idtEntrySize := rfl
@[simp] theorem State.setFlags_idtInLimits (vector : Nat) :
    (s.setFlags v).idtInLimits vector = s.idtInLimits vector := rfl
@[simp] theorem State.setFlags_idtEntryAddr (vector : Nat) :
    (s.setFlags v).idtEntryAddr vector = s.idtEntryAddr vector := rfl
@[simp] theorem State.setFlags_codeSegmentOk (h : Hidden) :
    (s.setFlags v).codeSegmentOk h = s.codeSegmentOk h := rfl
@[simp] theorem State.setFlags_frameCanonical (a : Word64) (n : Nat) :
    (s.setFlags v).frameCanonical a n = s.frameCanonical a n := rfl
@[simp] theorem State.setFlags_ipWidth :
    (s.setFlags v).ipWidth = s.ipWidth := rfl
end

section
variable (s : State) (v : SegReg)
@[simp] theorem State.setCs_cfg : (s.setCs v).cfg = s.cfg := rfl
@[simp] theorem State.setCs_rip : (s.setCs v).rip = s.rip := rfl
@[simp] theorem State.setCs_rsp : (s.setCs v).rsp = s.rsp := rfl
@[simp] theorem State.setCs_gprs : (s.setCs v).gprs = s.gprs := rfl
@[simp] theorem State.setCs_eflags : (s.setCs v).eflags = s.eflags := rfl
@[simp] theorem State.setCs_cs : (s.setCs v).cs = v := rfl
@[simp] theorem State.setCs_ss : (s.setCs v).ss = s.ss := rfl
@[simp] theorem State.setCs_ds : (s.setCs v).ds = s.ds := rfl
@[simp] theorem State.setCs_es : (s.setCs v).es = s.es := rfl
@[simp] theorem State.setCs_fs : (s.setCs v).fs = s.fs := rfl
@[simp] theorem State.setCs_gs : (s.setCs v).gs = s.gs := rfl
@[simp] theorem State.setCs_cpl : (s.setCs v).cpl = s.cpl := rfl
@[simp] theorem State.setCs_cr0 : (s.setCs v).cr0 = s.cr0 := rfl
@[simp] theorem State.setCs_cr4 : (s.setCs v).cr4 = s.cr4 := rfl
@[simp] theorem State.setCs_lma : (s.setCs v).lma = s.lma := rfl
@[simp] theorem State.setCs_idtr : (s.setCs v).idtr = s.idtr := rfl
@[simp] theorem State.setCs_gdtr : (s.setCs v).gdtr = s.gdtr := rfl
@[simp] theorem State.setCs_ldtr : (s.setCs v).ldtr = s.ldtr := rfl
@[simp] theorem State.setCs_tr : (s.setCs v).tr = s.tr := rfl
@[simp] theorem State.setCs_dr6 : (s.setCs v).dr6 = s.dr6 := rfl
@[simp] theorem State.setCs_faultAddr : (s.setCs v).faultAddr = s.faultAddr := rfl
@[simp] theorem State.setCs_ssp : (s.setCs v).ssp = s.ssp := rfl
@[simp] theorem State.setCs_pl0Ssp : (s.setCs v).pl0Ssp = s.pl0Ssp := rfl
@[simp] theorem State.setCs_pl1Ssp : (s.setCs v).pl1Ssp = s.pl1Ssp := rfl
@[simp] theorem State.setCs_pl2Ssp : (s.setCs v).pl2Ssp = s.pl2Ssp := rfl
@[simp] theorem State.setCs_pl3Ssp : (s.setCs v).pl3Ssp = s.pl3Ssp := rfl
@[simp] theorem State.setCs_intSspTable : (s.setCs v).intSspTable = s.intSspTable := rfl
@[simp] theorem State.setCs_sCet : (s.setCs v).sCet = s.sCet := rfl
@[simp] theorem State.setCs_uCet : (s.setCs v).uCet = s.uCet := rfl
@[simp] theorem State.setCs_mem : (s.setCs v).mem = s.mem := rfl
@[simp] theorem State.setCs_regions : (s.setCs v).regions = s.regions := rfl
@[simp] theorem State.setCs_pending : (s.setCs v).pending = s.pending := rfl
@[simp] theorem State.setCs_draws : (s.setCs v).draws = s.draws := rfl
@[simp] theorem State.setCs_overflow :
    (s.setCs v).overflow = s.overflow := rfl
@[simp] theorem State.setCs_interruptFlag :
    (s.setCs v).interruptFlag = s.interruptFlag := rfl
@[simp] theorem State.setCs_vm :
    (s.setCs v).vm = s.vm := rfl
@[simp] theorem State.setCs_ac :
    (s.setCs v).ac = s.ac := rfl
@[simp] theorem State.setCs_vif :
    (s.setCs v).vif = s.vif := rfl
@[simp] theorem State.setCs_iopl :
    (s.setCs v).iopl = s.iopl := rfl
@[simp] theorem State.setCs_pagingOn :
    (s.setCs v).pagingOn = s.pagingOn := rfl
@[simp] theorem State.setCs_regionAt (p : Nat) :
    (s.setCs v).regionAt p = s.regionAt p := rfl
@[simp] theorem State.setCs_byteAddr (la : Word64) (i : Nat) :
    (s.setCs v).byteAddr la i = s.byteAddr la i := rfl
@[simp] theorem State.setCs_canonical (a : Word64) :
    (s.setCs v).canonical a = s.canonical a := rfl
@[simp] theorem State.setCs_canonicalBytes (a : Word64) (n : Nat) :
    (s.setCs v).canonicalBytes a n = s.canonicalBytes a n := rfl
@[simp] theorem State.setCs_ptrWidth (w : Nat) :
    (s.setCs v).ptrWidth w = s.ptrWidth w := rfl
@[simp] theorem State.setCs_alignmentChecked :
    (s.setCs v).alignmentChecked = s.alignmentChecked := rfl
@[simp] theorem State.setCs_cetReg (p : BitVec 2) :
    (s.setCs v).cetReg p = s.cetReg p := rfl
@[simp] theorem State.setCs_cetOn :
    (s.setCs v).cetOn = s.cetOn := rfl
@[simp] theorem State.setCs_cetControl :
    (s.setCs v).cetControl = s.cetControl := rfl
@[simp] theorem State.setCs_shadowStackEnabled (p : BitVec 2) :
    (s.setCs v).shadowStackEnabled p = s.shadowStackEnabled p := rfl
@[simp] theorem State.setCs_endbranchEnabled (p : BitVec 2) :
    (s.setCs v).endbranchEnabled p = s.endbranchEnabled p := rfl
@[simp] theorem State.setCs_shadowAccess (op : AccessOp) :
    (s.setCs v).shadowAccess op = s.shadowAccess op := rfl
@[simp] theorem State.setCs_plSsp (p : BitVec 2) :
    (s.setCs v).plSsp p = s.plSsp p := rfl
@[simp] theorem State.setCs_stackTop (p : PtrWidth) :
    (s.setCs v).stackTop p = s.stackTop p := rfl
@[simp] theorem State.setCs_tableBase (sel : Word16) :
    (s.setCs v).tableBase sel = s.tableBase sel := rfl
@[simp] theorem State.setCs_tableLimit (sel : Word16) :
    (s.setCs v).tableLimit sel = s.tableLimit sel := rfl
@[simp] theorem State.setCs_selInLimits (sel : Word16) :
    (s.setCs v).selInLimits sel = s.selInLimits sel := rfl
@[simp] theorem State.setCs_descriptorAddr (sel : Word16) :
    (s.setCs v).descriptorAddr sel = s.descriptorAddr sel := rfl
@[simp] theorem State.setCs_idtEntrySize :
    (s.setCs v).idtEntrySize = s.idtEntrySize := rfl
@[simp] theorem State.setCs_idtInLimits (vector : Nat) :
    (s.setCs v).idtInLimits vector = s.idtInLimits vector := rfl
@[simp] theorem State.setCs_idtEntryAddr (vector : Nat) :
    (s.setCs v).idtEntryAddr vector = s.idtEntryAddr vector := rfl
@[simp] theorem State.setCs_codeSegmentOk (h : Hidden) :
    (s.setCs v).codeSegmentOk h = s.codeSegmentOk h := rfl
@[simp] theorem State.setCs_frameCanonical (a : Word64) (n : Nat) :
    (s.setCs v).frameCanonical a n = s.frameCanonical a n := rfl
end

section
variable (s : State) (v : SegReg)
@[simp] theorem State.setSs_cfg : (s.setSs v).cfg = s.cfg := rfl
@[simp] theorem State.setSs_rip : (s.setSs v).rip = s.rip := rfl
@[simp] theorem State.setSs_rsp : (s.setSs v).rsp = s.rsp := rfl
@[simp] theorem State.setSs_gprs : (s.setSs v).gprs = s.gprs := rfl
@[simp] theorem State.setSs_eflags : (s.setSs v).eflags = s.eflags := rfl
@[simp] theorem State.setSs_cs : (s.setSs v).cs = s.cs := rfl
@[simp] theorem State.setSs_ss : (s.setSs v).ss = v := rfl
@[simp] theorem State.setSs_ds : (s.setSs v).ds = s.ds := rfl
@[simp] theorem State.setSs_es : (s.setSs v).es = s.es := rfl
@[simp] theorem State.setSs_fs : (s.setSs v).fs = s.fs := rfl
@[simp] theorem State.setSs_gs : (s.setSs v).gs = s.gs := rfl
@[simp] theorem State.setSs_cpl : (s.setSs v).cpl = s.cpl := rfl
@[simp] theorem State.setSs_cr0 : (s.setSs v).cr0 = s.cr0 := rfl
@[simp] theorem State.setSs_cr4 : (s.setSs v).cr4 = s.cr4 := rfl
@[simp] theorem State.setSs_lma : (s.setSs v).lma = s.lma := rfl
@[simp] theorem State.setSs_idtr : (s.setSs v).idtr = s.idtr := rfl
@[simp] theorem State.setSs_gdtr : (s.setSs v).gdtr = s.gdtr := rfl
@[simp] theorem State.setSs_ldtr : (s.setSs v).ldtr = s.ldtr := rfl
@[simp] theorem State.setSs_tr : (s.setSs v).tr = s.tr := rfl
@[simp] theorem State.setSs_dr6 : (s.setSs v).dr6 = s.dr6 := rfl
@[simp] theorem State.setSs_faultAddr : (s.setSs v).faultAddr = s.faultAddr := rfl
@[simp] theorem State.setSs_ssp : (s.setSs v).ssp = s.ssp := rfl
@[simp] theorem State.setSs_pl0Ssp : (s.setSs v).pl0Ssp = s.pl0Ssp := rfl
@[simp] theorem State.setSs_pl1Ssp : (s.setSs v).pl1Ssp = s.pl1Ssp := rfl
@[simp] theorem State.setSs_pl2Ssp : (s.setSs v).pl2Ssp = s.pl2Ssp := rfl
@[simp] theorem State.setSs_pl3Ssp : (s.setSs v).pl3Ssp = s.pl3Ssp := rfl
@[simp] theorem State.setSs_intSspTable : (s.setSs v).intSspTable = s.intSspTable := rfl
@[simp] theorem State.setSs_sCet : (s.setSs v).sCet = s.sCet := rfl
@[simp] theorem State.setSs_uCet : (s.setSs v).uCet = s.uCet := rfl
@[simp] theorem State.setSs_mem : (s.setSs v).mem = s.mem := rfl
@[simp] theorem State.setSs_regions : (s.setSs v).regions = s.regions := rfl
@[simp] theorem State.setSs_pending : (s.setSs v).pending = s.pending := rfl
@[simp] theorem State.setSs_draws : (s.setSs v).draws = s.draws := rfl
@[simp] theorem State.setSs_overflow :
    (s.setSs v).overflow = s.overflow := rfl
@[simp] theorem State.setSs_interruptFlag :
    (s.setSs v).interruptFlag = s.interruptFlag := rfl
@[simp] theorem State.setSs_vm :
    (s.setSs v).vm = s.vm := rfl
@[simp] theorem State.setSs_ac :
    (s.setSs v).ac = s.ac := rfl
@[simp] theorem State.setSs_vif :
    (s.setSs v).vif = s.vif := rfl
@[simp] theorem State.setSs_iopl :
    (s.setSs v).iopl = s.iopl := rfl
@[simp] theorem State.setSs_mode64 :
    (s.setSs v).mode64 = s.mode64 := rfl
@[simp] theorem State.setSs_mode :
    (s.setSs v).mode = s.mode := rfl
@[simp] theorem State.setSs_pagingOn :
    (s.setSs v).pagingOn = s.pagingOn := rfl
@[simp] theorem State.setSs_regionAt (p : Nat) :
    (s.setSs v).regionAt p = s.regionAt p := rfl
@[simp] theorem State.setSs_byteAddr (la : Word64) (i : Nat) :
    (s.setSs v).byteAddr la i = s.byteAddr la i := rfl
@[simp] theorem State.setSs_canonical (a : Word64) :
    (s.setSs v).canonical a = s.canonical a := rfl
@[simp] theorem State.setSs_canonicalBytes (a : Word64) (n : Nat) :
    (s.setSs v).canonicalBytes a n = s.canonicalBytes a n := rfl
@[simp] theorem State.setSs_alignmentChecked :
    (s.setSs v).alignmentChecked = s.alignmentChecked := rfl
@[simp] theorem State.setSs_cetReg (p : BitVec 2) :
    (s.setSs v).cetReg p = s.cetReg p := rfl
@[simp] theorem State.setSs_cetOn :
    (s.setSs v).cetOn = s.cetOn := rfl
@[simp] theorem State.setSs_cetControl :
    (s.setSs v).cetControl = s.cetControl := rfl
@[simp] theorem State.setSs_shadowStackEnabled (p : BitVec 2) :
    (s.setSs v).shadowStackEnabled p = s.shadowStackEnabled p := rfl
@[simp] theorem State.setSs_endbranchEnabled (p : BitVec 2) :
    (s.setSs v).endbranchEnabled p = s.endbranchEnabled p := rfl
@[simp] theorem State.setSs_shadowAccess (op : AccessOp) :
    (s.setSs v).shadowAccess op = s.shadowAccess op := rfl
@[simp] theorem State.setSs_plSsp (p : BitVec 2) :
    (s.setSs v).plSsp p = s.plSsp p := rfl
@[simp] theorem State.setSs_lip :
    (s.setSs v).lip = s.lip := rfl
@[simp] theorem State.setSs_tableBase (sel : Word16) :
    (s.setSs v).tableBase sel = s.tableBase sel := rfl
@[simp] theorem State.setSs_tableLimit (sel : Word16) :
    (s.setSs v).tableLimit sel = s.tableLimit sel := rfl
@[simp] theorem State.setSs_selInLimits (sel : Word16) :
    (s.setSs v).selInLimits sel = s.selInLimits sel := rfl
@[simp] theorem State.setSs_descriptorAddr (sel : Word16) :
    (s.setSs v).descriptorAddr sel = s.descriptorAddr sel := rfl
@[simp] theorem State.setSs_idtEntrySize :
    (s.setSs v).idtEntrySize = s.idtEntrySize := rfl
@[simp] theorem State.setSs_idtInLimits (vector : Nat) :
    (s.setSs v).idtInLimits vector = s.idtInLimits vector := rfl
@[simp] theorem State.setSs_idtEntryAddr (vector : Nat) :
    (s.setSs v).idtEntryAddr vector = s.idtEntryAddr vector := rfl
@[simp] theorem State.setSs_codeSegmentOk (h : Hidden) :
    (s.setSs v).codeSegmentOk h = s.codeSegmentOk h := rfl
@[simp] theorem State.setSs_frameCanonical (a : Word64) (n : Nat) :
    (s.setSs v).frameCanonical a n = s.frameCanonical a n := rfl
@[simp] theorem State.setSs_ipWidth :
    (s.setSs v).ipWidth = s.ipWidth := rfl
end

section
variable (s : State) (d1 d2 d3 d4 : SegReg)
@[simp] theorem State.setData_cfg : (s.setData d1 d2 d3 d4).cfg = s.cfg := rfl
@[simp] theorem State.setData_rip : (s.setData d1 d2 d3 d4).rip = s.rip := rfl
@[simp] theorem State.setData_rsp : (s.setData d1 d2 d3 d4).rsp = s.rsp := rfl
@[simp] theorem State.setData_gprs : (s.setData d1 d2 d3 d4).gprs = s.gprs := rfl
@[simp] theorem State.setData_eflags : (s.setData d1 d2 d3 d4).eflags = s.eflags := rfl
@[simp] theorem State.setData_cs : (s.setData d1 d2 d3 d4).cs = s.cs := rfl
@[simp] theorem State.setData_ss : (s.setData d1 d2 d3 d4).ss = s.ss := rfl
@[simp] theorem State.setData_ds : (s.setData d1 d2 d3 d4).ds = d1 := rfl
@[simp] theorem State.setData_es : (s.setData d1 d2 d3 d4).es = d2 := rfl
@[simp] theorem State.setData_fs : (s.setData d1 d2 d3 d4).fs = d3 := rfl
@[simp] theorem State.setData_gs : (s.setData d1 d2 d3 d4).gs = d4 := rfl
@[simp] theorem State.setData_cpl : (s.setData d1 d2 d3 d4).cpl = s.cpl := rfl
@[simp] theorem State.setData_cr0 : (s.setData d1 d2 d3 d4).cr0 = s.cr0 := rfl
@[simp] theorem State.setData_cr4 : (s.setData d1 d2 d3 d4).cr4 = s.cr4 := rfl
@[simp] theorem State.setData_lma : (s.setData d1 d2 d3 d4).lma = s.lma := rfl
@[simp] theorem State.setData_idtr : (s.setData d1 d2 d3 d4).idtr = s.idtr := rfl
@[simp] theorem State.setData_gdtr : (s.setData d1 d2 d3 d4).gdtr = s.gdtr := rfl
@[simp] theorem State.setData_ldtr : (s.setData d1 d2 d3 d4).ldtr = s.ldtr := rfl
@[simp] theorem State.setData_tr : (s.setData d1 d2 d3 d4).tr = s.tr := rfl
@[simp] theorem State.setData_dr6 : (s.setData d1 d2 d3 d4).dr6 = s.dr6 := rfl
@[simp] theorem State.setData_faultAddr : (s.setData d1 d2 d3 d4).faultAddr = s.faultAddr := rfl
@[simp] theorem State.setData_ssp : (s.setData d1 d2 d3 d4).ssp = s.ssp := rfl
@[simp] theorem State.setData_pl0Ssp : (s.setData d1 d2 d3 d4).pl0Ssp = s.pl0Ssp := rfl
@[simp] theorem State.setData_pl1Ssp : (s.setData d1 d2 d3 d4).pl1Ssp = s.pl1Ssp := rfl
@[simp] theorem State.setData_pl2Ssp : (s.setData d1 d2 d3 d4).pl2Ssp = s.pl2Ssp := rfl
@[simp] theorem State.setData_pl3Ssp : (s.setData d1 d2 d3 d4).pl3Ssp = s.pl3Ssp := rfl
@[simp] theorem State.setData_intSspTable : (s.setData d1 d2 d3 d4).intSspTable = s.intSspTable := rfl
@[simp] theorem State.setData_sCet : (s.setData d1 d2 d3 d4).sCet = s.sCet := rfl
@[simp] theorem State.setData_uCet : (s.setData d1 d2 d3 d4).uCet = s.uCet := rfl
@[simp] theorem State.setData_mem : (s.setData d1 d2 d3 d4).mem = s.mem := rfl
@[simp] theorem State.setData_regions : (s.setData d1 d2 d3 d4).regions = s.regions := rfl
@[simp] theorem State.setData_pending : (s.setData d1 d2 d3 d4).pending = s.pending := rfl
@[simp] theorem State.setData_draws : (s.setData d1 d2 d3 d4).draws = s.draws := rfl
@[simp] theorem State.setData_overflow :
    (s.setData d1 d2 d3 d4).overflow = s.overflow := rfl
@[simp] theorem State.setData_interruptFlag :
    (s.setData d1 d2 d3 d4).interruptFlag = s.interruptFlag := rfl
@[simp] theorem State.setData_vm :
    (s.setData d1 d2 d3 d4).vm = s.vm := rfl
@[simp] theorem State.setData_ac :
    (s.setData d1 d2 d3 d4).ac = s.ac := rfl
@[simp] theorem State.setData_vif :
    (s.setData d1 d2 d3 d4).vif = s.vif := rfl
@[simp] theorem State.setData_iopl :
    (s.setData d1 d2 d3 d4).iopl = s.iopl := rfl
@[simp] theorem State.setData_mode64 :
    (s.setData d1 d2 d3 d4).mode64 = s.mode64 := rfl
@[simp] theorem State.setData_mode :
    (s.setData d1 d2 d3 d4).mode = s.mode := rfl
@[simp] theorem State.setData_pagingOn :
    (s.setData d1 d2 d3 d4).pagingOn = s.pagingOn := rfl
@[simp] theorem State.setData_regionAt (p : Nat) :
    (s.setData d1 d2 d3 d4).regionAt p = s.regionAt p := rfl
@[simp] theorem State.setData_byteAddr (la : Word64) (i : Nat) :
    (s.setData d1 d2 d3 d4).byteAddr la i = s.byteAddr la i := rfl
@[simp] theorem State.setData_canonical (a : Word64) :
    (s.setData d1 d2 d3 d4).canonical a = s.canonical a := rfl
@[simp] theorem State.setData_canonicalBytes (a : Word64) (n : Nat) :
    (s.setData d1 d2 d3 d4).canonicalBytes a n = s.canonicalBytes a n := rfl
@[simp] theorem State.setData_ptrWidth (w : Nat) :
    (s.setData d1 d2 d3 d4).ptrWidth w = s.ptrWidth w := rfl
@[simp] theorem State.setData_alignmentChecked :
    (s.setData d1 d2 d3 d4).alignmentChecked = s.alignmentChecked := rfl
@[simp] theorem State.setData_cetReg (p : BitVec 2) :
    (s.setData d1 d2 d3 d4).cetReg p = s.cetReg p := rfl
@[simp] theorem State.setData_cetOn :
    (s.setData d1 d2 d3 d4).cetOn = s.cetOn := rfl
@[simp] theorem State.setData_cetControl :
    (s.setData d1 d2 d3 d4).cetControl = s.cetControl := rfl
@[simp] theorem State.setData_shadowStackEnabled (p : BitVec 2) :
    (s.setData d1 d2 d3 d4).shadowStackEnabled p = s.shadowStackEnabled p := rfl
@[simp] theorem State.setData_endbranchEnabled (p : BitVec 2) :
    (s.setData d1 d2 d3 d4).endbranchEnabled p = s.endbranchEnabled p := rfl
@[simp] theorem State.setData_shadowAccess (op : AccessOp) :
    (s.setData d1 d2 d3 d4).shadowAccess op = s.shadowAccess op := rfl
@[simp] theorem State.setData_plSsp (p : BitVec 2) :
    (s.setData d1 d2 d3 d4).plSsp p = s.plSsp p := rfl
@[simp] theorem State.setData_stackTop (p : PtrWidth) :
    (s.setData d1 d2 d3 d4).stackTop p = s.stackTop p := rfl
@[simp] theorem State.setData_lip :
    (s.setData d1 d2 d3 d4).lip = s.lip := rfl
@[simp] theorem State.setData_tableBase (sel : Word16) :
    (s.setData d1 d2 d3 d4).tableBase sel = s.tableBase sel := rfl
@[simp] theorem State.setData_tableLimit (sel : Word16) :
    (s.setData d1 d2 d3 d4).tableLimit sel = s.tableLimit sel := rfl
@[simp] theorem State.setData_selInLimits (sel : Word16) :
    (s.setData d1 d2 d3 d4).selInLimits sel = s.selInLimits sel := rfl
@[simp] theorem State.setData_descriptorAddr (sel : Word16) :
    (s.setData d1 d2 d3 d4).descriptorAddr sel = s.descriptorAddr sel := rfl
@[simp] theorem State.setData_idtEntrySize :
    (s.setData d1 d2 d3 d4).idtEntrySize = s.idtEntrySize := rfl
@[simp] theorem State.setData_idtInLimits (vector : Nat) :
    (s.setData d1 d2 d3 d4).idtInLimits vector = s.idtInLimits vector := rfl
@[simp] theorem State.setData_idtEntryAddr (vector : Nat) :
    (s.setData d1 d2 d3 d4).idtEntryAddr vector = s.idtEntryAddr vector := rfl
@[simp] theorem State.setData_codeSegmentOk (h : Hidden) :
    (s.setData d1 d2 d3 d4).codeSegmentOk h = s.codeSegmentOk h := rfl
@[simp] theorem State.setData_frameCanonical (a : Word64) (n : Nat) :
    (s.setData d1 d2 d3 d4).frameCanonical a n = s.frameCanonical a n := rfl
@[simp] theorem State.setData_ipWidth :
    (s.setData d1 d2 d3 d4).ipWidth = s.ipWidth := rfl
end

section
variable (s : State) (v : BitVec 2)
@[simp] theorem State.setCpl_cfg : (s.setCpl v).cfg = s.cfg := rfl
@[simp] theorem State.setCpl_rip : (s.setCpl v).rip = s.rip := rfl
@[simp] theorem State.setCpl_rsp : (s.setCpl v).rsp = s.rsp := rfl
@[simp] theorem State.setCpl_gprs : (s.setCpl v).gprs = s.gprs := rfl
@[simp] theorem State.setCpl_eflags : (s.setCpl v).eflags = s.eflags := rfl
@[simp] theorem State.setCpl_cs : (s.setCpl v).cs = s.cs := rfl
@[simp] theorem State.setCpl_ss : (s.setCpl v).ss = s.ss := rfl
@[simp] theorem State.setCpl_ds : (s.setCpl v).ds = s.ds := rfl
@[simp] theorem State.setCpl_es : (s.setCpl v).es = s.es := rfl
@[simp] theorem State.setCpl_fs : (s.setCpl v).fs = s.fs := rfl
@[simp] theorem State.setCpl_gs : (s.setCpl v).gs = s.gs := rfl
@[simp] theorem State.setCpl_cpl : (s.setCpl v).cpl = v := rfl
@[simp] theorem State.setCpl_cr0 : (s.setCpl v).cr0 = s.cr0 := rfl
@[simp] theorem State.setCpl_cr4 : (s.setCpl v).cr4 = s.cr4 := rfl
@[simp] theorem State.setCpl_lma : (s.setCpl v).lma = s.lma := rfl
@[simp] theorem State.setCpl_idtr : (s.setCpl v).idtr = s.idtr := rfl
@[simp] theorem State.setCpl_gdtr : (s.setCpl v).gdtr = s.gdtr := rfl
@[simp] theorem State.setCpl_ldtr : (s.setCpl v).ldtr = s.ldtr := rfl
@[simp] theorem State.setCpl_tr : (s.setCpl v).tr = s.tr := rfl
@[simp] theorem State.setCpl_dr6 : (s.setCpl v).dr6 = s.dr6 := rfl
@[simp] theorem State.setCpl_faultAddr : (s.setCpl v).faultAddr = s.faultAddr := rfl
@[simp] theorem State.setCpl_ssp : (s.setCpl v).ssp = s.ssp := rfl
@[simp] theorem State.setCpl_pl0Ssp : (s.setCpl v).pl0Ssp = s.pl0Ssp := rfl
@[simp] theorem State.setCpl_pl1Ssp : (s.setCpl v).pl1Ssp = s.pl1Ssp := rfl
@[simp] theorem State.setCpl_pl2Ssp : (s.setCpl v).pl2Ssp = s.pl2Ssp := rfl
@[simp] theorem State.setCpl_pl3Ssp : (s.setCpl v).pl3Ssp = s.pl3Ssp := rfl
@[simp] theorem State.setCpl_intSspTable : (s.setCpl v).intSspTable = s.intSspTable := rfl
@[simp] theorem State.setCpl_sCet : (s.setCpl v).sCet = s.sCet := rfl
@[simp] theorem State.setCpl_uCet : (s.setCpl v).uCet = s.uCet := rfl
@[simp] theorem State.setCpl_mem : (s.setCpl v).mem = s.mem := rfl
@[simp] theorem State.setCpl_regions : (s.setCpl v).regions = s.regions := rfl
@[simp] theorem State.setCpl_pending : (s.setCpl v).pending = s.pending := rfl
@[simp] theorem State.setCpl_draws : (s.setCpl v).draws = s.draws := rfl
@[simp] theorem State.setCpl_overflow :
    (s.setCpl v).overflow = s.overflow := rfl
@[simp] theorem State.setCpl_interruptFlag :
    (s.setCpl v).interruptFlag = s.interruptFlag := rfl
@[simp] theorem State.setCpl_vm :
    (s.setCpl v).vm = s.vm := rfl
@[simp] theorem State.setCpl_ac :
    (s.setCpl v).ac = s.ac := rfl
@[simp] theorem State.setCpl_vif :
    (s.setCpl v).vif = s.vif := rfl
@[simp] theorem State.setCpl_iopl :
    (s.setCpl v).iopl = s.iopl := rfl
@[simp] theorem State.setCpl_mode64 :
    (s.setCpl v).mode64 = s.mode64 := rfl
@[simp] theorem State.setCpl_mode :
    (s.setCpl v).mode = s.mode := rfl
@[simp] theorem State.setCpl_pagingOn :
    (s.setCpl v).pagingOn = s.pagingOn := rfl
@[simp] theorem State.setCpl_regionAt (p : Nat) :
    (s.setCpl v).regionAt p = s.regionAt p := rfl
@[simp] theorem State.setCpl_byteAddr (la : Word64) (i : Nat) :
    (s.setCpl v).byteAddr la i = s.byteAddr la i := rfl
@[simp] theorem State.setCpl_canonical (a : Word64) :
    (s.setCpl v).canonical a = s.canonical a := rfl
@[simp] theorem State.setCpl_canonicalBytes (a : Word64) (n : Nat) :
    (s.setCpl v).canonicalBytes a n = s.canonicalBytes a n := rfl
@[simp] theorem State.setCpl_ptrWidth (w : Nat) :
    (s.setCpl v).ptrWidth w = s.ptrWidth w := rfl
@[simp] theorem State.setCpl_cetReg (p : BitVec 2) :
    (s.setCpl v).cetReg p = s.cetReg p := rfl
@[simp] theorem State.setCpl_cetOn :
    (s.setCpl v).cetOn = s.cetOn := rfl
@[simp] theorem State.setCpl_cetControl :
    (s.setCpl v).cetControl = s.cetControl := rfl
@[simp] theorem State.setCpl_shadowStackEnabled (p : BitVec 2) :
    (s.setCpl v).shadowStackEnabled p = s.shadowStackEnabled p := rfl
@[simp] theorem State.setCpl_endbranchEnabled (p : BitVec 2) :
    (s.setCpl v).endbranchEnabled p = s.endbranchEnabled p := rfl
@[simp] theorem State.setCpl_plSsp (p : BitVec 2) :
    (s.setCpl v).plSsp p = s.plSsp p := rfl
@[simp] theorem State.setCpl_stackTop (p : PtrWidth) :
    (s.setCpl v).stackTop p = s.stackTop p := rfl
@[simp] theorem State.setCpl_lip :
    (s.setCpl v).lip = s.lip := rfl
@[simp] theorem State.setCpl_tableBase (sel : Word16) :
    (s.setCpl v).tableBase sel = s.tableBase sel := rfl
@[simp] theorem State.setCpl_tableLimit (sel : Word16) :
    (s.setCpl v).tableLimit sel = s.tableLimit sel := rfl
@[simp] theorem State.setCpl_selInLimits (sel : Word16) :
    (s.setCpl v).selInLimits sel = s.selInLimits sel := rfl
@[simp] theorem State.setCpl_descriptorAddr (sel : Word16) :
    (s.setCpl v).descriptorAddr sel = s.descriptorAddr sel := rfl
@[simp] theorem State.setCpl_idtEntrySize :
    (s.setCpl v).idtEntrySize = s.idtEntrySize := rfl
@[simp] theorem State.setCpl_idtInLimits (vector : Nat) :
    (s.setCpl v).idtInLimits vector = s.idtInLimits vector := rfl
@[simp] theorem State.setCpl_idtEntryAddr (vector : Nat) :
    (s.setCpl v).idtEntryAddr vector = s.idtEntryAddr vector := rfl
@[simp] theorem State.setCpl_frameCanonical (a : Word64) (n : Nat) :
    (s.setCpl v).frameCanonical a n = s.frameCanonical a n := rfl
@[simp] theorem State.setCpl_ipWidth :
    (s.setCpl v).ipWidth = s.ipWidth := rfl
end

section
variable (s : State) (v : Word64)
@[simp] theorem State.setSsp_cfg : (s.setSsp v).cfg = s.cfg := rfl
@[simp] theorem State.setSsp_rip : (s.setSsp v).rip = s.rip := rfl
@[simp] theorem State.setSsp_rsp : (s.setSsp v).rsp = s.rsp := rfl
@[simp] theorem State.setSsp_gprs : (s.setSsp v).gprs = s.gprs := rfl
@[simp] theorem State.setSsp_eflags : (s.setSsp v).eflags = s.eflags := rfl
@[simp] theorem State.setSsp_cs : (s.setSsp v).cs = s.cs := rfl
@[simp] theorem State.setSsp_ss : (s.setSsp v).ss = s.ss := rfl
@[simp] theorem State.setSsp_ds : (s.setSsp v).ds = s.ds := rfl
@[simp] theorem State.setSsp_es : (s.setSsp v).es = s.es := rfl
@[simp] theorem State.setSsp_fs : (s.setSsp v).fs = s.fs := rfl
@[simp] theorem State.setSsp_gs : (s.setSsp v).gs = s.gs := rfl
@[simp] theorem State.setSsp_cpl : (s.setSsp v).cpl = s.cpl := rfl
@[simp] theorem State.setSsp_cr0 : (s.setSsp v).cr0 = s.cr0 := rfl
@[simp] theorem State.setSsp_cr4 : (s.setSsp v).cr4 = s.cr4 := rfl
@[simp] theorem State.setSsp_lma : (s.setSsp v).lma = s.lma := rfl
@[simp] theorem State.setSsp_idtr : (s.setSsp v).idtr = s.idtr := rfl
@[simp] theorem State.setSsp_gdtr : (s.setSsp v).gdtr = s.gdtr := rfl
@[simp] theorem State.setSsp_ldtr : (s.setSsp v).ldtr = s.ldtr := rfl
@[simp] theorem State.setSsp_tr : (s.setSsp v).tr = s.tr := rfl
@[simp] theorem State.setSsp_dr6 : (s.setSsp v).dr6 = s.dr6 := rfl
@[simp] theorem State.setSsp_faultAddr : (s.setSsp v).faultAddr = s.faultAddr := rfl
@[simp] theorem State.setSsp_ssp : (s.setSsp v).ssp = v := rfl
@[simp] theorem State.setSsp_pl0Ssp : (s.setSsp v).pl0Ssp = s.pl0Ssp := rfl
@[simp] theorem State.setSsp_pl1Ssp : (s.setSsp v).pl1Ssp = s.pl1Ssp := rfl
@[simp] theorem State.setSsp_pl2Ssp : (s.setSsp v).pl2Ssp = s.pl2Ssp := rfl
@[simp] theorem State.setSsp_pl3Ssp : (s.setSsp v).pl3Ssp = s.pl3Ssp := rfl
@[simp] theorem State.setSsp_intSspTable : (s.setSsp v).intSspTable = s.intSspTable := rfl
@[simp] theorem State.setSsp_sCet : (s.setSsp v).sCet = s.sCet := rfl
@[simp] theorem State.setSsp_uCet : (s.setSsp v).uCet = s.uCet := rfl
@[simp] theorem State.setSsp_mem : (s.setSsp v).mem = s.mem := rfl
@[simp] theorem State.setSsp_regions : (s.setSsp v).regions = s.regions := rfl
@[simp] theorem State.setSsp_pending : (s.setSsp v).pending = s.pending := rfl
@[simp] theorem State.setSsp_draws : (s.setSsp v).draws = s.draws := rfl
@[simp] theorem State.setSsp_overflow :
    (s.setSsp v).overflow = s.overflow := rfl
@[simp] theorem State.setSsp_interruptFlag :
    (s.setSsp v).interruptFlag = s.interruptFlag := rfl
@[simp] theorem State.setSsp_vm :
    (s.setSsp v).vm = s.vm := rfl
@[simp] theorem State.setSsp_ac :
    (s.setSsp v).ac = s.ac := rfl
@[simp] theorem State.setSsp_vif :
    (s.setSsp v).vif = s.vif := rfl
@[simp] theorem State.setSsp_iopl :
    (s.setSsp v).iopl = s.iopl := rfl
@[simp] theorem State.setSsp_mode64 :
    (s.setSsp v).mode64 = s.mode64 := rfl
@[simp] theorem State.setSsp_mode :
    (s.setSsp v).mode = s.mode := rfl
@[simp] theorem State.setSsp_pagingOn :
    (s.setSsp v).pagingOn = s.pagingOn := rfl
@[simp] theorem State.setSsp_regionAt (p : Nat) :
    (s.setSsp v).regionAt p = s.regionAt p := rfl
@[simp] theorem State.setSsp_byteAddr (la : Word64) (i : Nat) :
    (s.setSsp v).byteAddr la i = s.byteAddr la i := rfl
@[simp] theorem State.setSsp_canonical (a : Word64) :
    (s.setSsp v).canonical a = s.canonical a := rfl
@[simp] theorem State.setSsp_canonicalBytes (a : Word64) (n : Nat) :
    (s.setSsp v).canonicalBytes a n = s.canonicalBytes a n := rfl
@[simp] theorem State.setSsp_ptrWidth (w : Nat) :
    (s.setSsp v).ptrWidth w = s.ptrWidth w := rfl
@[simp] theorem State.setSsp_alignmentChecked :
    (s.setSsp v).alignmentChecked = s.alignmentChecked := rfl
@[simp] theorem State.setSsp_cetReg (p : BitVec 2) :
    (s.setSsp v).cetReg p = s.cetReg p := rfl
@[simp] theorem State.setSsp_cetOn :
    (s.setSsp v).cetOn = s.cetOn := rfl
@[simp] theorem State.setSsp_cetControl :
    (s.setSsp v).cetControl = s.cetControl := rfl
@[simp] theorem State.setSsp_shadowStackEnabled (p : BitVec 2) :
    (s.setSsp v).shadowStackEnabled p = s.shadowStackEnabled p := rfl
@[simp] theorem State.setSsp_endbranchEnabled (p : BitVec 2) :
    (s.setSsp v).endbranchEnabled p = s.endbranchEnabled p := rfl
@[simp] theorem State.setSsp_shadowAccess (op : AccessOp) :
    (s.setSsp v).shadowAccess op = s.shadowAccess op := rfl
@[simp] theorem State.setSsp_plSsp (p : BitVec 2) :
    (s.setSsp v).plSsp p = s.plSsp p := rfl
@[simp] theorem State.setSsp_stackTop (p : PtrWidth) :
    (s.setSsp v).stackTop p = s.stackTop p := rfl
@[simp] theorem State.setSsp_lip :
    (s.setSsp v).lip = s.lip := rfl
@[simp] theorem State.setSsp_tableBase (sel : Word16) :
    (s.setSsp v).tableBase sel = s.tableBase sel := rfl
@[simp] theorem State.setSsp_tableLimit (sel : Word16) :
    (s.setSsp v).tableLimit sel = s.tableLimit sel := rfl
@[simp] theorem State.setSsp_selInLimits (sel : Word16) :
    (s.setSsp v).selInLimits sel = s.selInLimits sel := rfl
@[simp] theorem State.setSsp_descriptorAddr (sel : Word16) :
    (s.setSsp v).descriptorAddr sel = s.descriptorAddr sel := rfl
@[simp] theorem State.setSsp_idtEntrySize :
    (s.setSsp v).idtEntrySize = s.idtEntrySize := rfl
@[simp] theorem State.setSsp_idtInLimits (vector : Nat) :
    (s.setSsp v).idtInLimits vector = s.idtInLimits vector := rfl
@[simp] theorem State.setSsp_idtEntryAddr (vector : Nat) :
    (s.setSsp v).idtEntryAddr vector = s.idtEntryAddr vector := rfl
@[simp] theorem State.setSsp_codeSegmentOk (h : Hidden) :
    (s.setSsp v).codeSegmentOk h = s.codeSegmentOk h := rfl
@[simp] theorem State.setSsp_frameCanonical (a : Word64) (n : Nat) :
    (s.setSsp v).frameCanonical a n = s.frameCanonical a n := rfl
@[simp] theorem State.setSsp_ipWidth :
    (s.setSsp v).ipWidth = s.ipWidth := rfl
end

section
variable (s : State) (v : Word64)
@[simp] theorem State.setPl3Ssp_cfg : (s.setPl3Ssp v).cfg = s.cfg := rfl
@[simp] theorem State.setPl3Ssp_rip : (s.setPl3Ssp v).rip = s.rip := rfl
@[simp] theorem State.setPl3Ssp_rsp : (s.setPl3Ssp v).rsp = s.rsp := rfl
@[simp] theorem State.setPl3Ssp_gprs : (s.setPl3Ssp v).gprs = s.gprs := rfl
@[simp] theorem State.setPl3Ssp_eflags : (s.setPl3Ssp v).eflags = s.eflags := rfl
@[simp] theorem State.setPl3Ssp_cs : (s.setPl3Ssp v).cs = s.cs := rfl
@[simp] theorem State.setPl3Ssp_ss : (s.setPl3Ssp v).ss = s.ss := rfl
@[simp] theorem State.setPl3Ssp_ds : (s.setPl3Ssp v).ds = s.ds := rfl
@[simp] theorem State.setPl3Ssp_es : (s.setPl3Ssp v).es = s.es := rfl
@[simp] theorem State.setPl3Ssp_fs : (s.setPl3Ssp v).fs = s.fs := rfl
@[simp] theorem State.setPl3Ssp_gs : (s.setPl3Ssp v).gs = s.gs := rfl
@[simp] theorem State.setPl3Ssp_cpl : (s.setPl3Ssp v).cpl = s.cpl := rfl
@[simp] theorem State.setPl3Ssp_cr0 : (s.setPl3Ssp v).cr0 = s.cr0 := rfl
@[simp] theorem State.setPl3Ssp_cr4 : (s.setPl3Ssp v).cr4 = s.cr4 := rfl
@[simp] theorem State.setPl3Ssp_lma : (s.setPl3Ssp v).lma = s.lma := rfl
@[simp] theorem State.setPl3Ssp_idtr : (s.setPl3Ssp v).idtr = s.idtr := rfl
@[simp] theorem State.setPl3Ssp_gdtr : (s.setPl3Ssp v).gdtr = s.gdtr := rfl
@[simp] theorem State.setPl3Ssp_ldtr : (s.setPl3Ssp v).ldtr = s.ldtr := rfl
@[simp] theorem State.setPl3Ssp_tr : (s.setPl3Ssp v).tr = s.tr := rfl
@[simp] theorem State.setPl3Ssp_dr6 : (s.setPl3Ssp v).dr6 = s.dr6 := rfl
@[simp] theorem State.setPl3Ssp_faultAddr : (s.setPl3Ssp v).faultAddr = s.faultAddr := rfl
@[simp] theorem State.setPl3Ssp_ssp : (s.setPl3Ssp v).ssp = s.ssp := rfl
@[simp] theorem State.setPl3Ssp_pl0Ssp : (s.setPl3Ssp v).pl0Ssp = s.pl0Ssp := rfl
@[simp] theorem State.setPl3Ssp_pl1Ssp : (s.setPl3Ssp v).pl1Ssp = s.pl1Ssp := rfl
@[simp] theorem State.setPl3Ssp_pl2Ssp : (s.setPl3Ssp v).pl2Ssp = s.pl2Ssp := rfl
@[simp] theorem State.setPl3Ssp_pl3Ssp : (s.setPl3Ssp v).pl3Ssp = v := rfl
@[simp] theorem State.setPl3Ssp_intSspTable : (s.setPl3Ssp v).intSspTable = s.intSspTable := rfl
@[simp] theorem State.setPl3Ssp_sCet : (s.setPl3Ssp v).sCet = s.sCet := rfl
@[simp] theorem State.setPl3Ssp_uCet : (s.setPl3Ssp v).uCet = s.uCet := rfl
@[simp] theorem State.setPl3Ssp_mem : (s.setPl3Ssp v).mem = s.mem := rfl
@[simp] theorem State.setPl3Ssp_regions : (s.setPl3Ssp v).regions = s.regions := rfl
@[simp] theorem State.setPl3Ssp_pending : (s.setPl3Ssp v).pending = s.pending := rfl
@[simp] theorem State.setPl3Ssp_draws : (s.setPl3Ssp v).draws = s.draws := rfl
@[simp] theorem State.setPl3Ssp_overflow :
    (s.setPl3Ssp v).overflow = s.overflow := rfl
@[simp] theorem State.setPl3Ssp_interruptFlag :
    (s.setPl3Ssp v).interruptFlag = s.interruptFlag := rfl
@[simp] theorem State.setPl3Ssp_vm :
    (s.setPl3Ssp v).vm = s.vm := rfl
@[simp] theorem State.setPl3Ssp_ac :
    (s.setPl3Ssp v).ac = s.ac := rfl
@[simp] theorem State.setPl3Ssp_vif :
    (s.setPl3Ssp v).vif = s.vif := rfl
@[simp] theorem State.setPl3Ssp_iopl :
    (s.setPl3Ssp v).iopl = s.iopl := rfl
@[simp] theorem State.setPl3Ssp_mode64 :
    (s.setPl3Ssp v).mode64 = s.mode64 := rfl
@[simp] theorem State.setPl3Ssp_mode :
    (s.setPl3Ssp v).mode = s.mode := rfl
@[simp] theorem State.setPl3Ssp_pagingOn :
    (s.setPl3Ssp v).pagingOn = s.pagingOn := rfl
@[simp] theorem State.setPl3Ssp_regionAt (p : Nat) :
    (s.setPl3Ssp v).regionAt p = s.regionAt p := rfl
@[simp] theorem State.setPl3Ssp_byteAddr (la : Word64) (i : Nat) :
    (s.setPl3Ssp v).byteAddr la i = s.byteAddr la i := rfl
@[simp] theorem State.setPl3Ssp_canonical (a : Word64) :
    (s.setPl3Ssp v).canonical a = s.canonical a := rfl
@[simp] theorem State.setPl3Ssp_canonicalBytes (a : Word64) (n : Nat) :
    (s.setPl3Ssp v).canonicalBytes a n = s.canonicalBytes a n := rfl
@[simp] theorem State.setPl3Ssp_ptrWidth (w : Nat) :
    (s.setPl3Ssp v).ptrWidth w = s.ptrWidth w := rfl
@[simp] theorem State.setPl3Ssp_alignmentChecked :
    (s.setPl3Ssp v).alignmentChecked = s.alignmentChecked := rfl
@[simp] theorem State.setPl3Ssp_cetReg (p : BitVec 2) :
    (s.setPl3Ssp v).cetReg p = s.cetReg p := rfl
@[simp] theorem State.setPl3Ssp_cetOn :
    (s.setPl3Ssp v).cetOn = s.cetOn := rfl
@[simp] theorem State.setPl3Ssp_cetControl :
    (s.setPl3Ssp v).cetControl = s.cetControl := rfl
@[simp] theorem State.setPl3Ssp_shadowStackEnabled (p : BitVec 2) :
    (s.setPl3Ssp v).shadowStackEnabled p = s.shadowStackEnabled p := rfl
@[simp] theorem State.setPl3Ssp_endbranchEnabled (p : BitVec 2) :
    (s.setPl3Ssp v).endbranchEnabled p = s.endbranchEnabled p := rfl
@[simp] theorem State.setPl3Ssp_shadowAccess (op : AccessOp) :
    (s.setPl3Ssp v).shadowAccess op = s.shadowAccess op := rfl
@[simp] theorem State.setPl3Ssp_stackTop (p : PtrWidth) :
    (s.setPl3Ssp v).stackTop p = s.stackTop p := rfl
@[simp] theorem State.setPl3Ssp_lip :
    (s.setPl3Ssp v).lip = s.lip := rfl
@[simp] theorem State.setPl3Ssp_tableBase (sel : Word16) :
    (s.setPl3Ssp v).tableBase sel = s.tableBase sel := rfl
@[simp] theorem State.setPl3Ssp_tableLimit (sel : Word16) :
    (s.setPl3Ssp v).tableLimit sel = s.tableLimit sel := rfl
@[simp] theorem State.setPl3Ssp_selInLimits (sel : Word16) :
    (s.setPl3Ssp v).selInLimits sel = s.selInLimits sel := rfl
@[simp] theorem State.setPl3Ssp_descriptorAddr (sel : Word16) :
    (s.setPl3Ssp v).descriptorAddr sel = s.descriptorAddr sel := rfl
@[simp] theorem State.setPl3Ssp_idtEntrySize :
    (s.setPl3Ssp v).idtEntrySize = s.idtEntrySize := rfl
@[simp] theorem State.setPl3Ssp_idtInLimits (vector : Nat) :
    (s.setPl3Ssp v).idtInLimits vector = s.idtInLimits vector := rfl
@[simp] theorem State.setPl3Ssp_idtEntryAddr (vector : Nat) :
    (s.setPl3Ssp v).idtEntryAddr vector = s.idtEntryAddr vector := rfl
@[simp] theorem State.setPl3Ssp_codeSegmentOk (h : Hidden) :
    (s.setPl3Ssp v).codeSegmentOk h = s.codeSegmentOk h := rfl
@[simp] theorem State.setPl3Ssp_frameCanonical (a : Word64) (n : Nat) :
    (s.setPl3Ssp v).frameCanonical a n = s.frameCanonical a n := rfl
@[simp] theorem State.setPl3Ssp_ipWidth :
    (s.setPl3Ssp v).ipWidth = s.ipWidth := rfl
end

section
variable (s : State) (v : Word64)
@[simp] theorem State.setSCet_cfg : (s.setSCet v).cfg = s.cfg := rfl
@[simp] theorem State.setSCet_rip : (s.setSCet v).rip = s.rip := rfl
@[simp] theorem State.setSCet_rsp : (s.setSCet v).rsp = s.rsp := rfl
@[simp] theorem State.setSCet_gprs : (s.setSCet v).gprs = s.gprs := rfl
@[simp] theorem State.setSCet_eflags : (s.setSCet v).eflags = s.eflags := rfl
@[simp] theorem State.setSCet_cs : (s.setSCet v).cs = s.cs := rfl
@[simp] theorem State.setSCet_ss : (s.setSCet v).ss = s.ss := rfl
@[simp] theorem State.setSCet_ds : (s.setSCet v).ds = s.ds := rfl
@[simp] theorem State.setSCet_es : (s.setSCet v).es = s.es := rfl
@[simp] theorem State.setSCet_fs : (s.setSCet v).fs = s.fs := rfl
@[simp] theorem State.setSCet_gs : (s.setSCet v).gs = s.gs := rfl
@[simp] theorem State.setSCet_cpl : (s.setSCet v).cpl = s.cpl := rfl
@[simp] theorem State.setSCet_cr0 : (s.setSCet v).cr0 = s.cr0 := rfl
@[simp] theorem State.setSCet_cr4 : (s.setSCet v).cr4 = s.cr4 := rfl
@[simp] theorem State.setSCet_lma : (s.setSCet v).lma = s.lma := rfl
@[simp] theorem State.setSCet_idtr : (s.setSCet v).idtr = s.idtr := rfl
@[simp] theorem State.setSCet_gdtr : (s.setSCet v).gdtr = s.gdtr := rfl
@[simp] theorem State.setSCet_ldtr : (s.setSCet v).ldtr = s.ldtr := rfl
@[simp] theorem State.setSCet_tr : (s.setSCet v).tr = s.tr := rfl
@[simp] theorem State.setSCet_dr6 : (s.setSCet v).dr6 = s.dr6 := rfl
@[simp] theorem State.setSCet_faultAddr : (s.setSCet v).faultAddr = s.faultAddr := rfl
@[simp] theorem State.setSCet_ssp : (s.setSCet v).ssp = s.ssp := rfl
@[simp] theorem State.setSCet_pl0Ssp : (s.setSCet v).pl0Ssp = s.pl0Ssp := rfl
@[simp] theorem State.setSCet_pl1Ssp : (s.setSCet v).pl1Ssp = s.pl1Ssp := rfl
@[simp] theorem State.setSCet_pl2Ssp : (s.setSCet v).pl2Ssp = s.pl2Ssp := rfl
@[simp] theorem State.setSCet_pl3Ssp : (s.setSCet v).pl3Ssp = s.pl3Ssp := rfl
@[simp] theorem State.setSCet_intSspTable : (s.setSCet v).intSspTable = s.intSspTable := rfl
@[simp] theorem State.setSCet_sCet : (s.setSCet v).sCet = v := rfl
@[simp] theorem State.setSCet_uCet : (s.setSCet v).uCet = s.uCet := rfl
@[simp] theorem State.setSCet_mem : (s.setSCet v).mem = s.mem := rfl
@[simp] theorem State.setSCet_regions : (s.setSCet v).regions = s.regions := rfl
@[simp] theorem State.setSCet_pending : (s.setSCet v).pending = s.pending := rfl
@[simp] theorem State.setSCet_draws : (s.setSCet v).draws = s.draws := rfl
@[simp] theorem State.setSCet_overflow :
    (s.setSCet v).overflow = s.overflow := rfl
@[simp] theorem State.setSCet_interruptFlag :
    (s.setSCet v).interruptFlag = s.interruptFlag := rfl
@[simp] theorem State.setSCet_vm :
    (s.setSCet v).vm = s.vm := rfl
@[simp] theorem State.setSCet_ac :
    (s.setSCet v).ac = s.ac := rfl
@[simp] theorem State.setSCet_vif :
    (s.setSCet v).vif = s.vif := rfl
@[simp] theorem State.setSCet_iopl :
    (s.setSCet v).iopl = s.iopl := rfl
@[simp] theorem State.setSCet_mode64 :
    (s.setSCet v).mode64 = s.mode64 := rfl
@[simp] theorem State.setSCet_mode :
    (s.setSCet v).mode = s.mode := rfl
@[simp] theorem State.setSCet_pagingOn :
    (s.setSCet v).pagingOn = s.pagingOn := rfl
@[simp] theorem State.setSCet_regionAt (p : Nat) :
    (s.setSCet v).regionAt p = s.regionAt p := rfl
@[simp] theorem State.setSCet_byteAddr (la : Word64) (i : Nat) :
    (s.setSCet v).byteAddr la i = s.byteAddr la i := rfl
@[simp] theorem State.setSCet_canonical (a : Word64) :
    (s.setSCet v).canonical a = s.canonical a := rfl
@[simp] theorem State.setSCet_canonicalBytes (a : Word64) (n : Nat) :
    (s.setSCet v).canonicalBytes a n = s.canonicalBytes a n := rfl
@[simp] theorem State.setSCet_ptrWidth (w : Nat) :
    (s.setSCet v).ptrWidth w = s.ptrWidth w := rfl
@[simp] theorem State.setSCet_alignmentChecked :
    (s.setSCet v).alignmentChecked = s.alignmentChecked := rfl
@[simp] theorem State.setSCet_cetOn :
    (s.setSCet v).cetOn = s.cetOn := rfl
@[simp] theorem State.setSCet_shadowAccess (op : AccessOp) :
    (s.setSCet v).shadowAccess op = s.shadowAccess op := rfl
@[simp] theorem State.setSCet_plSsp (p : BitVec 2) :
    (s.setSCet v).plSsp p = s.plSsp p := rfl
@[simp] theorem State.setSCet_stackTop (p : PtrWidth) :
    (s.setSCet v).stackTop p = s.stackTop p := rfl
@[simp] theorem State.setSCet_lip :
    (s.setSCet v).lip = s.lip := rfl
@[simp] theorem State.setSCet_tableBase (sel : Word16) :
    (s.setSCet v).tableBase sel = s.tableBase sel := rfl
@[simp] theorem State.setSCet_tableLimit (sel : Word16) :
    (s.setSCet v).tableLimit sel = s.tableLimit sel := rfl
@[simp] theorem State.setSCet_selInLimits (sel : Word16) :
    (s.setSCet v).selInLimits sel = s.selInLimits sel := rfl
@[simp] theorem State.setSCet_descriptorAddr (sel : Word16) :
    (s.setSCet v).descriptorAddr sel = s.descriptorAddr sel := rfl
@[simp] theorem State.setSCet_idtEntrySize :
    (s.setSCet v).idtEntrySize = s.idtEntrySize := rfl
@[simp] theorem State.setSCet_idtInLimits (vector : Nat) :
    (s.setSCet v).idtInLimits vector = s.idtInLimits vector := rfl
@[simp] theorem State.setSCet_idtEntryAddr (vector : Nat) :
    (s.setSCet v).idtEntryAddr vector = s.idtEntryAddr vector := rfl
@[simp] theorem State.setSCet_codeSegmentOk (h : Hidden) :
    (s.setSCet v).codeSegmentOk h = s.codeSegmentOk h := rfl
@[simp] theorem State.setSCet_frameCanonical (a : Word64) (n : Nat) :
    (s.setSCet v).frameCanonical a n = s.frameCanonical a n := rfl
@[simp] theorem State.setSCet_ipWidth :
    (s.setSCet v).ipWidth = s.ipWidth := rfl
end

section
variable (s : State) (v : Word64)
@[simp] theorem State.setUCet_cfg : (s.setUCet v).cfg = s.cfg := rfl
@[simp] theorem State.setUCet_rip : (s.setUCet v).rip = s.rip := rfl
@[simp] theorem State.setUCet_rsp : (s.setUCet v).rsp = s.rsp := rfl
@[simp] theorem State.setUCet_gprs : (s.setUCet v).gprs = s.gprs := rfl
@[simp] theorem State.setUCet_eflags : (s.setUCet v).eflags = s.eflags := rfl
@[simp] theorem State.setUCet_cs : (s.setUCet v).cs = s.cs := rfl
@[simp] theorem State.setUCet_ss : (s.setUCet v).ss = s.ss := rfl
@[simp] theorem State.setUCet_ds : (s.setUCet v).ds = s.ds := rfl
@[simp] theorem State.setUCet_es : (s.setUCet v).es = s.es := rfl
@[simp] theorem State.setUCet_fs : (s.setUCet v).fs = s.fs := rfl
@[simp] theorem State.setUCet_gs : (s.setUCet v).gs = s.gs := rfl
@[simp] theorem State.setUCet_cpl : (s.setUCet v).cpl = s.cpl := rfl
@[simp] theorem State.setUCet_cr0 : (s.setUCet v).cr0 = s.cr0 := rfl
@[simp] theorem State.setUCet_cr4 : (s.setUCet v).cr4 = s.cr4 := rfl
@[simp] theorem State.setUCet_lma : (s.setUCet v).lma = s.lma := rfl
@[simp] theorem State.setUCet_idtr : (s.setUCet v).idtr = s.idtr := rfl
@[simp] theorem State.setUCet_gdtr : (s.setUCet v).gdtr = s.gdtr := rfl
@[simp] theorem State.setUCet_ldtr : (s.setUCet v).ldtr = s.ldtr := rfl
@[simp] theorem State.setUCet_tr : (s.setUCet v).tr = s.tr := rfl
@[simp] theorem State.setUCet_dr6 : (s.setUCet v).dr6 = s.dr6 := rfl
@[simp] theorem State.setUCet_faultAddr : (s.setUCet v).faultAddr = s.faultAddr := rfl
@[simp] theorem State.setUCet_ssp : (s.setUCet v).ssp = s.ssp := rfl
@[simp] theorem State.setUCet_pl0Ssp : (s.setUCet v).pl0Ssp = s.pl0Ssp := rfl
@[simp] theorem State.setUCet_pl1Ssp : (s.setUCet v).pl1Ssp = s.pl1Ssp := rfl
@[simp] theorem State.setUCet_pl2Ssp : (s.setUCet v).pl2Ssp = s.pl2Ssp := rfl
@[simp] theorem State.setUCet_pl3Ssp : (s.setUCet v).pl3Ssp = s.pl3Ssp := rfl
@[simp] theorem State.setUCet_intSspTable : (s.setUCet v).intSspTable = s.intSspTable := rfl
@[simp] theorem State.setUCet_sCet : (s.setUCet v).sCet = s.sCet := rfl
@[simp] theorem State.setUCet_uCet : (s.setUCet v).uCet = v := rfl
@[simp] theorem State.setUCet_mem : (s.setUCet v).mem = s.mem := rfl
@[simp] theorem State.setUCet_regions : (s.setUCet v).regions = s.regions := rfl
@[simp] theorem State.setUCet_pending : (s.setUCet v).pending = s.pending := rfl
@[simp] theorem State.setUCet_draws : (s.setUCet v).draws = s.draws := rfl
@[simp] theorem State.setUCet_overflow :
    (s.setUCet v).overflow = s.overflow := rfl
@[simp] theorem State.setUCet_interruptFlag :
    (s.setUCet v).interruptFlag = s.interruptFlag := rfl
@[simp] theorem State.setUCet_vm :
    (s.setUCet v).vm = s.vm := rfl
@[simp] theorem State.setUCet_ac :
    (s.setUCet v).ac = s.ac := rfl
@[simp] theorem State.setUCet_vif :
    (s.setUCet v).vif = s.vif := rfl
@[simp] theorem State.setUCet_iopl :
    (s.setUCet v).iopl = s.iopl := rfl
@[simp] theorem State.setUCet_mode64 :
    (s.setUCet v).mode64 = s.mode64 := rfl
@[simp] theorem State.setUCet_mode :
    (s.setUCet v).mode = s.mode := rfl
@[simp] theorem State.setUCet_pagingOn :
    (s.setUCet v).pagingOn = s.pagingOn := rfl
@[simp] theorem State.setUCet_regionAt (p : Nat) :
    (s.setUCet v).regionAt p = s.regionAt p := rfl
@[simp] theorem State.setUCet_byteAddr (la : Word64) (i : Nat) :
    (s.setUCet v).byteAddr la i = s.byteAddr la i := rfl
@[simp] theorem State.setUCet_canonical (a : Word64) :
    (s.setUCet v).canonical a = s.canonical a := rfl
@[simp] theorem State.setUCet_canonicalBytes (a : Word64) (n : Nat) :
    (s.setUCet v).canonicalBytes a n = s.canonicalBytes a n := rfl
@[simp] theorem State.setUCet_ptrWidth (w : Nat) :
    (s.setUCet v).ptrWidth w = s.ptrWidth w := rfl
@[simp] theorem State.setUCet_alignmentChecked :
    (s.setUCet v).alignmentChecked = s.alignmentChecked := rfl
@[simp] theorem State.setUCet_cetOn :
    (s.setUCet v).cetOn = s.cetOn := rfl
@[simp] theorem State.setUCet_shadowAccess (op : AccessOp) :
    (s.setUCet v).shadowAccess op = s.shadowAccess op := rfl
@[simp] theorem State.setUCet_plSsp (p : BitVec 2) :
    (s.setUCet v).plSsp p = s.plSsp p := rfl
@[simp] theorem State.setUCet_stackTop (p : PtrWidth) :
    (s.setUCet v).stackTop p = s.stackTop p := rfl
@[simp] theorem State.setUCet_lip :
    (s.setUCet v).lip = s.lip := rfl
@[simp] theorem State.setUCet_tableBase (sel : Word16) :
    (s.setUCet v).tableBase sel = s.tableBase sel := rfl
@[simp] theorem State.setUCet_tableLimit (sel : Word16) :
    (s.setUCet v).tableLimit sel = s.tableLimit sel := rfl
@[simp] theorem State.setUCet_selInLimits (sel : Word16) :
    (s.setUCet v).selInLimits sel = s.selInLimits sel := rfl
@[simp] theorem State.setUCet_descriptorAddr (sel : Word16) :
    (s.setUCet v).descriptorAddr sel = s.descriptorAddr sel := rfl
@[simp] theorem State.setUCet_idtEntrySize :
    (s.setUCet v).idtEntrySize = s.idtEntrySize := rfl
@[simp] theorem State.setUCet_idtInLimits (vector : Nat) :
    (s.setUCet v).idtInLimits vector = s.idtInLimits vector := rfl
@[simp] theorem State.setUCet_idtEntryAddr (vector : Nat) :
    (s.setUCet v).idtEntryAddr vector = s.idtEntryAddr vector := rfl
@[simp] theorem State.setUCet_codeSegmentOk (h : Hidden) :
    (s.setUCet v).codeSegmentOk h = s.codeSegmentOk h := rfl
@[simp] theorem State.setUCet_frameCanonical (a : Word64) (n : Nat) :
    (s.setUCet v).frameCanonical a n = s.frameCanonical a n := rfl
@[simp] theorem State.setUCet_ipWidth :
    (s.setUCet v).ipWidth = s.ipWidth := rfl
end

section
variable (s : State) (v : Word64)
@[simp] theorem State.setFaultAddr_cfg : (s.setFaultAddr v).cfg = s.cfg := rfl
@[simp] theorem State.setFaultAddr_rip : (s.setFaultAddr v).rip = s.rip := rfl
@[simp] theorem State.setFaultAddr_rsp : (s.setFaultAddr v).rsp = s.rsp := rfl
@[simp] theorem State.setFaultAddr_gprs : (s.setFaultAddr v).gprs = s.gprs := rfl
@[simp] theorem State.setFaultAddr_eflags : (s.setFaultAddr v).eflags = s.eflags := rfl
@[simp] theorem State.setFaultAddr_cs : (s.setFaultAddr v).cs = s.cs := rfl
@[simp] theorem State.setFaultAddr_ss : (s.setFaultAddr v).ss = s.ss := rfl
@[simp] theorem State.setFaultAddr_ds : (s.setFaultAddr v).ds = s.ds := rfl
@[simp] theorem State.setFaultAddr_es : (s.setFaultAddr v).es = s.es := rfl
@[simp] theorem State.setFaultAddr_fs : (s.setFaultAddr v).fs = s.fs := rfl
@[simp] theorem State.setFaultAddr_gs : (s.setFaultAddr v).gs = s.gs := rfl
@[simp] theorem State.setFaultAddr_cpl : (s.setFaultAddr v).cpl = s.cpl := rfl
@[simp] theorem State.setFaultAddr_cr0 : (s.setFaultAddr v).cr0 = s.cr0 := rfl
@[simp] theorem State.setFaultAddr_cr4 : (s.setFaultAddr v).cr4 = s.cr4 := rfl
@[simp] theorem State.setFaultAddr_lma : (s.setFaultAddr v).lma = s.lma := rfl
@[simp] theorem State.setFaultAddr_idtr : (s.setFaultAddr v).idtr = s.idtr := rfl
@[simp] theorem State.setFaultAddr_gdtr : (s.setFaultAddr v).gdtr = s.gdtr := rfl
@[simp] theorem State.setFaultAddr_ldtr : (s.setFaultAddr v).ldtr = s.ldtr := rfl
@[simp] theorem State.setFaultAddr_tr : (s.setFaultAddr v).tr = s.tr := rfl
@[simp] theorem State.setFaultAddr_dr6 : (s.setFaultAddr v).dr6 = s.dr6 := rfl
@[simp] theorem State.setFaultAddr_faultAddr : (s.setFaultAddr v).faultAddr = v := rfl
@[simp] theorem State.setFaultAddr_ssp : (s.setFaultAddr v).ssp = s.ssp := rfl
@[simp] theorem State.setFaultAddr_pl0Ssp : (s.setFaultAddr v).pl0Ssp = s.pl0Ssp := rfl
@[simp] theorem State.setFaultAddr_pl1Ssp : (s.setFaultAddr v).pl1Ssp = s.pl1Ssp := rfl
@[simp] theorem State.setFaultAddr_pl2Ssp : (s.setFaultAddr v).pl2Ssp = s.pl2Ssp := rfl
@[simp] theorem State.setFaultAddr_pl3Ssp : (s.setFaultAddr v).pl3Ssp = s.pl3Ssp := rfl
@[simp] theorem State.setFaultAddr_intSspTable : (s.setFaultAddr v).intSspTable = s.intSspTable := rfl
@[simp] theorem State.setFaultAddr_sCet : (s.setFaultAddr v).sCet = s.sCet := rfl
@[simp] theorem State.setFaultAddr_uCet : (s.setFaultAddr v).uCet = s.uCet := rfl
@[simp] theorem State.setFaultAddr_mem : (s.setFaultAddr v).mem = s.mem := rfl
@[simp] theorem State.setFaultAddr_regions : (s.setFaultAddr v).regions = s.regions := rfl
@[simp] theorem State.setFaultAddr_pending : (s.setFaultAddr v).pending = s.pending := rfl
@[simp] theorem State.setFaultAddr_draws : (s.setFaultAddr v).draws = s.draws := rfl
@[simp] theorem State.setFaultAddr_overflow :
    (s.setFaultAddr v).overflow = s.overflow := rfl
@[simp] theorem State.setFaultAddr_interruptFlag :
    (s.setFaultAddr v).interruptFlag = s.interruptFlag := rfl
@[simp] theorem State.setFaultAddr_vm :
    (s.setFaultAddr v).vm = s.vm := rfl
@[simp] theorem State.setFaultAddr_ac :
    (s.setFaultAddr v).ac = s.ac := rfl
@[simp] theorem State.setFaultAddr_vif :
    (s.setFaultAddr v).vif = s.vif := rfl
@[simp] theorem State.setFaultAddr_iopl :
    (s.setFaultAddr v).iopl = s.iopl := rfl
@[simp] theorem State.setFaultAddr_mode64 :
    (s.setFaultAddr v).mode64 = s.mode64 := rfl
@[simp] theorem State.setFaultAddr_mode :
    (s.setFaultAddr v).mode = s.mode := rfl
@[simp] theorem State.setFaultAddr_pagingOn :
    (s.setFaultAddr v).pagingOn = s.pagingOn := rfl
@[simp] theorem State.setFaultAddr_regionAt (p : Nat) :
    (s.setFaultAddr v).regionAt p = s.regionAt p := rfl
@[simp] theorem State.setFaultAddr_byteAddr (la : Word64) (i : Nat) :
    (s.setFaultAddr v).byteAddr la i = s.byteAddr la i := rfl
@[simp] theorem State.setFaultAddr_canonical (a : Word64) :
    (s.setFaultAddr v).canonical a = s.canonical a := rfl
@[simp] theorem State.setFaultAddr_canonicalBytes (a : Word64) (n : Nat) :
    (s.setFaultAddr v).canonicalBytes a n = s.canonicalBytes a n := rfl
@[simp] theorem State.setFaultAddr_ptrWidth (w : Nat) :
    (s.setFaultAddr v).ptrWidth w = s.ptrWidth w := rfl
@[simp] theorem State.setFaultAddr_alignmentChecked :
    (s.setFaultAddr v).alignmentChecked = s.alignmentChecked := rfl
@[simp] theorem State.setFaultAddr_cetReg (p : BitVec 2) :
    (s.setFaultAddr v).cetReg p = s.cetReg p := rfl
@[simp] theorem State.setFaultAddr_cetOn :
    (s.setFaultAddr v).cetOn = s.cetOn := rfl
@[simp] theorem State.setFaultAddr_cetControl :
    (s.setFaultAddr v).cetControl = s.cetControl := rfl
@[simp] theorem State.setFaultAddr_shadowStackEnabled (p : BitVec 2) :
    (s.setFaultAddr v).shadowStackEnabled p = s.shadowStackEnabled p := rfl
@[simp] theorem State.setFaultAddr_endbranchEnabled (p : BitVec 2) :
    (s.setFaultAddr v).endbranchEnabled p = s.endbranchEnabled p := rfl
@[simp] theorem State.setFaultAddr_shadowAccess (op : AccessOp) :
    (s.setFaultAddr v).shadowAccess op = s.shadowAccess op := rfl
@[simp] theorem State.setFaultAddr_plSsp (p : BitVec 2) :
    (s.setFaultAddr v).plSsp p = s.plSsp p := rfl
@[simp] theorem State.setFaultAddr_stackTop (p : PtrWidth) :
    (s.setFaultAddr v).stackTop p = s.stackTop p := rfl
@[simp] theorem State.setFaultAddr_lip :
    (s.setFaultAddr v).lip = s.lip := rfl
@[simp] theorem State.setFaultAddr_tableBase (sel : Word16) :
    (s.setFaultAddr v).tableBase sel = s.tableBase sel := rfl
@[simp] theorem State.setFaultAddr_tableLimit (sel : Word16) :
    (s.setFaultAddr v).tableLimit sel = s.tableLimit sel := rfl
@[simp] theorem State.setFaultAddr_selInLimits (sel : Word16) :
    (s.setFaultAddr v).selInLimits sel = s.selInLimits sel := rfl
@[simp] theorem State.setFaultAddr_descriptorAddr (sel : Word16) :
    (s.setFaultAddr v).descriptorAddr sel = s.descriptorAddr sel := rfl
@[simp] theorem State.setFaultAddr_idtEntrySize :
    (s.setFaultAddr v).idtEntrySize = s.idtEntrySize := rfl
@[simp] theorem State.setFaultAddr_idtInLimits (vector : Nat) :
    (s.setFaultAddr v).idtInLimits vector = s.idtInLimits vector := rfl
@[simp] theorem State.setFaultAddr_idtEntryAddr (vector : Nat) :
    (s.setFaultAddr v).idtEntryAddr vector = s.idtEntryAddr vector := rfl
@[simp] theorem State.setFaultAddr_codeSegmentOk (h : Hidden) :
    (s.setFaultAddr v).codeSegmentOk h = s.codeSegmentOk h := rfl
@[simp] theorem State.setFaultAddr_frameCanonical (a : Word64) (n : Nat) :
    (s.setFaultAddr v).frameCanonical a n = s.frameCanonical a n := rfl
@[simp] theorem State.setFaultAddr_ipWidth :
    (s.setFaultAddr v).ipWidth = s.ipWidth := rfl
end

section
variable (s : State) (v : List ExternalEvent)
@[simp] theorem State.setPending_cfg : (s.setPending v).cfg = s.cfg := rfl
@[simp] theorem State.setPending_rip : (s.setPending v).rip = s.rip := rfl
@[simp] theorem State.setPending_rsp : (s.setPending v).rsp = s.rsp := rfl
@[simp] theorem State.setPending_gprs : (s.setPending v).gprs = s.gprs := rfl
@[simp] theorem State.setPending_eflags : (s.setPending v).eflags = s.eflags := rfl
@[simp] theorem State.setPending_cs : (s.setPending v).cs = s.cs := rfl
@[simp] theorem State.setPending_ss : (s.setPending v).ss = s.ss := rfl
@[simp] theorem State.setPending_ds : (s.setPending v).ds = s.ds := rfl
@[simp] theorem State.setPending_es : (s.setPending v).es = s.es := rfl
@[simp] theorem State.setPending_fs : (s.setPending v).fs = s.fs := rfl
@[simp] theorem State.setPending_gs : (s.setPending v).gs = s.gs := rfl
@[simp] theorem State.setPending_cpl : (s.setPending v).cpl = s.cpl := rfl
@[simp] theorem State.setPending_cr0 : (s.setPending v).cr0 = s.cr0 := rfl
@[simp] theorem State.setPending_cr4 : (s.setPending v).cr4 = s.cr4 := rfl
@[simp] theorem State.setPending_lma : (s.setPending v).lma = s.lma := rfl
@[simp] theorem State.setPending_idtr : (s.setPending v).idtr = s.idtr := rfl
@[simp] theorem State.setPending_gdtr : (s.setPending v).gdtr = s.gdtr := rfl
@[simp] theorem State.setPending_ldtr : (s.setPending v).ldtr = s.ldtr := rfl
@[simp] theorem State.setPending_tr : (s.setPending v).tr = s.tr := rfl
@[simp] theorem State.setPending_dr6 : (s.setPending v).dr6 = s.dr6 := rfl
@[simp] theorem State.setPending_faultAddr : (s.setPending v).faultAddr = s.faultAddr := rfl
@[simp] theorem State.setPending_ssp : (s.setPending v).ssp = s.ssp := rfl
@[simp] theorem State.setPending_pl0Ssp : (s.setPending v).pl0Ssp = s.pl0Ssp := rfl
@[simp] theorem State.setPending_pl1Ssp : (s.setPending v).pl1Ssp = s.pl1Ssp := rfl
@[simp] theorem State.setPending_pl2Ssp : (s.setPending v).pl2Ssp = s.pl2Ssp := rfl
@[simp] theorem State.setPending_pl3Ssp : (s.setPending v).pl3Ssp = s.pl3Ssp := rfl
@[simp] theorem State.setPending_intSspTable : (s.setPending v).intSspTable = s.intSspTable := rfl
@[simp] theorem State.setPending_sCet : (s.setPending v).sCet = s.sCet := rfl
@[simp] theorem State.setPending_uCet : (s.setPending v).uCet = s.uCet := rfl
@[simp] theorem State.setPending_mem : (s.setPending v).mem = s.mem := rfl
@[simp] theorem State.setPending_regions : (s.setPending v).regions = s.regions := rfl
@[simp] theorem State.setPending_pending : (s.setPending v).pending = v := rfl
@[simp] theorem State.setPending_draws : (s.setPending v).draws = s.draws := rfl
@[simp] theorem State.setPending_overflow :
    (s.setPending v).overflow = s.overflow := rfl
@[simp] theorem State.setPending_interruptFlag :
    (s.setPending v).interruptFlag = s.interruptFlag := rfl
@[simp] theorem State.setPending_vm :
    (s.setPending v).vm = s.vm := rfl
@[simp] theorem State.setPending_ac :
    (s.setPending v).ac = s.ac := rfl
@[simp] theorem State.setPending_vif :
    (s.setPending v).vif = s.vif := rfl
@[simp] theorem State.setPending_iopl :
    (s.setPending v).iopl = s.iopl := rfl
@[simp] theorem State.setPending_mode64 :
    (s.setPending v).mode64 = s.mode64 := rfl
@[simp] theorem State.setPending_mode :
    (s.setPending v).mode = s.mode := rfl
@[simp] theorem State.setPending_pagingOn :
    (s.setPending v).pagingOn = s.pagingOn := rfl
@[simp] theorem State.setPending_regionAt (p : Nat) :
    (s.setPending v).regionAt p = s.regionAt p := rfl
@[simp] theorem State.setPending_byteAddr (la : Word64) (i : Nat) :
    (s.setPending v).byteAddr la i = s.byteAddr la i := rfl
@[simp] theorem State.setPending_canonical (a : Word64) :
    (s.setPending v).canonical a = s.canonical a := rfl
@[simp] theorem State.setPending_canonicalBytes (a : Word64) (n : Nat) :
    (s.setPending v).canonicalBytes a n = s.canonicalBytes a n := rfl
@[simp] theorem State.setPending_ptrWidth (w : Nat) :
    (s.setPending v).ptrWidth w = s.ptrWidth w := rfl
@[simp] theorem State.setPending_alignmentChecked :
    (s.setPending v).alignmentChecked = s.alignmentChecked := rfl
@[simp] theorem State.setPending_cetReg (p : BitVec 2) :
    (s.setPending v).cetReg p = s.cetReg p := rfl
@[simp] theorem State.setPending_cetOn :
    (s.setPending v).cetOn = s.cetOn := rfl
@[simp] theorem State.setPending_cetControl :
    (s.setPending v).cetControl = s.cetControl := rfl
@[simp] theorem State.setPending_shadowStackEnabled (p : BitVec 2) :
    (s.setPending v).shadowStackEnabled p = s.shadowStackEnabled p := rfl
@[simp] theorem State.setPending_endbranchEnabled (p : BitVec 2) :
    (s.setPending v).endbranchEnabled p = s.endbranchEnabled p := rfl
@[simp] theorem State.setPending_shadowAccess (op : AccessOp) :
    (s.setPending v).shadowAccess op = s.shadowAccess op := rfl
@[simp] theorem State.setPending_plSsp (p : BitVec 2) :
    (s.setPending v).plSsp p = s.plSsp p := rfl
@[simp] theorem State.setPending_stackTop (p : PtrWidth) :
    (s.setPending v).stackTop p = s.stackTop p := rfl
@[simp] theorem State.setPending_lip :
    (s.setPending v).lip = s.lip := rfl
@[simp] theorem State.setPending_tableBase (sel : Word16) :
    (s.setPending v).tableBase sel = s.tableBase sel := rfl
@[simp] theorem State.setPending_tableLimit (sel : Word16) :
    (s.setPending v).tableLimit sel = s.tableLimit sel := rfl
@[simp] theorem State.setPending_selInLimits (sel : Word16) :
    (s.setPending v).selInLimits sel = s.selInLimits sel := rfl
@[simp] theorem State.setPending_descriptorAddr (sel : Word16) :
    (s.setPending v).descriptorAddr sel = s.descriptorAddr sel := rfl
@[simp] theorem State.setPending_idtEntrySize :
    (s.setPending v).idtEntrySize = s.idtEntrySize := rfl
@[simp] theorem State.setPending_idtInLimits (vector : Nat) :
    (s.setPending v).idtInLimits vector = s.idtInLimits vector := rfl
@[simp] theorem State.setPending_idtEntryAddr (vector : Nat) :
    (s.setPending v).idtEntryAddr vector = s.idtEntryAddr vector := rfl
@[simp] theorem State.setPending_codeSegmentOk (h : Hidden) :
    (s.setPending v).codeSegmentOk h = s.codeSegmentOk h := rfl
@[simp] theorem State.setPending_frameCanonical (a : Word64) (n : Nat) :
    (s.setPending v).frameCanonical a n = s.frameCanonical a n := rfl
@[simp] theorem State.setPending_ipWidth :
    (s.setPending v).ipWidth = s.ipWidth := rfl
end

/-! Two updates in a row: the second of the same kind wins, and updates of different kinds are put in
one order, so that equal states get equal texts. -/

section
variable (s : State)
@[simp] theorem State.setMem_setMem (a : Memory) (b : Memory) :
    (s.setMem a).setMem b = s.setMem b := rfl
@[simp] theorem State.setMem_self : s.setMem s.mem = s := rfl
@[simp] theorem State.setDraws_setMem (a : Nat) (b : Memory) :
    (s.setDraws a).setMem b = (s.setMem b).setDraws a := rfl
@[simp] theorem State.setRip_setMem (a : Word64) (b : Memory) :
    (s.setRip a).setMem b = (s.setMem b).setRip a := rfl
@[simp] theorem State.setRsp_setMem (a : Word64) (b : Memory) :
    (s.setRsp a).setMem b = (s.setMem b).setRsp a := rfl
@[simp] theorem State.setFlags_setMem (a : Word32) (b : Memory) :
    (s.setFlags a).setMem b = (s.setMem b).setFlags a := rfl
@[simp] theorem State.setCs_setMem (a : SegReg) (b : Memory) :
    (s.setCs a).setMem b = (s.setMem b).setCs a := rfl
@[simp] theorem State.setSs_setMem (a : SegReg) (b : Memory) :
    (s.setSs a).setMem b = (s.setMem b).setSs a := rfl
@[simp] theorem State.setData_setMem (a1 a2 a3 a4 : SegReg) (b : Memory) :
    (s.setData a1 a2 a3 a4).setMem b = (s.setMem b).setData a1 a2 a3 a4 := rfl
@[simp] theorem State.setCpl_setMem (a : BitVec 2) (b : Memory) :
    (s.setCpl a).setMem b = (s.setMem b).setCpl a := rfl
@[simp] theorem State.setSsp_setMem (a : Word64) (b : Memory) :
    (s.setSsp a).setMem b = (s.setMem b).setSsp a := rfl
@[simp] theorem State.setPl3Ssp_setMem (a : Word64) (b : Memory) :
    (s.setPl3Ssp a).setMem b = (s.setMem b).setPl3Ssp a := rfl
@[simp] theorem State.setSCet_setMem (a : Word64) (b : Memory) :
    (s.setSCet a).setMem b = (s.setMem b).setSCet a := rfl
@[simp] theorem State.setUCet_setMem (a : Word64) (b : Memory) :
    (s.setUCet a).setMem b = (s.setMem b).setUCet a := rfl
@[simp] theorem State.setFaultAddr_setMem (a : Word64) (b : Memory) :
    (s.setFaultAddr a).setMem b = (s.setMem b).setFaultAddr a := rfl
@[simp] theorem State.setPending_setMem (a : List ExternalEvent) (b : Memory) :
    (s.setPending a).setMem b = (s.setMem b).setPending a := rfl
@[simp] theorem State.setDraws_setDraws (a : Nat) (b : Nat) :
    (s.setDraws a).setDraws b = s.setDraws b := rfl
@[simp] theorem State.setDraws_self : s.setDraws s.draws = s := rfl
@[simp] theorem State.setRip_setDraws (a : Word64) (b : Nat) :
    (s.setRip a).setDraws b = (s.setDraws b).setRip a := rfl
@[simp] theorem State.setRsp_setDraws (a : Word64) (b : Nat) :
    (s.setRsp a).setDraws b = (s.setDraws b).setRsp a := rfl
@[simp] theorem State.setFlags_setDraws (a : Word32) (b : Nat) :
    (s.setFlags a).setDraws b = (s.setDraws b).setFlags a := rfl
@[simp] theorem State.setCs_setDraws (a : SegReg) (b : Nat) :
    (s.setCs a).setDraws b = (s.setDraws b).setCs a := rfl
@[simp] theorem State.setSs_setDraws (a : SegReg) (b : Nat) :
    (s.setSs a).setDraws b = (s.setDraws b).setSs a := rfl
@[simp] theorem State.setData_setDraws (a1 a2 a3 a4 : SegReg) (b : Nat) :
    (s.setData a1 a2 a3 a4).setDraws b = (s.setDraws b).setData a1 a2 a3 a4 := rfl
@[simp] theorem State.setCpl_setDraws (a : BitVec 2) (b : Nat) :
    (s.setCpl a).setDraws b = (s.setDraws b).setCpl a := rfl
@[simp] theorem State.setSsp_setDraws (a : Word64) (b : Nat) :
    (s.setSsp a).setDraws b = (s.setDraws b).setSsp a := rfl
@[simp] theorem State.setPl3Ssp_setDraws (a : Word64) (b : Nat) :
    (s.setPl3Ssp a).setDraws b = (s.setDraws b).setPl3Ssp a := rfl
@[simp] theorem State.setSCet_setDraws (a : Word64) (b : Nat) :
    (s.setSCet a).setDraws b = (s.setDraws b).setSCet a := rfl
@[simp] theorem State.setUCet_setDraws (a : Word64) (b : Nat) :
    (s.setUCet a).setDraws b = (s.setDraws b).setUCet a := rfl
@[simp] theorem State.setFaultAddr_setDraws (a : Word64) (b : Nat) :
    (s.setFaultAddr a).setDraws b = (s.setDraws b).setFaultAddr a := rfl
@[simp] theorem State.setPending_setDraws (a : List ExternalEvent) (b : Nat) :
    (s.setPending a).setDraws b = (s.setDraws b).setPending a := rfl
@[simp] theorem State.setRip_setRip (a : Word64) (b : Word64) :
    (s.setRip a).setRip b = s.setRip b := rfl
@[simp] theorem State.setRip_self : s.setRip s.rip = s := rfl
@[simp] theorem State.setRsp_setRip (a : Word64) (b : Word64) :
    (s.setRsp a).setRip b = (s.setRip b).setRsp a := rfl
@[simp] theorem State.setFlags_setRip (a : Word32) (b : Word64) :
    (s.setFlags a).setRip b = (s.setRip b).setFlags a := rfl
@[simp] theorem State.setCs_setRip (a : SegReg) (b : Word64) :
    (s.setCs a).setRip b = (s.setRip b).setCs a := rfl
@[simp] theorem State.setSs_setRip (a : SegReg) (b : Word64) :
    (s.setSs a).setRip b = (s.setRip b).setSs a := rfl
@[simp] theorem State.setData_setRip (a1 a2 a3 a4 : SegReg) (b : Word64) :
    (s.setData a1 a2 a3 a4).setRip b = (s.setRip b).setData a1 a2 a3 a4 := rfl
@[simp] theorem State.setCpl_setRip (a : BitVec 2) (b : Word64) :
    (s.setCpl a).setRip b = (s.setRip b).setCpl a := rfl
@[simp] theorem State.setSsp_setRip (a : Word64) (b : Word64) :
    (s.setSsp a).setRip b = (s.setRip b).setSsp a := rfl
@[simp] theorem State.setPl3Ssp_setRip (a : Word64) (b : Word64) :
    (s.setPl3Ssp a).setRip b = (s.setRip b).setPl3Ssp a := rfl
@[simp] theorem State.setSCet_setRip (a : Word64) (b : Word64) :
    (s.setSCet a).setRip b = (s.setRip b).setSCet a := rfl
@[simp] theorem State.setUCet_setRip (a : Word64) (b : Word64) :
    (s.setUCet a).setRip b = (s.setRip b).setUCet a := rfl
@[simp] theorem State.setFaultAddr_setRip (a : Word64) (b : Word64) :
    (s.setFaultAddr a).setRip b = (s.setRip b).setFaultAddr a := rfl
@[simp] theorem State.setPending_setRip (a : List ExternalEvent) (b : Word64) :
    (s.setPending a).setRip b = (s.setRip b).setPending a := rfl
@[simp] theorem State.setRsp_setRsp (a : Word64) (b : Word64) :
    (s.setRsp a).setRsp b = s.setRsp b := rfl
@[simp] theorem State.setRsp_self : s.setRsp s.rsp = s := rfl
@[simp] theorem State.setFlags_setRsp (a : Word32) (b : Word64) :
    (s.setFlags a).setRsp b = (s.setRsp b).setFlags a := rfl
@[simp] theorem State.setCs_setRsp (a : SegReg) (b : Word64) :
    (s.setCs a).setRsp b = (s.setRsp b).setCs a := rfl
@[simp] theorem State.setSs_setRsp (a : SegReg) (b : Word64) :
    (s.setSs a).setRsp b = (s.setRsp b).setSs a := rfl
@[simp] theorem State.setData_setRsp (a1 a2 a3 a4 : SegReg) (b : Word64) :
    (s.setData a1 a2 a3 a4).setRsp b = (s.setRsp b).setData a1 a2 a3 a4 := rfl
@[simp] theorem State.setCpl_setRsp (a : BitVec 2) (b : Word64) :
    (s.setCpl a).setRsp b = (s.setRsp b).setCpl a := rfl
@[simp] theorem State.setSsp_setRsp (a : Word64) (b : Word64) :
    (s.setSsp a).setRsp b = (s.setRsp b).setSsp a := rfl
@[simp] theorem State.setPl3Ssp_setRsp (a : Word64) (b : Word64) :
    (s.setPl3Ssp a).setRsp b = (s.setRsp b).setPl3Ssp a := rfl
@[simp] theorem State.setSCet_setRsp (a : Word64) (b : Word64) :
    (s.setSCet a).setRsp b = (s.setRsp b).setSCet a := rfl
@[simp] theorem State.setUCet_setRsp (a : Word64) (b : Word64) :
    (s.setUCet a).setRsp b = (s.setRsp b).setUCet a := rfl
@[simp] theorem State.setFaultAddr_setRsp (a : Word64) (b : Word64) :
    (s.setFaultAddr a).setRsp b = (s.setRsp b).setFaultAddr a := rfl
@[simp] theorem State.setPending_setRsp (a : List ExternalEvent) (b : Word64) :
    (s.setPending a).setRsp b = (s.setRsp b).setPending a := rfl
@[simp] theorem State.setFlags_setFlags (a : Word32) (b : Word32) :
    (s.setFlags a).setFlags b = s.setFlags b := rfl
@[simp] theorem State.setFlags_self : s.setFlags s.eflags = s := rfl
@[simp] theorem State.setCs_setFlags (a : SegReg) (b : Word32) :
    (s.setCs a).setFlags b = (s.setFlags b).setCs a := rfl
@[simp] theorem State.setSs_setFlags (a : SegReg) (b : Word32) :
    (s.setSs a).setFlags b = (s.setFlags b).setSs a := rfl
@[simp] theorem State.setData_setFlags (a1 a2 a3 a4 : SegReg) (b : Word32) :
    (s.setData a1 a2 a3 a4).setFlags b = (s.setFlags b).setData a1 a2 a3 a4 := rfl
@[simp] theorem State.setCpl_setFlags (a : BitVec 2) (b : Word32) :
    (s.setCpl a).setFlags b = (s.setFlags b).setCpl a := rfl
@[simp] theorem State.setSsp_setFlags (a : Word64) (b : Word32) :
    (s.setSsp a).setFlags b = (s.setFlags b).setSsp a := rfl
@[simp] theorem State.setPl3Ssp_setFlags (a : Word64) (b : Word32) :
    (s.setPl3Ssp a).setFlags b = (s.setFlags b).setPl3Ssp a := rfl
@[simp] theorem State.setSCet_setFlags (a : Word64) (b : Word32) :
    (s.setSCet a).setFlags b = (s.setFlags b).setSCet a := rfl
@[simp] theorem State.setUCet_setFlags (a : Word64) (b : Word32) :
    (s.setUCet a).setFlags b = (s.setFlags b).setUCet a := rfl
@[simp] theorem State.setFaultAddr_setFlags (a : Word64) (b : Word32) :
    (s.setFaultAddr a).setFlags b = (s.setFlags b).setFaultAddr a := rfl
@[simp] theorem State.setPending_setFlags (a : List ExternalEvent) (b : Word32) :
    (s.setPending a).setFlags b = (s.setFlags b).setPending a := rfl
@[simp] theorem State.setCs_setCs (a : SegReg) (b : SegReg) :
    (s.setCs a).setCs b = s.setCs b := rfl
@[simp] theorem State.setCs_self : s.setCs s.cs = s := rfl
@[simp] theorem State.setSs_setCs (a : SegReg) (b : SegReg) :
    (s.setSs a).setCs b = (s.setCs b).setSs a := rfl
@[simp] theorem State.setData_setCs (a1 a2 a3 a4 : SegReg) (b : SegReg) :
    (s.setData a1 a2 a3 a4).setCs b = (s.setCs b).setData a1 a2 a3 a4 := rfl
@[simp] theorem State.setCpl_setCs (a : BitVec 2) (b : SegReg) :
    (s.setCpl a).setCs b = (s.setCs b).setCpl a := rfl
@[simp] theorem State.setSsp_setCs (a : Word64) (b : SegReg) :
    (s.setSsp a).setCs b = (s.setCs b).setSsp a := rfl
@[simp] theorem State.setPl3Ssp_setCs (a : Word64) (b : SegReg) :
    (s.setPl3Ssp a).setCs b = (s.setCs b).setPl3Ssp a := rfl
@[simp] theorem State.setSCet_setCs (a : Word64) (b : SegReg) :
    (s.setSCet a).setCs b = (s.setCs b).setSCet a := rfl
@[simp] theorem State.setUCet_setCs (a : Word64) (b : SegReg) :
    (s.setUCet a).setCs b = (s.setCs b).setUCet a := rfl
@[simp] theorem State.setFaultAddr_setCs (a : Word64) (b : SegReg) :
    (s.setFaultAddr a).setCs b = (s.setCs b).setFaultAddr a := rfl
@[simp] theorem State.setPending_setCs (a : List ExternalEvent) (b : SegReg) :
    (s.setPending a).setCs b = (s.setCs b).setPending a := rfl
@[simp] theorem State.setSs_setSs (a : SegReg) (b : SegReg) :
    (s.setSs a).setSs b = s.setSs b := rfl
@[simp] theorem State.setSs_self : s.setSs s.ss = s := rfl
@[simp] theorem State.setData_setSs (a1 a2 a3 a4 : SegReg) (b : SegReg) :
    (s.setData a1 a2 a3 a4).setSs b = (s.setSs b).setData a1 a2 a3 a4 := rfl
@[simp] theorem State.setCpl_setSs (a : BitVec 2) (b : SegReg) :
    (s.setCpl a).setSs b = (s.setSs b).setCpl a := rfl
@[simp] theorem State.setSsp_setSs (a : Word64) (b : SegReg) :
    (s.setSsp a).setSs b = (s.setSs b).setSsp a := rfl
@[simp] theorem State.setPl3Ssp_setSs (a : Word64) (b : SegReg) :
    (s.setPl3Ssp a).setSs b = (s.setSs b).setPl3Ssp a := rfl
@[simp] theorem State.setSCet_setSs (a : Word64) (b : SegReg) :
    (s.setSCet a).setSs b = (s.setSs b).setSCet a := rfl
@[simp] theorem State.setUCet_setSs (a : Word64) (b : SegReg) :
    (s.setUCet a).setSs b = (s.setSs b).setUCet a := rfl
@[simp] theorem State.setFaultAddr_setSs (a : Word64) (b : SegReg) :
    (s.setFaultAddr a).setSs b = (s.setSs b).setFaultAddr a := rfl
@[simp] theorem State.setPending_setSs (a : List ExternalEvent) (b : SegReg) :
    (s.setPending a).setSs b = (s.setSs b).setPending a := rfl
@[simp] theorem State.setData_setData (a1 a2 a3 a4 : SegReg) (b1 b2 b3 b4 : SegReg) :
    (s.setData a1 a2 a3 a4).setData b1 b2 b3 b4 = s.setData b1 b2 b3 b4 := rfl
@[simp] theorem State.setCpl_setData (a : BitVec 2) (b1 b2 b3 b4 : SegReg) :
    (s.setCpl a).setData b1 b2 b3 b4 = (s.setData b1 b2 b3 b4).setCpl a := rfl
@[simp] theorem State.setSsp_setData (a : Word64) (b1 b2 b3 b4 : SegReg) :
    (s.setSsp a).setData b1 b2 b3 b4 = (s.setData b1 b2 b3 b4).setSsp a := rfl
@[simp] theorem State.setPl3Ssp_setData (a : Word64) (b1 b2 b3 b4 : SegReg) :
    (s.setPl3Ssp a).setData b1 b2 b3 b4 = (s.setData b1 b2 b3 b4).setPl3Ssp a := rfl
@[simp] theorem State.setSCet_setData (a : Word64) (b1 b2 b3 b4 : SegReg) :
    (s.setSCet a).setData b1 b2 b3 b4 = (s.setData b1 b2 b3 b4).setSCet a := rfl
@[simp] theorem State.setUCet_setData (a : Word64) (b1 b2 b3 b4 : SegReg) :
    (s.setUCet a).setData b1 b2 b3 b4 = (s.setData b1 b2 b3 b4).setUCet a := rfl
@[simp] theorem State.setFaultAddr_setData (a : Word64) (b1 b2 b3 b4 : SegReg) :
    (s.setFaultAddr a).setData b1 b2 b3 b4 = (s.setData b1 b2 b3 b4).setFaultAddr a := rfl
@[simp] theorem State.setPending_setData (a : List ExternalEvent) (b1 b2 b3 b4 : SegReg) :
    (s.setPending a).setData b1 b2 b3 b4 = (s.setData b1 b2 b3 b4).setPending a := rfl
@[simp] theorem State.setCpl_setCpl (a : BitVec 2) (b : BitVec 2) :
    (s.setCpl a).setCpl b = s.setCpl b := rfl
@[simp] theorem State.setCpl_self : s.setCpl s.cpl = s := rfl
@[simp] theorem State.setSsp_setCpl (a : Word64) (b : BitVec 2) :
    (s.setSsp a).setCpl b = (s.setCpl b).setSsp a := rfl
@[simp] theorem State.setPl3Ssp_setCpl (a : Word64) (b : BitVec 2) :
    (s.setPl3Ssp a).setCpl b = (s.setCpl b).setPl3Ssp a := rfl
@[simp] theorem State.setSCet_setCpl (a : Word64) (b : BitVec 2) :
    (s.setSCet a).setCpl b = (s.setCpl b).setSCet a := rfl
@[simp] theorem State.setUCet_setCpl (a : Word64) (b : BitVec 2) :
    (s.setUCet a).setCpl b = (s.setCpl b).setUCet a := rfl
@[simp] theorem State.setFaultAddr_setCpl (a : Word64) (b : BitVec 2) :
    (s.setFaultAddr a).setCpl b = (s.setCpl b).setFaultAddr a := rfl
@[simp] theorem State.setPending_setCpl (a : List ExternalEvent) (b : BitVec 2) :
    (s.setPending a).setCpl b = (s.setCpl b).setPending a := rfl
@[simp] theorem State.setSsp_setSsp (a : Word64) (b : Word64) :
    (s.setSsp a).setSsp b = s.setSsp b := rfl
@[simp] theorem State.setSsp_self : s.setSsp s.ssp = s := rfl
@[simp] theorem State.setPl3Ssp_setSsp (a : Word64) (b : Word64) :
    (s.setPl3Ssp a).setSsp b = (s.setSsp b).setPl3Ssp a := rfl
@[simp] theorem State.setSCet_setSsp (a : Word64) (b : Word64) :
    (s.setSCet a).setSsp b = (s.setSsp b).setSCet a := rfl
@[simp] theorem State.setUCet_setSsp (a : Word64) (b : Word64) :
    (s.setUCet a).setSsp b = (s.setSsp b).setUCet a := rfl
@[simp] theorem State.setFaultAddr_setSsp (a : Word64) (b : Word64) :
    (s.setFaultAddr a).setSsp b = (s.setSsp b).setFaultAddr a := rfl
@[simp] theorem State.setPending_setSsp (a : List ExternalEvent) (b : Word64) :
    (s.setPending a).setSsp b = (s.setSsp b).setPending a := rfl
@[simp] theorem State.setPl3Ssp_setPl3Ssp (a : Word64) (b : Word64) :
    (s.setPl3Ssp a).setPl3Ssp b = s.setPl3Ssp b := rfl
@[simp] theorem State.setPl3Ssp_self : s.setPl3Ssp s.pl3Ssp = s := rfl
@[simp] theorem State.setSCet_setPl3Ssp (a : Word64) (b : Word64) :
    (s.setSCet a).setPl3Ssp b = (s.setPl3Ssp b).setSCet a := rfl
@[simp] theorem State.setUCet_setPl3Ssp (a : Word64) (b : Word64) :
    (s.setUCet a).setPl3Ssp b = (s.setPl3Ssp b).setUCet a := rfl
@[simp] theorem State.setFaultAddr_setPl3Ssp (a : Word64) (b : Word64) :
    (s.setFaultAddr a).setPl3Ssp b = (s.setPl3Ssp b).setFaultAddr a := rfl
@[simp] theorem State.setPending_setPl3Ssp (a : List ExternalEvent) (b : Word64) :
    (s.setPending a).setPl3Ssp b = (s.setPl3Ssp b).setPending a := rfl
@[simp] theorem State.setSCet_setSCet (a : Word64) (b : Word64) :
    (s.setSCet a).setSCet b = s.setSCet b := rfl
@[simp] theorem State.setSCet_self : s.setSCet s.sCet = s := rfl
@[simp] theorem State.setUCet_setSCet (a : Word64) (b : Word64) :
    (s.setUCet a).setSCet b = (s.setSCet b).setUCet a := rfl
@[simp] theorem State.setFaultAddr_setSCet (a : Word64) (b : Word64) :
    (s.setFaultAddr a).setSCet b = (s.setSCet b).setFaultAddr a := rfl
@[simp] theorem State.setPending_setSCet (a : List ExternalEvent) (b : Word64) :
    (s.setPending a).setSCet b = (s.setSCet b).setPending a := rfl
@[simp] theorem State.setUCet_setUCet (a : Word64) (b : Word64) :
    (s.setUCet a).setUCet b = s.setUCet b := rfl
@[simp] theorem State.setUCet_self : s.setUCet s.uCet = s := rfl
@[simp] theorem State.setFaultAddr_setUCet (a : Word64) (b : Word64) :
    (s.setFaultAddr a).setUCet b = (s.setUCet b).setFaultAddr a := rfl
@[simp] theorem State.setPending_setUCet (a : List ExternalEvent) (b : Word64) :
    (s.setPending a).setUCet b = (s.setUCet b).setPending a := rfl
@[simp] theorem State.setFaultAddr_setFaultAddr (a : Word64) (b : Word64) :
    (s.setFaultAddr a).setFaultAddr b = s.setFaultAddr b := rfl
@[simp] theorem State.setFaultAddr_self : s.setFaultAddr s.faultAddr = s := rfl
@[simp] theorem State.setPending_setFaultAddr (a : List ExternalEvent) (b : Word64) :
    (s.setPending a).setFaultAddr b = (s.setFaultAddr b).setPending a := rfl
@[simp] theorem State.setPending_setPending (a : List ExternalEvent) (b : List ExternalEvent) :
    (s.setPending a).setPending b = s.setPending b := rfl
@[simp] theorem State.setPending_self : s.setPending s.pending = s := rfl
end

end Sys2Proof.Machine
end

