-- ==== Sys2Proof/Laws/Access.lean ====
section
/-! SUPPORT. What a translated access, a load and a store can do. -/

namespace Sys2Proof.Machine

variable {s t : State} {la v x : Word64} {w i n p : Nat} {k : Access}

/-- A resolved address is a physical address. -/
theorem resolve_lt (h : resolve s la w k = .ok p) : p < 2 ^ 64 := by
  unfold resolve at h
  split at h
  · cases h
  · rename_i q _
    split at h <;> cases h <;> exact q.isLt

/-- A resolved address is admitted memory. -/
theorem resolve_admitted (h : resolve s la w k = .ok p) :
    s.regionAt p = some .ram ∨ s.regionAt p = some .shared := by
  unfold resolve at h
  split at h
  · cases h
  · split at h <;> cases h
    · exact .inl ‹_›
    · exact .inr ‹_›

/-- The only exception a translation raises is a page fault, in the state it was asked in. -/
theorem resolve_raise {e : Exc} {d : State} (h : resolve s la w k = .error (.raise e d)) :
    e.name = .pf ∧ d = s := by
  unfold resolve at h
  split at h
  · cases h; exact ⟨rfl, rfl⟩
  · split at h <;> cases h

/-- With paging off an admitted address resolves to itself. -/
theorem resolve_plain (hp : s.pagingOn = false) (hr : s.regionAt la.toNat = some .ram) :
    resolve s la w k = .ok la.toNat := by
  simp [resolve, State.translate, hp, hr]

/-- In plain memory a byte reads as memory holds it. -/
theorem readByte_ram {u : ReadUse} (h : s.regionAt p = some .ram) :
    s.readByte u la p = s.mem.read p := by
  simp [State.readByte, h]

/-- A byte reads as memory holds it, or as the oracle answers. -/
theorem readByte_cases (s : State) (u : ReadUse) (la : Word64) (p : Nat) :
    (s.regionAt p ≠ some .shared ∧ s.readByte u la p = s.mem.read p) ∨
      (s.regionAt p = some .shared ∧ s.readByte u la p = Config.agentByte s.draws u la) := by
  unfold State.readByte
  split
  · exact .inr ⟨‹_›, rfl⟩
  · exact .inl ⟨‹_›, rfl⟩

/-- Every failure of an access is the failure of one of its bytes. -/
theorem failures_mem {st : Stop} (h : st ∈ failures s k w la i n) :
    ∃ j, i ≤ j ∧ j < i + n ∧ resolve s (s.byteAddr la j) w k = .error st := by
  induction n generalizing i with
  | zero => cases h
  | succ n ih =>
    rw [failures] at h
    split at h
    · obtain ⟨j, h1, h2, h3⟩ := ih h
      exact ⟨j, by omega, by omega, h3⟩
    · rcases List.mem_cons.1 h with rfl | h
      · exact ⟨i, by omega, by omega, ‹_›⟩
      · obtain ⟨j, h1, h2, h3⟩ := ih h
        exact ⟨j, by omega, by omega, h3⟩

/-- An access whose bytes all resolve has no failure. -/
theorem failures_eq_nil (h : ∀ j, i ≤ j → j < i + n → ∃ p, resolve s (s.byteAddr la j) w k = .ok p) :
    failures s k w la i n = [] := by
  induction n generalizing i with
  | zero => rfl
  | succ n ih =>
    obtain ⟨p, hp⟩ := h i (Nat.le_refl i) (by omega)
    rw [failures, hp]
    exact ih fun j h1 h2 => h j (by omega) (by omega)

/-- The failure reported is one of those that occurred. -/
theorem reported_mem (s : State) (la : Word64) (st : Stop) (sts : List Stop) :
    s.reported la st sts ∈ st :: sts := by
  unfold State.reported
  split
  · exact List.mem_cons_self
  · rw [List.getD_eq_getElem _ _ (by simp only [List.length_cons]; exact Nat.mod_lt _ (by omega))]
    exact List.getElem_mem _

/-- The exception an access reports is a page fault, raised in the state of the access. -/
theorem reported_raise {st : Stop} {sts : List Stop} {e : Exc} {d : State}
    (hf : failures s k w la 0 w = st :: sts) (h : s.reported la st sts = .raise e d) :
    e.name = .pf ∧ d = s := by
  have hm := reported_mem s la st sts
  rw [h, ← hf] at hm
  obtain ⟨j, -, -, hj⟩ := failures_mem hm
  exact resolve_raise hj

theorem loadFrom_raise {u : ReadUse} {e : Exc} {d : State}
    (h : loadFrom s u k w la i n = .error (.raise e d)) : e.name = .pf ∧ d = s := by
  induction n generalizing i with
  | zero => cases h
  | succ n ih =>
    rw [loadFrom, Run.bind_eq_error] at h
    rcases h with h | ⟨q, -, h⟩
    · exact resolve_raise h
    · rw [Run.bind_eq_error] at h
      rcases h with h | ⟨_, -, h⟩
      · exact ih h
      · cases h

/-- A load raises nothing but a page fault, and changes nothing. -/
theorem load_raise {u : ReadUse} {e : Exc} {d : State}
    (h : load s u k w la = .error (.raise e d)) : e.name = .pf ∧ d = s := by
  unfold load at h
  split at h
  · exact loadFrom_raise h
  · rename_i hf
    cases h' : State.reported s la _ _ <;> rw [h'] at h <;> cases h
    exact reported_raise hf h'

theorem storeFrom_wf {m : Memory} (hm : m.wf = true) :
    (storeFrom s k w la v i n m).wf = true := by
  induction n generalizing i m with
  | zero => exact hm
  | succ n ih =>
    rw [storeFrom]
    split
    · exact ih (Memory.write_wf hm (resolve_lt ‹_›) _)
    · exact ih hm

/-- A byte of memory that no byte of the access resolves to is left as it was. -/
theorem storeFrom_frame {m : Memory} (hm : m.wf = true) {a : Nat}
    (ha : ∀ j, i ≤ j → j < i + n → resolve s (s.byteAddr la j) w k ≠ .ok a) :
    (storeFrom s k w la v i n m).read a = m.read a := by
  induction n generalizing i m with
  | zero => rfl
  | succ n ih =>
    rw [storeFrom]
    split
    · rename_i q hq
      rw [ih (Memory.write_wf hm (resolve_lt hq) _) fun j h1 h2 => ha j (by omega) (by omega),
        Memory.read_write hm, if_neg]
      rintro rfl
      exact ha i (Nat.le_refl i) (by omega) hq
    · exact ih hm fun j h1 h2 => ha j (by omega) (by omega)

/-- A store that ends well changes memory only, keeps its form, and touches only the bytes its
addresses resolve to. -/
theorem store_ok (h : store s k w la v = .ok t) :
    ∃ m, t = s.setMem m ∧ (s.mem.wf = true → m.wf = true) ∧
      (s.mem.wf = true → ∀ a, (∀ j, j < w → resolve s (s.byteAddr la j) w k ≠ .ok a) →
        m.read a = s.mem.read a) := by
  unfold store at h
  dsimp only at h
  split at h
  · cases h
    exact ⟨_, rfl, storeFrom_wf, fun hm a ha => storeFrom_frame hm fun j _ hj => ha j (by omega)⟩
  · cases h

/-- A store that raises an exception raises a page fault, and has changed memory only. -/
theorem store_raise {e : Exc} {d : State} (h : store s k w la v = .error (.raise e d)) :
    e.name = .pf ∧ ∃ m, d = s.setMem m ∧ (s.mem.wf = true → m.wf = true) := by
  unfold store at h
  dsimp only at h
  split at h
  · cases h
  · rename_i hf
    cases h' : State.reported s la _ _ <;> rw [h'] at h <;>
      simp only [Stop.withDirty, Except.error.injEq, Stop.raise.injEq, reduceCtorEq] at h
    obtain ⟨rfl, rfl⟩ := h
    refine ⟨(reported_raise hf h').1, ?_⟩
    split
    · exact ⟨s.mem, rfl, id⟩
    · exact ⟨_, rfl, storeFrom_wf⟩

theorem putBytes_wf {addr : Nat → Nat} {m : Memory} (hm : m.wf = true)
    (ha : ∀ j, i ≤ j → j < i + n → addr j < 2 ^ 64) : (putBytes addr v i n m).wf = true := by
  induction n generalizing i m with
  | zero => exact hm
  | succ n ih =>
    exact ih (Memory.write_wf hm (ha i (Nat.le_refl i) (by omega)) _)
      fun j h1 h2 => ha j (by omega) (by omega)

/-- What a byte reads as after bytes of a value were written at distinct addresses. -/
theorem read_putBytes {addr : Nat → Nat} {m : Memory} (hm : m.wf = true)
    (ha : ∀ j, i ≤ j → j < i + n → addr j < 2 ^ 64)
    (hinj : ∀ j j', i ≤ j → j < i + n → i ≤ j' → j' < i + n → addr j = addr j' → j = j') (a : Nat) :
    (∀ j, i ≤ j → j < i + n → addr j = a → (putBytes addr v i n m).read a = byteOf v j) ∧
      ((∀ j, i ≤ j → j < i + n → addr j ≠ a) → (putBytes addr v i n m).read a = m.read a) := by
  induction n generalizing i m with
  | zero => exact ⟨fun j h1 h2 => by omega, fun _ => rfl⟩
  | succ n ih =>
    have hw := Memory.write_wf hm (ha i (Nat.le_refl i) (by omega)) (byteOf v i)
    obtain ⟨h1, h2⟩ := ih (i := i + 1) hw (fun j h1 h2 => ha j (by omega) (by omega))
      fun j j' a1 a2 a3 a4 h => hinj j j' (by omega) (by omega) (by omega) (by omega) h
    constructor
    · intro j hj1 hj2 hj
      rw [putBytes]
      by_cases hji : j = i
      · subst hji
        rw [h2, Memory.read_write hm, if_pos hj.symm]
        intro j' b1 b2 b3
        have := hinj j j' (by omega) (by omega) (by omega) (by omega) (hj.trans b3.symm)
        omega
      · exact h1 j (by omega) (by omega) hj
    · intro hne
      rw [putBytes, h2 fun j b1 b2 => hne j (by omega) (by omega), Memory.read_write hm, if_neg]
      exact fun h => hne i (Nat.le_refl i) (by omega) h.symm

/-- A store with paging off, all of whose bytes are admitted, writes exactly its bytes. -/
theorem storeFrom_plain {m : Memory} (hp : s.pagingOn = false)
    (hr : ∀ j, i ≤ j → j < i + n → s.regionAt (s.byteAddr la j).toNat = some .ram) :
    storeFrom s k w la v i n m = putBytes (fun j => (s.byteAddr la j).toNat) v i n m := by
  induction n generalizing i m with
  | zero => rfl
  | succ n ih =>
    rw [storeFrom, resolve_plain hp (hr i (Nat.le_refl i) (by omega))]
    exact ih fun j h1 h2 => hr j (by omega) (by omega)

/-- With paging off an access all of whose bytes are admitted has no failure. -/
theorem failures_plain (hp : s.pagingOn = false)
    (hr : ∀ j, j < w → s.regionAt (s.byteAddr la j).toNat = some .ram) :
    failures s k w la 0 w = [] :=
  failures_eq_nil fun j _ h => ⟨_, resolve_plain hp (hr j (by omega))⟩

/-- A store with paging off, all of whose bytes are admitted, ends well. -/
theorem store_plain (hp : s.pagingOn = false)
    (hr : ∀ j, j < w → s.regionAt (s.byteAddr la j).toNat = some .ram) :
    store s k w la v =
      .ok (s.setMem (putBytes (fun j => (s.byteAddr la j).toNat) v 0 w s.mem)) := by
  simp only [store, failures_plain hp hr]
  rw [storeFrom_plain hp fun j _ h => hr j (by omega)]

theorem loadFrom_plain {u : ReadUse} (hp : s.pagingOn = false)
    (hr : ∀ j, i ≤ j → j < i + n → s.regionAt (s.byteAddr la j).toNat = some .ram) :
    loadFrom s u k w la i n = .ok (getBytes (fun j => (s.byteAddr la j).toNat) s.mem i n) := by
  induction n generalizing i with
  | zero => rfl
  | succ n ih =>
    rw [loadFrom, resolve_plain hp (hr i (Nat.le_refl i) (by omega)),
      ih fun j h1 h2 => hr j (by omega) (by omega), Run.ok_bind, Run.ok_bind,
      readByte_ram (hr i (Nat.le_refl i) (by omega))]
    rfl

/-- A load with paging off, all of whose bytes are admitted, answers the bytes' value. -/
theorem load_plain {u : ReadUse} (hp : s.pagingOn = false)
    (hr : ∀ j, j < w → s.regionAt (s.byteAddr la j).toNat = some .ram) :
    load s u k w la = .ok (getBytes (fun j => (s.byteAddr la j).toNat) s.mem 0 w) := by
  simp only [load, failures_plain hp hr]
  exact loadFrom_plain hp fun j _ h => hr j (by omega)

end Sys2Proof.Machine
end

