-- ==== Sys2Proof/Laws/Stack.lean ====
section
/-! SUPPORT. What pushes, room tests, table reads and shadow-stack steps can do. -/

namespace Sys2Proof.Machine

variable {s t : State} {c : PushCtx}

/-- What a stop that raises an exception says of the memory it leaves: the canonical form is kept,
and the exceptions of checks that precede every write (60_exceptions.md R241) leave it untouched. -/
def RaiseOk (s : State) (e : Exc) (d : State) : Prop :=
  (s.mem.wf = true → d.mem.wf = true) ∧
    (e.name = .ts ∨ e.name = .np ∨ e.name = .ss ∨ e.name = .ud → d.mem = s.mem)

theorem RaiseOk.same {e : Exc} {d : State} (h : d.mem = s.mem) : RaiseOk s e d :=
  ⟨fun hw => by rw [h]; exact hw, fun _ => h⟩

theorem RaiseOk.pf {e : Exc} {d : State} (hn : e.name = .pf)
    (hw : s.mem.wf = true → d.mem.wf = true) : RaiseOk s e d :=
  ⟨hw, by simp [hn]⟩

theorem load_raiseOk {e : Exc} {d : State} {r : ReadUse} {k : Access} {w : Nat} {la : Word64}
    (h : load s r k w la = .error (.raise e d)) : RaiseOk s e d :=
  .same (by rw [(load_raise h).2])

theorem store_raiseOk {e : Exc} {d : State} {k : Access} {w : Nat} {la v : Word64}
    (h : store s k w la v = .error (.raise e d)) : RaiseOk s e d := by
  obtain ⟨hn, m, rfl, hw⟩ := store_raise h
  exact .pf hn (by simpa using hw)

/-- A push that ends well has lowered the pointer and written memory, nothing else. -/
theorem push_ok {v : Word64} (h : push c v s = .ok t) :
    ∃ m, t = (s.lowered c.width).setMem m ∧ (s.mem.wf = true → m.wf = true) := by
  simp only [push, Run.bind_eq_ok, require_eq_ok] at h
  obtain ⟨_, -, h⟩ := h
  obtain ⟨m, rfl, hw, -⟩ := store_ok h
  exact ⟨m, rfl, by simpa [State.lowered] using hw⟩

/-- A push raises `#AC` before it does anything, or a page fault. -/
theorem push_raise {v : Word64} {e : Exc} {d : State} (h : push c v s = .error (.raise e d)) :
    (e.name = .ac ∨ e.name = .pf) ∧ (s.mem.wf = true → d.mem.wf = true) := by
  simp only [push, Run.bind_eq_error, require_eq_error, raiseCode] at h
  rcases h with ⟨-, h⟩ | ⟨_, -, h⟩
  · cases h; exact ⟨.inl rfl, id⟩
  · obtain ⟨hn, m, rfl, hw⟩ := store_raise h
    exact ⟨.inr hn, by simpa [State.lowered] using hw⟩

/-- Pushes that end well change memory, the stack pointer and the count of draws, nothing else. -/
theorem pushAll_ok {xs : List Slot} (h : pushAll c xs s = .ok t) :
    ∃ m r d, t = ((s.setMem m).setRsp r).setDraws d ∧ (s.mem.wf = true → m.wf = true) := by
  induction xs generalizing s with
  | nil => cases h; exact ⟨_, _, _, rfl, id⟩
  | cons x xs ih =>
    rw [pushAll, Run.bind_eq_ok] at h
    obtain ⟨u, hu, h⟩ := h
    obtain ⟨m, rfl, hw⟩ := push_ok hu
    obtain ⟨m', r, d, rfl, hw'⟩ := ih h
    exact ⟨m', r, d, rfl, fun hs => hw' (by simpa using hw (by simpa using hs))⟩

/-- Pushes raise `#AC` or a page fault only. -/
theorem pushAll_raise {xs : List Slot} {e : Exc} {d : State}
    (h : pushAll c xs s = .error (.raise e d)) :
    (e.name = .ac ∨ e.name = .pf) ∧ (s.mem.wf = true → d.mem.wf = true) := by
  induction xs generalizing s with
  | nil => cases h
  | cons x xs ih =>
    rw [pushAll, Run.bind_eq_error] at h
    rcases h with h | ⟨u, hu, h⟩
    · simpa using push_raise h
    · obtain ⟨m, rfl, hw⟩ := push_ok hu
      obtain ⟨hn, hw'⟩ := ih h
      exact ⟨hn, fun hs => hw' (by simpa using hw (by simpa using hs))⟩

theorem pushAll_raiseOk {xs : List Slot} {e : Exc} {d : State}
    (h : pushAll c xs s = .error (.raise e d)) : RaiseOk s e d := by
  obtain ⟨hn, hw⟩ := pushAll_raise h
  exact ⟨hw, by rcases hn with hn | hn <;> simp [hn]⟩

/-- A room test that passes. -/
theorem stackRoom_ok {h : Hidden} {p : PtrWidth} {sp n : Nat} {st : Stop} {u : Unit}
    (hr : stackRoom h p sp n st = .ok u) : n ≤ sp ∧ h.hasRoom p sp n = true := by
  unfold stackRoom at hr
  split at hr
  · cases hr
  · exact ⟨by omega, by simpa using hr⟩

/-- A room test that stops: refused when the pushes would wrap, else the failure given. -/
theorem stackRoom_error {h : Hidden} {p : PtrWidth} {sp n : Nat} {st e : Stop}
    (hr : stackRoom h p sp n st = .error e) :
    (sp < n ∧ e = .refuse .stackWrap) ∨ (n ≤ sp ∧ h.hasRoom p sp n = false ∧ e = st) := by
  unfold stackRoom at hr
  split at hr
  · cases hr; exact .inl ⟨‹_›, rfl⟩
  · obtain ⟨h1, h2⟩ := require_eq_error.1 hr
    exact .inr ⟨by omega, h1, h2.symm⟩

theorem readDescriptor_raise {r : ReadUse} {sel : Word16} {e : Exc} {d : State}
    (h : readDescriptor s r sel = .error (.raise e d)) : e.name = .pf ∧ d = s := by
  rw [readDescriptor, Run.bind_eq_error] at h
  rcases h with h | ⟨_, -, h⟩
  · exact load_raise h
  · cases h

theorem readGate32_raise {vector : Nat} {e : Exc} {d : State}
    (h : readGate32 s vector = .error (.raise e d)) : e.name = .pf ∧ d = s := by
  rw [readGate32, Run.bind_eq_error] at h
  rcases h with h | ⟨_, -, h⟩
  · exact load_raise h
  · cases h

theorem readGate64_raise {vector : Nat} {e : Exc} {d : State}
    (h : readGate64 s vector = .error (.raise e d)) : e.name = .pf ∧ d = s := by
  simp only [readGate64, Run.bind_eq_error] at h
  rcases h with h | ⟨_, -, h | ⟨_, -, h⟩⟩
  · exact load_raise h
  · exact load_raise h
  · cases h

theorem readFarPointer_raise {la : Word64} {e : Exc} {d : State}
    (h : readFarPointer s la = .error (.raise e d)) : e.name = .pf ∧ d = s := by
  simp only [readFarPointer, Run.bind_eq_error] at h
  rcases h with h | ⟨_, -, h | ⟨_, -, h⟩⟩
  · exact load_raise h
  · exact load_raise h
  · cases h

theorem low32_of_lt {v : Word64} (h : v.toNat < 2 ^ 32) : low32 v = v := by
  refine BitVec.eq_of_toNat_eq ?_
  simp only [low32, BitVec.toNat_setWidth]
  omega

/-- The instruction-pointer offset of an 8-byte gate is at most 32 bits wide. -/
theorem gateOffset32_low (q : Word64) (g : Option GateType) :
    low32 (gateOffset32 q g) = gateOffset32 q g := by
  apply low32_of_lt
  unfold gateOffset32
  split
  · rw [BitVec.toNat_setWidth]
    exact Nat.lt_of_le_of_lt (Nat.mod_le _ _) (BitVec.isLt _)
  · rw [BitVec.toNat_setWidth]
    exact Nat.lt_of_le_of_lt (Nat.mod_le _ _) (Nat.lt_trans (BitVec.isLt _) (by decide))

theorem readGate32_offset {vector : Nat} {g : Gate} (h : readGate32 s vector = .ok g) :
    low32 g.offset = g.offset := by
  rw [readGate32, Run.bind_eq_ok] at h
  obtain ⟨q, -, h⟩ := h
  cases h
  exact gateOffset32_low _ _

/-- A push on the shadow stack changes memory and `SSP` only. -/
theorem shadowPush_ok {v : Word64} (h : shadowPush v s = .ok t) :
    ∃ m, t = (s.setSsp (s.ssp - 8#64)).setMem m ∧ (s.mem.wf = true → m.wf = true) := by
  obtain ⟨m, rfl, hw, -⟩ := store_ok h
  exact ⟨m, rfl, by simpa using hw⟩

theorem shadowPush_raiseOk {v : Word64} {e : Exc} {d : State}
    (h : shadowPush v s = .error (.raise e d)) : e.name = .pf ∧ (s.mem.wf = true → d.mem.wf = true) := by
  obtain ⟨hn, m, rfl, hw⟩ := store_raise h
  exact ⟨hn, by simpa using hw⟩

/-- Linking the old shadow stack changes memory and lowers `SSP` by 24. -/
theorem shadowLink_ok {old : State} {v : Word64} (h : shadowLink old v s = .ok t) :
    ∃ m, t = (s.setSsp (s.ssp - 8#64 - 8#64 - 8#64)).setMem m ∧ (s.mem.wf = true → m.wf = true) := by
  simp only [shadowLink, Run.bind_eq_ok] at h
  obtain ⟨a, ha, b, hb, h⟩ := h
  obtain ⟨m1, rfl, w1⟩ := shadowPush_ok ha
  obtain ⟨m2, rfl, w2⟩ := shadowPush_ok hb
  obtain ⟨m3, rfl, w3⟩ := shadowPush_ok h
  exact ⟨m3, by simp, fun hs => w3 (by simpa using w2 (by simpa using w1 hs))⟩

theorem shadowLink_raise {old : State} {v : Word64} {e : Exc} {d : State}
    (h : shadowLink old v s = .error (.raise e d)) :
    e.name = .pf ∧ (s.mem.wf = true → d.mem.wf = true) := by
  simp only [shadowLink, Run.bind_eq_error] at h
  rcases h with h | ⟨a, ha, h | ⟨b, hb, h⟩⟩
  · exact shadowPush_raiseOk h
  · obtain ⟨m1, rfl, w1⟩ := shadowPush_ok ha
    obtain ⟨hn, w⟩ := shadowPush_raiseOk h
    exact ⟨hn, fun hs => w (by simpa using w1 hs)⟩
  · obtain ⟨m1, rfl, w1⟩ := shadowPush_ok ha
    obtain ⟨m2, rfl, w2⟩ := shadowPush_ok hb
    obtain ⟨hn, w⟩ := shadowPush_raiseOk h
    exact ⟨hn, fun hs => w (by simpa using w2 (by simpa using w1 hs))⟩

/-- The locked exchange changes memory only, and only when the old value is the expected one. -/
theorem shadowCmpxchg8b_ok {a new expected : Word64} {r : Word64 × State}
    (h : shadowCmpxchg8b a new expected s = .ok r) :
    ∃ m, r.2 = s.setMem m ∧ (s.mem.wf = true → m.wf = true) ∧ (r.1 ≠ expected → m = s.mem) := by
  simp only [shadowCmpxchg8b, Run.bind_eq_ok] at h
  obtain ⟨old, -, h⟩ := h
  split at h
  · rw [Run.bind_eq_ok] at h
    obtain ⟨u, hu, h⟩ := h
    obtain ⟨m, rfl, hw, -⟩ := store_ok hu
    cases h
    exact ⟨m, rfl, hw, fun hne => absurd ‹_› hne⟩
  · cases h
    exact ⟨s.mem, rfl, id, fun _ => rfl⟩

theorem shadowCmpxchg8b_raise {a new expected : Word64} {e : Exc} {d : State}
    (h : shadowCmpxchg8b a new expected s = .error (.raise e d)) :
    e.name = .pf ∧ (s.mem.wf = true → d.mem.wf = true) := by
  simp only [shadowCmpxchg8b, Run.bind_eq_error] at h
  rcases h with h | ⟨old, -, h⟩
  · obtain ⟨hn, rfl⟩ := load_raise h
    exact ⟨hn, id⟩
  · split at h
    · rw [Run.bind_eq_error] at h
      rcases h with h | ⟨u, hu, h⟩
      · obtain ⟨hn, m, rfl, hw⟩ := store_raise h
        exact ⟨hn, hw⟩
      · cases h
    · cases h

/-- A token that is verified and made busy: memory only has changed. -/
theorem verifyAndBusyToken_ok {p : Word64} (h : verifyAndBusyToken p s = .ok t) :
    s.shadowPointerOk p = true ∧ ∃ m, t = s.setMem m ∧ (s.mem.wf = true → m.wf = true) := by
  simp only [verifyAndBusyToken, Run.bind_eq_ok, require_eq_ok] at h
  obtain ⟨_, hp, r, hr, _, -, h⟩ := h
  obtain ⟨m, hm, hw, -⟩ := shadowCmpxchg8b_ok hr
  cases h
  exact ⟨hp, m, hm, hw⟩

/-- Token verification raises `#GP(0)`, or a page fault. -/
theorem verifyAndBusyToken_raise {p : Word64} {e : Exc} {d : State}
    (h : verifyAndBusyToken p s = .error (.raise e d)) :
    (e = ⟨.gp, some 0#32, none⟩ ∨ e.name = .pf) ∧ (s.mem.wf = true → d.mem.wf = true) := by
  simp only [verifyAndBusyToken, Run.bind_eq_error, require_eq_error, raiseCode] at h
  rcases h with ⟨-, h⟩ | ⟨_, -, h | ⟨r, hr, h⟩⟩
  · cases h; exact ⟨.inl rfl, id⟩
  · obtain ⟨hn, hw⟩ := shadowCmpxchg8b_raise h
    exact ⟨.inr hn, hw⟩
  · rcases h with ⟨-, h⟩ | ⟨_, -, h⟩
    · cases h; exact ⟨.inl rfl, id⟩
    · cases h

/-- The shadow-stack switch of an inter-privilege delivery changes memory and `SSP` only. -/
theorem shadowSwitch_ok {old : State} {p : Word64} (h : shadowSwitch old p s = .ok t) :
    ∃ m q, t = (s.setSsp q).setMem m ∧ (s.mem.wf = true → m.wf = true) := by
  unfold shadowSwitch at h
  split at h
  · rw [Run.bind_eq_ok] at h
    obtain ⟨u, hu, h⟩ := h
    obtain ⟨-, m, rfl, hw⟩ := verifyAndBusyToken_ok hu
    split at h
    · cases h; exact ⟨m, p, rfl, by simpa using hw⟩
    · obtain ⟨m', rfl, hw'⟩ := shadowLink_ok h
      exact ⟨m', _, rfl, fun hs => hw' (by simpa using hw (by simpa using hs))⟩
  · cases h; exact ⟨s.mem, s.ssp, rfl, id⟩

theorem shadowSwitch_raise {old : State} {p : Word64} {e : Exc} {d : State}
    (h : shadowSwitch old p s = .error (.raise e d)) :
    (e.name = .gp ∨ e.name = .pf) ∧ (s.mem.wf = true → d.mem.wf = true) := by
  unfold shadowSwitch at h
  split at h
  · rw [Run.bind_eq_error] at h
    rcases h with h | ⟨u, hu, h⟩
    · obtain ⟨hn, hw⟩ := verifyAndBusyToken_raise h
      exact ⟨hn.imp (fun h => by rw [h]) id, by simpa using hw⟩
    · obtain ⟨-, m, rfl, hw⟩ := verifyAndBusyToken_ok hu
      split at h
      · cases h
      · obtain ⟨hn, hw'⟩ := shadowLink_raise h
        exact ⟨.inr hn, fun hs => hw' (by simpa using hw (by simpa using hs))⟩
  · cases h

theorem shadowSwitchV86_ok {p : Word64} (h : shadowSwitchV86 p s = .ok t) :
    ∃ m q, t = (s.setSsp q).setMem m ∧ (s.mem.wf = true → m.wf = true) := by
  unfold shadowSwitchV86 at h
  split at h
  · obtain ⟨-, m, rfl, hw⟩ := verifyAndBusyToken_ok h
    exact ⟨m, p, rfl, by simpa using hw⟩
  · cases h; exact ⟨s.mem, s.ssp, rfl, id⟩

theorem shadowSwitchV86_raise {p : Word64} {e : Exc} {d : State}
    (h : shadowSwitchV86 p s = .error (.raise e d)) :
    (e.name = .gp ∨ e.name = .pf) ∧ (s.mem.wf = true → d.mem.wf = true) := by
  unfold shadowSwitchV86 at h
  split at h
  · obtain ⟨hn, hw⟩ := verifyAndBusyToken_raise h
    exact ⟨hn.imp (fun h => by rw [h]) id, by simpa using hw⟩
  · cases h

theorem verifyIf_ok {b : Bool} {p : Word64} (h : verifyIf b p s = .ok t) :
    ∃ m, t = s.setMem m ∧ (s.mem.wf = true → m.wf = true) := by
  unfold verifyIf at h
  split at h
  · exact (verifyAndBusyToken_ok h).2
  · cases h; exact ⟨_, rfl, id⟩

/-- The shadow-stack steps of an intra-privilege delivery change memory and `SSP` only. -/
theorem shadowIntra_ok {old : State} {p : Word64} {b : Bool} (h : shadowIntra old p b s = .ok t) :
    ∃ m q, t = (s.setSsp q).setMem m ∧ (s.mem.wf = true → m.wf = true) := by
  unfold shadowIntra at h
  split at h
  · simp only [Run.bind_eq_ok] at h
    obtain ⟨u, hu, x, hx, h⟩ := h
    obtain ⟨m, rfl, hw⟩ := verifyIf_ok hu
    obtain ⟨m1, rfl, hw1, -⟩ := store_ok hx
    obtain ⟨m2, rfl, hw2⟩ := shadowLink_ok h
    exact ⟨m2, (p &&& ~~~7#64) - 8#64 - 8#64 - 8#64, by simp,
      fun hs => hw2 (by simpa using hw1 (by simpa using hw hs))⟩
  · cases h; exact ⟨s.mem, s.ssp, rfl, id⟩

theorem shadowIntra_raise {old : State} {p : Word64} {b : Bool} {e : Exc} {d : State}
    (h : shadowIntra old p b s = .error (.raise e d)) :
    (e.name = .gp ∨ e.name = .pf) ∧ (s.mem.wf = true → d.mem.wf = true) := by
  unfold shadowIntra at h
  split at h
  · simp only [Run.bind_eq_error] at h
    rcases h with h | ⟨u, hu, h⟩
    · unfold verifyIf at h
      split at h
      · obtain ⟨hn, hw⟩ := verifyAndBusyToken_raise h
        exact ⟨hn.imp (fun h => by rw [h]) id, hw⟩
      · cases h
    · obtain ⟨m, rfl, hw⟩ := verifyIf_ok hu
      rcases h with h | ⟨x, hx, h⟩
      · obtain ⟨hn, m1, rfl, hw1⟩ := store_raise h
        exact ⟨.inr hn, fun hs => by simpa using hw1 (by simpa using hw hs)⟩
      · obtain ⟨m1, rfl, hw1, -⟩ := store_ok hx
        obtain ⟨hn, hw2⟩ := shadowLink_raise h
        exact ⟨.inr hn, fun hs => hw2 (by simpa using hw1 (by simpa using hw hs))⟩
  · cases h

/-- End-branch arming writes at most the two CET registers. -/
theorem armEndbranch_form (s : State) :
    ∃ a b, armEndbranch s = (s.setUCet a).setSCet b := by
  unfold armEndbranch
  split
  · split
    · exact ⟨armed s.uCet, s.sCet, rfl⟩
    · exact ⟨s.uCet, armed s.sCet, rfl⟩
  · exact ⟨s.uCet, s.sCet, rfl⟩

end Sys2Proof.Machine
end

