-- ==== Sys2Proof/Laws/Frames.lean ====
section
/-! SUPPORT. What the three procedures that end a delivery can do: each lemma says once the whole
state such a procedure answers, or what a stop leaves. -/

namespace Sys2Proof.Machine

variable {ev : Event} {t : Target} {old u : State}

/-- The RPL of a selector after `CS(RPL) := CPL` (42_delivery_frames.md R182). -/
@[simp] theorem withRpl_rpl (sel : Word16) (p : BitVec 2) : (withRpl sel p).extractLsb' 0 2 = p := by
  apply BitVec.eq_of_getLsbD_eq
  intro k hk
  simp only [withRpl, BitVec.getLsbD_extractLsb', BitVec.getLsbD_append]
  simp [hk]

/-- The index and table bit are kept. -/
@[simp] theorem withRpl_index (sel : Word16) (p : BitVec 2) :
    (withRpl sel p).extractLsb' 2 14 = sel.extractLsb' 2 14 := by
  apply BitVec.eq_of_getLsbD_eq
  intro k hk
  simp only [withRpl, BitVec.getLsbD_extractLsb', BitVec.getLsbD_append]
  simp [hk]
  omega

/-- The stack-segment checks answer a segment of the level asked for. -/
theorem newStackLegacy_ok {d : BitVec 2} {r : SegReg × Word64}
    (h : newStackLegacy ev d old = .ok r) :
    r.1.hid.dpl = d ∧ selRpl r.1.sel = d ∧ r.1.hid.isWritableData = true ∧
      r.1.hid.present = true := by
  simp only [newStackLegacy, Run.bind_eq_ok, require_eq_ok] at h
  obtain ⟨_, -, sel, -, ptr, -, _, -, _, h4, hid, -, _, h6, _, h7, h⟩ := h
  cases h
  simp only [Bool.and_eq_true, decide_eq_true_eq] at h4 h6
  exact ⟨h6.1, h4.2, h6.2, h7⟩

/-- Every stop of the stack-segment checks leaves the state as it was. -/
theorem newStackLegacy_raise {d : BitVec 2} {e : Exc} {x : State}
    (h : newStackLegacy ev d old = .error (.raise e x)) : x = old := by
  simp only [newStackLegacy, Run.bind_eq_error, require_eq_error, raiseCode] at h
  rcases h with ⟨-, h⟩ | ⟨_, -, h | ⟨_, -, h | ⟨_, -, h⟩⟩⟩
  · cases h; rfl
  · exact (load_raise h).2
  · exact (load_raise h).2
  rcases h with ⟨-, h⟩ | ⟨_, -, ⟨-, h⟩ | ⟨_, -, h | ⟨_, -, h⟩⟩⟩
  · cases h; rfl
  · cases h; rfl
  · exact (readDescriptor_raise h).2
  rcases h with ⟨-, h⟩ | ⟨_, -, ⟨-, h⟩ | ⟨_, -, h⟩⟩
  · cases h; rfl
  · cases h; rfl
  · cases h

theorem newStack64_raise {off : Nat} {e : Exc} {x : State}
    (h : newStack64 ev off old = .error (.raise e x)) : x = old := by
  simp only [newStack64, Run.bind_eq_error, require_eq_error, raiseCode] at h
  rcases h with ⟨-, h⟩ | ⟨_, -, h⟩
  · cases h; rfl
  · exact (load_raise h).2

theorem newStack_ok {r : SegReg × Word64 × State} (h : newStack ev t old = .ok r) :
    r.1.hid.dpl = t.desc.dpl ∧ ∃ n, r.2.2 = old.setDraws n := by
  unfold newStack at h
  split at h
  · rw [Run.bind_eq_ok] at h
    obtain ⟨p, -, h⟩ := h
    cases h
    exact ⟨rfl, _, rfl⟩
  · rw [Run.bind_eq_ok] at h
    obtain ⟨p, hp, h⟩ := h
    cases h
    exact ⟨(newStackLegacy_ok hp).1, _, rfl⟩

theorem newStack_raise {e : Exc} {x : State} (h : newStack ev t old = .error (.raise e x)) :
    x = old := by
  unfold newStack at h
  split at h
  · rw [Run.bind_eq_error] at h
    rcases h with h | ⟨p, -, h⟩
    · exact newStack64_raise h
    · cases h
  · rw [Run.bind_eq_error] at h
    rcases h with h | ⟨p, -, h⟩
    · exact newStackLegacy_raise h
    · cases h

theorem newShadowPointer_raise {e : Exc} {x : State}
    (h : newShadowPointer t old = .error (.raise e x)) : x = old := by
  unfold newShadowPointer at h
  split at h
  · split at h
    · exact (load_raise h).2
    · cases h
  · cases h

theorem newStackRoom_raise {ss : SegReg} {ptr : Word64} {n : Nat} {e : Exc} {x : State}
    (h : newStackRoom ev t ss ptr n old = .error (.raise e x)) : x = old := by
  unfold newStackRoom at h
  split at h
  · obtain ⟨-, h⟩ := require_eq_error.1 h
    cases h; rfl
  · rcases stackRoom_error h with ⟨-, h⟩ | ⟨-, -, h⟩ <;> cases h
    rfl

theorem saveUserSsp_form (s : State) : ∃ a, saveUserSsp s = s.setPl3Ssp a := by
  unfold saveUserSsp
  split
  · exact ⟨_, rfl⟩
  · exact ⟨s.pl3Ssp, rfl⟩

theorem enterStack_form (ss : SegReg) (ptr : Word64) (s : State) :
    ∃ r, enterStack ss ptr s = (s.setSs ss).setRsp r :=
  ⟨_, rfl⟩

/-- The whole state an inter-privilege delivery answers (42_delivery_frames.md R185): what is not
named is as it was. -/
theorem interPrivilege_ok (h : interPrivilege ev t old = .ok u) :
    t.offsetOk old = true ∧
      ∃ m d r ss q pl3 sc uc, ss.hid.dpl = t.desc.dpl ∧ (old.mem.wf = true → m.wf = true) ∧
        u = (((((((((((old.setMem m).setDraws d).setRip t.gate.offset).setRsp r).setFlags
          (gateFlags t.trap old.eflags)).setCs ⟨withRpl t.gate.sel t.desc.dpl, t.desc⟩).setSs
          ss).setCpl t.desc.dpl).setSsp q).setPl3Ssp pl3).setSCet sc).setUCet uc := by
  simp only [interPrivilege, Run.bind_eq_ok, require_eq_ok, Prod.exists] at h
  obtain ⟨ss, ptr, s, h1, newSsp, -, _, -, _, h4, s2, h5, s4, h6, h⟩ := h
  obtain ⟨hdpl, n, hn⟩ := newStack_ok h1
  simp only at hdpl hn
  subst hn
  obtain ⟨m, r, d, rfl, hw⟩ := pushAll_ok h5
  obtain ⟨pl3, hpl⟩ := saveUserSsp_form
    ((((t.enterCode (enterStack ss ptr (old.setDraws n))).setMem m).setRsp r).setDraws d)
  rw [hpl] at h6
  obtain ⟨m', q, rfl, hw'⟩ := shadowSwitch_ok h6
  obtain ⟨uc, sc, hfin⟩ := armEndbranch_form
    (((enterLevel t.desc.dpl
      (((((t.enterCode (enterStack ss ptr (old.setDraws n))).setMem m).setRsp r).setDraws
        d).setPl3Ssp pl3)).setSsp q).setMem m')
  rw [hfin] at h
  cases h
  refine ⟨h4, m', d, r, ss, q, pl3, sc, uc, hdpl, ?_, ?_⟩
  · intro hs
    exact hw' (by simpa [enterLevel] using hw (by simpa [Target.enterCode, enterStack] using hs))
  · simp [enterLevel, Target.enterCode, enterStack]

theorem interPrivilege_raise {e : Exc} {x : State}
    (h : interPrivilege ev t old = .error (.raise e x)) : RaiseOk old e x := by
  simp only [interPrivilege, Run.bind_eq_error, require_eq_error, raiseCode, Prod.exists] at h
  rcases h with h | ⟨ss, ptr, s, h1, h⟩
  · exact .same (by rw [newStack_raise h])
  obtain ⟨-, n, hn⟩ := newStack_ok h1
  simp only at hn
  subst hn
  rcases h with h | ⟨newSsp, -, h | ⟨_, -, ⟨-, h⟩ | ⟨_, -, h | ⟨s2, h5, h⟩⟩⟩⟩
  · exact .same (by rw [newShadowPointer_raise h]; rfl)
  · exact .same (by rw [newStackRoom_raise h]; rfl)
  · cases h; exact .same rfl
  · obtain ⟨hn, hw⟩ := pushAll_raise h
    exact ⟨by simpa [Target.enterCode, enterStack] using hw, by rcases hn with hn | hn <;> simp [hn]⟩
  · obtain ⟨m, r, d, rfl, hw⟩ := pushAll_ok h5
    rcases h with h | ⟨s4, -, h⟩
    · obtain ⟨pl3, hpl⟩ := saveUserSsp_form
        ((((t.enterCode (enterStack ss ptr (old.setDraws n))).setMem m).setRsp r).setDraws d)
      rw [hpl] at h
      obtain ⟨hn, hw'⟩ := shadowSwitch_raise h
      refine ⟨fun hs => hw' ?_, by rcases hn with hn | hn <;> simp [hn]⟩
      simpa [enterLevel] using hw (by simpa [Target.enterCode, enterStack] using hs)
    · cases h

/-- The whole state a delivery from virtual-8086 mode answers (42_delivery_frames.md R192). -/
theorem fromVirtual8086_ok (h : fromVirtual8086 ev t old = .ok u) :
    t.offsetOk old = true ∧
      ∃ m d r ss q sc uc n, ss.hid.dpl = 0#2 ∧ (old.mem.wf = true → m.wf = true) ∧
        u = (((((((((((old.setMem m).setDraws d).setRip t.gate.offset).setRsp r).setFlags
          (gateFlags t.trap old.eflags)).setCs ⟨withRpl t.gate.sel 0#2, t.desc⟩).setSs
          ss).setData (nullSegment n) (nullSegment (n + 1)) (nullSegment (n + 2))
          (nullSegment (n + 3))).setCpl 0#2).setSsp q).setSCet sc).setUCet uc := by
  simp only [fromVirtual8086, Run.bind_eq_ok, require_eq_ok, Prod.exists] at h
  obtain ⟨ss, ptr, h1, _, -, _, h4, s2, h5, s4, h6, h⟩ := h
  obtain ⟨hdpl, -⟩ := newStackLegacy_ok h1
  simp only at hdpl
  obtain ⟨m, r, d, rfl, hw⟩ := pushAll_ok h5
  obtain ⟨m', q, rfl, hw'⟩ := shadowSwitchV86_ok h6
  cases h
  obtain ⟨uc, sc, hfin⟩ := armEndbranch_form
    (((enterLevel 0#2 (t.enterCode (nullDataSegments
      ((((enterStack ss ptr (old.setFlags (gateFlags t.trap old.eflags))).setMem m).setRsp
        r).setDraws d)))).setSsp q).setMem m')
  rw [hfin]
  refine ⟨h4, m', d + 4, r, ss, q, sc, uc, d, hdpl, ?_, ?_⟩
  · intro hs
    refine hw' ?_
    simpa [enterLevel, Target.enterCode, nullDataSegments] using
      hw (by simpa [enterStack] using hs)
  · simp [enterLevel, Target.enterCode, enterStack, nullDataSegments]

theorem fromVirtual8086_raise {e : Exc} {x : State}
    (h : fromVirtual8086 ev t old = .error (.raise e x)) : RaiseOk old e x := by
  simp only [fromVirtual8086, Run.bind_eq_error, require_eq_error, raiseCode, Prod.exists] at h
  rcases h with h | ⟨ss, ptr, -, h | ⟨_, -, ⟨-, h⟩ | ⟨_, -, h | ⟨s2, h5, h⟩⟩⟩⟩
  · exact .same (by rw [newStackLegacy_raise h])
  · exact .same (by rw [newStackRoom_raise h])
  · cases h; exact .same rfl
  · obtain ⟨hn, hw⟩ := pushAll_raise h
    exact ⟨by simpa [enterStack] using hw, by rcases hn with hn | hn <;> simp [hn]⟩
  · obtain ⟨m, r, d, rfl, hw⟩ := pushAll_ok h5
    rcases h with h | ⟨s4, -, h⟩
    · obtain ⟨hn, hw'⟩ := shadowSwitchV86_raise h
      refine ⟨fun hs => hw' ?_, by rcases hn with hn | hn <;> simp [hn]⟩
      simpa [enterLevel, Target.enterCode, nullDataSegments] using
        hw (by simpa [enterStack] using hs)
    · cases h

theorem intraShadowPointer_raise {e : Exc} {x : State}
    (h : intraShadowPointer t old = .error (.raise e x)) : x = old := by
  unfold intraShadowPointer at h
  split at h
  · rw [Run.bind_eq_error] at h
    rcases h with h | ⟨_, -, h⟩
    · exact (load_raise h).2
    · cases h
  · cases h

theorem intraStack_ok {r : State × Word64 × Bool} (h : intraStack ev t old = .ok r) :
    t.offsetOk old = true ∧ ∃ a, r.1 = old.setRsp a := by
  unfold intraStack at h
  split at h
  · simp only [Run.bind_eq_ok, require_eq_ok, Prod.exists] at h
    obtain ⟨ptr, -, p, b, -, _, -, _, h4, h⟩ := h
    cases h
    exact ⟨h4, _, rfl⟩
  · simp only [Run.bind_eq_ok, require_eq_ok] at h
    obtain ⟨_, -, _, h4, h⟩ := h
    cases h
    exact ⟨h4, old.rsp, rfl⟩

theorem intraStack_raise {e : Exc} {x : State} (h : intraStack ev t old = .error (.raise e x)) :
    x = old := by
  unfold intraStack at h
  split at h
  · simp only [Run.bind_eq_error, require_eq_error, raiseCode, Prod.exists] at h
    rcases h with h | ⟨ptr, -, h | ⟨p, b, -, ⟨-, h⟩ | ⟨_, -, ⟨-, h⟩ | ⟨_, -, h⟩⟩⟩⟩
    · unfold intraStack64 at h
      split at h
      · cases h
      · exact newStack64_raise h
    · exact intraShadowPointer_raise h
    · cases h; rfl
    · cases h; rfl
    · cases h
  · simp only [Run.bind_eq_error, require_eq_error, raiseCode] at h
    rcases h with h | ⟨_, -, ⟨-, h⟩ | ⟨_, -, h⟩⟩
    · rcases stackRoom_error h with ⟨-, h⟩ | ⟨-, -, h⟩ <;> cases h
      rfl
    · cases h; rfl
    · cases h

/-- The frame of an intra-privilege delivery: memory, the stack pointer, draws, `CS` and the instruction
pointer change, nothing else. -/
theorem intraFrame_ok {s : State} (h : intraFrame ev t old s = .ok u) :
    ∃ m r d, u = t.enterCode (((s.setMem m).setRsp r).setDraws d) ∧
      (s.mem.wf = true → m.wf = true) := by
  unfold intraFrame at h
  split at h <;> rw [Run.bind_eq_ok] at h
  · obtain ⟨s1, h1, h⟩ := h
    obtain ⟨m, r, d, rfl, hw⟩ := pushAll_ok h1
    cases h
    exact ⟨m, r, d, rfl, hw⟩
  · obtain ⟨s1, h1, h⟩ := h
    obtain ⟨m, r, d, rfl, hw⟩ := pushAll_ok h1
    obtain ⟨m1, r1, d1, rfl, hw1⟩ := pushAll_ok h
    exact ⟨m1, r1, d1, rfl, fun hs => hw1 (by simpa [Target.enterCode] using hw hs)⟩

theorem intraFrame_raise {s : State} {e : Exc} {x : State}
    (h : intraFrame ev t old s = .error (.raise e x)) :
    (e.name = .ac ∨ e.name = .pf) ∧ (s.mem.wf = true → x.mem.wf = true) := by
  unfold intraFrame at h
  split at h <;> rw [Run.bind_eq_error] at h <;> rcases h with h | ⟨s1, h1, h⟩
  · exact pushAll_raise h
  · cases h
  · exact pushAll_raise h
  · obtain ⟨m, r, d, rfl, hw⟩ := pushAll_ok h1
    obtain ⟨hn, hw1⟩ := pushAll_raise h
    exact ⟨hn, fun hs => hw1 (by simpa [Target.enterCode] using hw hs)⟩

/-- The whole state an intra-privilege delivery answers (42_delivery_frames.md R193 to R199). -/
theorem intraPrivilege_ok (h : intraPrivilege ev t old = .ok u) :
    t.offsetOk old = true ∧
      ∃ m d r q sc uc, (old.mem.wf = true → m.wf = true) ∧
        u = ((((((((old.setMem m).setDraws d).setRip t.gate.offset).setRsp r).setFlags
          (gateFlags t.trap old.eflags)).setCs ⟨withRpl t.gate.sel old.cpl, t.desc⟩).setSsp
          q).setSCet sc).setUCet uc := by
  simp only [intraPrivilege, Run.bind_eq_ok, Prod.exists] at h
  obtain ⟨s, newSsp, b, h1, s2, h2, s4, h4, h⟩ := h
  obtain ⟨hoff, a, ha⟩ := intraStack_ok h1
  simp only at ha
  subst ha
  obtain ⟨m, r, d, rfl, hw⟩ := intraFrame_ok h2
  obtain ⟨m2, q, rfl, hw2⟩ := shadowIntra_ok h4
  cases h
  refine ⟨hoff, m2, d, r, q, ?_⟩
  generalize hz : ((enterLevel _ _).setSsp q).setMem m2 = z
  obtain ⟨uc, sc, hfin⟩ := armEndbranch_form z
  rw [hfin, ← hz]
  refine ⟨sc, uc, ?_, ?_⟩
  · intro hs
    exact hw2 (by simpa [enterLevel, Target.enterCode] using hw (by simpa using hs))
  · simp [enterLevel, Target.enterCode]
    rfl

theorem intraPrivilege_raise {e : Exc} {x : State}
    (h : intraPrivilege ev t old = .error (.raise e x)) : RaiseOk old e x := by
  simp only [intraPrivilege, Run.bind_eq_error, Prod.exists] at h
  rcases h with h | ⟨s, newSsp, b, h1, h⟩
  · exact .same (by rw [intraStack_raise h])
  obtain ⟨hoff, a, ha⟩ := intraStack_ok h1
  simp only at ha
  subst ha
  rcases h with h | ⟨s2, h2, h⟩
  · obtain ⟨hn, hw⟩ := intraFrame_raise h
    exact ⟨by simpa using hw, by rcases hn with hn | hn <;> simp [hn]⟩
  obtain ⟨m, r, d, rfl, hw⟩ := intraFrame_ok h2
  rcases h with h | ⟨s4, -, h⟩
  · obtain ⟨hn, hw2⟩ := shadowIntra_raise h
    refine ⟨fun hs => hw2 ?_, by rcases hn with hn | hn <;> simp [hn]⟩
    simpa [enterLevel, Target.enterCode] using hw (by simpa using hs)
  · cases h

end Sys2Proof.Machine
end

