-- ==== Sys2Proof/Laws/Delivery.lean ====
section
/-! SUPPORT. What taking an event can do: every delivery that ends well has one of five forms, each
with the whole state it answers; and what a delivery that stops leaves. Invariants of `step` are
proved from these, without unfolding the delivery again. -/

namespace Sys2Proof.Machine

variable {ev : Event} {s u : State}

/-- The five ways a delivery ends well. What a form does not name is as in `s`. -/
inductive DeliveryCase (ev : Event) (s u : State) : Prop where
  /-- Real-address mode (41_delivery_gates.md R131 to R133). -/
  | real (m : Memory) (d : Nat) (r : Word64) (sel off : Word16)
      (pe : s.cr0.pe = false) (wf : s.mem.wf = true → m.wf = true)
      (eq : u = (((((s.setMem m).setDraws d).setRip (off.setWidth 64)).setRsp r).setFlags
        (realFlags s.eflags)).setCs ⟨sel, { s.cs.hid with base := sel.setWidth 64 <<< 4 }⟩)
  /-- VME redirection (40_int_instructions.md R110). -/
  | redirect (m : Memory) (d : Nat) (r : Word64) (sel off : Word16)
      (pe : s.cr0.pe = true) (vm : s.vm = true) (intN : ev.kind = .intN) (vme : s.cr4.vme = true)
      (wf : s.mem.wf = true → m.wf = true)
      (eq : u = (((((s.setMem m).setDraws d).setRip (off.setWidth 64)).setRsp r).setFlags
        (redirectFlags s.iopl s.eflags)).setCs
          ⟨sel, { s.cs.hid with base := sel.setWidth 64 <<< 4 }⟩)
  /-- Inter-privilege (42_delivery_frames.md R185). -/
  | inter (t : Target) (m : Memory) (d : Nat) (r : Word64) (ss : SegReg) (q pl3 sc uc : Word64)
      (pe : s.cr0.pe = true) (vm : s.vm = false) (code : s.codeSegmentOk t.desc = true)
      (level : t.desc.dpl < s.cpl) (narrow : s.lma = false → low32 t.gate.offset = t.gate.offset)
      (off : t.offsetOk s = true) (dpl : ss.hid.dpl = t.desc.dpl)
      (wf : s.mem.wf = true → m.wf = true)
      (eq : u = (((((((((((s.setMem m).setDraws d).setRip t.gate.offset).setRsp r).setFlags
        (gateFlags t.trap s.eflags)).setCs ⟨withRpl t.gate.sel t.desc.dpl, t.desc⟩).setSs
          ss).setCpl t.desc.dpl).setSsp q).setPl3Ssp pl3).setSCet sc).setUCet uc)
  /-- From virtual-8086 mode (42_delivery_frames.md R192). -/
  | v86 (t : Target) (m : Memory) (d : Nat) (r : Word64) (ss : SegReg) (q sc uc : Word64) (n : Nat)
      (pe : s.cr0.pe = true) (vm : s.vm = true) (code : s.codeSegmentOk t.desc = true)
      (level : t.desc.dpl = 0#2) (narrow : s.lma = false → low32 t.gate.offset = t.gate.offset)
      (off : t.offsetOk s = true) (dpl : ss.hid.dpl = 0#2)
      (wf : s.mem.wf = true → m.wf = true)
      (eq : u = (((((((((((s.setMem m).setDraws d).setRip t.gate.offset).setRsp r).setFlags
        (gateFlags t.trap s.eflags)).setCs ⟨withRpl t.gate.sel 0#2, t.desc⟩).setSs ss).setData
          (nullSegment n) (nullSegment (n + 1)) (nullSegment (n + 2)) (nullSegment (n + 3))).setCpl
            0#2).setSsp q).setSCet sc).setUCet uc)
  /-- Intra-privilege (42_delivery_frames.md R193 to R199). -/
  | intra (t : Target) (m : Memory) (d : Nat) (r q sc uc : Word64)
      (pe : s.cr0.pe = true) (vm : s.vm = false) (code : s.codeSegmentOk t.desc = true)
      (level : t.desc.conforming = true ∨ t.desc.dpl = s.cpl)
      (narrow : s.lma = false → low32 t.gate.offset = t.gate.offset) (off : t.offsetOk s = true)
      (wf : s.mem.wf = true → m.wf = true)
      (eq : u = ((((((((s.setMem m).setDraws d).setRip t.gate.offset).setRsp r).setFlags
        (gateFlags t.trap s.eflags)).setCs ⟨withRpl t.gate.sel s.cpl, t.desc⟩).setSsp q).setSCet
          sc).setUCet uc)

theorem trapOrInterruptGate_ok {size : GateSize} {trap : Bool} {g : Gate} (pe : s.cr0.pe = true)
    (narrow : s.lma = false → low32 g.offset = g.offset)
    (h : trapOrInterruptGate ev size trap g s = .ok u) : DeliveryCase ev s u := by
  simp only [trapOrInterruptGate, Run.bind_eq_ok, require_eq_ok] at h
  obtain ⟨_, -, _, -, desc, -, _, code, _, -, h⟩ := h
  split at h
  · rename_i hc
    simp only [Bool.and_eq_true, decide_eq_true_eq] at hc
    split at h
    · rename_i hv
      obtain ⟨off, m, d, r, ss, q, pl3, sc, uc, dpl, wf, eq⟩ := interPrivilege_ok h
      exact .inter _ m d r ss q pl3 sc uc pe (by simpa using hv) code hc.2 narrow off dpl wf eq
    · rename_i hv
      simp only [Run.bind_eq_ok, require_eq_ok, decide_eq_true_eq] at h
      obtain ⟨_, h0, h⟩ := h
      obtain ⟨off, m, d, r, ss, q, sc, uc, n, dpl, wf, eq⟩ := fromVirtual8086_ok h
      exact .v86 _ m d r ss q sc uc n pe (by simpa using hv) code h0 narrow off dpl wf eq
  · simp only [Run.bind_eq_ok, require_eq_ok] at h
    obtain ⟨_, hv, _, hl, h⟩ := h
    obtain ⟨off, m, d, r, q, sc, uc, wf, eq⟩ := intraPrivilege_ok h
    exact .intra _ m d r q sc uc pe (by simpa using hv) code (by simpa using hl) narrow off wf eq

theorem trapOrInterruptGate_raise {size : GateSize} {trap : Bool} {g : Gate} {e : Exc} {x : State}
    (h : trapOrInterruptGate ev size trap g s = .error (.raise e x)) : RaiseOk s e x := by
  simp only [trapOrInterruptGate, Run.bind_eq_error, require_eq_error, raiseCode] at h
  rcases h with ⟨-, h⟩ | ⟨_, -, ⟨-, h⟩ | ⟨_, -, h | ⟨desc, -, ⟨-, h⟩ | ⟨_, -, ⟨-, h⟩ | ⟨_, -, h⟩⟩⟩⟩⟩
  · cases h; exact .same rfl
  · cases h; exact .same rfl
  · exact .same (by rw [(readDescriptor_raise h).2])
  · cases h; exact .same rfl
  · cases h; exact .same rfl
  · split at h
    · split at h
      · exact interPrivilege_raise h
      · simp only [Run.bind_eq_error, require_eq_error] at h
        rcases h with ⟨-, h⟩ | ⟨_, -, h⟩
        · cases h; exact .same rfl
        · exact fromVirtual8086_raise h
    · simp only [Run.bind_eq_error, require_eq_error] at h
      rcases h with ⟨-, h⟩ | ⟨_, -, ⟨-, h⟩ | ⟨_, -, h⟩⟩
      · cases h; exact .same rfl
      · cases h; exact .same rfl
      · exact intraPrivilege_raise h

/-- A task gate never ends well: `SWITCH-TASKS` is refused (41_delivery_gates.md R147). -/
theorem taskGate_not_ok {g : Gate} : taskGate ev g s ≠ .ok u := by
  intro h
  simp only [taskGate, Run.bind_eq_ok] at h
  obtain ⟨_, -, _, -, _, -, _, -, _, -, h⟩ := h
  cases h

theorem taskGate_raise {g : Gate} {e : Exc} {x : State}
    (h : taskGate ev g s = .error (.raise e x)) : RaiseOk s e x := by
  simp only [taskGate, Run.bind_eq_error, require_eq_error, raiseCode] at h
  rcases h with ⟨-, h⟩ | ⟨_, -, ⟨-, h⟩ | ⟨_, -, h | ⟨_, -, ⟨-, h⟩ | ⟨_, -, ⟨-, h⟩ | ⟨_, -, h⟩⟩⟩⟩⟩
  · cases h; exact .same rfl
  · cases h; exact .same rfl
  · exact .same (by rw [(readDescriptor_raise h).2])
  · cases h; exact .same rfl
  · cases h; exact .same rfl
  · cases h

theorem protectedMode_ok (pe : s.cr0.pe = true) (h : protectedMode ev s = .ok u) :
    DeliveryCase ev s u := by
  simp only [protectedMode, Run.bind_eq_ok, require_eq_ok] at h
  obtain ⟨_, -, g, hg, h⟩ := h
  split at h
  · cases h
  · simp only [Run.bind_eq_ok, require_eq_ok] at h
    obtain ⟨_, -, _, -, h⟩ := h
    split at h
    · exact absurd h taskGate_not_ok
    · exact trapOrInterruptGate_ok pe (fun _ => readGate32_offset hg) h

theorem protectedMode_raise {e : Exc} {x : State}
    (h : protectedMode ev s = .error (.raise e x)) : RaiseOk s e x := by
  simp only [protectedMode, Run.bind_eq_error, require_eq_error, raiseCode] at h
  rcases h with ⟨-, h⟩ | ⟨_, -, h | ⟨g, -, h⟩⟩
  · cases h; exact .same rfl
  · exact .same (by rw [(readGate32_raise h).2])
  · split at h
    · cases h; exact .same rfl
    · simp only [gateDplCheck, Run.bind_eq_error, require_eq_error, raiseCode] at h
      rcases h with ⟨-, h⟩ | ⟨_, -, ⟨-, h⟩ | ⟨_, -, h⟩⟩
      · cases h; exact .same rfl
      · cases h; exact .same rfl
      · split at h
        · exact taskGate_raise h
        · exact trapOrInterruptGate_raise h

theorem ia32eMode_ok (pe : s.cr0.pe = true) (lma : s.lma = true) (h : ia32eMode ev s = .ok u) :
    DeliveryCase ev s u := by
  simp only [ia32eMode, Run.bind_eq_ok, require_eq_ok] at h
  obtain ⟨_, -, _, -, g, -, h⟩ := h
  split at h
  · simp only [Run.bind_eq_ok, require_eq_ok] at h
    obtain ⟨_, -, _, -, h⟩ := h
    exact trapOrInterruptGate_ok pe (by simp [lma]) h
  · cases h

theorem ia32eMode_raise {e : Exc} {x : State}
    (h : ia32eMode ev s = .error (.raise e x)) : RaiseOk s e x := by
  simp only [ia32eMode, Run.bind_eq_error, require_eq_error, raiseCode, raisePlain] at h
  rcases h with ⟨-, h⟩ | ⟨_, -, ⟨-, h⟩ | ⟨_, -, h | ⟨g, -, h⟩⟩⟩
  · cases h; exact .same rfl
  · cases h; exact .same rfl
  · exact .same (by rw [(readGate64_raise h).2])
  · split at h
    · simp only [gateDplCheck, Run.bind_eq_error, require_eq_error, raiseCode] at h
      rcases h with ⟨-, h⟩ | ⟨_, -, ⟨-, h⟩ | ⟨_, -, h⟩⟩
      · cases h; exact .same rfl
      · cases h; exact .same rfl
      · exact trapOrInterruptGate_raise h
    · cases h; exact .same rfl

theorem realAddressMode_ok (pe : s.cr0.pe = false) (h : realAddressMode ev s = .ok u) :
    DeliveryCase ev s u := by
  simp only [realAddressMode, Run.bind_eq_ok, Prod.exists] at h
  obtain ⟨_, -, _, -, s1, h1, sel, off, -, h⟩ := h
  obtain ⟨m, r, d, rfl, hw⟩ := pushAll_ok h1
  cases h
  exact .real m d r sel off pe hw (by simp [enterRealCode])

theorem realAddressMode_raise {e : Exc} {x : State}
    (h : realAddressMode ev s = .error (.raise e x)) : RaiseOk s e x := by
  simp only [realAddressMode, Run.bind_eq_error, require_eq_error, raisePlain, Prod.exists] at h
  rcases h with ⟨-, h⟩ | ⟨_, -, h | ⟨_, -, h | ⟨s1, h1, h | ⟨sel, off, -, h⟩⟩⟩⟩
  · cases h; exact .same rfl
  · rcases stackRoom_error h with ⟨-, h⟩ | ⟨-, -, h⟩ <;> cases h
    exact .same rfl
  · exact pushAll_raiseOk h
  · obtain ⟨m, r, d, rfl, hw⟩ := pushAll_ok h1
    obtain ⟨hn, rfl⟩ := readFarPointer_raise h
    exact .pf hn (by simpa using hw)
  · cases h

theorem redirectToProgram_ok (pe : s.cr0.pe = true) (vm : s.vm = true) (ik : ev.kind = .intN)
    (vme : s.cr4.vme = true) (h : redirectToProgram ev s = .ok u) : DeliveryCase ev s u := by
  simp only [redirectToProgram, Run.bind_eq_ok] at h
  obtain ⟨_, -, s1, h1, q, -, h⟩ := h
  obtain ⟨m, r, d, rfl, hw⟩ := pushAll_ok h1
  cases h
  exact .redirect m d r (q.extractLsb' 16 16) (q.setWidth 16) pe vm ik vme hw
    (by simp [enterRealCode])

theorem redirectToProgram_raise {e : Exc} {x : State}
    (h : redirectToProgram ev s = .error (.raise e x)) : RaiseOk s e x := by
  simp only [redirectToProgram, Run.bind_eq_error, raiseCode] at h
  rcases h with h | ⟨_, -, h | ⟨s1, h1, h | ⟨q, -, h⟩⟩⟩
  · rcases stackRoom_error h with ⟨-, h⟩ | ⟨-, -, h⟩ <;> cases h
    exact .same rfl
  · exact pushAll_raiseOk h
  · obtain ⟨m, r, d, rfl, hw⟩ := pushAll_ok h1
    obtain ⟨hn, rfl⟩ := load_raise h
    exact .pf hn hw
  · cases h

theorem redirectionBit_raise {vector : Nat} {e : Exc} {x : State}
    (h : redirectionBit vector s = .error (.raise e x)) : x = s := by
  simp only [redirectionBit, Run.bind_eq_error] at h
  rcases h with h | ⟨_ | a, -, h⟩
  · unfold redirectionMapAddr at h
    split at h <;> try cases h
    simp only [Run.bind_eq_error] at h
    rcases h with h | ⟨_, -, h⟩
    · exact (load_raise h).2
    · cases h
  · cases h
  · simp only [Run.bind_eq_error] at h
    rcases h with h | ⟨_, -, h⟩
    · exact (load_raise h).2
    · cases h

/-- Every delivery that ends well has one of the five forms. -/
theorem deliver_ok (h : deliver ev s = .ok u) : DeliveryCase ev s u := by
  unfold deliver at h
  split at h
  · exact realAddressMode_ok (by simp_all) h
  rename_i hpe
  have pe : s.cr0.pe = true := by simpa using hpe
  split at h
  · cases h
  split at h
  · rename_i hv
    simp only [Bool.and_eq_true, decide_eq_true_eq] at hv
    simp only [Run.bind_eq_ok] at h
    obtain ⟨b, -, h⟩ := h
    split at h
    · exact redirectToProgram_ok pe hv.1.1 hv.1.2 hv.2 h
    · split at h
      · exact protectedMode_ok pe h
      · cases h
  split at h
  · exact protectedMode_ok pe h
  · rename_i hl
    exact ia32eMode_ok pe (by simpa using hl) h

/-- What a delivery that raises a nested exception leaves of memory. -/
theorem deliver_raise {e : Exc} {x : State} (h : deliver ev s = .error (.raise e x)) :
    RaiseOk s e x := by
  unfold deliver at h
  split at h
  · exact realAddressMode_raise h
  split at h
  · cases h; exact .same rfl
  split at h
  · simp only [Run.bind_eq_error] at h
    rcases h with h | ⟨b, -, h⟩
    · exact .same (by rw [redirectionBit_raise h])
    · split at h
      · exact redirectToProgram_raise h
      · split at h
        · exact protectedMode_raise h
        · cases h; exact .same rfl
  split at h
  · exact protectedMode_raise h
  · exact ia32eMode_raise h

/-- The state an abandoned delivery leaves: memory and the count of draws only (60_exceptions.md
R241). -/
theorem abandon_form (before dirty : State)
    (hw : before.mem.wf = true → dirty.mem.wf = true) :
    ∃ m d, abandon before dirty = (before.setMem m).setDraws d ∧
      (before.mem.wf = true → m.wf = true) :=
  ⟨_, _, rfl, fun h => Memory.blend_wf h (hw h)⟩

/-- An abandoned delivery that had written nothing leaves memory as it was. -/
theorem abandon_clean {before dirty : State} (h : dirty.mem = before.mem) :
    abandon before dirty = before.setDraws (dirty.draws + 1) := by
  rw [abandon, h, Memory.blend_self]
  rfl

/-- An exception that is taken is a delivery from the state with the faulting address recorded. -/
theorem raiseException_next {x : Exc} (h : raiseException x s = .next u) :
    ∃ a, DeliveryCase x.event (s.setFaultAddr a) u := by
  unfold raiseException at h
  split at h <;> cases h
  have hd := deliver_ok ‹_›
  unfold recordFaultAddr at hd
  split at hd
  · exact ⟨s.faultAddr, hd⟩
  · exact ⟨_, hd⟩

/-- What taking an event can answer next: its delivery, or the delivery of the exception its
delivery raised, from the state before with memory and draws changed. -/
theorem takeEvent_next {before entry : State} (hm : entry.mem = before.mem)
    (h : takeEvent ev before entry = .next u) :
    DeliveryCase ev entry u ∨
      ∃ x m d a, (before.mem.wf = true → m.wf = true) ∧
        DeliveryCase (Exc.event x) (((before.setMem m).setDraws d).setFaultAddr a) u := by
  unfold takeEvent at h
  split at h
  · cases h; exact .inl (deliver_ok ‹_›)
  · rename_i x dirty hd
    obtain ⟨a, ha⟩ := raiseException_next h
    obtain ⟨m, d, hm, hw⟩ := abandon_form before dirty (by rw [← hm]; exact (deliver_raise hd).1)
    rw [hm] at ha
    exact .inr ⟨x, m, d, a, hw, ha⟩
  · cases h
  · cases h

end Sys2Proof.Machine
end

