-- ==== Sys2Proof/Laws/Flags.lean ====
section
/-! SUPPORT. The bits of a flag image after one bit is cleared. -/

namespace Sys2Proof.Machine

/-- Clearing one bit leaves every other bit. -/
theorem getLsbD_clearBit {i : Nat} (hi : i < 32) (f : Word32) (k : Nat) :
    (clearBit f i).getLsbD k = (f.getLsbD k && decide (k ≠ i)) := by
  simp only [clearBit, BitVec.getLsbD_and, BitVec.getLsbD_not, BitVec.getLsbD_shiftLeft,
    BitVec.getLsbD_one]
  by_cases hk : k < 32
  · rcases Nat.lt_trichotomy k i with h | h | h
    · simp [hk, h, Nat.ne_of_lt h]
    · subst h; simp [hk]
    · have h1 : k - i ≠ 0 := by omega
      simp [hk, h1, Nat.ne_of_gt h]
  · simp [BitVec.getLsbD_of_ge f k (by omega)]

/-- A delivery through a gate leaves virtual-8086 mode. -/
theorem gateFlags_vm (trap : Bool) (f : Word32) : (gateFlags trap f).getLsbD vmBit = false := by
  cases trap <;>
    simp only [gateFlags, tfBit, vmBit, rfBit, ntBit, ifBit, Bool.false_eq_true, if_false, if_true] <;>
    simp (disch := decide) only [getLsbD_clearBit] <;> simp

/-- Real-address-mode delivery leaves `VM`. -/
theorem realFlags_vm (f : Word32) : (realFlags f).getLsbD vmBit = f.getLsbD vmBit := by
  simp only [realFlags, ifBit, tfBit, acBit, vmBit]
  simp (disch := decide) only [getLsbD_clearBit]
  simp

/-- A VME redirection leaves `VM`. -/
theorem redirectFlags_vm (p : BitVec 2) (f : Word32) :
    (redirectFlags p f).getLsbD vmBit = f.getLsbD vmBit := by
  simp only [redirectFlags, ifBit, vifBit, tfBit, vmBit]
  split <;> simp (disch := decide) only [getLsbD_clearBit] <;> simp

end Sys2Proof.Machine
end

