-- ==== Sys2Proof/Laws/Push.lean ====
section
/-! SUPPORT. Pushes in plain memory: where each slot lies, what it holds, what stays as it was. -/

namespace Sys2Proof.Machine

variable {s : State} {c : PushCtx}

theorem toNat_putLow16 (v : Word64) (x : Word16) :
    (putLow16 v x).toNat = v.toNat / 65536 * 65536 + x.toNat := by
  have hx := x.isLt
  have hv := v.isLt
  simp only [putLow16, BitVec.toNat_append, BitVec.extractLsb'_toNat, Nat.shiftRight_eq_div_pow]
  rw [← Nat.shiftLeft_add_eq_or_of_lt hx, Nat.shiftLeft_eq]
  omega

theorem toNat_putLow32 (v : Word64) (x : Word32) :
    (putLow32 v x).toNat = v.toNat / 4294967296 * 4294967296 + x.toNat := by
  have hx := x.isLt
  have hv := v.isLt
  simp only [putLow32, BitVec.toNat_append, BitVec.extractLsb'_toNat, Nat.shiftRight_eq_div_pow]
  rw [← Nat.shiftLeft_add_eq_or_of_lt hx, Nat.shiftLeft_eq]
  omega

theorem toNat_low16 (v : Word64) : (low16 v).toNat = v.toNat % 65536 := by
  simp only [low16, BitVec.toNat_setWidth]
  omega

theorem toNat_low32 (v : Word64) : (low32 v).toNat = v.toNat % 4294967296 := by
  simp only [low32, BitVec.toNat_setWidth]
  omega

/-- Two writes of a part of the pointer, the second relative to the first. -/
theorem PtrWidth.put_put (p : PtrWidth) (v a b : Word64) :
    p.put (p.put v (v - a)) (p.put v (v - a) - b) = p.put v (v - (a + b)) := by
  have hv := v.isLt
  have ha := a.isLt
  have hb := b.isLt
  apply BitVec.eq_of_toNat_eq
  cases p <;>
    simp only [PtrWidth.put, toNat_putLow16, toNat_putLow32, BitVec.toNat_setWidth,
      BitVec.toNat_sub, BitVec.toNat_add] <;> omega

/-- The top of a stack after a write of the pointer's part. -/
theorem PtrWidth.trunc_put (p : PtrWidth) (v x : Word64) : p.trunc (p.put v x) = p.trunc x := by
  apply BitVec.eq_of_toNat_eq
  cases p <;>
    simp only [PtrWidth.put, PtrWidth.trunc, toNat_low16, toNat_low32, toNat_putLow16,
      toNat_putLow32, BitVec.toNat_setWidth] <;> omega

@[simp] theorem State.afterPushes_ptrWidth (s : State) (w k n : Nat) :
    (s.afterPushes w k).ptrWidth n = s.ptrWidth n := rfl

@[simp] theorem State.afterPushes_byteAddr (s : State) (w k : Nat) (la : Word64) (i : Nat) :
    (s.afterPushes w k).byteAddr la i = s.byteAddr la i := rfl

/-- Push by push: `k` pushes after one. -/
theorem State.afterPushes_succ (s : State) (w k : Nat) :
    (s.afterPushes w 1).afterPushes w k = s.afterPushes w (k + 1) := by
  have h := (s.ptrWidth w).put_put s.rsp (BitVec.ofNat 64 w) (BitVec.ofNat 64 (w * k))
  have e : BitVec.ofNat 64 (w * (k + 1)) = BitVec.ofNat 64 w + BitVec.ofNat 64 (w * k) := by
    rw [Nat.mul_succ, Nat.add_comm, BitVec.ofNat_add]
  simp only [State.afterPushes, State.setRsp_rsp, State.setRsp_setRsp, Nat.mul_one] at h ⊢
  rw [e, ← h]
  rfl

theorem State.slotAddr_succ (s : State) (w k : Nat) :
    (s.afterPushes w 1).slotAddr w k = s.slotAddr w (k + 1) := by
  rw [State.slotAddr, State.afterPushes_succ]
  rfl

/-- Where byte `j` of slot `k` lies: below the pointer the pushes began with. -/
theorem State.slotByte (s : State) {w n k j : Nat} (hl : s.lma = decide (w = 8)) (hw : w ≤ 8)
    (hf : s.fits w n) (hk : k < n) (hn : n ≤ 16) (hj : j < w) :
    (s.byteAddr (s.slotAddr w k) j).toNat =
      if w = 8 then (s.rsp.toNat + (2 ^ 64 - w * (k + 1)) + j) % 2 ^ 64
      else (s.ss.hid.base.toNat + (((s.ptrWidth w).trunc s.rsp).toNat - w * (k + 1)) + j) % 2 ^ 32 := by
  have hb := s.ss.hid.base.isLt
  have hr := s.rsp.isLt
  have hm : w * (k + 1) ≤ w * n := Nat.mul_le_mul_left w hk
  have hm' : w * n ≤ 8 * 16 := Nat.mul_le_mul hw hn
  have htr := PtrWidth.trunc_put (s.ptrWidth w) s.rsp (s.rsp - BitVec.ofNat 64 (w * (k + 1)))
  by_cases h8 : w = 8
  · subst h8
    have hp : s.ptrWidth 8 = .rsp := rfl
    simp only [State.byteAddr, hl, State.slotAddr, State.afterPushes, hp, State.stackTop,
      PtrWidth.put, decide_true, if_true, State.setRsp_rsp]
    generalize 8 * (k + 1) = x at *
    simp only [BitVec.toNat_add, BitVec.toNat_sub, BitVec.toNat_ofNat]
    omega
  · rw [if_neg h8]
    have hf' : w * n ≤ ((s.ptrWidth w).trunc s.rsp).toNat := hf.resolve_left h8
    have hlf : s.lma = false := by simpa [h8] using hl
    simp only [State.byteAddr, hlf, State.slotAddr, State.afterPushes, Bool.false_eq_true, if_false]
    generalize w * (k + 1) = x at *
    have hp : s.ptrWidth w = .sp ∨ s.ptrWidth w = .esp := by
      unfold State.ptrWidth
      rw [if_neg h8]
      split
      · exact .inl rfl
      · unfold Hidden.ptrWidth
        split
        · exact .inr rfl
        · exact .inl rfl
    rcases hp with hp | hp <;> rw [hp] at hf' htr ⊢ <;>
      simp only [State.stackTop, PtrWidth.put, PtrWidth.trunc] at * <;>
      simp only [State.setRsp_ss, State.setRsp_rsp, htr] <;>
      simp only [toNat_low32, toNat_low16, BitVec.toNat_add, BitVec.toNat_sub,
        BitVec.toNat_ofNat] at * <;>
      omega

/-- The bytes of a frame lie at different addresses. -/
theorem State.slotByte_inj (s : State) {w n k k' j j' : Nat} (hl : s.lma = decide (w = 8))
    (hw : w ≤ 8) (hf : s.fits w n) (hn : n ≤ 16) (hk : k < n) (hj : j < w) (hk' : k' < n)
    (hj' : j' < w)
    (h : (s.byteAddr (s.slotAddr w k) j).toNat = (s.byteAddr (s.slotAddr w k') j').toNat) :
    k = k' ∧ j = j' := by
  rw [s.slotByte hl hw hf hk hn hj, s.slotByte hl hw hf hk' hn hj'] at h
  have hr := s.rsp.isLt
  have hb := s.ss.hid.base.isLt
  have hm : w * (k + 1) ≤ w * n := Nat.mul_le_mul_left w hk
  have hm1 : w * (k' + 1) ≤ w * n := Nat.mul_le_mul_left w hk'
  have hm' : w * n ≤ 8 * 16 := Nat.mul_le_mul hw hn
  have key : w * (k + 1) + j' = w * (k' + 1) + j := by
    split at h
    · omega
    · rename_i h8
      have hf' := hf.resolve_left h8
      have ht : ((s.ptrWidth w).trunc s.rsp).toNat < 2 ^ 32 := by
        unfold State.ptrWidth
        rw [if_neg h8]
        split
        · simp only [PtrWidth.trunc, toNat_low16]; omega
        · unfold Hidden.ptrWidth
          split <;> simp only [PtrWidth.trunc, toNat_low16, toNat_low32] <;> omega
      omega
  have hkk : k = k' := by
    rcases Nat.lt_trichotomy k k' with hlt | heq | hgt
    · have : w * (k + 2) ≤ w * (k' + 1) := Nat.mul_le_mul_left w (by omega)
      have e : w * (k + 2) = w * (k + 1) + w := by ring
      omega
    · exact heq
    · have : w * (k' + 2) ≤ w * (k + 1) := Nat.mul_le_mul_left w (by omega)
      have e : w * (k' + 2) = w * (k' + 1) + w := by ring
      omega
  subst hkk
  exact ⟨rfl, by omega⟩

theorem PlainMemory.of_setMem {m : Memory} (h : PlainMemory s) (hm : m.wf = true) (d : Nat)
    (r : Word64) : PlainMemory (((s.setMem m).setDraws d).setRsp r) :=
  ⟨h.paging, h.ram, hm⟩

/-- The state's plain bytes are all admitted. -/
theorem PlainMemory.admitted (h : PlainMemory s) (la : Word64) (j : Nat) :
    s.regionAt (s.byteAddr la j).toNat = some .ram :=
  h.ram _ (BitVec.isLt _)

/-- A load in plain memory answers the bytes' value. -/
theorem PlainMemory.load (h : PlainMemory s) (u : ReadUse) (k : Access) (w : Nat) (la : Word64) :
    load s u k w la = .ok (s.value w la) :=
  load_plain h.paging fun j _ => h.admitted la j

/-- The bytes of one access lie at different addresses. -/
theorem State.byteAddr_inj (s : State) (la : Word64) {j j' : Nat} (hj : j < 8) (hj' : j' < 8)
    (h : (s.byteAddr la j).toNat = (s.byteAddr la j').toNat) : j = j' := by
  have hl := la.isLt
  unfold State.byteAddr at h
  cases hm : s.lma <;> simp only [hm, Bool.false_eq_true, if_false, if_true] at h <;>
    simp only [toNat_low32, BitVec.toNat_add, BitVec.toNat_ofNat] at h <;> omega

/-- A store in plain memory ends well, and its bytes alone change. -/
theorem PlainMemory.store (h : PlainMemory s) (k : Access) {w : Nat} (hw : w ≤ 8)
    (la v : Word64) :
    ∃ m, m.wf = true ∧ store s k w la v = .ok (s.setMem m) ∧ s.holds m w la v ∧
      ∀ a, (∀ j, j < w → (s.byteAddr la j).toNat ≠ a) → m.read a = s.mem.read a := by
  have hr := read_putBytes (m := s.mem) (v := v) (i := 0) (n := w)
    (addr := fun j => (s.byteAddr la j).toNat) h.form (fun j _ _ => BitVec.isLt _)
    (fun j j' _ h1 _ h2 he => s.byteAddr_inj la (by omega) (by omega) he)
  exact ⟨_, putBytes_wf h.form fun j _ _ => BitVec.isLt _,
    store_plain h.paging fun j _ => h.admitted la j,
    fun j hj => (hr _).1 j (by omega) (by omega) rfl,
    fun a ha => (hr a).2 fun j _ hj => ha j (by omega)⟩

theorem byteOf_or (a b : Word64) (j : Nat) : byteOf (a ||| b) j = byteOf a j ||| byteOf b j := by
  simp [byteOf, BitVec.extractLsb'_or]

/-- The two low bytes of a selector's slot are the selector. -/
theorem byteOf_selector (p : Word64) (sel : Word16) {j : Nat} (hj : j < 2) :
    byteOf ((p <<< 16) ||| sel.setWidth 64) j = byteOf (sel.setWidth 64) j := by
  apply BitVec.eq_of_getLsbD_eq
  intro i hi
  simp only [byteOf, BitVec.getLsbD_extractLsb', BitVec.getLsbD_or, BitVec.getLsbD_shiftLeft]
  have : decide (8 * j + i < 16) = true := by simp; omega
  simp [this]

/-- None of `n` pushes raises `#AC`: the gate's DPL is not 3, alignment checking is not enabled, or every
slot lies at a multiple of its width. -/
def PushCtx.Aligned (c : PushCtx) (n : Nat) (s : State) : Prop :=
  c.gateDpl3 = true → s.alignmentChecked = true →
    ∀ k, k < n → (s.slotAddr c.width k).toNat % c.width = 0

theorem PushCtx.Aligned.of_dpl {n : Nat} (h : c.gateDpl3 = false) : c.Aligned n s :=
  fun h' => absurd h' (by simp [h])

theorem PushCtx.Aligned.mono {n m : Nat} (h : c.Aligned n s) (hm : m ≤ n) : c.Aligned m s :=
  fun h1 h2 k hk => h h1 h2 k (by omega)

/-- The slots after the first. -/
theorem PushCtx.Aligned.tail {n : Nat} (h : c.Aligned (n + 1) s) :
    c.Aligned n (s.afterPushes c.width 1) := fun h1 h2 k hk => by
  rw [State.slotAddr_succ]
  exact h h1 h2 (k + 1) (by omega)

theorem Target.aligned.pushes {t : Target} {n : Nat} (h : t.aligned n s) (b : Bool) (ev : Event) :
    (t.pushCtx b ev).Aligned n s := by
  intro h1 h2
  simp only [State.alignmentChecked, State.ac, Bool.and_eq_true, decide_eq_true_eq] at h2
  exact h (of_decide_eq_true h1) h2.1.1 h2.1.2 h2.2

/-- One push in plain memory, with no alignment fault. -/
theorem push_plain {v : Word64} (hp : PlainMemory s) (ha : c.Aligned 1 s) :
    push c v s = .ok ((s.afterPushes c.width 1).setMem
      (putBytes (fun j => (s.byteAddr (s.slotAddr c.width 0) j).toNat) v 0 c.width s.mem)) := by
  have hlow : s.lowered c.width = s.afterPushes c.width 1 := by
    simp [State.lowered, State.afterPushes]
  have hp' : PlainMemory (s.afterPushes c.width 1) := ⟨hp.paging, hp.ram, hp.form⟩
  have hc : (!(c.gateDpl3 && s.alignmentChecked &&
      decide (((s.afterPushes c.width 1).stackTop (s.ptrWidth c.width)).toNat % c.width ≠ 0))) =
        true := by
    cases h1 : c.gateDpl3
    · simp
    cases h2 : s.alignmentChecked
    · simp
    simpa [State.slotAddr] using ha h1 h2 0 (by omega)
  simp only [push, hlow, State.afterPushes_ptrWidth, hc, require_true, Run.ok_bind]
  exact store_plain hp'.paging fun j _ => hp'.admitted _ j

/-- Pushes in plain memory, with no alignment fault and no wrap, end well: the slots lie below the
pointer in order and nothing else has changed. -/
theorem pushAll_plain {xs : List Slot} (hp : PlainMemory s) (hl : s.lma = decide (c.width = 8))
    (hw : c.width = 2 ∨ c.width = 4 ∨ c.width = 8)
    (ha : c.Aligned xs.length s) (hn : xs.length ≤ 16)
    (hf : s.fits c.width xs.length) :
    ∃ m d, m.wf = true ∧
      pushAll c xs s =
        .ok (((s.setMem m).setDraws d).setRsp (s.afterPushes c.width xs.length).rsp) ∧
      Frame s c.width xs (((s.setMem m).setDraws d).setRsp (s.afterPushes c.width xs.length).rsp) := by
  have hw8 : c.width ≤ 8 := by omega
  induction xs generalizing s with
  | nil =>
    have hz : (s.afterPushes c.width 0).rsp = s.rsp := by
      have := (s.ptrWidth c.width).put_put s.rsp 0#64 0#64
      apply BitVec.eq_of_toNat_eq
      cases hq : s.ptrWidth c.width <;>
        simp [State.afterPushes, hq, PtrWidth.put, toNat_putLow16, toNat_putLow32] <;>
        omega
    refine ⟨s.mem, s.draws, hp.form, ?_, rfl, ?_, fun _ _ => rfl⟩
    · rw [show ([] : List Slot).length = 0 from rfl, hz]
      rfl
    · intro k x h
      simp at h
  | cons x xs ih =>
    have hpush := push_plain (s := s.setDraws (s.draws + x.pads c.width))
      (v := x.value c.width s.draws) ⟨hp.paging, hp.ram, hp.form⟩ (ha.mono (by simp))
    generalize hmm : putBytes (fun j => (State.byteAddr _ (State.slotAddr _ c.width 0) j).toNat)
      (x.value c.width s.draws) 0 c.width (s.setDraws (s.draws + x.pads c.width)).mem = m1 at hpush
    generalize hs1 : ((s.setDraws (s.draws + x.pads c.width)).afterPushes c.width 1).setMem m1 = s1
      at hpush
    have hform : s1 = ((s.afterPushes c.width 1).setMem m1).setDraws (s.draws + x.pads c.width) := by
      rw [← hs1]; rfl
    have hm1 : m1.wf = true := by
      rw [← hmm]
      exact putBytes_wf hp.form fun j _ _ => BitVec.isLt _
    have hbytes : ∀ a, (∀ j, 0 ≤ j → j < 0 + c.width →
          (s.byteAddr (s.slotAddr c.width 0) j).toNat = a →
            m1.read a = byteOf (x.value c.width s.draws) j) ∧
        ((∀ j, 0 ≤ j → j < 0 + c.width → (s.byteAddr (s.slotAddr c.width 0) j).toNat ≠ a) →
          m1.read a = s.mem.read a) := by
      rw [← hmm]
      exact read_putBytes (m := s.mem) (v := x.value c.width s.draws) (i := 0) (n := c.width)
        (addr := fun j => (s.byteAddr (s.slotAddr c.width 0) j).toNat) hp.form
        (fun j _ _ => BitVec.isLt _)
        (fun j j' _ h1 _ h2 h => (s.slotByte_inj hl hw8 hf hn (k := 0) (k' := 0) (by simp)
          (by omega) (by simp) (by omega) h).2)
    have hlen : xs.length ≤ 16 := by simp at hn; omega
    have hslot : ∀ k, s1.slotAddr c.width k = s.slotAddr c.width (k + 1) := by
      intro k
      rw [← State.slotAddr_succ, hform]
      rfl
    have hbyte : ∀ la j, s1.byteAddr la j = s.byteAddr la j := by
      intro la j
      rw [hform]; rfl
    have hf1 : s1.fits c.width xs.length := by
      rcases hf with hf | hf
      · exact .inl hf
      · right
        have htr := PtrWidth.trunc_put (s.ptrWidth c.width) s.rsp
          (s.rsp - BitVec.ofNat 64 (c.width * 1))
        have e : c.width * (xs.length + 1) = c.width * xs.length + c.width := by ring
        have hq : s1.ptrWidth c.width = s.ptrWidth c.width := by rw [hform]; rfl
        have hr : s1.rsp = (s.ptrWidth c.width).put s.rsp
            (s.rsp - BitVec.ofNat 64 (c.width * 1)) := by rw [hform]; rfl
        rw [hq, hr, htr]
        simp only [List.length_cons] at hf
        have hv := s.rsp.isLt
        cases hp2 : s.ptrWidth c.width <;> rw [hp2] at hf <;>
          simp only [PtrWidth.trunc, toNat_low16, toNat_low32, BitVec.toNat_sub,
            BitVec.toNat_ofNat, Nat.mul_one] at * <;> omega
    obtain ⟨m, d, hm, hrun, hfr⟩ := ih (s := s1)
      (by rw [hform]; exact ⟨hp.paging, hp.ram, hm1⟩) (by rw [hform]; exact hl)
      (by rw [hform]; exact ha.tail) hlen hf1
    have hptr : (s1.afterPushes c.width xs.length).rsp =
        (s.afterPushes c.width (xs.length + 1)).rsp := by
      rw [← State.afterPushes_succ, hform]
      rfl
    have hfin : ((s1.setMem m).setDraws d).setRsp (s1.afterPushes c.width xs.length).rsp =
        ((s.setMem m).setDraws d).setRsp (s.afterPushes c.width (x :: xs).length).rsp := by
      rw [hptr, hform]
      rfl
    rw [hfin] at hrun hfr
    refine ⟨m, d, hm, ?_, rfl, ?_, ?_⟩
    · rw [pushAll, pushSlot, hpush]
      exact hrun
    · intro k y hk
      cases k with
      | zero =>
        simp only [List.getElem?_cons_zero, Option.some.injEq] at hk
        subst hk
        have hread : ∀ j, j < c.width →
            m.read (s.byteAddr (s.slotAddr c.width 0) j).toNat =
              byteOf (x.value c.width s.draws) j := by
          intro j hj
          have h1 := hfr.others (s.byteAddr (s.slotAddr c.width 0) j).toNat ?_
          · have h2 : m.read _ = s1.mem.read _ := h1
            rw [h2, hform]
            exact (hbytes _).1 j (by omega) (by omega) rfl
          · intro k' j' hk' hj' he
            rw [hslot, hbyte] at he
            have := (s.slotByte_inj hl hw8 hf hn (k := k' + 1) (k' := 0) (by simp; omega) hj'
              (by simp) hj he).1
            omega
        cases x with
        | word v => exact hread
        | selector sel =>
          intro j hj
          rw [State.setRsp_mem, State.setDraws_mem, State.setMem_mem, hread j (by omega)]
          exact byteOf_selector _ _ hj
      | succ k =>
        have h1 := hfr.slots k y (by simpa using hk)
        rw [hslot] at h1
        cases y with
        | word v =>
          intro j hj
          have := h1 j hj
          rwa [hbyte] at this
        | selector sel =>
          intro j hj
          have := h1 j hj
          rwa [hbyte] at this
    · intro a hne
      have h1 := hfr.others a fun k j hk hj => by
        rw [hslot, hbyte]
        exact hne (k + 1) j (by simp; omega) hj
      rw [h1, hform]
      exact (hbytes a).2 fun j _ hj => hne 0 j (by simp) (by omega)

end Sys2Proof.Machine
end

