-- ==== Sys2Proof/Laws/Gate.lean ====
section
/-! SUPPORT. From an event to its frame procedure, when the gate's checks pass; and what pushes do
when the code segment is loaded between them. -/

namespace Sys2Proof.Machine

variable {ev : Event} {t : Target} {s : State}

/-- A NULL selector, in numbers. -/
theorem selNull_iff (sel : Word16) : selNull sel = true ↔ sel.toNat < 4 := by
  have h : (sel.extractLsb' 2 14).toNat = sel.toNat / 4 := by
    have := sel.isLt
    rw [BitVec.extractLsb'_toNat, Nat.shiftRight_eq_div_pow]
    omega
  rw [selNull, decide_eq_true_iff, ← BitVec.toNat_inj, h]
  simp

theorem selIndex_eq (sel : Word16) : selIndex sel = sel.toNat / 8 := by
  have := sel.isLt
  rw [selIndex, BitVec.extractLsb'_toNat, Nat.shiftRight_eq_div_pow]
  omega

/-- The limit test of a selector, in numbers. -/
theorem State.selInLimits_iff (s : State) (sel : Word16) :
    s.selInLimits sel = true ↔ 8 * (sel.toNat / 8) + 7 ≤ s.limitFor sel := by
  rw [State.selInLimits, decide_eq_true_iff, selIndex_eq]
  rfl

theorem State.descriptorAddr_eq (s : State) (sel : Word16) : s.descriptorAddr sel = s.placeFor sel := by
  rw [State.descriptorAddr, selIndex_eq]
  rfl

theorem State.canonicalBytes_iff (s : State) (a : Word64) (n : Nat) :
    s.canonicalBytes a n = true ↔ ∀ j, j < n → s.canonical (a + BitVec.ofNat 64 j) = true := by
  simp [State.canonicalBytes]

/-- The limit test of the IDT, in numbers. -/
theorem State.idtInLimits_iff (pe : s.cr0.pe = true) (v : Nat) :
    s.idtInLimits v = true ↔
      if s.lma then 16 * v + 15 ≤ s.idtr.limit.toNat else 8 * v + 7 ≤ s.idtr.limit.toNat := by
  cases hl : s.lma <;> simp [State.idtInLimits, State.idtEntrySize, pe, hl]

theorem State.idtEntryAddr_eq (pe : s.cr0.pe = true) (v : Nat) :
    s.idtEntryAddr v = s.idtr.base + BitVec.ofNat 64 ((if s.lma then 16 else 8) * v) := by
  cases hl : s.lma <;> simp [State.idtEntryAddr, State.idtEntrySize, pe, hl]

/-- The tests that open an entry of the IDT pass. -/
theorem GateRead.tests {g : Gate} (h : GateRead ev g s) (pe : s.cr0.pe = true) :
    s.idtInLimits ev.vector = true ∧
      (s.lma = true → s.canonicalBytes (s.idtEntryAddr ev.vector) 16 = true) :=
  ⟨(State.idtInLimits_iff pe _).2 h.inIdt, fun hl => (State.canonicalBytes_iff ..).2 fun j hj => by
    rw [State.idtEntryAddr_eq pe, hl]
    exact h.canonical hl j hj⟩

/-- The tests of a gate's selector pass. -/
theorem Opens.tests (h : Opens ev t s) :
    selNull t.gate.sel = false ∧ (s.selInLimits t.gate.sel &&
      (!s.lma || s.canonicalBytes (s.descriptorAddr t.gate.sel) 8)) = true := by
  have h1 := h.notNull
  refine ⟨?_, ?_⟩
  · rw [Bool.eq_false_iff, Ne, selNull_iff]
    omega
  · rw [Bool.and_eq_true, State.selInLimits_iff]
    refine ⟨h.inTable, ?_⟩
    cases hl : s.lma
    · rfl
    · rw [State.descriptorAddr_eq]
      exact (State.canonicalBytes_iff ..).2 (h.descCanonical hl)

/-- An event that reaches the IDT goes by the procedure of its `LMA`. -/
theorem ReachesIdt.deliver (h : ReachesIdt ev s) :
    deliver ev s = if s.lma then ia32eMode ev s else protectedMode ev s := by
  obtain ⟨pe, hd, -⟩ := h
  unfold Machine.deliver
  cases hvm : s.vm
  · simp [pe]; cases s.lma <;> simp
  · by_cases hk : ev.kind = .intN
    · obtain ⟨h1, h2⟩ := hd hvm hk
      cases h4 : s.cr4.vme
      · simp [pe, h1, hk]; cases s.lma <;> simp
      · obtain ⟨hl, hb⟩ := h2 h4
        simp [pe, h1, hk, hl, hb]
    · simp [pe, hk]; cases s.lma <;> simp

/-- The `#UD` test inside IA-32e-MODE passes. -/
theorem ReachesIdt.not_into (h : ReachesIdt ev s) (hl : s.lma = true) :
    (!(decide (ev.kind = .into) && s.cs.hid.l)) = true := by
  by_cases hk : ev.kind = .into
  · cases h3 : s.cs.hid.l
    · simp
    · exact absurd hk (h.into64 (by simp [State.mode64, hl, h3]))
  · simp [hk]

/-- The gate-DPL check passes for what is no software interrupt, and with a DPL of at least CPL. -/
theorem gateDplCheck_ok {g : Gate} (h : ev.kind.software = true → s.cpl ≤ g.dpl) :
    gateDplCheck ev g s = .ok () := by
  have hc : (!(ev.kind.software && decide (g.dpl < s.cpl))) = true := by
    cases hs : ev.kind.software
    · rfl
    · simp [BitVec.not_lt, h hs]
  simp only [gateDplCheck, require_eq_ok]
  exact hc

/-- A 16-byte gate is never a task gate. -/
theorem readGate64_typ {vector : Nat} {g : Gate} {gt : GateType}
    (h : readGate64 s vector = .ok g) (ht : g.typ = some gt) :
    ∃ trap, gt = .procedure .bits64 trap := by
  simp only [readGate64, Run.bind_eq_ok] at h
  obtain ⟨lo, -, hi, -, h⟩ := h
  cases h
  simp only [Gate.parse64, gateType64] at ht
  split at ht
  · cases ht; exact ⟨_, rfl⟩
  · split at ht <;> cases ht
    exact ⟨_, rfl⟩

/-- An 8-byte gate is never a 64-bit one. -/
theorem readGate32_typ {vector : Nat} {g : Gate} {size : GateSize} {trap : Bool}
    (h : readGate32 s vector = .ok g) (ht : g.typ = some (.procedure size trap)) :
    size ≠ .bits64 := by
  simp only [readGate32, Run.bind_eq_ok] at h
  obtain ⟨q, -, h⟩ := h
  cases h
  simp only [Gate.parse32, gateType32] at ht
  split at ht
  · cases ht
  · split at ht <;> try split at ht <;> try split at ht <;> try split at ht
    all_goals first
      | (simp only [Option.some.injEq, GateType.procedure.injEq] at ht; rw [← ht.1]; simp)
      | cases ht

/-- The gate that opens is 64-bit exactly in IA-32e mode. -/
theorem Opens.size (h : Opens ev t s) : t.size = .bits64 ↔ s.lma = true := by
  have hr := h.gate.read
  cases hl : s.lma
  · simp only [hl, Bool.false_eq_true, if_false] at hr
    simpa using readGate32_typ hr h.typ
  · simp only [hl, if_true] at hr
    obtain ⟨trap, he⟩ := readGate64_typ hr h.typ
    simp only [GateType.procedure.injEq] at he
    simp [he.1]

/-- The push width of a gate that opens is 8 exactly in IA-32e mode. -/
theorem Opens.width (h : Opens ev t s) : s.lma = decide (t.size.width = 8) := by
  have hs := h.size
  cases ht : t.size <;> cases hl : s.lma <;> simp_all [GateSize.width]

theorem GateSize.width_cases (g : GateSize) : g.width = 2 ∨ g.width = 4 ∨ g.width = 8 := by
  cases g <;> simp [GateSize.width]

/-- An open gate leads to its code segment. -/
theorem Opens.deliver (h : Opens ev t s) :
    deliver ev s = trapOrInterruptGate ev t.size t.trap t.gate s := by
  obtain ⟨hr, hg, ht, hdpl, hp, -, -, -, -, -, -⟩ := h
  obtain ⟨h1, h2⟩ := hg.tests hr.pe
  have h3 := hg.read
  rw [hr.deliver]
  cases hl : s.lma
  · simp only [hl, Bool.false_eq_true, if_false] at h3 ⊢
    simp [protectedMode, h1, h3, ht, gateDplCheck_ok hdpl, hp]
  · simp only [hl, if_true] at h3 ⊢
    simp only [ia32eMode, hr.not_into hl, h1, h2 hl, h3]
    simp [ht, gateDplCheck_ok hdpl, hp]

/-- An event carries at most one error code. -/
theorem Event.codeSlots_length (ev : Event) : ev.codeSlots.length ≤ 1 := by
  unfold Event.codeSlots
  split <;> simp

theorem pushAll_append (c : PushCtx) (xs ys : List Slot) (s : State) :
    pushAll c (xs ++ ys) s = (pushAll c xs s >>= pushAll c ys) := by
  induction xs generalizing s with
  | nil => rfl
  | cons x xs ih =>
    simp only [List.cons_append, pushAll]
    cases pushSlot c x s with
    | error e => rfl
    | ok t => simp [ih]

/-- In plain memory pushes do not see the code segment. -/
theorem pushAll_enterCode {c : PushCtx} {ys : List Slot} {u : State} (hp : PlainMemory s)
    (ha : c.Aligned ys.length s) (h : pushAll c ys s = .ok u) :
    pushAll c ys (t.enterCode s) = .ok (t.enterCode u) := by
  induction ys generalizing s with
  | nil => cases h; rfl
  | cons y ys ih =>
    rw [pushAll, Run.bind_eq_ok] at h ⊢
    obtain ⟨s1, h1, h2⟩ := h
    have e1 := push_plain (c := c) (s := s.setDraws (s.draws + y.pads c.width))
      (v := y.value c.width s.draws) ⟨hp.paging, hp.ram, hp.form⟩ (ha.mono (by simp))
    have e2 := push_plain (c := c) (s := (t.enterCode s).setDraws (s.draws + y.pads c.width))
      (v := y.value c.width s.draws) ⟨hp.paging, hp.ram, hp.form⟩ (ha.mono (by simp))
    rw [pushSlot, e1, Except.ok.injEq] at h1
    have hm : s1.mem.wf = true := by
      rw [← h1]
      exact putBytes_wf hp.form fun j _ _ => BitVec.isLt _
    refine ⟨t.enterCode s1, ?_, ih ⟨?_, ?_, hm⟩ ?_ h2⟩
    · rw [← h1]
      exact e2
    · rw [← h1]; exact hp.paging
    · rw [← h1]; exact hp.ram
    · rw [← h1]; exact ha.tail

/-- The new stack is entered. -/
theorem enterStack_enters (ss : SegReg) (ptr : Word64) (s : State) :
    EntersStack ss ptr s (enterStack ss ptr s) := by
  refine ⟨rfl, fun h => ?_, fun h k hk => ?_⟩
  · simp [enterStack, h, align16]
  · simp only [enterStack, h, State.setRsp_rsp, Bool.false_eq_true, if_false, putLow32]
    rw [BitVec.getLsbD_append, BitVec.getLsbD_setWidth, BitVec.getLsbD_extractLsb']
    by_cases h32 : k < 32
    · simp [h32]
    · simp [h32, show k - 32 < 32 by omega, show 32 + (k - 32) = k by omega]

/-- A stack pointer rounded down to 16 puts every 8-byte slot at a multiple of 8. -/
theorem Target.aligned_of_align16 {n : Nat} (hw : t.size.width = 8) {ptr : Word64}
    (hs : s.rsp = align16 ptr) : t.aligned n s := by
  intro _ _ _ _ k _
  have e : s.slotAddr 8 k = align16 ptr - BitVec.ofNat 64 (8 * (k + 1)) := by
    simp [State.slotAddr, State.afterPushes, State.ptrWidth, State.stackTop, PtrWidth.put, hs]
  have h : (align16 ptr).toNat % 8 = 0 := by
    have h7 : align16 ptr &&& 7#64 = 0#64 := by
      rw [align16, BitVec.and_assoc, show ~~~15#64 &&& 7#64 = 0#64 by decide]
      simp
    have := congrArg BitVec.toNat h7
    rwa [BitVec.toNat_and, show (7#64).toNat = 2 ^ 3 - 1 from rfl,
      Nat.and_two_pow_sub_one_eq_mod] at this
  have hl := (align16 ptr).isLt
  rw [hw, e, BitVec.toNat_sub, BitVec.toNat_ofNat]
  omega

/-- In plain memory the frame of an intra-privilege delivery is complete, whichever order its error code
is pushed in. -/
theorem intraFrame_plain {old : State} (hp : PlainMemory s) (hw : s.lma = decide (t.size.width = 8))
    {xs : List Slot}
    (hxs : xs = (if old.lma then stackSlots old else []) ++ returnSlots old ++ ev.codeSlots)
    (ha : t.aligned xs.length s) (hf : s.fits t.size.width xs.length) :
    ∃ m d, m.wf = true ∧
      intraFrame ev t old s = .ok (t.enterCode
        (((s.setMem m).setDraws d).setRsp (s.afterPushes t.size.width xs.length).rsp)) ∧
      Frame s t.size.width xs
        (((s.setMem m).setDraws d).setRsp (s.afterPushes t.size.width xs.length).rsp) := by
  have hlen := ev.codeSlots_length
  have hc := ha.pushes (decide (old.cpl ≠ 3#2)) ev
  obtain ⟨m, d, hm, hrun, hfr⟩ := pushAll_plain (c := t.pushCtx (decide (old.cpl ≠ 3#2)) ev) hp hw
    (GateSize.width_cases _) hc
    (by rw [hxs]; cases old.lma <;> simp [stackSlots, returnSlots] <;> omega) hf
  refine ⟨m, d, hm, ?_, hfr⟩
  unfold intraFrame
  cases h : old.lma
  · simp only [h, Bool.false_eq_true, if_false, List.nil_append] at hxs ⊢
    rw [hxs, pushAll_append, Run.bind_eq_ok] at hrun
    obtain ⟨s1, h1, h2⟩ := hrun
    obtain ⟨m1, d1, hm1, e1, -⟩ := pushAll_plain (xs := returnSlots old) hp hw
      (GateSize.width_cases _) (hc.mono (by simp [hxs])) (by simp [returnSlots])
      (hf.imp id fun hf => Nat.le_trans (Nat.mul_le_mul_left _ (by simp [hxs])) hf)
    rw [e1, Except.ok.injEq] at h1
    rw [e1, Run.ok_bind]
    subst h1
    rw [pushAll_enterCode (hp.of_setMem hm1 d1 _) ?_ h2, hxs]
    · rfl
    · intro g1 g2 k hk
      have := hc g1 g2 (k + 3) (by rw [hxs]; simp [returnSlots] at hk ⊢; omega)
      rw [← State.slotAddr_succ, ← State.slotAddr_succ, ← State.slotAddr_succ,
        State.afterPushes_succ, State.afterPushes_succ] at this
      exact this
  · simp only [h, if_true] at hxs ⊢
    rw [← hxs, hrun]
    rfl

/-- The enabling predicates see the parameters and the control registers only (log 17). -/
theorem State.enabled_congr {s' : State} (hc : s'.cetControl = s.cetControl) (hg : s'.cfg = s.cfg)
    (p : BitVec 2) : s'.shadowStackEnabled p = s.shadowStackEnabled p ∧
      s'.endbranchEnabled p = s.endbranchEnabled p := by
  have h := hc
  simp only [State.cetControl, CetControl.mk.injEq] at h
  obtain ⟨h0, h4, -, hv, hs, hu⟩ := h
  simp only [State.shadowStackEnabled, State.endbranchEnabled, State.cetOn, State.cetReg, hg, hc, h0,
    h4, hv, hs, hu, and_self]

theorem CetOff.congr {s' : State} (h : CetOff s) (hc : s'.cetControl = s.cetControl)
    (hg : s'.cfg = s.cfg) : CetOff s' := fun p => by
  rw [(State.enabled_congr hc hg p).1, (State.enabled_congr hc hg p).2]
  exact h p

/-- Under the usual predicates `CR4.CET = 0` switches CET off (42_delivery_frames.md R200). -/
theorem CetOff.of_cr4 (hs : s.cfg.shadowStackRule = .usual) (he : s.cfg.endbranchRule = .usual)
    (h : s.cr4.cet = false) : CetOff s := fun p => by
  simp [State.shadowStackEnabled, State.endbranchEnabled, State.cetOn, hs, he, h]

/-- Without the features CET is off, whatever the predicates are (00_scope.md R5). -/
theorem CetOff.of_absent (hs : s.cfg.hasCetSs = false) (he : s.cfg.hasCetIbt = false) : CetOff s :=
  fun p => by simp [State.shadowStackEnabled, State.endbranchEnabled, hs, he]

theorem armEndbranch_off (h : CetOff s) : armEndbranch s = s := by
  simp [armEndbranch, (h s.cpl).2]

theorem shadowIntra_off (h : CetOff s) (old : State) (p : Word64) (check : Bool) :
    shadowIntra old p check s = .ok s := by
  simp [shadowIntra, (h s.cpl).1]

theorem shadowSwitch_off (h : CetOff s) (old : State) (p : Word64) :
    shadowSwitch old p s = .ok s := by
  simp [shadowSwitch, (h s.cpl).1]

theorem shadowSwitchV86_off (h : CetOff s) (p : Word64) : shadowSwitchV86 p s = .ok s := by
  simp [shadowSwitchV86, (h 0#2).1]

theorem saveUserSsp_off (h : CetOff s) : saveUserSsp s = s := by
  simp [saveUserSsp, (h _).1]

theorem intraShadowPointer_off (h : CetOff s) (t : Target) :
    intraShadowPointer t s = .ok (s.ssp, false) := by
  simp [intraShadowPointer, (h _).1]

theorem newShadowPointer_off (h : CetOff s) (t : Target) : ∃ p, newShadowPointer t s = .ok p := by
  simp only [newShadowPointer, (h _).1]
  cases s.lma && decide (t.gate.ist ≠ 0#3)
  · exact ⟨_, rfl⟩
  · exact ⟨_, rfl⟩

/-- In plain memory the new shadow-stack pointer of an inter-privilege delivery is always found. -/
theorem newShadowPointer_plain (hp : PlainMemory s) (t : Target) :
    ∃ p, newShadowPointer t s = .ok p := by
  simp only [newShadowPointer, istShadowPointer, hp.load]
  split
  · split
    · exact ⟨_, rfl⟩
    · exact ⟨_, rfl⟩
  · exact ⟨_, rfl⟩

/-- So is the one of an intra-privilege delivery. -/
theorem intraShadowPointer_plain (hp : PlainMemory s) (t : Target) :
    ∃ r, intraShadowPointer t s = .ok r := by
  simp only [intraShadowPointer, istShadowPointer, hp.load, Run.ok_bind]
  split
  · exact ⟨_, rfl⟩
  · exact ⟨_, rfl⟩

/-- What an open gate does once its code segment has been checked (41_delivery_gates.md R153). -/
theorem Opens.route (h : Opens ev t s) :
    Machine.deliver ev s =
      if !t.desc.conforming && decide (t.desc.dpl < s.cpl) then
        if !s.vm then interPrivilege ev t s
        else
          require (decide (t.desc.dpl = 0#2)) (raiseCode .gp (ev.selectorCode t.gate.sel) s) >>=
            fun _ => fromVirtual8086 ev t s
      else
        require (!s.vm) (raiseCode .gp (ev.selectorCode t.gate.sel) s) >>= fun _ =>
          require (t.desc.conforming || decide (t.desc.dpl = s.cpl))
            (raiseCode .gp (ev.selectorCode t.gate.sel) s) >>= fun _ => intraPrivilege ev t s := by
  rw [h.deliver]
  obtain ⟨h4, h5⟩ := h.tests
  simp only [trapOrInterruptGate, h4, h5, h.readCode, Run.ok_bind, h.code, h.codePresent,
    Bool.not_false, require_true]

/-- A delivery that ends well is what the instruction that made it answers. -/
theorem Completes.of_deliver {u : State} (h : Machine.deliver ev s = .ok u) : Completes ev s u := by
  intro i s0 ht he hs
  subst hs
  cases i <;>
    simp_all [traps, Instr.locked, exec, execInt3, execIntImm8, execInto, execInt1, takeEvent,
      trapEvent, Instr.opcodeLength]

end Sys2Proof.Machine
end

