-- ==== Sys2Proof/Laws/PerInstr.lean ====
section
/-! SUPPORT. Statements made per instruction. Family `EncodingLength`: the encoding is as long as the
instruction, and begins with the LOCK prefix exactly when the instruction carries it. -/

namespace Sys2Proof.Laws

/-- The encoding has the instruction's length (30_encoding.md R80, R89), and its first byte is the
LOCK prefix exactly when the instruction is locked (R85). -/
def EncodingLength.Statement (i : Instr) : Prop :=
  (encode i).length = i.length ∧ ((encode i).head? = some lockByte ↔ i.locked = true)

theorem EncodingLength.int3 (lock : Bool) : EncodingLength.Statement (.int3 lock) := by
  cases lock <;> simp [EncodingLength.Statement, encode, encodeOpcode, Instr.length,
    Instr.opcodeLength, Instr.locked, lockByte]

theorem EncodingLength.intImm8 (lock : Bool) (imm8 : Nat) :
    EncodingLength.Statement (.intImm8 lock imm8) := by
  cases lock <;>
    simp [EncodingLength.Statement, encode, encodeOpcode, Instr.length, Instr.opcodeLength,
      Instr.locked, lockByte]

theorem EncodingLength.into (lock : Bool) : EncodingLength.Statement (.into lock) := by
  cases lock <;> simp [EncodingLength.Statement, encode, encodeOpcode, Instr.length,
    Instr.opcodeLength, Instr.locked, lockByte]

theorem EncodingLength.int1 (lock : Bool) : EncodingLength.Statement (.int1 lock) := by
  cases lock <;> simp [EncodingLength.Statement, encode, encodeOpcode, Instr.length,
    Instr.opcodeLength, Instr.locked, lockByte]

end Sys2Proof.Laws
end

