-- ==== Sys2Proof/Laws/Shadow.lean ====
section
/-! SUPPORT. The shadow stack in plain memory: where a push lies, what it holds, what stays. -/

namespace Sys2Proof.Machine

variable {s : State}

/-- Where byte `j` of an access lies. -/
theorem State.byteAddr_toNat (s : State) (la : Word64) (j : Nat) :
    (s.byteAddr la j).toNat =
      if s.lma then (la.toNat + j) % 2 ^ 64 else (la.toNat + j) % 2 ^ 32 := by
  have := la.isLt
  unfold State.byteAddr
  split <;> simp only [toNat_low32, BitVec.toNat_add, BitVec.toNat_ofNat] <;> omega

/-- Two bytes of accesses below one pointer lie apart when their distances to it differ. -/
theorem State.byteAddr_ne (s : State) {p : Word64} {x y i j : Nat}
    (hx : x ≤ 64) (hy : y ≤ 64) (hi : i < 64) (hj : j < 64) (h : i + y ≠ j + x) :
    (s.byteAddr (p - BitVec.ofNat 64 x) i).toNat ≠ (s.byteAddr (p - BitVec.ofNat 64 y) j).toNat := by
  have := p.isLt
  rw [s.byteAddr_toNat _ i, s.byteAddr_toNat _ j]
  simp only [BitVec.toNat_sub, BitVec.toNat_ofNat]
  split <;> omega

/-- Two bytes of accesses below one pointer are one byte when their distances to it agree. -/
theorem State.byteAddr_eq (s : State) {p : Word64} {x y i j : Nat} (h : i + y = j + x) :
    (s.byteAddr (p - BitVec.ofNat 64 x) i).toNat = (s.byteAddr (p - BitVec.ofNat 64 y) j).toNat := by
  have := p.isLt
  rw [s.byteAddr_toNat _ i, s.byteAddr_toNat _ j]
  simp only [BitVec.toNat_sub, BitVec.toNat_ofNat]
  split <;> omega

@[simp] theorem State.setSsp_holds (s : State) (p : Word64) :
    (s.setSsp p).holds = s.holds := by
  funext m n la v
  simp only [State.holds, State.setSsp_byteAddr]

@[simp] theorem State.setMem_holds (s : State) (m : Memory) : (s.setMem m).holds = s.holds := by
  funext m n la v
  simp only [State.holds, State.setMem_byteAddr]

theorem PlainMemory.setMem {m : Memory} (h : PlainMemory s) (hm : m.wf = true) :
    PlainMemory (s.setMem m) := ⟨h.paging, h.ram, hm⟩

theorem PlainMemory.setSsp (h : PlainMemory s) (p : Word64) : PlainMemory (s.setSsp p) :=
  ⟨h.paging, h.ram, h.form⟩

/-- A push on the shadow stack in plain memory. -/
theorem shadowPush_plain {p : Word64} (hp : PlainMemory s) (v : Word64) (hs : s.ssp - 8#64 = p) :
    ∃ m, m.wf = true ∧ shadowPush v s = .ok ((s.setSsp p).setMem m) ∧ s.holds m 8 p v ∧
      ∀ a, (∀ j, j < 8 → (s.byteAddr p j).toNat ≠ a) → m.read a = s.mem.read a := by
  subst hs
  have hp' : PlainMemory (s.setSsp (s.ssp - 8#64)) := hp.setSsp _
  obtain ⟨m, hm, h2, h3, h4⟩ :=
    hp'.store ((s.setSsp (s.ssp - 8#64)).shadowAccess .shadowWrite) (w := 8) (by omega)
      (s.ssp - 8#64) v
  simp only [State.setSsp_byteAddr, State.setSsp_holds, State.setSsp_mem] at h3 h4
  exact ⟨m, hm, h2, h3, h4⟩

/-- The three pushes that link the old shadow stack, in plain memory. -/
theorem shadowLink_plain {p : Word64} (old : State) (o : Word64) (hp : PlainMemory s)
    (hs : s.ssp = p) :
    ∃ m, m.wf = true ∧ shadowLink old o s = .ok ((s.setSsp (p - 24#64)).setMem m) ∧
      s.holds m 8 (p - 8#64) (old.cs.sel.setWidth 64) ∧ s.holds m 8 (p - 16#64) old.lip ∧
      s.holds m 8 (p - 24#64) o ∧
      ∀ a, (∀ j, j < 24 → (s.byteAddr (p - 24#64) j).toNat ≠ a) → m.read a = s.mem.read a := by
  have x1 : s.ssp - 8#64 = p - 8#64 := by rw [hs]
  have x2 : p - 8#64 - 8#64 = p - 16#64 := by bv_omega
  have x3 : p - 16#64 - 8#64 = p - 24#64 := by bv_omega
  obtain ⟨m1, w1, e1, k1, f1⟩ := shadowPush_plain hp (old.cs.sel.setWidth 64) x1
  obtain ⟨m2, w2, e2, k2, f2⟩ := shadowPush_plain (s := (s.setSsp (p - 8#64)).setMem m1)
    ((hp.setSsp _).setMem w1) old.lip (by rw [State.setMem_ssp, State.setSsp_ssp, x2])
  obtain ⟨m3, w3, e3, k3, f3⟩ := shadowPush_plain
    (s := (((s.setSsp (p - 8#64)).setMem m1).setSsp (p - 16#64)).setMem m2)
    ((((hp.setSsp _).setMem w1).setSsp _).setMem w2) o (by rw [State.setMem_ssp, State.setSsp_ssp, x3])
  simp only [State.setSsp_byteAddr, State.setMem_byteAddr, State.setSsp_holds, State.setMem_holds,
    State.setMem_mem] at k2 k3 f2 f3
  refine ⟨m3, w3, ?_, ?_, ?_, k3, ?_⟩
  · rw [shadowLink, e1, Run.ok_bind, e2, Run.ok_bind, e3]
    simp only [State.setSsp_setMem, State.setSsp_setSsp, State.setMem_setMem]
  · intro j hj
    rw [f3, f2]
    · exact k1 j hj
    · exact fun i hi => s.byteAddr_ne (by omega) (by omega) (by omega) (by omega) (by omega)
    · exact fun i hi => s.byteAddr_ne (by omega) (by omega) (by omega) (by omega) (by omega)
  · intro j hj
    rw [f3]
    · exact k2 j hj
    · exact fun i hi => s.byteAddr_ne (by omega) (by omega) (by omega) (by omega) (by omega)
  · intro a ha
    rw [f3, f2, f1]
    · intro j hj h
      refine ha (j + 16) (by omega) ?_
      rw [← h]
      exact s.byteAddr_eq (by omega)
    · intro j hj h
      refine ha (j + 8) (by omega) ?_
      rw [← h]
      exact s.byteAddr_eq (by omega)
    · exact fun j hj => ha j (by omega)

theorem toNat_and_low (v : Word64) (n : Nat) :
    (v &&& ~~~BitVec.ofNat 64 (2 ^ n - 1)).toNat = v.toNat - v.toNat % 2 ^ n := by
  have e : v &&& ~~~BitVec.ofNat 64 (2 ^ n - 1) = (v >>> n) <<< n := by
    apply BitVec.eq_of_getLsbD_eq
    intro i hi
    have : (BitVec.ofNat 64 (2 ^ n - 1)).getLsbD i = decide (i < n) := by
      rw [BitVec.getLsbD_ofNat, Nat.testBit_two_pow_sub_one]
      simp [hi]
    rw [BitVec.getLsbD_and, BitVec.getLsbD_not, this, BitVec.getLsbD_shiftLeft,
      BitVec.getLsbD_ushiftRight]
    by_cases h : i < n
    · simp [h]
    · simp only [hi, h, decide_true, decide_false, Bool.not_false, Bool.and_true, Bool.true_and]
      rw [show n + (i - n) = i by omega]
  rw [e]
  have hv := v.isLt
  have hd := Nat.div_add_mod v.toNat (2 ^ n)
  rw [BitVec.toNat_shiftLeft, BitVec.toNat_ushiftRight, Nat.shiftRight_eq_div_pow,
    Nat.shiftLeft_eq, Nat.mul_comm]
  rw [Nat.mod_eq_of_lt] <;> omega

/-- The tests of a candidate shadow-stack pointer, in numbers. -/
theorem State.shadowPointerOk_iff (s : State) (p : Word64) :
    s.shadowPointerOk p = true ↔
      p.toNat % 32 = 24 ∧ (s.mode64 = true ∨ p.toNat < 2 ^ 32) := by
  have hp := p.isLt
  have h1 : (p &&& 7#64 = 0#64) ↔ p.toNat % 8 = 0 := by
    rw [← BitVec.toNat_inj, BitVec.toNat_and]
    exact (Nat.and_two_pow_sub_one_eq_mod p.toNat 3).congr_left
  have h2 : (p &&& ~~~31#64 = (p - 24#64) &&& ~~~31#64) ↔ 24 ≤ p.toNat % 32 := by
    have e : ∀ v : Word64, (v &&& ~~~31#64).toNat = v.toNat - v.toNat % 32 :=
      fun v => toNat_and_low v 5
    rw [← BitVec.toNat_inj, e, e]
    simp only [BitVec.toNat_sub, BitVec.toNat_ofNat]
    omega
  have h3 : (p >>> 32 = 0#64) ↔ p.toNat < 2 ^ 32 := by
    rw [← BitVec.toNat_inj]
    simp [Nat.shiftRight_eq_div_pow]
  simp only [State.shadowPointerOk, Bool.and_eq_true, Bool.or_eq_true, decide_eq_true_eq, h1, h2, h3]
  constructor
  · rintro ⟨⟨a, b⟩, c⟩
    exact ⟨by omega, c⟩
  · rintro ⟨a, c⟩
    exact ⟨⟨by omega, by omega⟩, c⟩

theorem toNat_align8 (p : Word64) : (p &&& ~~~7#64).toNat = p.toNat - p.toNat % 8 :=
  toNat_and_low p 3

end Sys2Proof.Machine
end

