-- ==== Sys2Proof/Laws/Step.lean ====
section
/-! SUPPORT. What one step can do, said once: the facts about `step` are proved from `step_cases`. -/

namespace Sys2Proof.Machine

variable {s t : State}

/-- The state a delivery of a step is made from: memory, draws, instruction pointer, faulting
address and pending events may differ from those the step began with; every other field is named, so
that a proof never looks into the state. -/
structure DeliveredFrom (s e : State) : Prop where
  memory : s.mem.wf = true → e.mem.wf = true
  pointer : e.rip = s.rip ∨ ∃ n, e.rip = nextIp s n
  system : SameSystem s e
  rsp : e.rsp = s.rsp
  eflags : e.eflags = s.eflags
  cs : e.cs = s.cs
  ss : e.ss = s.ss
  data : SameData s e
  cpl : e.cpl = s.cpl
  ssp : e.ssp = s.ssp
  pl3Ssp : e.pl3Ssp = s.pl3Ssp
  sCet : e.sCet = s.sCet
  uCet : e.uCet = s.uCet

/-- What a state with legal modes satisfies, and all it has to (10_state.md R37, R21). -/
theorem State.legalModes_iff : s.legalModes = true ↔
    (s.lma = true → s.cr0.pe = true ∧ s.vm = false ∧ s.cfg.hasIa32e = true) ∧
    (s.vm = true → s.cr0.pe = true ∧ s.cpl = 3#2) ∧ (s.cr0.pe = false → s.cpl = 0#2) ∧
    (s.cr4.vme = true → s.cfg.hasVme = true) ∧
    (s.cr0.pe = false ∨ s.vm = true → s.realSegments = true) := by
  unfold State.legalModes
  cases s.lma <;> cases s.cr0.pe <;> cases s.vm <;> cases s.cr4.vme <;>
    simp [and_assoc]

/-- A load of `CS` in real-address or virtual-8086 mode keeps the segments of those modes
(10_state.md R21). -/
theorem realSegments_setCs (h : s.realSegments = true) (sel : Word16) :
    (s.setCs ⟨sel, { s.cs.hid with base := sel.setWidth 64 <<< 4 }⟩).realSegments = true := by
  simp only [State.realSegments, Bool.and_eq_true, Bool.or_eq_true, State.setCs] at h ⊢
  obtain ⟨⟨⟨⟨⟨h1, h2⟩, h3⟩, h4⟩, h5⟩, h6⟩ := h
  refine ⟨⟨⟨⟨⟨.inl ?_, h2⟩, h3⟩, h4⟩, h5⟩, h6⟩
  rcases h1 with h1 | ⟨-, h1⟩ <;>
    simp only [SegReg.realStyle, SegReg.resetCode, Bool.and_eq_true, decide_eq_true_eq] at h1 ⊢ <;>
    exact ⟨trivial, h1.2⟩

/-- The modes are legal in it too, since none of what they rest on differs. -/
theorem DeliveredFrom.legal {s e : State} (h : DeliveredFrom s e) (hl : s.legalModes = true) :
    e.legalModes = true := by
  obtain ⟨hds, hes, hfs, hgs⟩ := h.data
  simpa only [State.legalModes, State.realSegments, State.vm, h.system.lma, h.system.cr0, h.eflags,
    h.system.cfg, h.cpl, h.system.cr4, h.cs, h.ss, hds, hes, hfs, hgs] using hl

/-- What a step that goes on does: a delivery, or (`INTO` with `OF = 0`) the advance alone. -/
inductive StepCase (s t : State) : Prop where
  | delivered (ev : Event) (e : State) (from_ : DeliveredFrom s e) (case : DeliveryCase ev e t)
  | advanced (mode : s.mode64 = false) (overflow : s.overflow = false) (eq : t = advance 1 s)

/-- The state a step begins a delivery from when it has changed nothing. -/
theorem DeliveredFrom.refl (a : Word64) : DeliveredFrom s (s.setFaultAddr a) :=
  ⟨id, .inl rfl, by constructor <;> rfl, rfl, rfl, rfl, rfl, ⟨rfl, rfl, rfl, rfl⟩, rfl, rfl, rfl, rfl,
    rfl⟩

theorem DeliveredFrom.advance (n : Nat) : DeliveredFrom s (advance n s) :=
  ⟨id, .inr ⟨n, rfl⟩, by constructor <;> rfl, rfl, rfl, rfl, rfl, ⟨rfl, rfl, rfl, rfl⟩, rfl, rfl, rfl, rfl,
    rfl⟩

theorem DeliveredFrom.pending (p : List ExternalEvent) : DeliveredFrom s (s.setPending p) :=
  ⟨id, .inl rfl, by constructor <;> rfl, rfl, rfl, rfl, rfl, ⟨rfl, rfl, rfl, rfl⟩, rfl, rfl, rfl, rfl,
    rfl⟩

theorem DeliveredFrom.abandoned {m : Memory} {d : Nat} {a : Word64}
    (h : s.mem.wf = true → m.wf = true) :
    DeliveredFrom s (((s.setMem m).setDraws d).setFaultAddr a) :=
  ⟨h, .inl rfl, by constructor <;> rfl, rfl, rfl, rfl, rfl, ⟨rfl, rfl, rfl, rfl⟩, rfl, rfl, rfl, rfl,
    rfl⟩

theorem DeliveredFrom.abandonedPending {m : Memory} {d : Nat} {a : Word64}
    {p : List ExternalEvent} (h : s.mem.wf = true → m.wf = true) :
    DeliveredFrom s ((((s.setMem m).setDraws d).setFaultAddr a).setPending p) := by
  refine ⟨by simpa using h, .inl (by simp), ?_, ?_, ?_, ?_, ?_, ?_, ?_, ?_, ?_, ?_, ?_⟩
  · constructor <;> simp
  all_goals simp [SameData]

theorem raiseException_case {x : Exc} (h : raiseException x s = .next t) : StepCase s t :=
  let ⟨a, ha⟩ := raiseException_next h
  .delivered _ _ (.refl a) ha

theorem takeEvent_case {ev : Event} {n : Nat} (h : takeEvent ev s (advance n s) = .next t) :
    StepCase s t := by
  rcases takeEvent_next (before := s) (entry := advance n s) rfl h with h | ⟨x, m, d, a, hw, h⟩
  · exact .delivered _ _ (.advance n) h
  · exact .delivered _ _ (.abandoned hw) h

/-- An instruction that answers a next state has delivered something, or is an `INTO` that only
advanced. -/
theorem exec_case {i : Instr} (h : exec i s = .next t) : StepCase s t := by
  cases i with
  | int3 lock =>
    simp only [exec, execInt3] at h
    split at h
    · exact raiseException_case h
    · exact takeEvent_case h
  | intImm8 lock imm8 =>
    simp only [exec, execIntImm8] at h
    split at h
    · exact raiseException_case h
    · exact takeEvent_case h
  | into lock =>
    simp only [exec, execInto] at h
    split at h
    · exact raiseException_case h
    split at h
    · exact raiseException_case h
    split at h
    · exact takeEvent_case h
    · cases h
      exact .advanced (by simp_all) (by simp_all) rfl
  | int1 lock =>
    simp only [exec, execInt1] at h
    split at h
    · exact raiseException_case h
    split at h
    · cases h
    · exact takeEvent_case h

/-- A delivery that raises leaves the state before it, with memory as `Abandoned` says
(60_exceptions.md R241). -/
theorem abandoned_of_raise {ev : Event} {before entry dirty : State} {x : Exc}
    (hw : before.mem.wf = true) (hm : entry.mem = before.mem)
    (h : deliver ev entry = .error (.raise x dirty)) :
    ∃ m d, Abandoned x before.mem dirty.mem m ∧
      abandon before dirty = (before.setMem m).setDraws d := by
  obtain ⟨hd, he⟩ := deliver_raise h
  rw [hm] at hd he
  refine ⟨_, _, ⟨Memory.blend_wf hw (hd hw), fun a => ?_, fun hx => ?_⟩, rfl⟩
  · rw [Memory.read_blend hw (hd hw)]
    split <;> simp
  · rw [he hx, Memory.blend_self]

/-- With nothing to deliver and no tracker waiting, a step runs the instruction. -/
theorem step_runs (h1 : s.legalModes = true) (h2 : nextEvent s.interruptFlag s.pending = none)
    (h3 : s.endbranchWaits = false) : step s = runInstruction s.tick := by
  simp [step, h1, h2, h3]

theorem fetchByte_raise {i : Nat} {e : Exc} {d : State}
    (h : fetchByte s i = .error (.raise e d)) : d = s := by
  simp only [fetchByte, Run.bind_eq_error, require_eq_error] at h
  rcases h with ⟨-, h⟩ | ⟨_, -, h | ⟨p, -, h⟩⟩
  · split at h <;> cases h
    rfl
  · exact (resolve_raise h).2
  · cases h

/-- A fault of the fetch has changed nothing. -/
theorem fetchFrom_raise {n : Nat} {got : List Byte} {e : Exc} {d : State}
    (h : fetchFrom s n got = .error (.raise e d)) : d = s := by
  induction n generalizing got with
  | zero => cases h
  | succ n ih =>
    rw [fetchFrom, Run.bind_eq_error] at h
    rcases h with h | ⟨b, -, h⟩
    · exact fetchByte_raise h
    · split at h
      · cases h
      · exact ih h
      · cases h

/-- What one step that answers a next state does, from a state with a legal mode: a case of the state
its free values are drawn in. -/
theorem step_cases (h : step s = .next t) : s.legalModes = true ∧ StepCase s.tick t := by
  unfold step at h
  split at h
  · cases h
  rename_i hm
  refine ⟨by simpa using hm, ?_⟩
  split at h
  · rename_i e rest _
    rcases takeEvent_next rfl h with h | ⟨x, m, d, a, hw, h⟩
    · exact .delivered _ _ (.pending rest) h
    · exact .delivered _ _ (.abandonedPending (p := rest) hw) (by simpa using h)
  · split at h
    · cases h
    unfold runInstruction at h
    split at h
    · exact exec_case h
    · rename_i x dirty hd
      obtain ⟨a, ha⟩ := raiseException_next h
      rw [abandon_clean (by rw [fetchFrom_raise hd])] at ha
      exact .delivered _ _ (.abandoned (m := s.tick.mem) (d := dirty.draws + 1) id) ha
    · cases h
    · cases h

/-- A step or an instruction that answers a next state: a case of the state it began with, its count of
free values apart. -/
theorem Runs.case (h : Runs s t) : s.legalModes = true ∧ ∃ n, StepCase (s.setDraws n) t := by
  obtain ⟨hl, h | ⟨i, h⟩⟩ := h
  · exact ⟨hl, _, (step_cases h).2⟩
  · exact ⟨hl, s.draws, exec_case h⟩

end Sys2Proof.Machine
end

