-- ==== Sys2Proof/Laws/Table.lean ====
section
/-! SUPPORT. The fields of descriptors and gates, byte by byte, and what reading one answers in plain
memory. -/

namespace Sys2Proof.Machine

/-- The bytes of `q` are `b 0` to `b 7`. -/
def HasBytes (q : Word64) (b : Nat → Byte) : Prop :=
  ∀ i, i < 64 → q.getLsbD i = (b (i / 8)).getLsbD (i % 8)

variable {q : Word64} {b : Nat → Byte} {s : State}

theorem getLsbD_getBytes {addr : Nat → Nat} {m : Memory} {n i k : Nat} (hi : i < 8 * n)
    (hn : n ≤ 8) : (getBytes addr m k n).getLsbD i = (m.read (addr (k + i / 8))).getLsbD (i % 8) := by
  induction n generalizing i k with
  | zero => omega
  | succ n ih =>
    rw [getBytes, BitVec.getLsbD_or, BitVec.getLsbD_shiftLeft, BitVec.getLsbD_setWidth]
    by_cases h : i < 8
    · simp [h, show i / 8 = 0 by omega, Nat.mod_eq_of_lt h]
      omega
    · rw [ih (i := i - 8) (k := k + 1) (by omega) (by omega), BitVec.getLsbD_of_ge _ i (by omega)]
      simp [h, show k + 1 + (i - 8) / 8 = k + i / 8 by omega, show (i - 8) % 8 = i % 8 by omega]
      omega

theorem HasBytes.of_value (s : State) (la : Word64) : HasBytes (s.value 8 la) (s.bytesAt la) := by
  intro i hi
  rw [State.value, getLsbD_getBytes (by omega) (by omega), Nat.zero_add]
  rfl

theorem HasBytes.bits (h : HasBytes q b) (k s n : Nat) (hk : k < 8) (hs : s + n ≤ 8) :
    q.extractLsb' (8 * k + s) n = (b k).extractLsb' s n := by
  apply BitVec.eq_of_getLsbD_eq
  intro i hi
  rw [BitVec.getLsbD_extractLsb', BitVec.getLsbD_extractLsb', h _ (by omega),
    show (8 * k + s + i) / 8 = k by omega, show (8 * k + s + i) % 8 = s + i by omega]

theorem HasBytes.two (h : HasBytes q b) (k : Nat) (hk : k + 1 < 8) :
    q.extractLsb' (8 * k) 16 = b (k + 1) ++ b k := by
  apply BitVec.eq_of_getLsbD_eq
  intro i hi
  rw [BitVec.getLsbD_extractLsb', BitVec.getLsbD_append, h _ (by omega)]
  by_cases h : i < 8
  · simp [h, hi, show (8 * k + i) / 8 = k by omega, Nat.mod_eq_of_lt h]
  · simp [h, hi, show (8 * k + i) / 8 = k + 1 by omega, show i % 8 = i - 8 by omega]

/-- `++` of bytes associates, whatever the widths are written as. -/
theorem toNat_append_assoc {n m k : Nat} (x : BitVec n) (y : BitVec m) (z : BitVec k) :
    (x ++ (y ++ z)).toNat = (x ++ y ++ z).toNat := by
  simp only [BitVec.toNat_append, Nat.shiftLeft_or_distrib, ← Nat.shiftLeft_add, Nat.or_assoc]

theorem HasBytes.three (h : HasBytes q b) : q.extractLsb' 16 24 = b 4 ++ (b 3 ++ b 2) := by
  apply BitVec.eq_of_getLsbD_eq
  intro i hi
  rw [BitVec.getLsbD_extractLsb', BitVec.getLsbD_append, h _ (by omega), ← h.two 2 (by decide),
    BitVec.getLsbD_extractLsb']
  by_cases hl : i < 16
  · rw [h _ (by omega)]
    simp [hl, hi]
  · simp [hl, hi, show (16 + i) / 8 = 4 by omega, show (16 + i) % 8 = i - 16 by omega]

/-- The bytes of a descriptor fix all its fields. -/
theorem DescriptorBytes.unique {h h' : Hidden} (x : DescriptorBytes b h) (y : DescriptorBytes b h') :
    h = h' := by
  have limit : h.limit = h'.limit := BitVec.eq_of_toNat_eq (x.limit.trans y.limit.symm)
  cases h
  cases h'
  simp only [Hidden.mk.injEq]
  exact ⟨x.base.trans y.base.symm, limit, x.s.trans y.s.symm, x.typ.trans y.typ.symm,
    x.dpl.trans y.dpl.symm, x.present.trans y.present.symm, x.l.trans y.l.symm,
    x.db.trans y.db.symm⟩

/-- A limit in units of 4 KByte (20_memory.md R68). -/
theorem toNat_scaled (x : BitVec 20) :
    ((x.setWidth 32 <<< 12) ||| 0xFFF#32).toNat = x.toNat * 4096 + 4095 := by
  have := x.isLt
  have e : (x.setWidth 32 <<< 12).toNat = x.toNat <<< 12 := by
    simp only [BitVec.toNat_shiftLeft, BitVec.toNat_setWidth, Nat.shiftLeft_eq]
    omega
  rw [BitVec.toNat_or, e, show (0xFFF#32).toNat = 0xFFF from rfl,
    ← Nat.shiftLeft_add_eq_or_of_lt (by decide), Nat.shiftLeft_eq]

/-- A descriptor has the fields that the table of 20_memory.md R68 gives its bytes. -/
theorem HasBytes.descriptor (h : HasBytes q b) : DescriptorBytes b (Hidden.parse q) := by
  have typ : (Hidden.parse q).typ = (b 5).extractLsb' 0 4 := h.bits 5 0 4 (by decide) (by decide)
  have hs : (Hidden.parse q).s = (b 5).getLsbD 4 := h 44 (by decide)
  have e6 : q.extractLsb' 48 4 = (b 6).extractLsb' 0 4 := h.bits 6 0 4 (by decide) (by decide)
  have t0 : q.extractLsb' 0 16 = b 1 ++ b 0 := h.two 0 (by decide)
  have e7 : q.extractLsb' 56 8 = b 7 := by
    rw [h.bits 7 0 8 (by decide) (by decide), BitVec.extractLsb'_eq_self]
  refine ⟨?_, ?_, hs, typ, h.bits 5 5 2 (by decide) (by decide), h 47 (by decide), h 53 (by decide),
    h 54 (by decide), ?_, ?_, ?_, ?_, ?_⟩
  · show BitVec.setWidth 64 (q.extractLsb' 56 8 ++ q.extractLsb' 16 24) = _
    rw [e7, h.three]
    exact BitVec.eq_of_toNat_eq (by
      rw [BitVec.toNat_setWidth, BitVec.toNat_setWidth]
      exact congrArg (· % 2 ^ 64) ((toNat_append_assoc (b 7) (b 4) (b 3 ++ b 2)).trans
        (toNat_append_assoc (b 7 ++ b 4) (b 3) (b 2))))
  · show BitVec.toNat (if q.getLsbD 55 = true then
      (BitVec.setWidth 32 (q.extractLsb' 48 4 ++ q.extractLsb' 0 16) <<< 12) ||| 0xFFF#32
      else BitVec.setWidth 32 (q.extractLsb' 48 4 ++ q.extractLsb' 0 16)) = _
    rw [h 55 (by decide), e6, t0, ← toNat_append_assoc]
    have hlt := ((b 6).extractLsb' 0 4 ++ (b 1 ++ b 0)).isLt
    split
    · exact toNat_scaled _
    · rw [BitVec.toNat_setWidth]
      omega
  · simp [Hidden.isCode, hs, typ]
  · simp [Hidden.conforming, typ]
  · simp [Hidden.isWritableData, hs, typ]
  · simp [Hidden.expandDown, hs, typ]
  · rw [Hidden.isAvailableTss, hs, typ]
    generalize b 5 = x
    revert x
    decide

theorem gateType32_ne_64 : ∀ (x : BitVec 5) (trap : Bool),
    gateType32 x ≠ some (.procedure .bits64 trap) := by decide

theorem gateType64_ne_16 : ∀ (x : BitVec 5) (trap : Bool),
    gateType64 x ≠ some (.procedure .bits16 trap) := by decide

theorem gateType64_ne_32 : ∀ (x : BitVec 5) (trap : Bool),
    gateType64 x ≠ some (.procedure .bits32 trap) := by decide

/-- An 8-byte gate has the fields that the table of 20_memory.md R65 gives its bytes. -/
theorem HasBytes.gate32 (h : HasBytes q b) : GateBytes false b (Gate.parse32 q) := by
  have typ : (Gate.parse32 q).typ = gateType32 ((b 5).extractLsb' 0 5) :=
    congrArg gateType32 (h.bits 5 0 5 (by decide) (by decide))
  have t0 : q.extractLsb' 0 16 = b 1 ++ b 0 := h.two 0 (by decide)
  have t6 : q.extractLsb' 48 16 = b 7 ++ b 6 := h.two 6 (by decide)
  have off : (Gate.parse32 q).offset = gateOffset32 q (Gate.parse32 q).typ := rfl
  refine ⟨h.two 2 (by decide), h.bits 5 5 2 (by decide) (by decide), h 47 (by decide), rfl, ?_, ?_, ?_⟩
  · rw [typ]
    generalize b 5 = x
    revert x
    decide
  · intro size trap
    rw [typ]
    generalize b 5 = x
    cases size <;> cases trap <;> revert x <;> decide
  · intro size trap ht
    rw [off, ht]
    cases size with
    | bits16 => rw [gateOffset32, t0]; simp
    | bits32 =>
      rw [gateOffset32, t0, t6]
      exact BitVec.eq_of_toNat_eq (by
        rw [BitVec.toNat_setWidth, BitVec.toNat_setWidth]
        exact congrArg (· % 2 ^ 64) (toNat_append_assoc (b 7 ++ b 6) (b 1) (b 0)))
    | bits64 =>
      rw [typ] at ht
      exact absurd ht (gateType32_ne_64 _ _)

/-- A 16-byte gate has the fields that the table of 20_memory.md R66 gives its bytes. -/
theorem HasBytes.gate64 {hi : Word64} (h : HasBytes q b) (h' : HasBytes hi fun k => b (8 + k)) :
    GateBytes true b (Gate.parse64 q hi) := by
  have typ : (Gate.parse64 q hi).typ = gateType64 ((b 5).extractLsb' 0 5) :=
    congrArg gateType64 (h.bits 5 0 5 (by decide) (by decide))
  have t0 : q.extractLsb' 0 16 = b 1 ++ b 0 := h.two 0 (by decide)
  have t6 : q.extractLsb' 48 16 = b 7 ++ b 6 := h.two 6 (by decide)
  refine ⟨h.two 2 (by decide), h.bits 5 5 2 (by decide) (by decide), h 47 (by decide),
    h.bits 4 0 3 (by decide) (by decide), ?_, ?_, ?_⟩
  · rw [typ]
    generalize b 5 = x
    revert x
    decide
  · intro size trap
    rw [typ]
    generalize b 5 = x
    cases size <;> cases trap <;> revert x <;> decide
  · intro size trap ht
    cases size with
    | bits64 =>
      have h8 : hi.extractLsb' 0 16 = b 9 ++ b 8 := h'.two 0 (by decide)
      have h10 : hi.extractLsb' 16 16 = b 11 ++ b 10 := h'.two 2 (by decide)
      have hh : hi.extractLsb' 0 32 = b 11 ++ b 10 ++ b 9 ++ b 8 := by
        rw [show hi.extractLsb' 0 32 = hi.extractLsb' 16 16 ++ hi.extractLsb' 0 16 from ?_, h8, h10]
        · exact BitVec.eq_of_toNat_eq (toNat_append_assoc (b 11 ++ b 10) (b 9) (b 8))
        · apply BitVec.eq_of_getLsbD_eq
          intro i hi'
          rw [BitVec.getLsbD_append, BitVec.getLsbD_extractLsb', BitVec.getLsbD_extractLsb',
            BitVec.getLsbD_extractLsb']
          by_cases hl : i < 16
          · simp [hl, hi']
          · simp [hl, hi', show 16 + (i - 16) = i by omega]
            omega
      show hi.extractLsb' 0 32 ++ (q.extractLsb' 48 16 ++ q.extractLsb' 0 16) = _
      rw [hh, t0, t6]
      exact congrArg (b 11 ++ b 10 ++ b 9 ++ b 8 ++ ·)
        (BitVec.eq_of_toNat_eq (toNat_append_assoc (b 7 ++ b 6) (b 1) (b 0)))
    | bits16 =>
      rw [typ] at ht
      exact absurd ht (gateType64_ne_16 _ _)
    | bits32 =>
      rw [typ] at ht
      exact absurd ht (gateType64_ne_32 _ _)

/-- Reading the descriptor a selector names, in plain memory. -/
theorem readDescriptor_plain (hp : PlainMemory s) (u : ReadUse) (sel : Word16) :
    ∃ h, readDescriptor s u sel = .ok h ∧ DescriptorBytes (s.bytesAt (s.descriptorAddr sel)) h :=
  ⟨_, by rw [readDescriptor, hp.load]; rfl, (HasBytes.of_value s _).descriptor⟩

/-- Reading the 8-byte gate of a vector, in plain memory. -/
theorem readGate32_plain (hp : PlainMemory s) (v : Nat) :
    ∃ g, readGate32 s v = .ok g ∧ GateBytes false (s.bytesAt (s.idtEntryAddr v)) g :=
  ⟨_, by rw [readGate32, hp.load]; rfl, (HasBytes.of_value s _).gate32⟩

/-- Reading the 16-byte gate of a vector, in plain memory. -/
theorem readGate64_plain (hp : PlainMemory s) (hl : s.lma = true) (v : Nat) :
    ∃ g, readGate64 s v = .ok g ∧ GateBytes true (s.bytesAt (s.idtEntryAddr v)) g := by
  refine ⟨_, by rw [readGate64, hp.load, Run.ok_bind, hp.load]; rfl,
    (HasBytes.of_value s _).gate64 fun i hi => ?_⟩
  rw [HasBytes.of_value s _ i hi]
  simp only [State.bytesAt, State.byteAddr, hl, if_true]
  rw [show s.idtEntryAddr v + 8#64 + BitVec.ofNat 64 (i / 8) =
    s.idtEntryAddr v + BitVec.ofNat 64 (8 + i / 8) by
      rw [BitVec.add_assoc, ← BitVec.ofNat_add]]

end Sys2Proof.Machine
end

