-- ==== Sys2Proof/Tests/Slice0.lean ====
section
/-! SUPPORT. Tests: what the well-formedness check refuses, words written out from the spec's
encodings, steps whose results are those of 95_test_vectors.md, and for every obligation with
hypotheses a state and operands that meet them (`witness_` and the obligation's name). -/

namespace Sys2Proof.Tests

open Sys2Proof.Machine

/-! Helpers. -/

/-- The next state an outcome answers, if it does. -/
def nextOf (o : Host.Outcome State Fault Refusal) : Option State :=
  match o with
  | .next s => some s
  | .fault _ => none
  | .refused _ => none

/-- The exception that stopped a run, if one did. -/
def raised {α : Type} (r : Run α) : Option Exc :=
  match r with
  | .error (.raise x _) => some x
  | .error (.fault _) => none
  | .error (.refuse _) => none
  | .ok _ => none

/-- The run ended well. -/
def okay {α : Type} (r : Run α) : Bool :=
  match r with
  | .ok _ => true
  | .error _ => false

theorem okay_ok {α : Type} {r : Run α} (h : okay r = true) : ∃ t, r = .ok t := by
  cases r with
  | ok t => exact ⟨t, rfl⟩
  | error e => cases h

theorem raised_error {α : Type} {r : Run α} {x : Exc} (h : raised r = some x) :
    ∃ d, r = .error (.raise x d) := by
  match r, h with
  | .error (.raise y d), h =>
    cases h
    exact ⟨d, rfl⟩

theorem nextOf_next {o : Host.Outcome State Fault Refusal} (h : (nextOf o).isSome = true) :
    ∃ t, o = .next t := by
  cases o with
  | next t => exact ⟨t, rfl⟩
  | fault f => cases h
  | refused r => cases h

/-- The bytes from an address on as memory lists them, zeros left out. -/
def cells : Nat → List Byte → Memory
  | _, [] => []
  | a, b :: bs => if b = 0#8 then cells (a + 1) bs else (a, b) :: cells (a + 1) bs

theorem plain_of {s : State} (hp : s.pagingOn = false) (hr : s.regions = State.reset.regions)
    (hw : s.mem.wf = true) : PlainMemory s := by
  refine ⟨hp, fun a ha => ?_, hw⟩
  unfold State.regionAt
  rw [hr]
  simp [State.reset]
  omega

/-- Real-address mode: the start state of V10, with the entries of vectors 4 and 21H and code at
1000:0100. -/
def real (code : List Byte) : State :=
  { State.reset with
    cs := ⟨0x1000#16, { Hidden.afterReset with base := 0x10000#64 }⟩
    ss := ⟨0x2000#16, { Hidden.afterReset with base := 0x20000#64 }⟩
    rip := 0x100#64, rsp := 0x200#64, eflags := 0x202#32
    idtr := ⟨0#64, 0x3FF#16⟩
    mem := cells 0x10 [0x00#8, 0x20#8, 0x00#8, 0x30#8] ++
      cells 0x84 [0x34#8, 0x12#8, 0x78#8, 0x56#8] ++ cells 0x10100 code }

/-- A flat segment of a type, DPL, L and D or B attribute. -/
def flat (typ : BitVec 4) (dpl : BitVec 2) (l db : Bool) : Hidden :=
  { base := 0#64, limit := 0xFFFFFFFF#32, s := true, typ := typ, dpl := dpl, present := true,
    l := l, db := db }

/-- The gate of vector 30H in section 2.4 of the vectors. -/
def gate30 : List Byte := [0x00#8, 0x10#8, 0x08#8, 0x00#8, 0x00#8, 0x8E#8, 0x40#8, 0x00#8]

/-- The gate of vector 3 there. -/
def gate3 : List Byte := [0x00#8, 0x40#8, 0x08#8, 0x00#8, 0x00#8, 0xEF#8, 0x40#8, 0x00#8]

/-- The descriptor of selector 0008H there. -/
def code0 : List Byte := [0xFF#8, 0xFF#8, 0x00#8, 0x00#8, 0x00#8, 0x9A#8, 0xCF#8, 0x00#8]

/-- Gate 30H and the descriptor of 0008H with their present bits clear. -/
def absent30 : List Byte := [0x00#8, 0x10#8, 0x08#8, 0x00#8, 0x00#8, 0x0E#8, 0x40#8, 0x00#8]

def absentCode : List Byte := [0xFF#8, 0xFF#8, 0x00#8, 0x00#8, 0x00#8, 0x1A#8, 0xCF#8, 0x00#8]

/-- The descriptor of selector 0010H there. -/
def data0 : List Byte := [0xFF#8, 0xFF#8, 0x00#8, 0x00#8, 0x00#8, 0x92#8, 0xCF#8, 0x00#8]

/-- The tables of section 2.4, with gates 3 and 30H and the descriptors of 0008H, 0010H, 0018H and
0030H given, and `ESP0`. -/
def tables (g3 g30 d8 d10 d18 d30 esp0 : List Byte) : Memory :=
  cells 0x100008 [0x00#8, 0x30#8, 0x08#8, 0x00#8, 0x00#8, 0x8E#8, 0x40#8, 0x00#8] ++
    cells 0x100018 g3 ++
    cells 0x100068 [0x00#8, 0x50#8, 0x08#8, 0x00#8, 0x00#8, 0x8E#8, 0x40#8, 0x00#8] ++
    cells 0x100180 g30 ++
    cells 0x100400 [0x00#8, 0x20#8, 0x08#8, 0x00#8, 0x00#8, 0xEF#8, 0x40#8, 0x00#8] ++
    cells 0x101008 d8 ++ cells 0x101010 d10 ++ cells 0x101018 d18 ++ cells 0x101030 d30 ++
    cells 0x200004 esp0 ++ cells 0x200008 [0x10#8, 0x00#8]

/-- The tables of section 2.4 as they stand there. -/
def tables32 : Memory := tables gate3 gate30 code0 data0 [] [] [0x00#8, 0x00#8, 0x30#8, 0x00#8]

/-- Protected mode, CPL 0: the start state of V20, with given tables and code. -/
def ring0 (tabs : Memory) (code : List Byte) : State :=
  { State.reset with
    cr0 := ⟨true, false, false⟩
    cs := ⟨0x08#16, flat 0xA#4 0#2 false true⟩
    ss := ⟨0x10#16, flat 0x2#4 0#2 false true⟩
    rip := 0x400100#64, rsp := 0x9FFF0#64, eflags := 0x246#32
    idtr := ⟨0x100000#64, 0x7FF#16⟩, gdtr := ⟨0x101000#64, 0xFF#16⟩
    tr := ⟨0x28#16, 0x200000#64, 0x67#32, .tss32⟩
    mem := tabs ++ cells 0x400100 code }

/-- Protected mode, CPL 3: the start state of V21. -/
def ring3 (tabs : Memory) (code : List Byte) : State :=
  { ring0 tabs [] with
    cs := ⟨0x1B#16, flat 0xA#4 3#2 false true⟩
    ss := ⟨0x23#16, flat 0x2#4 3#2 false true⟩
    cpl := 3#2, rip := 0x8048000#64, rsp := 0xBFFFF000#64, eflags := 0x202#32
    mem := tabs ++ cells 0x8048000 code }

/-- Virtual-8086 mode: the common start of section 2.6, with given flags, tables and code. -/
def v86 (flags : Word32) (tabs : Memory) (code : List Byte) : State :=
  { ring0 tabs [] with
    cs := ⟨0x1000#16, { Hidden.afterReset with base := 0x10000#64, dpl := 3#2 }⟩
    ss := ⟨0x2000#16, { Hidden.afterReset with base := 0x20000#64, dpl := 3#2 }⟩
    ds := ⟨0x3000#16, { Hidden.afterReset with base := 0x30000#64 }⟩
    es := ⟨0x4000#16, { Hidden.afterReset with base := 0x40000#64 }⟩
    fs := ⟨0x5000#16, { Hidden.afterReset with base := 0x50000#64 }⟩
    gs := ⟨0x6000#16, { Hidden.afterReset with base := 0x60000#64 }⟩
    cpl := 3#2, rip := 0x100#64, rsp := 0xFFFE#64, eflags := flags
    mem := cells 0x10100 code ++ tabs }

/-- Virtual-8086 mode with `CR4.VME = 1`: the start of V44; the redirection bit map lies at offset
68H of the TSS and its byte 4, which holds the bit of vector 21H, is given. -/
def vme (flags : Word32) (mapByte : Byte) : State :=
  { v86 flags [] [] with
    cr4 := ⟨true, false⟩, rsp := 0x200#64
    mem := cells 0x84 [0x34#8, 0x12#8, 0x78#8, 0x56#8] ++ cells 0x10100 [0xCD#8, 0x21#8] ++
      tables32 ++ cells 0x200066 [0x88#8, 0x00#8] ++ cells 0x20006C [mapByte] }

/-- The tables of section 2.5; the gate of vector 30H is like that of vector 6. -/
def tables64 : Memory :=
  cells 0xFFFF800000001010
    [0x00#8, 0x10#8, 0x10#8, 0x00#8, 0x01#8, 0x8E#8, 0x00#8, 0x81#8, 0xFF#8, 0xFF#8, 0xFF#8,
     0xFF#8] ++
    cells 0xFFFF800000001060
      [0x00#8, 0x60#8, 0x10#8, 0x00#8, 0x00#8, 0x8E#8, 0x00#8, 0x81#8, 0xFF#8, 0xFF#8, 0xFF#8,
       0xFF#8] ++
    cells 0xFFFF800000001300
      [0x00#8, 0x60#8, 0x10#8, 0x00#8, 0x00#8, 0x8E#8, 0x00#8, 0x81#8, 0xFF#8, 0xFF#8, 0xFF#8,
       0xFF#8] ++
    cells 0xFFFF800000001800
      [0x00#8, 0x00#8, 0x10#8, 0x00#8, 0x00#8, 0xEE#8, 0x00#8, 0x81#8, 0xFF#8, 0xFF#8, 0xFF#8,
       0xFF#8] ++
    cells 0xFFFF800000002010 [0x00#8, 0x00#8, 0x00#8, 0x00#8, 0x00#8, 0x9A#8, 0x20#8, 0x00#8] ++
    cells 0xFFFF800000003004 [0x08#8, 0x00#8, 0x01#8, 0x00#8, 0x00#8, 0x80#8, 0xFF#8, 0xFF#8] ++
    cells 0xFFFF800000003024 [0x00#8, 0x00#8, 0x02#8, 0x00#8, 0x00#8, 0x80#8, 0xFF#8, 0xFF#8]

/-- 64-bit mode, CPL 3: the start state of V30. -/
def long3 (code : List Byte) : State :=
  { State.reset with
    cr0 := ⟨true, false, false⟩, lma := true
    cs := ⟨0x33#16, flat 0xA#4 3#2 true false⟩
    ss := ⟨0x2B#16, flat 0x2#4 3#2 false true⟩
    cpl := 3#2, rip := 0x401000#64, rsp := 0x00007FFFFFFFE018#64, eflags := 0x202#32
    idtr := ⟨0xFFFF800000001000#64, 0xFFF#16⟩, gdtr := ⟨0xFFFF800000002000#64, 0x7F#16⟩
    tr := ⟨0x40#16, 0xFFFF800000003000#64, 0x67#32, .tss32⟩
    mem := cells 0x401000 code ++ tables64 }

/-- 64-bit mode, CPL 0: the start state of V31 and V32, with a given stack pointer and code. -/
def long0 (rsp : Word64) (code : List Byte) : State :=
  { long3 [] with
    cs := ⟨0x10#16, flat 0xA#4 0#2 true false⟩
    ss := ⟨0x18#16, flat 0x2#4 0#2 false true⟩
    cpl := 0#2, rip := 0xFFFFFFFF81000100#64, rsp := rsp, eflags := 0x246#32
    mem := tables64 ++ cells 0xFFFFFFFF81000100 code }

/-- Shadow stacks and end-branch tracking on at every level (section 2.7). -/
def withCet (s : State) (ssp pl0 : Word64) (m : Memory) : State :=
  { s with cr4 := ⟨false, true⟩, sCet := 5#64, uCet := 5#64, ssp := ssp, pl0Ssp := pl0, mem := m }

/-! The well-formedness check. -/

theorem test_wellFormed_refuses_wide_immediate : (Instr.intImm8 false 256).wellFormed = false := by
  decide

theorem test_wellFormed_accepts_last_vector : (Instr.intImm8 true 255).wellFormed = true := by
  decide

/-! Decoding: V1 to V9a. -/

theorem test_decode_int3 : decode [0b11001100#8] = .instr (.int3 false) 1 := by decide

theorem test_decode_intImm8_is_unsigned :
    decode [0b11001101#8, 0b11111111#8] = .instr (.intImm8 false 255) 2 := by decide

theorem test_decode_cd03_is_no_int3 : decode [0xCD#8, 0x03#8] = .instr (.intImm8 false 3) 2 := by
  decide

theorem test_decode_into : decode [0b11001110#8] = .instr (.into false) 1 := by decide

theorem test_decode_int1 : decode [0b11110001#8] = .instr (.int1 false) 1 := by decide

theorem test_decode_lock :
    decode [0xF0#8, 0xCC#8] = .instr (.int3 true) 2 ∧
      decode [0xF0#8, 0xCD#8, 0x21#8] = .instr (.intImm8 true 0x21) 3 ∧
      decode [0xF0#8, 0xCE#8] = .instr (.into true) 2 ∧
      decode [0xF0#8, 0xF1#8] = .instr (.int1 true) 2 := by decide

theorem test_decode_other_bytes_are_outside :
    decode [0x66#8, 0xCC#8] = .outside 0x66#8 ∧
      decode [0xF3#8, 0xCD#8, 0x21#8] = .outside 0xF3#8 ∧
      decode [0x90#8] = .outside 0x90#8 := by decide

theorem test_decode_table_words :
    decodeTableWord 8 0xCC = some (.int3 false) ∧
      decodeTableWord 16 0x21CD = some (.intImm8 false 0x21) ∧
      decodeTableWord 8 0xCE = some (.into false) ∧
      decodeTableWord 8 0xF1 = some (.int1 false) := by decide

/-! One step. -/

/-- V10: the frame, the transfer and the flags in real-address mode. -/
theorem test_intImm8_real_address_mode :
    (nextOf (step (real [0xCD#8, 0x21#8]))).map (fun t => (t.cs.sel, t.cs.hid.base, t.rip)) =
        some (0x5678#16, 0x56780#64, 0x1234#64) ∧
      (nextOf (step (real [0xCD#8, 0x21#8]))).map (fun t => (t.eflags, t.rsp, t.value 2 0x201FE#64,
          t.value 2 0x201FC#64, t.value 2 0x201FA#64)) =
        some (0x2#32, 0x1FA#64, 0x202#64, 0x1000#64, 0x102#64) := by
  decide

/-- V22: the gate-DPL check fails, and `#GP` is delivered through gate 13 with its error code. -/
theorem test_intImm8_gate_dpl :
    raised (deliver (intNEvent 0x30) (ring3 tables32 [0xCD#8, 0x30#8])) =
        some ⟨.gp, some 0x182#32, none⟩ ∧
      (nextOf (step (ring3 tables32 [0xCD#8, 0x30#8]))).map (fun t =>
          (t.rsp, t.rip, t.eflags, t.cs.sel, t.ss.sel, t.cpl)) =
        some (0x2FFFE8#64, 0x405000#64, 0x2#32, 0x8#16, 0x10#16, 0#2) := by
  decide

/-- V41: from virtual-8086 mode to ring 0, whatever `IOPL` is. -/
theorem test_int3_from_virtual8086 :
    (nextOf (step (v86 0x20202#32 tables32 [0xCC#8]))).map (fun t =>
        (t.rsp, t.rip, t.eflags, t.cs.sel, t.ss.sel, t.cpl)) =
      some (0x2FFFDC#64, 0x404000#64, 0x202#32, 0x8#16, 0x10#16, 0#2) ∧
    (nextOf (step (v86 0x20202#32 tables32 [0xCC#8]))).map (fun t =>
        (t.ds.sel, t.es.sel, t.fs.sel, t.gs.sel)) = some (0#16, 0#16, 0#16, 0#16) := by
  decide

/-- P2, step 1: through a trap gate, which keeps `IF`. -/
theorem test_int3_inter_privilege :
    (nextOf (step (ring3 tables32 [0xCC#8]))).map (fun t =>
        (t.rsp, t.rip, t.eflags, t.cs.sel, t.ss.sel, t.cpl)) =
      some (0x2FFFEC#64, 0x404000#64, 0x202#32, 0x8#16, 0x10#16, 0#2) := by
  decide

/-- V10c: taken with `OF = 1`, which stays set; with `OF = 0` only the pointer moves. -/
theorem test_into_tests_overflow :
    (nextOf (step { real [0xCE#8] with eflags := 0xA02#32 })).map (fun t =>
        (t.rip, t.cs.sel, t.eflags, t.rsp, t.value 2 0x201FA#64)) =
      some (0x2000#64, 0x3000#16, 0x802#32, 0x1FA#64, 0x101#64) ∧
    nextOf (step (real [0xCE#8])) = some { real [0xCE#8] with rip := 0x101#64, draws := 1 } := by
  decide

/-- P3, step 2: `#UD` in 64-bit mode although `OF = 0`, on the stack rounded down to 16. -/
theorem test_into_is_invalid_in_64_bit_mode :
    (nextOf (step { long0 0xFFFF80000001FFD8#64 [0xCE#8] with eflags := 2#32 })).map (fun t =>
        (t.rsp, t.rip, t.eflags, t.cs.sel)) =
      some (0xFFFF80000001FFA8#64, 0xFFFFFFFF81006000#64, 2#32, 0x10#16) := by
  decide

/-- V23: no gate-DPL check; and `DR6` is not written. -/
theorem test_int1_skips_gate_dpl :
    (nextOf (step (ring3 tables32 [0xF1#8]))).map (fun t =>
        (t.rsp, t.rip, t.eflags, t.cpl, t.dr6)) =
      some (0x2FFFEC#64, 0x403000#64, 0x2#32, 0#2, State.reset.dr6) := by
  decide

/-- V31: an IST stack with no privilege change. -/
theorem test_int1_interrupt_stack_table :
    (nextOf (step (long0 0xFFFF80000000FF00#64 [0xF1#8]))).map (fun t =>
        (t.rsp, t.rip, t.eflags, t.ss.sel, t.cpl)) =
      some (0xFFFF80000001FFD8#64, 0xFFFFFFFF81001000#64, 0x46#32, 0x18#16, 0#2) := by
  decide

/-- V11 to V19. -/
theorem test_errorCode :
    errorCode 13 true false = 0x6A#32 ∧ errorCode 0x80 true false = 0x402#32 ∧
      errorCode 255 true true = 0x7FB#32 ∧ errorCode 0x1B false true = 0x19#32 ∧
      errorCode 0x1234 false false = 0x1234#32 ∧ errorCode 0xFFFF false true = 0xFFFD#32 := by
  decide

/-! Witnesses: encoding and step. -/

theorem witness_DecodeOfEncodeIsTheInstruction : (Instr.intImm8 true 255).wellFormed = true := by
  decide

theorem witness_DecodedBytesAreTheEncoding :
    decode [0xCD#8, 0xFF#8, 0x90#8] = .instr (.intImm8 false 255) 2 := by decide

theorem witness_OpcodesOutsideTheEntryAreRefused :
    (real [0x90#8]).legalModes = true ∧
      nextEvent (real [0x90#8]).interruptFlag (real [0x90#8]).pending = none ∧
      (real [0x90#8]).endbranchWaits = false ∧ fetchByte (real [0x90#8]).tick 0 = .ok 0x90#8 ∧
      fetchByte (real [0xF0#8, 0x90#8]).tick 0 = .ok 0xF0#8 ∧
      fetchByte (real [0xF0#8, 0x90#8]).tick 1 = .ok 0x90#8 := by decide

theorem witness_StepRunsTheDecodedInstruction :
    (real [0xCD#8, 0x21#8]).legalModes = true ∧ (Instr.intImm8 false 0x21).wellFormed = true ∧
      nextEvent (real [0xCD#8, 0x21#8]).interruptFlag (real [0xCD#8, 0x21#8]).pending = none ∧
      (real [0xCD#8, 0x21#8]).endbranchWaits = false ∧
      ∀ j b, (encode (.intImm8 false 0x21))[j]? = some b →
        fetchByte (real [0xCD#8, 0x21#8]).tick j = .ok b := by
  refine ⟨by decide, by decide, by decide, by decide, fun j b h => ?_⟩
  match j, h with
  | 0, h => cases h; decide
  | 1, h => cases h; decide
  | n + 2, h => cases h

/-- The second byte of `CD 21` in real-address mode, at the last offset, and in 64-bit mode at the last
canonical address of the lower half. -/
theorem witness_FetchedBytesOfTheInstruction :
    (PlainMemory (real [0xCD#8, 0x21#8]) ∧ (real []).mode64 = false ∧
      0x100 = (real []).rip.toNat % (if (real []).cs.hid.db then 2 ^ 32 else 2 ^ 16) ∧
      0x100 + 1 ≤ (real []).cs.hid.limit.toNat ∧ 0x100 + 0xFEFF ≤ (real []).cs.hid.limit.toNat ∧
      ((real []).cs.hid.base.toNat + 0x100) % 2 ^ 32 + 0xFEFF < 2 ^ 32 ∧
      fetchByte (real [0xCD#8, 0x21#8]) 1 = .ok 0x21#8) ∧
    PlainMemory (long3 []) ∧ (long3 []).mode64 = true ∧ 0x00007FFFFFFFFFFE + 1 < 2 ^ 64 ∧
      (long3 []).canonical (0x00007FFFFFFFFFFE#64 + BitVec.ofNat 64 1) = true :=
  ⟨⟨plain_of (by decide) (by decide) (by decide), by decide⟩,
    plain_of (by decide) (by decide) (by decide), by decide⟩

/-- A masked interrupt before an NMI. -/
def twoPending : State :=
  { real [0xCE#8] with eflags := 2#32, pending := [.interrupt 8#8, .nmi] }

theorem witness_PendingEventIsDelivered :
    twoPending.legalModes = true ∧ twoPending.pending = [.interrupt 8#8] ++ .nmi :: [] ∧
      (∀ x ∈ [ExternalEvent.interrupt 8#8], x.takeable twoPending.interruptFlag = false) ∧
      ExternalEvent.nmi.takeable twoPending.interruptFlag = true ∧
      ∃ t, deliver ExternalEvent.nmi.event
        (twoPending.tick.setPending ([.interrupt 8#8] ++ [])) = .ok t :=
  ⟨by decide, by decide, by decide, by decide, okay_ok (by decide)⟩

/-- A masked interrupt alone. -/
def onePending : State := { real [0xCE#8] with eflags := 2#32, pending := [.interrupt 8#8] }

theorem witness_MaskedInterruptsStayPending :
    onePending.interruptFlag = false ∧ (∀ e ∈ onePending.pending, e ≠ .nmi) ∧
      ∃ t, step onePending = .next t :=
  ⟨by decide, by decide, nextOf_next (by decide)⟩

/-- One state for each disjunct: `LMA` without `PE`, `LMA` with `VM`, `VM` without `PE`, `VM` with
`CPL` 0, `CPL` 3 in real-address mode, a limit and a base that real-address mode does not have. -/
theorem witness_IllegalModesAreRefused :
    ({ real [] with lma := true }.cr0.pe = false) ∧
      { long3 [] with eflags := 0x20002#32 }.vm = true ∧
      { real [] with eflags := 0x20002#32 }.vm = true ∧
      { ring0 tables32 [] with eflags := 0x20002#32 }.vm = true ∧
      (ring0 tables32 []).cpl ≠ 3#2 ∧ { real [] with cpl := 3#2 }.cpl ≠ 0#2 ∧
      ((real []).cr0.pe = false ∧ (real []).ss.sel = 0x2000#16 ∧
        { Hidden.afterReset with base := 0x20000#64, limit := 0x1FE#32 }.limit ≠ 0xFFFF#32 ∧
        (0x20010#64).toNat ≠ 16 * (0x2000#16).toNat) := by decide

/-- Code ending at the last byte a 16-bit instruction pointer reaches. -/
def lastBytes (code : List Byte) : State :=
  { real [] with rip := 0x10000#64 - BitVec.ofNat 64 code.length,
                 mem := cells (0x20000 - code.length) code }

/-- 32-bit code whose first byte lies at linear address FFFFFFFFH, its second inside the limit of `CS`. -/
def topByte (b : Byte) : State :=
  { ring0 tables32 [] with cs := ⟨8#16, { flat 0xA#4 0#2 false true with base := 0x10#64 }⟩,
                           rip := 0xFFFFFFEF#64, mem := [(0xFFFFFFFF, b)] }

/-- 64-bit code at the last canonical address of the lower half, and at the last of all. -/
def endByte (rip : Word64) (b : Byte) : State :=
  { long0 0#64 [] with rip := rip, mem := [(rip.toNat, b)] }

/-- The pointer's width, also with the immediate alone outside; the limit of `CS`; 4 GiB; in 64-bit mode
a gap in the canonical addresses, and the top. -/
theorem witness_StraddlingInstructionIsRefused :
    (fetchByte (lastBytes [0xCD#8]).tick 0 = .ok 0xCD#8 ∧
      fetchByte (lastBytes [0xF0#8]).tick 0 = .ok 0xF0#8 ∧
      fetchByte (lastBytes [0xF0#8, 0xCD#8]).tick 0 = .ok 0xF0#8 ∧
      fetchByte (lastBytes [0xF0#8, 0xCD#8]).tick 1 = .ok 0xCD#8 ∧
      (lastBytes [0xF0#8, 0xCD#8]).mode64 = false ∧
      (lastBytes [0xF0#8, 0xCD#8]).cs.hid.db = false ∧
      2 ^ 16 ≤ (lastBytes [0xF0#8, 0xCD#8]).rip.toNat + 2) ∧
    ((lastBytes [0xCD#8]).legalModes = true ∧ (lastBytes [0xCD#8]).endbranchWaits = false ∧
      nextEvent (lastBytes [0xCD#8]).interruptFlag (lastBytes [0xCD#8]).pending = none ∧
      (lastBytes [0xCD#8]).cs.hid.limit.toNat < 0xFFFF + 1) ∧
    (fetchByte (topByte 0xCD#8).tick 0 = .ok 0xCD#8 ∧
      2 ^ 32 ≤ (0x10 + (topByte 0xCD#8).rip.toNat) % 2 ^ 32 + 1 ∧
      ¬(topByte 0xCD#8).cs.hid.limit.toNat < (topByte 0xCD#8).rip.toNat + 1) ∧
    (fetchByte (endByte 0x00007FFFFFFFFFFF#64 0xCD#8).tick 0 = .ok 0xCD#8 ∧
      (endByte 0x00007FFFFFFFFFFF#64 0xCD#8).canonical 0x0000800000000000#64 = false) ∧
    fetchByte (endByte 0xFFFFFFFFFFFFFFFF#64 0xF0#8).tick 0 = .ok 0xF0#8 ∧
    2 ^ 64 ≤ (0xFFFFFFFFFFFFFFFF#64).toNat + 1 := by decide

/-- CPL 0 in 64-bit mode with the tracker of the level waiting. -/
def waiting : State :=
  { withCet (long0 0xFFFF80000000FF00#64 [0xCC#8]) 0#64 0#64 tables64 with sCet := 0x805#64 }

theorem witness_WaitingTrackerRefusesTheInstruction :
    waiting.legalModes = true ∧ nextEvent waiting.interruptFlag waiting.pending = none ∧
      waiting.endbranchEnabled waiting.cpl = true ∧
      (waiting.cetReg waiting.cpl).getLsbD 11 = true := by decide

/-! Witnesses: the instructions. -/

theorem witness_IntoNotTakenOnlyAdvances :
    (real [0xCE#8]).mode64 = false ∧ (real [0xCE#8]).eflags.getLsbD 11 = false := by decide

theorem witness_IntoIsInvalidIn64BitMode :
    (long3 [0xCE#8]).lma = true ∧ (long3 [0xCE#8]).cs.hid.l = true ∧
      (∃ t, deliver ⟨6, .exception, none⟩ (long3 [0xCE#8]) = .ok t) ∧
      ∃ d, deliver ⟨6, .exception, none⟩
          { long3 [] with idtr := ⟨0xFFFF800000001000#64, 0x6E#16⟩ } =
        .error (.raise ⟨.gp, some 0x33#32, none⟩ d) :=
  ⟨by decide, by decide, okay_ok (by decide), raised_error (by decide)⟩

/-- Real-address mode with too small a vector table. -/
def smallTable (limit : Word16) : State := { real [0xCD#8, 0x21#8] with idtr := ⟨0#64, limit⟩ }

theorem witness_LockRaisesInvalidOpcode :
    (Instr.intImm8 true 0x21).locked = true ∧
      (∃ t, deliver ⟨6, .exception, none⟩ (real []) = .ok t) ∧
      ∃ d, deliver ⟨6, .exception, none⟩ (smallTable 0x1A#16) =
        .error (.raise ⟨.gp, none, none⟩ d) :=
  ⟨by decide, okay_ok (by decide), raised_error (by decide)⟩

theorem witness_Int1UnderHardwareDebugIsRefused :
    { real [] with cfg := { State.reset.cfg with int1HwDebug := true } }.cfg.int1HwDebug = true ∧
      (real []).cfg.int1HwDebug = false ∧
      ∃ t, deliver ⟨1, .int1, none⟩ ((real []).setRip (nextIp (real []) 1)) = .ok t :=
  ⟨by decide, by decide, okay_ok (by decide)⟩

theorem witness_OneByteAndTwoByteBreakpointAgree :
    (real []).cr0.pe = false ∧ (ring3 tables32 []).cr0.pe = true ∧
      (ring3 tables32 []).vm = false := by decide

theorem witness_NextPointerWrapsAtItsWidth :
    (long3 []).mode64 = true ∧ (ring0 tables32 []).mode64 = false ∧
      (ring0 tables32 []).cs.hid.db = true ∧ (real []).mode64 = false ∧
      (real []).cs.hid.db = false := by decide

/-! Witnesses: real-address and virtual-8086 mode. -/

theorem witness_RealModeDeliveryCompletes :
    (real []).cr0.pe = false ∧ (real []).lma = false ∧ PlainMemory (real []) ∧
      4 * (intNEvent 255).vector + 3 ≤ (real []).idtr.limit.toNat ∧
      6 ≤ (low16 (real []).rsp).toNat ∧
      (real []).ss.hid.hasRoom .sp (low16 (real []).rsp).toNat 6 = true :=
  ⟨by decide, by decide, plain_of (by decide) (by decide) (by decide), by decide, by decide,
    by decide⟩

theorem witness_TrapsCompleteInRealAddressMode :
    (∀ i ∈ [Instr.int3 false, .intImm8 false 255, .int1 false], i.wellFormed = true ∧
        traps i (real []) = true ∧ 4 * (trapEvent i).vector + 3 ≤ (real []).idtr.limit.toNat) ∧
      traps (.into false) { real [] with eflags := 0xA02#32 } = true ∧
      PlainMemory { real [] with eflags := 0xA02#32 } ∧
      { real [] with eflags := 0xA02#32 }.ss.hid.hasRoom .sp 0x200 6 = true :=
  ⟨by decide, by decide, plain_of (by decide) (by decide) (by decide), by decide⟩

/-- A stack segment with a limit of 1FEH. -/
def shortStack : Hidden := { Hidden.afterReset with limit := 0x1FE#32 }

/-- An expand-down stack segment, whose bytes lie above 1FEH. -/
def downStack : Hidden := { shortStack with typ := 7#4 }

/-- V10b: limit 86H is one byte too small for vector 21H, limit 87H is enough. -/
theorem witness_RealModeChecks :
    (smallTable 0x86#16).cr0.pe = false ∧
      (smallTable 0x86#16).idtr.limit.toNat < 4 * (intNEvent 0x21).vector + 3 ∧
      4 * (intNEvent 0x21).vector + 3 ≤ (smallTable 0x87#16).idtr.limit.toNat ∧
      ((smallTable 0x87#16).setRsp 5#64).rsp.toNat % 2 ^ 16 < 6 ∧
      6 ≤ ((smallTable 0x87#16).setRsp 6#64).rsp.toNat % 2 ^ 16 ∧
      shortStack.limit.toNat < 0x200 - 1 ∧
      (downStack.s = true ∧ downStack.typ.getLsbD 3 = false ∧ downStack.typ.getLsbD 2 = true ∧
        0x200 - 6 ≤ downStack.limit.toNat) := by decide

theorem witness_ReturnPopsTheRealModeFrame :
    (real []).cr0.pe = false ∧ (real []).lma = false ∧ PlainMemory (real []) ∧
      ∃ u, deliver (intNEvent 0x21) (real []) = .ok u :=
  ⟨by decide, by decide, plain_of (by decide) (by decide) (by decide), okay_ok (by decide)⟩

/-- V40. -/
theorem witness_Virtual8086IoplCheck :
    (v86 0x20202#32 tables32 []).cr0.pe = true ∧ (v86 0x20202#32 tables32 []).vm = true ∧
      (v86 0x20202#32 tables32 []).cr4.vme = false ∧
      (v86 0x20202#32 tables32 []).iopl ≠ 3#2 := by decide

theorem witness_OtherTrapsSkipTheVirtual8086Tests :
    (v86 0x20202#32 tables32 []).cr0.pe = true ∧ (v86 0x20202#32 tables32 []).lma = false ∧
      ∀ l n, Instr.int3 false ≠ .intImm8 l n :=
  ⟨by decide, by decide, fun _ _ => by simp⟩

/-- V44 with the bit map placed by its offset in the TSS, and nowhere. -/
def vmeAt (map : RedirectionMap) : State :=
  { vme 0x23202#32 0#8 with cfg := { State.reset.cfg with redirectionMap := map } }

theorem test_redirectionMap_in_tss :
    redirectionBit 0x21 (vmeAt (.inTss 0x68)) = .ok false ∧
      redirectionBit 0x21 { vme 0x23202#32 2#8 with cfg := (vmeAt (.inTss 0x68)).cfg } = .ok true := by
  decide

/-- The same with a 16-bit TSS, whose redirection bit is a free value. -/
def vme16 : State := { vme 0x23202#32 0#8 with tr := ⟨0x28#16, 0x200000#64, 0x67#32, .tss16⟩ }

theorem bit_cases : redirectionBit 0x21 vme16 = .ok false ∨ redirectionBit 0x21 vme16 = .ok true := by
  show Except.ok (Config.redirectionBit 0 0x21) = _ ∨ Except.ok (Config.redirectionBit 0 0x21) = _
  cases Config.redirectionBit 0 0x21
  · exact .inl rfl
  · exact .inr rfl

/-- V44 (a); its room is that of a limit of FFFFH. With a 16-bit TSS the bit is clear for one of the two
answers the free value may give. -/
theorem witness_VmeRedirectionCompletes :
    (vme 0x23202#32 0#8).cr0.pe = true ∧ (vme 0x23202#32 0#8).lma = false ∧
      (vme 0x23202#32 0#8).vm = true ∧ (vme 0x23202#32 0#8).cr4.vme = true ∧
      (intNEvent 0x21).kind = .intN ∧ PlainMemory (vme 0x23202#32 0#8) ∧
      redirectionBit 0x21 (vme 0x23202#32 0#8) = .ok false ∧
      (redirectionBit 0x21 vme16 = .ok false ∨ redirectionBit 0x21 vme16 = .ok true) ∧
      6 ≤ (low16 (vme 0x23202#32 0#8).rsp).toNat ∧
      (vme 0x23202#32 0#8).ss.hid.hasRoom .sp (low16 (vme 0x23202#32 0#8).rsp).toNat 6 = true :=
  ⟨by decide, by decide, by decide, by decide, by decide,
    plain_of (by decide) (by decide) (by decide), by decide, bit_cases, by decide, by decide⟩

/-- V45: bit 21H set, `IOPL` 3 and 0. -/
theorem witness_VmeRedirectionBitSet :
    (vme 0x23202#32 2#8).cr0.pe = true ∧ (vme 0x23202#32 2#8).vm = true ∧
      (vme 0x23202#32 2#8).cr4.vme = true ∧
      redirectionBit 0x21 (vme 0x23202#32 2#8) = .ok true ∧
      (vme 0x23202#32 2#8).iopl = 3#2 ∧ (vme 0x23202#32 2#8).lma = false ∧
      redirectionBit 0x21 (vme 0x20202#32 2#8) = .ok true ∧
      (vme 0x20202#32 2#8).iopl ≠ 3#2 := by decide

/-- V44 with `SP` 5, and with a stack limit of 1FEH. -/
theorem witness_VmeRedirectionNeedsRoom :
    redirectionBit 0x21 ((vme 0x20202#32 0#8).setRsp 5#64) = .ok false ∧
      (low16 ((vme 0x20202#32 0#8).setRsp 5#64).rsp).toNat < 6 ∧
      redirectionBit 0x21 ((vme 0x20202#32 0#8).setSs ⟨0x2000#16, shortStack⟩) = .ok false ∧
      shortStack.hasRoom .sp 0x200 6 = false := by decide

theorem witness_RedirectionImageBits : (0 : Nat) < 16 ∧ (15 : Nat) < 16 := by decide

/-- V10: `IF` is cleared. -/
theorem witness_FlagsAreOnlyCleared :
    ∃ t, Runs (real [0xCD#8, 0x21#8]) t := by
  obtain ⟨t, h⟩ := nextOf_next (o := step (real [0xCD#8, 0x21#8])) (by decide)
  exact ⟨t, by decide, .inl h⟩

/-! Witnesses: gates and code segments. -/

theorem reaches_of {ev : Event} {s : State} (hp : s.cr0.pe = true) (hv : s.vm = false)
    (hk : ev.kind ≠ .into) : ReachesIdt ev s :=
  ⟨hp, fun h => by simp [hv] at h, fun _ => hk⟩

/-- V45 for vector 3: `CR4.VME = 1`, `IOPL = 3` and the bit of vector 3 set, with the gates of section
2.4. -/
def vme3 : State :=
  { v86 0x23202#32 [] [] with
    cr4 := ⟨true, false⟩
    mem := tables32 ++ cells 0x200066 [0x88#8, 0x00#8, 0x08#8] }

theorem reaches_vme : ReachesIdt (intNEvent 3) vme3 :=
  ⟨by decide, fun _ _ => by decide, fun h => absurd h (by decide)⟩

/-- With a map that has no location, one answer of the free value makes the event reach the IDT. -/
theorem reaches_vme16 (h : redirectionBit 0x21 vme16 = .ok true) :
    ReachesIdt (intNEvent 0x21) vme16 :=
  ⟨by decide, fun _ _ => ⟨by decide, fun _ => ⟨by decide, h⟩⟩, fun h => absurd h (by decide)⟩

/-- V36: limit 7FFH for vector 80H in IA-32e mode; a table base that is not canonical; an entry of
zeros; V22: DPL 0 below CPL 3; V24: the present bit clear. -/
theorem witness_GateChecksInOrder :
    (ReachesIdt (intNEvent 0x80) { long3 [] with idtr := ⟨0xFFFF800000001000#64, 0x7FF#16⟩ } ∧
      { long3 [] with idtr := ⟨0xFFFF800000001000#64, 0x7FF#16⟩ }.idtInLimits 0x80 = false) ∧
    (ReachesIdt (intNEvent 3) vme3 ∧ vme3.vm = true ∧ vme3.cr4.vme = true) ∧
    (16 * 0x7F + 15 ≤ 0x7FF ∧ 0x7FF < 16 * 0x80 + 15 ∧ 8 * 0xFF + 7 ≤ 0x7FF ∧ 0x7FE < 8 * 0xFF + 7) ∧
    ({ long3 [] with idtr := ⟨0x0000800000000000#64, 0xFFF#16⟩ }.canonical
      (0x0000800000000000#64 + BitVec.ofNat 64 (16 * 0x80) + BitVec.ofNat 64 0) = false) ∧
    GateRead (intNEvent 0x31) ⟨none, 0#2, false, 0#16, 0#64, 0#3⟩ (ring0 tables32 []) ∧
    (GateRead (intNEvent 0x30)
        ⟨some (.procedure .bits32 false), 0#2, true, 8#16, 0x401000#64, 0#3⟩ (ring3 tables32 []) ∧
      (0#2 < (ring3 tables32 []).cpl)) ∧
    GateRead (intNEvent 0x30)
      ⟨some (.procedure .bits32 false), 0#2, false, 8#16, 0x401000#64, 0#3⟩
      (ring0 (tables gate3 absent30 code0 data0 [] [] []) []) :=
  ⟨⟨reaches_of (by decide) (by decide) (by decide), by decide⟩, ⟨reaches_vme, by decide⟩, by decide,
    by decide, ⟨by decide, by decide, by decide⟩, ⟨⟨by decide, by decide, by decide⟩, by decide⟩,
    ⟨by decide, by decide, by decide⟩⟩

/-- V25, V26, V27, V35 and a code segment whose present bit is clear; `INT1` through gate 1, of DPL 0, at
CPL 3, passes (V23). -/
theorem witness_CodeSegmentChecksInOrder :
    (GateRead int1Event ⟨some (.procedure .bits32 false), 0#2, true, 8#16, 0x403000#64, 0#3⟩
        (ring3 tables32 []) ∧ ReachesIdt int1Event (ring3 tables32 []) ∧
      (0#2 < (ring3 tables32 []).cpl) ∧ int1Event.kind ≠ .intN) ∧
    (3#16).toNat < 4 ∧ 4 ≤ (0x100#16).toNat ∧
      (ring0 tables32 []).limitFor 0x100#16 < 8 * (0x100 / 8) + 7 ∧
      8 * (0xF8 / 8) + 7 ≤ (ring0 tables32 []).limitFor 0xF8#16 ∧
      { long3 [] with gdtr := ⟨0x0000800000000000#64, 0x7F#16⟩ }.canonical
        ({ long3 [] with gdtr := ⟨0x0000800000000000#64, 0x7F#16⟩ }.placeFor 0x10#16 +
          BitVec.ofNat 64 0) = false ∧
      8 * (0x10 / 8) + 7 ≤ (ring0 tables32 []).limitFor 0x10#16 ∧
      (readDescriptor (ring0 tables32 []) .codeDescriptor 0x10#16 = .ok (flat 2#4 0#2 false true) ∧
        (flat 2#4 0#2 false true).typ.getLsbD 3 = false) ∧
      (0#2 < (flat 0xA#4 3#2 false true).dpl) ∧ (flat 0xA#4 0#2 false true).l = false ∧
      readDescriptor (ring0 (tables gate3 gate30 absentCode data0 [] [] []) []) .codeDescriptor
        8#16 = .ok { flat 0xA#4 0#2 false true with present := false } :=
  ⟨⟨⟨by decide, by decide, by decide⟩, reaches_of (by decide) (by decide) (by decide), by decide,
    by decide⟩, by decide⟩

/-- The target of gate 30H, of vector 3 and of vector 80H. -/
def target30 : Target :=
  ⟨.bits32, false, ⟨some (.procedure .bits32 false), 0#2, true, 8#16, 0x401000#64, 0#3⟩,
    flat 0xA#4 0#2 false true⟩

def target3 : Target :=
  ⟨.bits32, true, ⟨some (.procedure .bits32 true), 3#2, true, 8#16, 0x404000#64, 0#3⟩,
    flat 0xA#4 0#2 false true⟩

def target80 : Target :=
  ⟨.bits32, true, ⟨some (.procedure .bits32 true), 3#2, true, 8#16, 0x402000#64, 0#3⟩,
    flat 0xA#4 0#2 false true⟩

/-- The target of vector 1 in IA-32e mode, through `IST1`, and that of vector 30H, without IST. -/
def target1Long : Target :=
  ⟨.bits64, false,
    ⟨some (.procedure .bits64 false), 0#2, true, 0x10#16, 0xFFFFFFFF81001000#64, 1#3⟩,
    { flat 0xA#4 0#2 true false with limit := 0#32 }⟩

def target30Long : Target :=
  { target1Long with
    gate := ⟨some (.procedure .bits64 false), 0#2, true, 0x10#16, 0xFFFFFFFF81006000#64, 0#3⟩ }

def target80Long : Target :=
  { target1Long with
    gate := ⟨some (.procedure .bits64 false), 3#2, true, 0x10#16, 0xFFFFFFFF81000000#64, 0#3⟩ }

theorem opens_ring0 : Opens (intNEvent 0x30) target30 (ring0 tables32 []) :=
  ⟨reaches_of (by decide) (by decide) (by decide), ⟨by decide, by decide, by decide⟩, by decide,
    by decide, by decide, by decide, by decide, by decide, by decide, by decide, by decide⟩

theorem opens_ring3 : Opens (intNEvent 0x80) target80 (ring3 tables32 []) :=
  ⟨reaches_of (by decide) (by decide) (by decide), ⟨by decide, by decide, by decide⟩, by decide,
    by decide, by decide, by decide, by decide, by decide, by decide, by decide, by decide⟩

theorem opens_v86 : Opens int3Event target3 (v86 0x20202#32 tables32 []) :=
  ⟨⟨by decide, fun _ h => absurd h (by decide), fun _ => by decide⟩,
    ⟨by decide, by decide, by decide⟩,
    by decide, by decide, by decide, by decide, by decide, by decide, by decide, by decide,
    by decide⟩

/-- `CD 03` of a virtual-8086 task, with `CR4.VME = 1` and its redirection bit set. -/
theorem opens_vme : Opens (intNEvent 3) target3 vme3 :=
  ⟨reaches_vme, ⟨by decide, by decide, by decide⟩, by decide, by decide, by decide, by decide,
    by decide, by decide, by decide, by decide, by decide⟩

theorem opens_int1 : Opens int1Event target1Long (long0 0xFFFF80000000FF00#64 []) :=
  ⟨reaches_of (by decide) (by decide) (by decide), ⟨by decide, by decide, by decide⟩, by decide,
    by decide, by decide, by decide, by decide, by decide, by decide, by decide, by decide⟩

theorem opens_long0 : Opens (intNEvent 0x30) target30Long (long0 0xFFFF80000000FF08#64 []) :=
  ⟨reaches_of (by decide) (by decide) (by decide), ⟨by decide, by decide, by decide⟩, by decide,
    by decide, by decide, by decide, by decide, by decide, by decide, by decide, by decide⟩

theorem opens_long3 : Opens (intNEvent 0x80) target80Long (long3 []) :=
  ⟨reaches_of (by decide) (by decide) (by decide), ⟨by decide, by decide, by decide⟩, by decide,
    by decide, by decide, by decide, by decide, by decide, by decide, by decide, by decide⟩

/-- V43: gate 3 naming the ring-3 code segment 001BH. -/
def tables43 : Memory := tables
  [0x00#8, 0x40#8, 0x1B#8, 0x00#8, 0x00#8, 0xEF#8, 0x40#8, 0x00#8] gate30 code0 data0
  [0xFF#8, 0xFF#8, 0x00#8, 0x00#8, 0x00#8, 0xFA#8, 0xCF#8, 0x00#8] [] []

theorem witness_OpenGateRouting :
    (Opens (intNEvent 0x80) target80 (ring3 tables32 []) ∧ (0#2 < (ring3 tables32 []).cpl)) ∧
    (Opens (intNEvent 0x30) target30 (ring0 tables32 []) ∧ (ring0 tables32 []).cpl = 0#2) ∧
    (Opens int3Event target3 (v86 0x20202#32 tables32 []) ∧
      (0#2 < (v86 0x20202#32 tables32 []).cpl)) ∧
    (Opens (intNEvent 3) target3 vme3 ∧ (0#2 < vme3.cpl)) ∧
    Opens int3Event
      ⟨.bits32, true, ⟨some (.procedure .bits32 true), 3#2, true, 0x1B#16, 0x404000#64, 0#3⟩,
        flat 0xA#4 3#2 false true⟩ (v86 0x20202#32 tables43 []) :=
  ⟨⟨opens_ring3, by decide⟩, ⟨opens_ring0, by decide⟩, ⟨opens_v86, by decide⟩,
    ⟨opens_vme, by decide⟩,
    ⟨⟨by decide, fun _ h => absurd h (by decide), fun _ => by decide⟩,
    ⟨by decide, by decide, by decide⟩,
      by decide, by decide, by decide, by decide, by decide, by decide, by decide, by decide,
      by decide⟩⟩

/-- V29b: gate 30H a task gate for a selector, and the descriptor of 0030H. -/
def taskTables (g d30 : List Byte) : Memory := tables gate3 g code0 data0 [] d30 []

def taskGate30 (sel : Word16) : Gate := ⟨some .task, 0#2, true, sel, 0#64, 0#3⟩

def taskBytes : List Byte := [0x00#8, 0x00#8, 0x30#8, 0x00#8, 0x00#8, 0x85#8, 0x00#8, 0x00#8]

def nullTaskBytes : List Byte := [0x00#8, 0x00#8, 0x03#8, 0x00#8, 0x00#8, 0x85#8, 0x00#8, 0x00#8]

def localTaskBytes : List Byte := [0x00#8, 0x00#8, 0x34#8, 0x00#8, 0x00#8, 0x85#8, 0x00#8, 0x00#8]

/-- The descriptor of 0030H, with its byte 5 given. -/
def tss30 (b : Byte) : List Byte := [0x67#8, 0x00#8, 0x00#8, 0x00#8, 0x30#8, b, 0x00#8, 0x00#8]

theorem witness_TaskGateChecksThenRefusal :
    ReachesIdt (intNEvent 0x30) (ring0 (taskTables taskBytes []) []) ∧
    (GateRead (intNEvent 0x30) (taskGate30 0x3#16) (ring0 (taskTables nullTaskBytes []) []) ∧
      (0x3#16).toNat < 4) ∧
    (GateRead (intNEvent 0x30) (taskGate30 0x34#16)
        (ring0 (taskTables localTaskBytes []) []) ∧
      (0x34#16).getLsbD 2 = true) ∧
    (GateRead (intNEvent 0x30) (taskGate30 0x30#16) (ring0 (taskTables taskBytes []) []) ∧
      (0x30#16).getLsbD 2 = false ∧ 4 ≤ (0x30#16).toNat) ∧
    (0x36 < 8 * (0x30 / 8) + 7 ∧
      8 * (0x30 / 8) + 7 ≤ (ring0 (taskTables taskBytes []) []).gdtr.limit.toNat) ∧
    (readDescriptor (ring0 (taskTables taskBytes (tss30 0x8B#8)) []) .taskDescriptor
        0x30#16).toOption.map Hidden.isAvailableTss = some false ∧
    (readDescriptor (ring0 (taskTables taskBytes (tss30 0x09#8)) []) .taskDescriptor
        0x30#16).toOption.map (fun h => (h.isAvailableTss, h.present)) = some (true, false) ∧
    (readDescriptor (ring0 (taskTables taskBytes (tss30 0x89#8)) []) .taskDescriptor
        0x30#16).toOption.map (fun h => (h.isAvailableTss, h.present)) = some (true, true) :=
  ⟨reaches_of (by decide) (by decide) (by decide), ⟨⟨by decide, by decide, by decide⟩, by decide⟩,
    ⟨⟨by decide, by decide, by decide⟩, by decide⟩,
    ⟨⟨by decide, by decide, by decide⟩, by decide⟩, by decide, by decide, by decide, by decide⟩

/-! Witnesses: frames. -/

/-- The current TSS a 32-bit one, and a 16-bit one whose `SP0`, `SS0` the bytes 2 to 5 are. -/
theorem witness_NewStackFromTheTss :
    PlainMemory (ring3 tables32 []) ∧ (ring3 tables32 []).tr.format = .tss32 ∧
      (4 = 8 * (0#2).toNat + 4) ∧
      ((ring3 tables32 []).value 2 0x200008#64).setWidth 16 = 0x10#16 ∧
      DescriptorBytes ((ring3 tables32 []).bytesAt ((ring3 tables32 []).placeFor 0x10#16))
        (flat 2#4 0#2 false true) ∧
      { ring3 tables32 [] with tr := ⟨0x28#16, 0x200002#64, 0x67#32, .tss16⟩ }.value 2 0x200004#64 =
        0#64 :=
  ⟨plain_of (by decide) (by decide) (by decide), by decide, by decide, by decide,
    by constructor <;> decide, by decide⟩

theorem witness_NewStackFromThe64BitTss :
    PlainMemory (long3 []) ∧ (long3 []).lma = true ∧ target80Long.gate.ist = 0#3 ∧
      4 = 8 * target80Long.desc.dpl.toNat + 4 ∧ target1Long.gate.ist ≠ 0#3 ∧
      36 = 8 * target1Long.gate.ist.toNat + 28 ∧ 4 + 7 ≤ (long3 []).tr.limit.toNat ∧
      (∀ j, j < 8 → (long3 []).canonical ((long3 []).tr.base + BitVec.ofNat 64 4 +
        BitVec.ofNat 64 j) = true) ∧ (long3 []).canonical 0x0000800000000000#64 = false ∧
      { (long3 []).tr with limit := 0x2A#32 }.limit.toNat < 36 + 7 :=
  ⟨plain_of (by decide) (by decide) (by decide), by decide⟩

/-- V20. -/
theorem witness_IntraPrivilegeCompletes :
    Opens (intNEvent 0x30) target30 (ring0 tables32 []) ∧ (ring0 tables32 []).lma = false ∧
      (ring0 tables32 []).vm = false ∧ target30.desc.dpl = (ring0 tables32 []).cpl ∧
      PlainMemory (ring0 tables32 []) ∧ CetOff (ring0 tables32 []) ∧
      target30.aligned 3 (ring0 tables32 []) ∧
      (4 * 3 ≤ (ring0 tables32 []).rsp.toNat % 2 ^ 32 ∧ 2 * 3 ≤ (real []).rsp.toNat % 2 ^ 16 ∧
        8 * 5 ≤ (long3 []).rsp.toNat % 2 ^ 64) ∧
      4 * 3 ≤ (((ring0 tables32 []).ptrWidth 4).trunc (ring0 tables32 []).rsp).toNat ∧
      (ring0 tables32 []).ss.hid.hasRoom ((ring0 tables32 []).ptrWidth 4) 0x9FFF0 12 = true ∧
      target30.gate.offset.toNat ≤ target30.desc.limit.toNat ∧
      target30.size.width * (3 + (intNEvent 0x30).codeSlots.length) = 12 :=
  ⟨opens_ring0, by decide, by decide, by decide, plain_of (by decide) (by decide) (by decide),
    .of_cr4 rfl rfl rfl, fun h => absurd h (by decide), by decide, by decide, by decide, by decide,
    by decide⟩

/-- V31 (IST 1) and V32 (IST 0, a pointer that is not a multiple of 16). -/
theorem witness_IntraPrivilege64Completes :
    (Opens int1Event target1Long (long0 0xFFFF80000000FF00#64 []) ∧
      newStack64 int1Event 36 (long0 0xFFFF80000000FF00#64 []) = .ok 0xFFFF800000020000#64 ∧
      ∀ j, j < 40 → (long0 0xFFFF80000000FF00#64 []).canonical
        ((0xFFFF800000020000#64 &&& ~~~15#64) - BitVec.ofNat 64 40 + BitVec.ofNat 64 j) = true) ∧
    Opens (intNEvent 0x30) target30Long (long0 0xFFFF80000000FF08#64 []) ∧
      (long0 0xFFFF80000000FF08#64 []).lma = true ∧
      target30Long.desc.dpl = (long0 0xFFFF80000000FF08#64 []).cpl ∧
      PlainMemory (long0 0xFFFF80000000FF08#64 []) ∧
      CetOff (long0 0xFFFF80000000FF08#64 []) ∧
      (∀ j, j < 40 → (long0 0xFFFF80000000FF08#64 []).canonical
        ((0xFFFF80000000FF08#64 &&& ~~~15#64) - BitVec.ofNat 64 40 + BitVec.ofNat 64 j) = true) ∧
      (long0 0xFFFF80000000FF08#64 []).canonical target30Long.gate.offset = true :=
  ⟨⟨opens_int1, by decide, by decide⟩, opens_long0, by decide, by decide,
    plain_of (by decide) (by decide) (by decide), .of_cr4 rfl rfl rfl, by decide, by decide⟩

/-- V21 with alignment checking enabled, and given `ESP0`. -/
def alignOn (esp0 : List Byte) : State :=
  { ring3 (tables gate3 gate30 code0 data0 [] [] esp0) [] with
    cr0 := ⟨true, true, false⟩, eflags := 0x40202#32 }

theorem opens_alignOn :
    Opens (intNEvent 0x80) target80 (alignOn [0x00#8, 0x00#8, 0x30#8, 0x00#8]) :=
  ⟨reaches_of (by decide) (by decide) (by decide), ⟨by decide, by decide, by decide⟩, by decide,
    by decide, by decide, by decide, by decide, by decide, by decide, by decide, by decide⟩

/-- V21, with alignment checking enabled, and V30. -/
theorem witness_InterPrivilegeCompletes :
    (Opens (intNEvent 0x80) target80 (alignOn [0x00#8, 0x00#8, 0x30#8, 0x00#8]) ∧
      (alignOn [0x00#8, 0x00#8, 0x30#8, 0x00#8]).vm = false ∧
      PlainMemory (alignOn [0x00#8, 0x00#8, 0x30#8, 0x00#8]) ∧
      CetOff (alignOn [0x00#8, 0x00#8, 0x30#8, 0x00#8]) ∧
      (alignOn [0x00#8, 0x00#8, 0x30#8, 0x00#8]).alignmentChecked = true ∧
      target80.aligned 5 (enterStack ⟨0x10#16, flat 2#4 0#2 false true⟩ 0x300000#64
        (alignOn [0x00#8, 0x00#8, 0x30#8, 0x00#8])) ∧
      newStack (intNEvent 0x80) target80 (alignOn [0x00#8, 0x00#8, 0x30#8, 0x00#8]) =
        .ok (⟨0x10#16, flat 2#4 0#2 false true⟩, 0x300000#64,
          alignOn [0x00#8, 0x00#8, 0x30#8, 0x00#8]) ∧
      newStackRoom (intNEvent 0x80) target80 ⟨0x10#16, flat 2#4 0#2 false true⟩ 0x300000#64 20
        (alignOn [0x00#8, 0x00#8, 0x30#8, 0x00#8]) = .ok () ∧
      target80.offsetOk (alignOn [0x00#8, 0x00#8, 0x30#8, 0x00#8]) = true) ∧
    Opens (intNEvent 0x80) target80Long (long3 []) ∧ PlainMemory (long3 []) ∧
      CetOff (long3 []) ∧
      (∀ ss ptr, target80Long.aligned 5 (enterStack ss ptr (long3 []))) ∧
      newStack64 (intNEvent 0x80) 4 (long3 []) = .ok 0xFFFF800000010008#64 ∧
      newStackRoom (intNEvent 0x80) target80Long ⟨0#16, flat 0#4 0#2 false false⟩
        0xFFFF800000010008#64 40 (long3 []) = .ok () ∧ target80Long.offsetOk (long3 []) = true :=
  ⟨⟨opens_alignOn, by decide, plain_of (by decide) (by decide) (by decide), .of_cr4 rfl rfl rfl,
      by decide, fun _ _ _ _ => by decide, by decide, by decide, by decide⟩, opens_long3,
    plain_of (by decide) (by decide) (by decide), .of_cr4 rfl rfl rfl,
    fun _ _ _ (h : (long3 []).cr0.am = true) => absurd h (by decide), by decide, by decide,
    by decide⟩

/-- V41; and V45 for vector 3. -/
theorem witness_FromVirtual8086Completes :
    (Opens (intNEvent 3) target3 vme3 ∧ vme3.vm = true ∧ vme3.cpl = 3#2 ∧ PlainMemory vme3 ∧
      CetOff (vme3.setFlags (gateFlags true 0x23202#32)) ∧
      target3.aligned 9 (enterStack ⟨0x10#16, flat 2#4 0#2 false true⟩ 0x300000#64
        (vme3.setFlags (gateFlags true 0x23202#32))) ∧
      newStackLegacy (intNEvent 3) 0#2 vme3 =
        .ok (⟨0x10#16, flat 2#4 0#2 false true⟩, 0x300000#64) ∧
      newStackRoom (intNEvent 3) target3 ⟨0x10#16, flat 2#4 0#2 false true⟩ 0x300000#64 36
        vme3 = .ok ()) ∧
    Opens int3Event target3 (v86 0x20202#32 tables32 []) ∧
      (v86 0x20202#32 tables32 []).vm = true ∧ (v86 0x20202#32 tables32 []).cpl = 3#2 ∧
      PlainMemory (v86 0x20202#32 tables32 []) ∧
      CetOff ((v86 0x20202#32 tables32 []).setFlags (gateFlags true 0x20202#32)) ∧
      target3.aligned 9 (enterStack ⟨0x10#16, flat 2#4 0#2 false true⟩ 0x300000#64
        ((v86 0x20202#32 tables32 []).setFlags (gateFlags true 0x20202#32))) ∧
      newStackLegacy int3Event 0#2 (v86 0x20202#32 tables32 []) =
        .ok (⟨0x10#16, flat 2#4 0#2 false true⟩, 0x300000#64) ∧
      newStackRoom int3Event target3 ⟨0x10#16, flat 2#4 0#2 false true⟩ 0x300000#64 36
        (v86 0x20202#32 tables32 []) = .ok () ∧
      target3.gate.offset.toNat ≤ target3.desc.limit.toNat :=
  ⟨⟨opens_vme, by decide, by decide, plain_of (by decide) (by decide) (by decide),
      .of_cr4 rfl rfl rfl, fun _ h => absurd h (by decide), by decide, by decide⟩,
    opens_v86, by decide, by decide, plain_of (by decide) (by decide) (by decide),
    .of_cr4 rfl rfl rfl,
    fun _ h => absurd h (by decide), by decide, by decide, by decide⟩

/-- V29: limits of 0FFFH, the pointer 2000H and 1000H; and an offset beyond the code segment. -/
def small : Hidden := { flat 2#4 0#2 false true with limit := 0xFFF#32 }

def smallData : List Byte := [0xFF#8, 0x0F#8, 0x00#8, 0x00#8, 0x00#8, 0x92#8, 0x40#8, 0x00#8]

theorem witness_StackThenPointerChecks :
    (newStackLegacy (intNEvent 0x80) 0#2
        (ring3 (tables gate3 gate30 code0 smallData [] []
          [0x00#8, 0x20#8, 0x00#8, 0x00#8]) []) = .ok (⟨0x10#16, small⟩, 0x2000#64) ∧
      20 ≤ (small.ptrWidth.trunc 0x2000#64).toNat ∧
      small.hasRoom small.ptrWidth 0x2000 20 = false) ∧
    (newStackLegacy (intNEvent 0x80) 0#2
        (ring3 (tables gate3 gate30 code0 smallData [] []
          [0x00#8, 0x10#8, 0x00#8, 0x00#8]) []) = .ok (⟨0x10#16, small⟩, 0x1000#64) ∧
      small.hasRoom small.ptrWidth 0x1000 20 = true ∧ target80.size ≠ .bits64 ∧
      { target80.desc with limit := 0xFFF#32 }.limit.toNat < target80.gate.offset.toNat) ∧
    (newStackLegacy int3Event 0#2
        (v86 0x20202#32 (tables gate3 gate30 code0 smallData [] []
          [0x00#8, 0x20#8, 0x00#8, 0x00#8]) []) = .ok (⟨0x10#16, small⟩, 0x2000#64) ∧
      36 ≤ (small.ptrWidth.trunc 0x2000#64).toNat ∧
      small.hasRoom small.ptrWidth 0x2000 36 = false ∧
      small.hasRoom small.ptrWidth 0x1000 36 = true) ∧
    small.hasRoom .esp 0x2000 12 = false ∧ small.hasRoom .esp 0x1000 12 = true := by decide

/-- V33: `RSP0`, and a gate's offset, that are not canonical; and with shadow stacks on at every level,
where both new shadow-stack pointers are read from the table. -/
theorem witness_CanonicalStackThenPointerChecks :
    (PlainMemory (withCet (long3 []) 0#64 0#64 tables64) ∧
      (withCet (long3 []) 0#64 0#64 tables64).shadowStackEnabled 0#2 = true ∧
      (withCet (long3 []) 0#64 0#64 tables64).shadowStackEnabled 3#2 = true ∧
      newStack64 (intNEvent 0x80) 36 (withCet (long3 []) 0#64 0#64 tables64) =
        .ok 0xFFFF800000020000#64) ∧
    (long3 []).lma = true ∧ target80Long.size = .bits64 ∧ PlainMemory (long3 []) ∧
      newStack64 (intNEvent 0x80) 4 (long3 []) = .ok 0xFFFF800000010008#64 ∧
      (∀ j, j < 40 → (long3 []).canonical ((0xFFFF800000010008#64 &&& ~~~15#64) -
        BitVec.ofNat 64 40 + BitVec.ofNat 64 j) = true) ∧
      (long3 []).canonical 0xFFFF800000010008#64 = true ∧
      (long3 []).canonical ((0xFFFF800000000010#64 &&& ~~~15#64) - BitVec.ofNat 64 40 +
        BitVec.ofNat 64 0) = false ∧
      intraStack64 (intNEvent 0x30) target30Long (long0 0xFFFF80000000FF08#64 []) =
        .ok 0xFFFF80000000FF08#64 ∧
      (long3 []).canonical 0x0000800000000000#64 = false :=
  ⟨⟨plain_of (by decide) (by decide) (by decide), by decide⟩, by decide, by decide,
    plain_of (by decide) (by decide) (by decide), by decide⟩

/-- V43's gate reached from ring 3, with alignment checking enabled and `ESP` no multiple of 4. -/
def alignIntra : State :=
  { ring3 tables43 [] with cr0 := ⟨true, true, false⟩, eflags := 0x40202#32, rsp := 0xBFFFF002#64 }

def target43 : Target :=
  ⟨.bits32, true, ⟨some (.procedure .bits32 true), 3#2, true, 0x1B#16, 0x404000#64, 0#3⟩,
    flat 0xA#4 3#2 false true⟩

/-- V41 with alignment checking enabled and `ESP0` no multiple of 4. -/
def alignV86 : State :=
  { v86 0x60202#32 (tables gate3 gate30 code0 data0 [] [] [0x02#8, 0x00#8, 0x30#8, 0x00#8]) [] with
    cr0 := ⟨true, true, false⟩ }

theorem witness_UnalignedPushRaisesAlignmentCheck :
    (Opens int3Event target43 alignIntra ∧ alignIntra.vm = false ∧
      target43.desc.dpl = alignIntra.cpl ∧
      12 ≤ ((alignIntra.ptrWidth 4).trunc alignIntra.rsp).toNat ∧
      alignIntra.ss.hid.hasRoom (alignIntra.ptrWidth 4) 0xBFFFF002 12 = true ∧
      (alignIntra.slotAddr 4 0).toNat % 4 ≠ 0 ∧ alignIntra.alignmentChecked = true) ∧
    (Opens (intNEvent 0x80) target80 (alignOn [0x02#8, 0x00#8, 0x30#8, 0x00#8]) ∧
      newStackLegacy (intNEvent 0x80) 0#2 (alignOn [0x02#8, 0x00#8, 0x30#8, 0x00#8]) =
        .ok (⟨0x10#16, flat 2#4 0#2 false true⟩, 0x300002#64) ∧
      newStackRoom (intNEvent 0x80) target80 ⟨0x10#16, flat 2#4 0#2 false true⟩ 0x300002#64 20
        (alignOn [0x02#8, 0x00#8, 0x30#8, 0x00#8]) = .ok () ∧
      ((enterStack ⟨0x10#16, flat 2#4 0#2 false true⟩ 0x300002#64
        (alignOn [0x02#8, 0x00#8, 0x30#8, 0x00#8])).slotAddr 4 0).toNat % 4 ≠ 0) ∧
    Opens int3Event target3 alignV86 ∧ alignV86.vm = true ∧ alignV86.alignmentChecked = true ∧
      newStackLegacy int3Event 0#2 alignV86 =
        .ok (⟨0x10#16, flat 2#4 0#2 false true⟩, 0x300002#64) ∧
      newStackRoom int3Event target3 ⟨0x10#16, flat 2#4 0#2 false true⟩ 0x300002#64 36 alignV86 =
        .ok () ∧
      ((enterStack ⟨0x10#16, flat 2#4 0#2 false true⟩ 0x300002#64
        (alignV86.setFlags (gateFlags true alignV86.eflags))).slotAddr 4 0).toNat % 4 ≠ 0 :=
  ⟨⟨⟨reaches_of (by decide) (by decide) (by decide), ⟨by decide, by decide, by decide⟩, by decide,
      by decide, by decide, by decide, by decide, by decide, by decide, by decide, by decide⟩,
      by decide⟩,
    ⟨⟨reaches_of (by decide) (by decide) (by decide), ⟨by decide, by decide, by decide⟩, by decide,
      by decide, by decide, by decide, by decide, by decide, by decide, by decide, by decide⟩,
      by decide⟩,
    ⟨⟨by decide, fun _ h => absurd h (by decide), fun _ => by decide⟩,
      ⟨by decide, by decide, by decide⟩, by decide, by decide, by decide, by decide, by decide,
      by decide, by decide, by decide, by decide⟩, by decide⟩

/-! Witnesses: CET. -/

/-- A free token at FFFF800000040018H. -/
def token : Memory := cells 0xFFFF800000040018
  [0x18#8, 0x00#8, 0x04#8, 0x00#8, 0x00#8, 0x80#8, 0xFF#8, 0xFF#8]

/-- 64-bit mode, CPL 0, shadow stacks on, `SSP` as in V52. -/
def shadow : State :=
  withCet (long0 0xFFFF80000000FF08#64 []) 0xFFFF800000041000#64 0xFFFF800000040018#64 token

/-- V50: the free token; a pointer at 16 modulo 32; a pointer that is not a multiple of 8. -/
theorem witness_TokenIsVerifiedAndMadeBusy :
    PlainMemory shadow ∧ (0xFFFF800000040018 % 32 = 24) ∧ shadow.mode64 = true ∧
      shadow.value 8 0xFFFF800000040018#64 = 0xFFFF800000040018#64 ∧
      ¬(0xFFFF800000040010 % 32 = 24) ∧ ¬(0xFFFF80000004001C % 32 = 24) :=
  ⟨plain_of (by decide) (by decide) (by decide), by decide, by decide, by decide, by decide,
    by decide⟩

/-- V51: 64-bit mode, CPL 3, shadow stacks on at every level, a free token for ring 0. -/
def cetLong : State :=
  withCet (long3 []) 0x00007FFF00001000#64 0xFFFF800000040018#64 (tables64 ++ token)

/-- V41 with shadow stacks on at every level and a free token at 400018H. -/
def cetV86 : State :=
  withCet (v86 0x20202#32 tables32 []) 0#64 0x400018#64
    (tables32 ++ cells 0x400018 [0x18#8, 0x00#8, 0x40#8])

/-- V51 (from ring 3) and V54 (from ring 2); deliveries with CET on: V51's, and V41 with it. -/
theorem witness_ShadowStackSwitch :
    (PlainMemory shadow ∧ shadow.shadowStackEnabled shadow.cpl = true ∧
      (0xFFFF800000040018 % 32 = 24) ∧ shadow.mode64 = true ∧
      shadow.value 8 0xFFFF800000040018#64 = 0xFFFF800000040018#64 ∧
      (long3 []).ss.hid.dpl = 3#2 ∧ (flat 2#4 2#2 false true).dpl ≠ 3#2) ∧
    (Opens (intNEvent 0x80) target80Long cetLong ∧ target80Long.desc.dpl < cetLong.cpl ∧
      PlainMemory cetLong ∧ cetLong.alignmentChecked = false ∧
      (∀ ss ptr, target80Long.aligned 5 (enterStack ss ptr cetLong)) ∧
      target80Long.offsetOk cetLong = true ∧
      newStack64 (intNEvent 0x80) 4 cetLong = .ok 0xFFFF800000010008#64 ∧
      newStackRoom (intNEvent 0x80) target80Long ⟨0#16, flat 0#4 0#2 false false⟩
        0xFFFF800000010008#64 40 cetLong = .ok ()) ∧
    Opens int3Event target3 cetV86 ∧ PlainMemory cetV86 ∧
      target3.aligned 9 (enterStack ⟨0x10#16, flat 2#4 0#2 false true⟩ 0x300000#64
        (cetV86.setFlags (gateFlags true cetV86.eflags))) ∧
      newStackLegacy int3Event 0#2 cetV86 = .ok (⟨0x10#16, flat 2#4 0#2 false true⟩, 0x300000#64) ∧
      newStackRoom int3Event target3 ⟨0x10#16, flat 2#4 0#2 false true⟩ 0x300000#64 36 cetV86 =
        .ok () :=
  ⟨⟨plain_of (by decide) (by decide) (by decide), by decide⟩,
    ⟨⟨reaches_of (by decide) (by decide) (by decide), ⟨by decide, by decide, by decide⟩, by decide,
      by decide, by decide, by decide, by decide, by decide, by decide, by decide, by decide⟩,
      by decide, plain_of (by decide) (by decide) (by decide), by decide,
      fun _ _ _ (h : cetLong.cr0.am = true) => absurd h (by decide), by decide⟩,
    ⟨⟨by decide, fun _ h => absurd h (by decide), fun _ => by decide⟩,
      ⟨by decide, by decide, by decide⟩, by decide, by decide, by decide, by decide, by decide,
      by decide, by decide, by decide, by decide⟩,
    plain_of (by decide) (by decide) (by decide),
    fun _ (h : cetV86.cr0.am = true) => absurd h (by decide), by decide⟩

/-- The linear instruction pointer the two shadow-stack statements name: in 64-bit mode, and outside it. -/
theorem witness_LinearInstructionPointer :
    ((long3 []).lma = true ∧ (long3 []).cs.hid.l = true) ∧
      ¬(cetV86.lma = true ∧ cetV86.cs.hid.l = true) ∧
      (cetV86.cs.hid.base + cetV86.rip).toNat =
        (cetV86.cs.hid.base.toNat + cetV86.rip.toNat) % 2 ^ 32 := by decide

/-- V31 with shadow stacks on; the entry of `IST1` in the shadow-stack table names a free token. -/
def cetIst : State :=
  { withCet (long0 0xFFFF80000000FF00#64 []) 0xFFFF800000041000#64 0#64
      (tables64 ++ token ++ cells 0xFFFF800000050008
        [0x18#8, 0x00#8, 0x04#8, 0x00#8, 0x00#8, 0x80#8, 0xFF#8, 0xFF#8]) with
    intSspTable := 0xFFFF800000050000#64 }

/-- V20 with shadow stacks on. -/
def cetRing0 : State := withCet (ring0 tables32 []) 0x41004#64 0#64 tables32

/-- V52 (a multiple of 8), V53 (a multiple of 4 only), a token to check; deliveries with CET on: V52's in
IA-32e mode, with IST 1 from the table, and V20 with it. -/
theorem witness_IntraPrivilegeShadowPushes :
    (PlainMemory shadow ∧ shadow.shadowStackEnabled shadow.cpl = true ∧
      (0xFFFF800000041000 % 4 = 0) ∧ (0x41004 % 4 = 0) ∧ (0xFFFF800000040018 % 32 = 24) ∧
      shadow.value 8 0xFFFF800000040018#64 = 0xFFFF800000040018#64 ∧
      ¬(0xFFFF800000041000 % 32 = 24)) ∧
    (Opens int1Event target1Long cetIst ∧ PlainMemory cetIst ∧
      newStack64 int1Event 36 cetIst = .ok 0xFFFF800000020000#64 ∧
      cetIst.frameCanonical 0xFFFF800000020000#64 40 = true ∧
      cetIst.canonical target1Long.gate.offset = true) ∧
    Opens (intNEvent 0x30) target30 cetRing0 ∧ PlainMemory cetRing0 ∧
      target30.aligned 3 cetRing0 ∧ 4 * 3 ≤ ((cetRing0.ptrWidth 4).trunc cetRing0.rsp).toNat ∧
      cetRing0.ss.hid.hasRoom (cetRing0.ptrWidth 4) 0x9FFF0 12 = true :=
  ⟨⟨plain_of (by decide) (by decide) (by decide), by decide⟩,
    ⟨⟨reaches_of (by decide) (by decide) (by decide), ⟨by decide, by decide, by decide⟩, by decide,
      by decide, by decide, by decide, by decide, by decide, by decide, by decide, by decide⟩,
      plain_of (by decide) (by decide) (by decide), by decide⟩,
    ⟨reaches_of (by decide) (by decide) (by decide), ⟨by decide, by decide, by decide⟩, by decide,
      by decide, by decide, by decide, by decide, by decide, by decide, by decide, by decide⟩,
    plain_of (by decide) (by decide) (by decide), fun h => absurd h (by decide), by decide⟩

/-- V51 with shadow stacks on at level 3 only: the user's pointer is saved, the tracker is armed. -/
def shadow3 : State :=
  { withCet (long3 []) 0x00007FFF00001000#64 0#64 tables64 with sCet := 4#64 }

theorem witness_UserShadowPointerIsSaved :
    (∃ u, interPrivilege (intNEvent 0x80) target80Long shadow3 = .ok u) ∧
      (interPrivilege (intNEvent 0x80) target80Long shadow3).toOption.map
        (fun u => (u.pl3Ssp, u.sCet)) = some (0x00007FFF00001000#64, 0x804#64) :=
  ⟨okay_ok (by decide), by decide⟩

theorem witness_EndbranchArming :
    shadow.endbranchEnabled shadow.cpl = true ∧ shadow.cpl ≠ 3#2 ∧
      shadow3.endbranchEnabled shadow3.cpl = true ∧ shadow3.cpl = 3#2 ∧
      shadow.cfg.shadowStackRule = .usual ∧ shadow.cfg.endbranchRule = .usual ∧
      (real []).endbranchEnabled (real []).cpl = false ∧ (10 : Nat) < 64 ∧ (11 : Nat) < 64 := by
  decide

/-! Witnesses: exceptions, whole-machine rules, memory. -/

theorem witness_ErrorCodeFormula : 0x1234 < 2 ^ 16 ∧ 0xFFFF < 2 ^ 16 := by decide

/-- Code with its first byte above the limit of `CS` in protected mode, and not canonical in 64-bit mode;
and protected mode with paging on. -/
def outsideCode : State :=
  { ring0 tables32 [] with cs := ⟨0x08#16, { flat 0xA#4 0#2 false true with limit := 0xFFF#32 }⟩ }

def highCode : State := { long3 [] with rip := 0x0000800000000000#64 }

def paged : State := { ring0 tables32 [] with cr0 := ⟨true, false, true⟩ }

/-- An NMI pending behind a masked interrupt, with an IDT that ends before its vector. -/
def nmiPending : State :=
  { smallTable 7#16 with eflags := 2#32, pending := [.interrupt 0x21#8, .nmi, .interrupt 0x22#8] }

/-- The clauses about a pending event and a fetch. -/
theorem witness_AbandonedDeliveryState_step :
    (nmiPending.mem.wf = true ∧ nmiPending.legalModes = true ∧
      (∀ y ∈ [ExternalEvent.interrupt 0x21#8], y.takeable nmiPending.interruptFlag = false) ∧
      ExternalEvent.nmi.takeable nmiPending.interruptFlag = true ∧
      ∃ d, deliver ExternalEvent.nmi.event
        (nmiPending.tick.setPending ([.interrupt 0x21#8] ++ [.interrupt 0x22#8])) =
          .error (.raise ⟨.gp, none, none⟩ d)) ∧
    (outsideCode.legalModes = true ∧ outsideCode.endbranchWaits = false ∧
      nextEvent outsideCode.interruptFlag outsideCode.pending = none ∧
      outsideCode.mode64 = false ∧
      outsideCode.cs.hid.limit.toNat < outsideCode.rip.toNat % 2 ^ 32 ∧
      ∃ d, fetchByte outsideCode.tick 0 = .error (.raise ⟨.gp, some 0#32, none⟩ d)) ∧
    (highCode.legalModes = true ∧ highCode.mode64 = true ∧ highCode.canonical highCode.rip = false ∧
      ∃ d, fetchByte highCode.tick 0 = .error (.raise ⟨.gp, some 0#32, none⟩ d)) ∧
    (paged.codeByteOk 0 = true ∧ paged.codeByteOk 1 = true ∧ paged.pagingOn = true) :=
  ⟨⟨by decide, by decide, by decide, by decide, raised_error (by decide)⟩,
    ⟨by decide, by decide, by decide, by decide, by decide, raised_error (by decide)⟩,
    ⟨by decide, by decide, by decide, raised_error (by decide)⟩, by decide⟩

/-- V10a, and V24 for `#NP`; the trap of `CD 21`. -/
theorem witness_AbandonedDeliveryState :
    traps (.intImm8 false 0x21) (smallTable 0x83#16) = true ∧
    (smallTable 0x83#16).mem.wf = true ∧
      (advance 2 (smallTable 0x83#16)).mem = (smallTable 0x83#16).mem ∧
      (∃ d, deliver (intNEvent 0x21) (advance 2 (smallTable 0x83#16)) =
        .error (.raise ⟨.gp, none, none⟩ d)) ∧
      ∃ d, deliver (intNEvent 0x30)
        (ring0 (tables gate3 absent30 code0 data0 [] [] []) []) =
          .error (.raise ⟨.np, some 0x182#32, none⟩ d) :=
  ⟨by decide, by decide, by decide, raised_error (by decide), raised_error (by decide)⟩

theorem witness_NestedDeliveryEndsTheRunOrEnters :
    (∃ d, deliver ⟨13, .exception, none⟩ (smallTable 0x36#16) =
        .error (.raise ⟨.gp, none, none⟩ d)) ∧
      ∃ t, deliver ⟨13, .exception, none⟩ (smallTable 0x37#16) = .ok t :=
  ⟨raised_error (by decide), okay_ok (by decide)⟩

theorem witness_PageFaultAddressIsRecorded :
    (∃ t, raiseException ⟨.pf, some 2#32, some 0x1000#64⟩ (real []) = .next t) ∧
      (∃ t, deliver ⟨14, .exception, some 2#32⟩ ((real []).setFaultAddr 0x1000#64) = .ok t) ∧
      ∃ d, deliver ⟨14, .exception, some 2#32⟩ ((smallTable 0x3A#16).setFaultAddr 0x1000#64) =
        .error (.raise ⟨.gp, none, none⟩ d) :=
  ⟨nextOf_next (by decide), okay_ok (by decide), raised_error (by decide)⟩

/-- V21: CPL falls from 3 to 0. -/
theorem witness_PrivilegeNumberNeverRises : ∃ t, Runs (ring3 tables32 [0xCD#8, 0x80#8]) t := by
  obtain ⟨t, h⟩ := nextOf_next (o := step (ring3 tables32 [0xCD#8, 0x80#8])) (by decide)
  exact ⟨t, by decide, .inl h⟩

/-- V41: virtual-8086 mode is left. -/
theorem witness_ModesLeftByDelivery : ∃ t, Runs (v86 0x20202#32 tables32 [0xCC#8]) t := by
  obtain ⟨t, h⟩ := nextOf_next (o := step (v86 0x20202#32 tables32 [0xCC#8])) (by decide)
  exact ⟨t, by decide, .inl h⟩

/-- V30. -/
theorem witness_SystemRegistersAreKept : ∃ t, Runs (long3 [0xCD#8, 0x80#8]) t := by
  obtain ⟨t, h⟩ := nextOf_next (o := step (long3 [0xCD#8, 0x80#8])) (by decide)
  exact ⟨t, by decide, .inl h⟩

/-- V41 and V21: with and without virtual-8086 mode. -/
theorem witness_DataSegmentsChangeOnlyFromVirtual8086 :
    ((v86 0x20202#32 tables32 [0xCC#8]).vm = true ∧
      (nextOf (step (v86 0x20202#32 tables32 [0xCC#8]))).map State.vm = some false) ∧
    (ring3 tables32 []).vm = false := by decide

/-- Reset, and real-address mode with a base of `SS` that is not its selector times 16. -/
theorem test_realSegments :
    State.reset.legalModes = true ∧
      { real [] with ss := ⟨0x2000#16, { Hidden.afterReset with base := 0x20010#64 }⟩ }.legalModes =
        false ∧
      { State.reset with cr0 := ⟨true, false, false⟩, eflags := 0x20002#32, cpl := 3#2 }.legalModes =
        false := by decide

theorem witness_StepKeepsTheInvariant :
    (real [0xCD#8, 0x21#8]).Inv ∧ ∃ t, step (real [0xCD#8, 0x21#8]) = .next t :=
  ⟨⟨by decide, by decide, by decide, by decide, by decide, by decide, by decide⟩,
    nextOf_next (by decide)⟩

theorem witness_MemoryFormIsCanonical :
    Memory.wf [(0, 1#8), (2 ^ 64 - 1, 255#8)] = true := by decide

theorem witness_LoadAfterStore : PlainMemory (real []) ∧ 0 ≤ 8 ∧ 8 ≤ 8 :=
  ⟨plain_of (by decide) (by decide) (by decide), by decide, by decide⟩

/-- The addresses of R58 with `N = 48`. -/
theorem witness_LinearAddressAdjustment :
    0 < (real []).cfg.linearWidth ∧ (real []).cfg.linearWidth ≤ 64 ∧
      (real []).canonical 0x00007FFFFFFFFFFF#64 = true ∧
      (real []).canonical 0xFFFF800000000000#64 = true ∧
      (real []).canonical 0x0000800000000000#64 = false := by decide

end Sys2Proof.Tests
end

section
/-! Values read back from plain memory: the bits of a load, and a load after a store
(20_memory.md R52). -/

namespace Sys2Proof.Machine

variable {s : State} {w : Nat} {la v : Word64}

/-- A value of `n` bytes has no bit above them. -/
theorem getLsbD_getBytes_of_le {addr : Nat → Nat} {m : Memory} {n k i : Nat} (hi : 8 * n ≤ i) :
    (getBytes addr m k n).getLsbD i = false := by
  induction n generalizing i k with
  | zero => simp [getBytes]
  | succ n ih =>
    rw [getBytes, BitVec.getLsbD_or, BitVec.getLsbD_shiftLeft, ih (by omega),
      BitVec.getLsbD_setWidth, BitVec.getLsbD_of_ge _ i (by omega)]
    simp

/-- Bit by bit, a value in memory is that of its bytes, the first the least significant. -/
theorem State.getLsbD_value (s : State) (la : Word64) {w : Nat} (hw : w ≤ 8) (i : Nat) :
    (s.value w la).getLsbD i =
      (decide (i < 8 * w) && (s.bytesAt la (i / 8)).getLsbD (i % 8)) := by
  by_cases hi : i < 8 * w
  · rw [State.value, getLsbD_getBytes hi hw, Nat.zero_add, decide_eq_true hi, Bool.true_and,
      State.bytesAt]
  · rw [State.value, getLsbD_getBytes_of_le (by omega), decide_eq_false hi, Bool.false_and]

/-- A value of two bytes is 16 bits wide. -/
theorem State.value_two_setWidth (s : State) (la : Word64) :
    ((s.value 2 la).setWidth 16).setWidth 64 = s.value 2 la := by
  apply BitVec.eq_of_getLsbD_eq
  intro i hi
  simp only [BitVec.getLsbD_setWidth, s.getLsbD_value la (show 2 ≤ 8 by omega)]
  by_cases h : i < 16 <;> simp [h, hi]

/-- Bytes of memory that are the low bytes of `v` have the value of `v` cut to them. -/
theorem State.holds.value_eq (h : s.holds s.mem w la v) (hw : w ≤ 8) :
    s.value w la = v &&& (BitVec.allOnes 64 >>> (64 - 8 * w)) := by
  apply BitVec.eq_of_getLsbD_eq
  intro i hi
  rw [s.getLsbD_value la hw, BitVec.getLsbD_and, BitVec.getLsbD_ushiftRight,
    BitVec.getLsbD_allOnes]
  by_cases hlow : i < 8 * w
  · have hbyte : s.bytesAt la (i / 8) = byteOf v (i / 8) := h (i / 8) (by omega)
    rw [hbyte, byteOf, BitVec.getLsbD_extractLsb', Nat.div_add_mod]
    simp [hlow, Nat.mod_lt, show 64 - 8 * w + i < 64 by omega]
  · simp [hlow, show ¬ 64 - 8 * w + i < 64 by omega]

/-- Settles O59: the store leaves the bytes of the value, and the load puts them together again. -/
theorem loadAfterStore : Obligations.LoadAfterStore := by
  intro s u k k' w la v hp hw
  obtain ⟨m, hm, hstore, hbytes, -⟩ := hp.store k hw la v
  have hheld : (s.setMem m).holds (s.setMem m).mem w la v := by
    simpa using hbytes
  refine ⟨s.setMem m, hstore, ?_, hbytes⟩
  rw [(hp.setMem hm).load, hheld.value_eq hw]

end Sys2Proof.Machine
end

section
/-! Real-address mode in plain memory: the delivery ends well when the vector lies inside the table and
the stack has room (41_delivery_gates.md R131 to R133). -/

namespace Sys2Proof.Machine

variable {ev : Event} {s : State}

/-- The limit test of real-address mode's table, in numbers. -/
theorem State.idtInLimits_real (pe : s.cr0.pe = false) (v : Nat) :
    s.idtInLimits v = true ↔ 4 * v + 3 ≤ s.idtr.limit.toNat := by
  simp [State.idtInLimits, State.idtEntrySize, pe]

theorem State.idtEntryAddr_real (pe : s.cr0.pe = false) (v : Nat) :
    s.idtEntryAddr v = s.idtr.base + BitVec.ofNat 64 (4 * v) := by
  simp [State.idtEntryAddr, State.idtEntrySize, pe]

/-- A far pointer in plain memory: the offset at the lower address, the selector two bytes above. -/
theorem readFarPointer_plain (hp : PlainMemory s) (la : Word64) :
    readFarPointer s la =
      .ok ((s.value 2 (la + 2#64)).setWidth 16, (s.value 2 la).setWidth 16) := by
  simp only [readFarPointer, hp.load, Run.ok_bind]

/-- Real-address mode can deliver the event: memory is plain, the vector lies inside the table's limit,
and 6 bytes of stack have room without a wrap (R131, 20_memory.md R62). -/
structure RealModeAdmits (ev : Event) (s : State) : Prop where
  pe : s.cr0.pe = false
  lma : s.lma = false
  plain : PlainMemory s
  inTable : 4 * ev.vector + 3 ≤ s.idtr.limit.toNat
  noWrap : 6 ≤ (low16 s.rsp).toNat
  room : s.ss.hid.hasRoom .sp (low16 s.rsp).toNat 6 = true

/-- What the test of real-address mode asks does not depend on the instruction pointer. -/
theorem RealModeAdmits.advance (h : RealModeAdmits ev s) (n : Nat) :
    RealModeAdmits ev (advance n s) :=
  ⟨h.pe, h.lma, ⟨h.plain.paging, h.plain.ram, h.plain.form⟩, h.inTable, h.noWrap, h.room⟩

/-- The state of a real-address-mode delivery when its three words have been pushed, which left memory
`m`, and the flags cleared (R132). -/
def State.realPushed (s : State) (m : Memory) (d : Nat) : State :=
  (((s.setMem m).setDraws d).setRsp (s.afterPushes 2 3).rsp).setFlags (realFlags s.eflags)

/-- The delivery's end: `CS:IP` from the vector's entry, read from the memory that holds the frame
(R133). -/
def State.realEntered (s : State) (ev : Event) (m : Memory) (d : Nat) : State :=
  let entry := s.idtr.base + BitVec.ofNat 64 (4 * ev.vector)
  enterRealCode (((s.setMem m).value 2 (entry + 2#64)).setWidth 16)
    (((s.setMem m).value 2 entry).setWidth 16) (s.realPushed m d)

/-- The three words of a real-address-mode frame are pushed, whatever the event. -/
theorem RealModeAdmits.pushes (h : RealModeAdmits ev s) :
    ∃ m d, m.wf = true ∧
      pushAll realPushCtx (returnSlots s) s =
        .ok (((s.setMem m).setDraws d).setRsp (s.afterPushes 2 3).rsp) ∧
      Frame s 2 (returnSlots s) (((s.setMem m).setDraws d).setRsp (s.afterPushes 2 3).rsp) := by
  have hwidth : s.ptrWidth 2 = .sp := by simp [State.ptrWidth, h.pe]
  have hfits : s.fits 2 3 := .inr (by rw [hwidth]; exact h.noWrap)
  exact pushAll_plain (c := realPushCtx) (xs := returnSlots s) h.plain h.lma (.inl rfl)
    (.of_dpl rfl) (show 3 ≤ 16 by omega) hfits

/-- After the pushes the vector's entry is read from the memory that holds the frame. -/
theorem RealModeAdmits.readEntry (h : RealModeAdmits ev s) {m : Memory} (hm : m.wf = true) (d : Nat) :
    readFarPointer (s.realPushed m d) ((s.realPushed m d).idtEntryAddr ev.vector) =
      .ok (((s.setMem m).value 2 (s.idtr.base + BitVec.ofNat 64 (4 * ev.vector) + 2#64)).setWidth 16,
        ((s.setMem m).value 2 (s.idtr.base + BitVec.ofNat 64 (4 * ev.vector))).setWidth 16) := by
  have hpe : (s.realPushed m d).cr0.pe = false := h.pe
  have hplain : PlainMemory (s.realPushed m d) := ⟨h.plain.paging, h.plain.ram, hm⟩
  rw [State.idtEntryAddr_real hpe, readFarPointer_plain hplain]
  rfl

/-- The delivery ends well, with flags and return pointer on the stack. -/
theorem RealModeAdmits.deliver (h : RealModeAdmits ev s) :
    ∃ m d, deliver ev s = .ok (s.realEntered ev m d) ∧
      Frame s 2 (returnSlots s) (s.realEntered ev m d) := by
  obtain ⟨m, d, hm, hpush, hframe⟩ := h.pushes
  refine ⟨m, d, ?_, hframe.pointer, hframe.slots, hframe.others⟩
  have hroom : stackRoom s.ss.hid .sp (low16 s.rsp).toNat 6 (raisePlain .ss s) = .ok () := by
    simp [stackRoom, h.room, Nat.not_lt.2 h.noWrap]
  rw [Machine.deliver, h.pe, Bool.not_false, if_pos rfl, realAddressMode,
    (State.idtInLimits_real h.pe _).2 h.inTable, require_true, Run.ok_bind, hroom, Run.ok_bind,
    hpush, Run.ok_bind]
  change (readFarPointer (s.realPushed m d) ((s.realPushed m d).idtEntryAddr ev.vector) >>=
    fun p => .ok (enterRealCode p.1 p.2 (s.realPushed m d))) = _
  rw [h.readEntry hm d, Run.ok_bind, State.realEntered]

/-- Settles O18: the delivery ends well from the state past the instruction, and the instruction
answers what it ends in. -/
theorem trapsCompleteInRealAddressMode : Obligations.TrapsCompleteInRealAddressMode := by
  refine ⟨fun i => by cases i <;> rfl, ?_⟩
  intro i s _ htraps pe lma hp hidt hwrap hroom
  have hadmits : RealModeAdmits (trapEvent i) s := ⟨pe, lma, hp, hidt, hwrap, hroom⟩
  obtain ⟨m, d, hdeliver, hframe⟩ := (hadmits.advance i.opcodeLength).deliver
  have hexec := Completes.of_deliver hdeliver i s htraps rfl rfl
  exact ⟨_, hexec, ⟨hframe.pointer, hframe.slots, hframe.others⟩,
    State.value_two_setWidth _ _, State.value_two_setWidth _ _⟩

end Sys2Proof.Machine
end

section
/-! Which flags a delivery clears (10_state.md R18, R19), and that no step sets one. -/

namespace Sys2Proof.Machine

theorem getLsbD_realFlags (f : Word32) (k : Nat) :
    (realFlags f).getLsbD k = (f.getLsbD k && decide (k ≠ 8 ∧ k ≠ 9 ∧ k ≠ 18)) := by
  simp only [realFlags, ifBit, tfBit, acBit]
  simp (disch := decide) only [getLsbD_clearBit]
  grind

theorem getLsbD_gateFlags (trap : Bool) (f : Word32) (k : Nat) :
    (gateFlags trap f).getLsbD k =
      (f.getLsbD k && decide (k ≠ 8 ∧ k ≠ 14 ∧ k ≠ 16 ∧ k ≠ 17 ∧ (trap = false → k ≠ 9))) := by
  simp only [gateFlags, tfBit, vmBit, rfBit, ntBit, ifBit]
  cases trap
  · simp (disch := decide) only [Bool.false_eq_true, if_false, getLsbD_clearBit]
    grind
  · simp (disch := decide) only [if_true, getLsbD_clearBit]
    grind

theorem getLsbD_redirectFlags (p : BitVec 2) (f : Word32) (k : Nat) :
    (redirectFlags p f).getLsbD k =
      (f.getLsbD k && decide (k ≠ 8 ∧ (p = 3#2 → k ≠ 9) ∧ (p ≠ 3#2 → k ≠ 19))) := by
  simp only [redirectFlags, ifBit, vifBit, tfBit]
  by_cases hp : p = 3#2
  · simp (disch := decide) only [if_pos hp, getLsbD_clearBit]
    simp [hp, Bool.and_assoc, Bool.and_comm]
  · simp (disch := decide) only [if_neg hp, getLsbD_clearBit]
    simp [hp, Bool.and_assoc, Bool.and_comm]

/-- Settles O26: each path's clears, one bit at a time. -/
theorem flagClearsOfEachPath : Obligations.FlagClearsOfEachPath :=
  fun f trap p k => ⟨getLsbD_realFlags f k, getLsbD_gateFlags trap f k, getLsbD_redirectFlags p f k⟩

/-- `g` is the flag image `f` with none set, and none cleared but `TF`, `IF`, `NT`, `RF`, `VM`, `AC`,
`VIF` (R19). -/
def OnlyClears (f g : Word32) : Prop :=
  ∀ k, (g.getLsbD k = true → f.getLsbD k = true) ∧
    (f.getLsbD k = true → g.getLsbD k = false →
      k = 8 ∨ k = 9 ∨ k = 14 ∨ k = 16 ∨ k = 17 ∨ k = 18 ∨ k = 19)

theorem OnlyClears.refl (f : Word32) : OnlyClears f f := fun k =>
  ⟨id, fun h h' => absurd (h.symm.trans h') (by decide)⟩

/-- One more of the seven flags may be cleared. -/
theorem OnlyClears.clearBit {f g : Word32} (h : OnlyClears f g) {i : Nat}
    (hi : i ∈ [8, 9, 14, 16, 17, 18, 19]) : OnlyClears f (clearBit g i) := by
  have hlt : i < 32 := by simp only [List.mem_cons, List.not_mem_nil, or_false] at hi; omega
  intro k
  obtain ⟨hset, hcleared⟩ := h k
  rw [getLsbD_clearBit hlt]
  by_cases hk : k = i
  · subst hk
    exact ⟨by simp, fun _ _ => by simpa using hi⟩
  · simpa [hk] using ⟨hset, hcleared⟩

theorem OnlyClears.realFlags (f : Word32) : OnlyClears f (realFlags f) :=
  (((OnlyClears.refl f).clearBit (i := ifBit) (by decide)).clearBit (i := tfBit) (by decide)).clearBit
    (i := acBit) (by decide)

theorem OnlyClears.gateFlags (trap : Bool) (f : Word32) : OnlyClears f (gateFlags trap f) := by
  have h : OnlyClears f (Machine.gateFlags true f) :=
    ((((OnlyClears.refl f).clearBit (i := tfBit) (by decide)).clearBit (i := vmBit)
      (by decide)).clearBit (i := rfBit) (by decide)).clearBit (i := ntBit) (by decide)
  cases trap with
  | true => exact h
  | false => exact h.clearBit (i := ifBit) (by decide)

theorem OnlyClears.redirectFlags (p : BitVec 2) (f : Word32) : OnlyClears f (redirectFlags p f) :=
  ((OnlyClears.refl f).clearBit (by split <;> decide)).clearBit (i := tfBit) (by decide)

/-- The fixed bits of EFLAGS (R18) are among those that stay. -/
theorem OnlyClears.fixed {f g : Word32} (h : OnlyClears f g) :
    g &&& 0xFFC0802A#32 = f &&& 0xFFC0802A#32 := by
  apply BitVec.eq_of_getLsbD_eq
  intro k _
  obtain ⟨hset, hcleared⟩ := h k
  have hfixed : (0xFFC0802A#32).getLsbD k = true →
      ¬(k = 8 ∨ k = 9 ∨ k = 14 ∨ k = 16 ∨ k = 17 ∨ k = 18 ∨ k = 19) := by
    rintro hk (rfl | rfl | rfl | rfl | rfl | rfl | rfl) <;> exact absurd hk (by decide)
  simp only [BitVec.getLsbD_and]
  grind

variable {ev : Event} {s t e u : State}

/-- No form of a delivery sets a flag, or clears another than the seven. -/
theorem DeliveryCase.flags (h : DeliveryCase ev e u) : OnlyClears e.eflags u.eflags := by
  cases h
  case real eq => simpa [eq] using OnlyClears.realFlags e.eflags
  case redirect eq => simpa [eq] using OnlyClears.redirectFlags e.iopl e.eflags
  case inter eq => simpa [eq] using OnlyClears.gateFlags _ e.eflags
  case v86 eq => simpa [eq] using OnlyClears.gateFlags _ e.eflags
  case intra eq => simpa [eq] using OnlyClears.gateFlags _ e.eflags

end Sys2Proof.Machine
end

section
/-! What no delivery writes, and from which state a step or an instruction delivers: the system
registers (10_state.md R13, R17, R25 to R31, R33, R34), the flags but seven (R19), and the data
segments while virtual-8086 mode is not left (R24). -/

namespace Sys2Proof.Machine

variable {ev : Event} {s t e u : State}

theorem SameSystem.setDraws (s : State) (n : Nat) : SameSystem s (s.setDraws n) := by
  constructor <;> rfl

theorem SameData.trans (h : SameData s e) (h' : SameData e u) : SameData s u := by
  obtain ⟨hds, hes, hfs, hgs⟩ := h
  obtain ⟨hds', hes', hfs', hgs'⟩ := h'
  exact ⟨hds'.trans hds, hes'.trans hes, hfs'.trans hfs, hgs'.trans hgs⟩

theorem SameSystem.trans (h : SameSystem s e) (h' : SameSystem e u) : SameSystem s u where
  cfg := h'.cfg.trans h.cfg
  gprs := h'.gprs.trans h.gprs
  cr0 := h'.cr0.trans h.cr0
  cr4 := h'.cr4.trans h.cr4
  lma := h'.lma.trans h.lma
  idtr := h'.idtr.trans h.idtr
  gdtr := h'.gdtr.trans h.gdtr
  ldtr := h'.ldtr.trans h.ldtr
  tr := h'.tr.trans h.tr
  dr6 := h'.dr6.trans h.dr6
  pl0Ssp := h'.pl0Ssp.trans h.pl0Ssp
  pl1Ssp := h'.pl1Ssp.trans h.pl1Ssp
  pl2Ssp := h'.pl2Ssp.trans h.pl2Ssp
  intSspTable := h'.intSspTable.trans h.intSspTable
  regions := h'.regions.trans h.regions

/-- None of the five forms of a delivery names a system register. -/
theorem DeliveryCase.sameSystem (h : DeliveryCase ev e u) : SameSystem e u := by
  cases h <;> rename_i eq <;> constructor <;> simp [eq]

/-- The count of free values is none of what a delivery's state shares with the step's. -/
theorem DeliveredFrom.of_setDraws {n : Nat} (h : DeliveredFrom (s.setDraws n) e) :
    DeliveredFrom s e where
  memory := h.memory
  pointer := h.pointer
  system := (SameSystem.setDraws s n).trans h.system
  rsp := h.rsp
  eflags := h.eflags
  cs := h.cs
  ss := h.ss
  data := h.data
  cpl := h.cpl
  ssp := h.ssp
  pl3Ssp := h.pl3Ssp
  sCet := h.sCet
  uCet := h.uCet

/-- A step or an instruction that answers a next state has delivered an event from a state that shares
its registers, or is an `INTO` outside 64-bit mode and has only advanced. -/
theorem Runs.delivered (h : Runs s t) : s.legalModes = true ∧ ∃ e, DeliveredFrom s e ∧
    ((∃ ev, DeliveryCase ev e t) ∨ (t = e ∧ s.mode64 = false ∧ ∃ n, e.rip = nextIp s n)) := by
  obtain ⟨hlegal, n, ⟨ev, e, hfrom, hcase⟩ | ⟨hmode, -, rfl⟩⟩ := h.case
  · exact ⟨hlegal, e, hfrom.of_setDraws, .inl ⟨ev, hcase⟩⟩
  · exact ⟨hlegal, _, (DeliveredFrom.advance 1).of_setDraws, .inr ⟨rfl, hmode, 1, rfl⟩⟩

/-- Settles O28: the state of the delivery has the old flags, and each form of a delivery only clears. -/
theorem flagsAreOnlyCleared : Obligations.FlagsAreOnlyCleared := by
  intro s t h
  change OnlyClears s.eflags t.eflags
  obtain ⟨-, e, hfrom, ⟨ev, hcase⟩ | ⟨rfl, -⟩⟩ := h.delivered
  · exact hfrom.eflags ▸ hcase.flags
  · exact hfrom.eflags ▸ .refl _

/-- Settles O53: the state of the delivery has the old system registers, and no delivery writes one. -/
theorem systemRegistersAreKept : Obligations.SystemRegistersAreKept := by
  intro s t h
  obtain ⟨-, e, hfrom, ⟨ev, hcase⟩ | ⟨rfl, -⟩⟩ := h.delivered
  · exact hfrom.system.trans hcase.sameSystem
  · exact hfrom.system

theorem DeliveredFrom.vm (h : DeliveredFrom s e) : e.vm = s.vm := by
  rw [State.vm, State.vm, h.eflags]

/-- A delivery leaves virtual-8086 mode through a gate, with NULL data segments (R191); every other one
keeps `VM` and the data segments. -/
theorem DeliveryCase.data (h : DeliveryCase ev e u) :
    u.vm = e.vm ∧ SameData e u ∨
      e.vm = true ∧ u.vm = false ∧
        u.ds.sel = 0#16 ∧ u.es.sel = 0#16 ∧ u.fs.sel = 0#16 ∧ u.gs.sel = 0#16 := by
  cases h
  case real eq => exact .inl ⟨by simp [eq, State.vm, realFlags_vm], by simp [eq, SameData]⟩
  case redirect eq => exact .inl ⟨by simp [eq, State.vm, redirectFlags_vm], by simp [eq, SameData]⟩
  case inter vm _ _ _ _ _ _ eq =>
    exact .inl ⟨vm ▸ by simp [eq, State.vm, gateFlags_vm], by simp [eq, SameData]⟩
  case v86 vm _ _ _ _ _ _ eq =>
    exact .inr ⟨vm, by simp [eq, State.vm, gateFlags_vm], by simp [eq, nullSegment]⟩
  case intra vm _ _ _ _ _ eq =>
    exact .inl ⟨vm ▸ by simp [eq, State.vm, gateFlags_vm], by simp [eq, SameData]⟩

/-- Settles O54: only the delivery from virtual-8086 mode, which leaves it, writes the data segments. -/
theorem dataSegmentsChangeOnlyFromVirtual8086 :
    Obligations.DataSegmentsChangeOnlyFromVirtual8086 := by
  intro s t h
  obtain ⟨-, e, hfrom, ⟨ev, hcase⟩ | ⟨rfl, -⟩⟩ := h.delivered
  · rcases hcase.data with ⟨hkept, hsame⟩ | ⟨hin, hout, hnull⟩
    · exact ⟨fun _ => hfrom.data.trans hsame, by simp +contextual [hkept, hfrom.vm]⟩
    · exact ⟨by simp [← hfrom.vm, hin, hout], fun _ _ => hnull⟩
  · exact ⟨fun _ => hfrom.data, by simp +contextual [hfrom.vm]⟩

end Sys2Proof.Machine
end

section
/-! The address of the next instruction, by the width of the instruction pointer (10_state.md R15). -/

namespace Sys2Proof.Machine

/-- The next address, wrapped at the width of the instruction pointer. -/
theorem toNat_nextIp (s : State) (n : Nat) :
    (nextIp s n).toNat = (s.rip.toNat + n) % 2 ^ s.ipWidth.bits := by
  have hsum : (s.rip + BitVec.ofNat 64 n).toNat = (s.rip.toNat + n) % 2 ^ 64 := by
    simp [BitVec.toNat_add]
  rw [nextIp]
  cases s.ipWidth <;>
    simp only [PtrWidth.trunc, PtrWidth.bits, toNat_low16, toNat_low32, hsum] <;> omega

/-- Settles O16: the width of the pointer is that of the mode or the code segment. -/
theorem nextPointerWrapsAtItsWidth : Obligations.NextPointerWrapsAtItsWidth := by
  intro s n
  rw [toNat_nextIp]
  rw [State.ipWidth]
  exact ⟨fun h => by rw [if_pos h]; rfl, fun h hdb => by simp [h, hdb, PtrWidth.bits],
    fun h hdb => by simp [h, hdb, PtrWidth.bits]⟩

end Sys2Proof.Machine
end

section
/-! The invariant of every step (`State.Inv`): a delivery establishes each part from a state with legal
modes, canonical memory, `SS.DPL = CPL` and the fixed bits of EFLAGS. -/

namespace Sys2Proof.Machine

variable {ev : Event} {s t e u : State}

/-- What legal modes rest on is as it was, the segments of R21 where the modes have them included. -/
theorem SameSystem.legalModes_of_same_mode (hs : SameSystem e u) (hl : e.legalModes = true)
    (vm : u.vm = e.vm) (cpl : u.cpl = e.cpl) (hseg : e.realSegments = true → u.realSegments = true) :
    u.legalModes = true := by
  rw [State.legalModes_iff] at hl ⊢
  rw [hs.lma, hs.cr0, hs.cr4, hs.cfg, vm, cpl]
  obtain ⟨hlma, hvm, hpe, hvme, hreal⟩ := hl
  exact ⟨hlma, hvm, hpe, hvme, fun h => hseg (hreal h)⟩

/-- With protection on and `VM = 0` nothing is asked of the level or of the segments. -/
theorem SameSystem.legalModes_of_protected (hs : SameSystem e u) (hl : e.legalModes = true)
    (pe : e.cr0.pe = true) (vm : u.vm = false) : u.legalModes = true := by
  rw [State.legalModes_iff] at hl ⊢
  rw [hs.lma, hs.cr0, hs.cr4, hs.cfg, vm, pe]
  obtain ⟨hlma, -, -, hvme, -⟩ := hl
  exact ⟨fun h => ⟨rfl, rfl, (hlma h).2.2⟩, by simp, by simp, hvme, by simp⟩

theorem DeliveryCase.memory (h : DeliveryCase ev e u) (hm : e.mem.wf = true) : u.mem.wf = true := by
  cases h <;> rename_i wf eq <;> simpa [eq] using wf hm

theorem DeliveryCase.legalModes (h : DeliveryCase ev e u) (hl : e.legalModes = true) :
    u.legalModes = true := by
  have hs := h.sameSystem
  cases h
  case real sel _ _ _ eq =>
    exact hs.legalModes_of_same_mode hl (by simp [eq, State.vm, realFlags_vm]) (by simp [eq])
      fun h => eq ▸ realSegments_setCs h sel
  case redirect sel _ _ _ _ _ _ eq =>
    exact hs.legalModes_of_same_mode hl (by simp [eq, State.vm, redirectFlags_vm]) (by simp [eq])
      fun h => eq ▸ realSegments_setCs h sel
  case inter pe _ _ _ _ _ _ _ eq =>
    exact hs.legalModes_of_protected hl pe (by simp [eq, State.vm, gateFlags_vm])
  case v86 pe _ _ _ _ _ _ _ eq =>
    exact hs.legalModes_of_protected hl pe (by simp [eq, State.vm, gateFlags_vm])
  case intra pe _ _ _ _ _ _ eq =>
    exact hs.legalModes_of_protected hl pe (by simp [eq, State.vm, gateFlags_vm])

/-- A delivery that changes the level loads `SS` with a segment of the new one (R171, R186, R208). -/
theorem DeliveryCase.stackLevel (h : DeliveryCase ev e u) (hss : e.ss.hid.dpl = e.cpl) :
    u.ss.hid.dpl = u.cpl := by
  cases h
  case real eq => simpa [eq] using hss
  case redirect eq => simpa [eq] using hss
  case inter dpl _ eq => simpa [eq] using dpl
  case v86 dpl _ eq => simpa [eq] using dpl
  case intra eq => simpa [eq] using hss

/-- A gate sets the RPL of `CS` to the level arrived at (R182, R191, R199); the other deliveries stay in
real-address or virtual-8086 mode. -/
theorem DeliveryCase.codeLevel (h : DeliveryCase ev e u) (hpe : u.cr0.pe = true) (hvm : u.vm = false) :
    selRpl u.cs.sel = u.cpl := by
  cases h
  case real pe _ eq => simp [eq, pe] at hpe
  case redirect vm _ _ _ eq =>
    rw [State.vm] at vm hvm
    simp [eq, redirectFlags_vm, vm] at hvm
  case inter eq => simp [eq, selRpl]
  case v86 eq => simp [eq, selRpl]
  case intra eq => simp [eq, selRpl]

/-- The instruction pointer is canonical in 64-bit mode and 32 bits wide elsewhere (R14). -/
structure State.PointerFits (s : State) : Prop where
  canonical : s.mode64 = true → s.canonical s.rip = true
  narrow : s.mode64 = false → low32 s.rip = s.rip

theorem State.PointerFits.of_narrow (hm : s.mode64 = false) (h : low32 s.rip = s.rip) :
    s.PointerFits :=
  ⟨fun h' => by simp [hm] at h', fun _ => h⟩

theorem low32_setWidth (x : Word16) : low32 (x.setWidth 64) = x.setWidth 64 :=
  low32_of_lt (by simp; omega)

theorem low32_nextIp (h : s.mode64 = false) (n : Nat) : low32 (nextIp s n) = nextIp s n := by
  apply low32_of_lt
  rw [toNat_nextIp, State.ipWidth, h]
  cases s.cs.hid.db <;> simp [PtrWidth.bits] <;> omega

/-- In IA-32e mode a gate leads to 64-bit code at a canonical offset; outside it the offset is 32 bits
wide (R150, R177, R178). -/
theorem State.PointerFits.of_gate {t : Target} (hs : SameSystem e u) (hcs : u.cs.hid = t.desc)
    (hrip : u.rip = t.gate.offset) (code : e.codeSegmentOk t.desc = true)
    (narrow : e.lma = false → low32 t.gate.offset = t.gate.offset) (off : t.offsetOk e = true) :
    u.PointerFits := by
  cases hl : e.lma with
  | false => exact .of_narrow (by simp [State.mode64, hs.lma, hl]) (hrip ▸ narrow hl)
  | true =>
    have hlong : t.desc.l = true := by
      simp only [State.codeSegmentOk, hl, Bool.not_true, Bool.false_or, Bool.and_eq_true] at code
      exact code.2.1
    refine ⟨fun _ => ?_, fun h => ?_⟩
    · rw [Target.offsetOk, if_pos hl] at off
      rwa [hrip, State.canonical, hs.cfg]
    · simp [State.mode64, hs.lma, hl, hcs, hlong] at h

/-- Real-address and virtual-8086 mode lie outside IA-32e mode (R37). -/
theorem State.lma_of_real_or_virtual (hl : s.legalModes = true) (h : s.cr0.pe = false ∨ s.vm = true) :
    s.lma = false := by
  obtain ⟨hlma, -⟩ := State.legalModes_iff.1 hl
  rcases h with h | h <;> simpa [h] using hlma

theorem DeliveryCase.pointerFits (h : DeliveryCase ev e u) (hl : e.legalModes = true) :
    u.PointerFits := by
  have hs := h.sameSystem
  cases h
  case real pe _ eq =>
    have hlma : u.lma = false := hs.lma.trans (State.lma_of_real_or_virtual hl (.inl pe))
    exact .of_narrow (by simp [State.mode64, hlma]) (by simpa [eq] using low32_setWidth _)
  case redirect vm _ _ _ eq =>
    have hlma : u.lma = false := hs.lma.trans (State.lma_of_real_or_virtual hl (.inr vm))
    exact .of_narrow (by simp [State.mode64, hlma]) (by simpa [eq] using low32_setWidth _)
  case inter code _ narrow off _ _ eq =>
    exact .of_gate hs (by simp [eq]) (by simp [eq]) code narrow off
  case v86 code _ narrow off _ _ eq =>
    exact .of_gate hs (by simp [eq]) (by simp [eq]) code narrow off
  case intra code _ narrow off _ eq =>
    exact .of_gate hs (by simp [eq]) (by simp [eq]) code narrow off

/-- A delivery from a state that shares its registers with one in the invariant ends in the invariant. -/
theorem State.Inv.delivered (hi : s.Inv) (hfrom : DeliveredFrom s e) (h : DeliveryCase ev e u) :
    u.Inv := by
  have hl := hfrom.legal hi.modes
  have hp := h.pointerFits hl
  exact
    { memory := h.memory (hfrom.memory hi.memory)
      modes := h.legalModes hl
      stackLevel := h.stackLevel (by rw [hfrom.ss, hfrom.cpl, hi.stackLevel])
      codeLevel := h.codeLevel
      canonicalIp := hp.canonical
      narrowIp := hp.narrow
      fixedFlags := by rw [h.flags.fixed, hfrom.eflags, hi.fixedFlags] }

/-- A state that shares its registers with one in the invariant, but for a 32-bit instruction pointer
outside 64-bit mode, is in the invariant. -/
theorem State.Inv.advanced (hi : s.Inv) (hfrom : DeliveredFrom s e) (hm : s.mode64 = false)
    (hrip : low32 e.rip = e.rip) : e.Inv := by
  have hmode : e.mode64 = false := by rw [State.mode64, hfrom.system.lma, hfrom.cs]; exact hm
  have hp := State.PointerFits.of_narrow hmode hrip
  exact
    { memory := hfrom.memory hi.memory
      modes := hfrom.legal hi.modes
      stackLevel := by rw [hfrom.ss, hfrom.cpl, hi.stackLevel]
      codeLevel := by rw [hfrom.system.cr0, hfrom.vm, hfrom.cs, hfrom.cpl]; exact hi.codeLevel
      canonicalIp := hp.canonical
      narrowIp := hp.narrow
      fixedFlags := by rw [hfrom.eflags, hi.fixedFlags] }

/-- Settles O55: a step delivers, or only advances outside 64-bit mode, and either keeps every part. -/
theorem stepKeepsTheInvariant : Obligations.StepKeepsTheInvariant := by
  intro s t hi h
  have hruns : Runs s t := ⟨hi.modes, .inl h⟩
  obtain ⟨-, e, hfrom, ⟨ev, hcase⟩ | ⟨rfl, hmode, n, hrip⟩⟩ := hruns.delivered
  · exact hi.delivered hfrom hcase
  · exact hi.advanced hfrom hmode (hrip ▸ low32_nextIp hmode n)

/-- Settles O56: each part is a fact about the reset values. -/
theorem resetMeetsTheInvariant : Obligations.ResetMeetsTheInvariant where
  memory := State.reset_mem_wf
  modes := by decide
  stackLevel := rfl
  codeLevel := by decide
  canonicalIp := by decide
  narrowIp := fun _ => low32_of_lt (by decide)
  fixedFlags := rfl

end Sys2Proof.Machine
end

section
/-! States a step refuses: illegal modes (10_state.md R37, R21), and an instruction that straddles the
end of its code segment or the top of the addresses (R15, 93 U13). -/

namespace Sys2Proof.Machine

variable {s : State}

theorem step_illegalModes (h : s.legalModes = false) : step s = .refused .illegalModes := by
  simp [step, h]

theorem SegReg.realStyle_iff (r : SegReg) :
    r.realStyle = true ↔ r.hid.base.toNat = 16 * r.sel.toNat ∧ r.hid.limit = 0xFFFF#32 := by
  have hbase : (r.sel.setWidth 64 <<< 4).toNat = 16 * r.sel.toNat := by
    have := r.sel.isLt
    simp only [BitVec.toNat_shiftLeft, BitVec.toNat_setWidth, Nat.shiftLeft_eq]
    omega
  rw [SegReg.realStyle, Bool.and_eq_true, decide_eq_true_eq, decide_eq_true_eq, ← BitVec.toNat_inj,
    hbase]

theorem State.realSegments_iff : s.realSegments = true ↔
    (s.cs.realStyle = true ∨ s.cr0.pe = false ∧ s.cs.resetCode = true) ∧
      ∀ r ∈ [s.ss, s.ds, s.es, s.fs, s.gs], r.realStyle = true := by
  simp [State.realSegments, and_assoc]

/-- What every segment register of real-address and virtual-8086 mode satisfies (R21, log 39). -/
theorem State.realSegments_mem (h : s.realSegments = true) {r : SegReg}
    (hr : r ∈ [s.cs, s.ss, s.ds, s.es, s.fs, s.gs]) :
    r.hid.limit = 0xFFFF#32 ∧ (r.hid.base.toNat = 16 * r.sel.toNat ∨
      r = s.cs ∧ s.cr0.pe = false ∧ r.sel = 0xF000#16 ∧ r.hid.base = 0xFFFF0000#64) := by
  obtain ⟨hcs, hothers⟩ := State.realSegments_iff.1 h
  rcases List.mem_cons.1 hr with rfl | hr
  · rcases hcs with hcs | ⟨hpe, hreset⟩
    · exact (SegReg.realStyle_iff _).1 hcs |>.symm.imp_right .inl
    · simp only [SegReg.resetCode, Bool.and_eq_true, decide_eq_true_eq] at hreset
      obtain ⟨⟨hsel, hbase⟩, hlimit⟩ := hreset
      exact ⟨hlimit, .inr ⟨rfl, hpe, hsel, hbase⟩⟩
  · exact (SegReg.realStyle_iff _).1 (hothers r hr) |>.symm.imp_right .inl

/-- Settles O8: legal modes contradict each of the violations. -/
theorem illegalModesAreRefused : Obligations.IllegalModesAreRefused := by
  intro s h
  refine step_illegalModes (Bool.eq_false_iff.2 fun hl => ?_)
  obtain ⟨hlma, hvm, hcpl, -, hreal⟩ := State.legalModes_iff.1 hl
  rcases h with ⟨hon, hbad⟩ | ⟨hon, hbad⟩ | ⟨hoff, hbad⟩ | ⟨hmode, r, hr, hbad⟩
  · obtain ⟨hpe, hnot, -⟩ := hlma hon
    simp [hpe, hnot] at hbad
  · obtain ⟨hpe, hthree⟩ := hvm hon
    simp [hpe, hthree] at hbad
  · exact hbad (hcpl hoff)
  · obtain ⟨hlimit, hbase⟩ := State.realSegments_mem (hreal hmode) hr
    rcases hbad with hbad | ⟨hbad, hnotReset⟩
    · exact hbad hlimit
    · exact hbase.elim hbad hnotReset

/-- In 64-bit mode a byte of the instruction can be fetched when its address is canonical and does not
pass the top. -/
theorem State.codeByteOk_mode64 (hm : s.mode64 = true) (i : Nat) :
    s.codeByteOk i = true ↔
      s.rip.toNat + i < 2 ^ 64 ∧ s.canonical (s.rip + BitVec.ofNat 64 i) = true := by
  have haddr : BitVec.ofNat 64 (s.rip.toNat + i) = s.rip + BitVec.ofNat 64 i := by
    simp [BitVec.ofNat_add]
  simp [State.codeByteOk, State.codeOffsetOk, State.codeOffset, State.ipWidth, hm, PtrWidth.trunc,
    PtrWidth.bits, haddr]

/-- Elsewhere its offset lies within the pointer's width and the limit of `CS`, and no 4 GiB lie between
it and the first byte. -/
theorem State.codeByteOk_narrow (hm : s.mode64 = false) {off : Nat}
    (hoff : off = (s.ipWidth.trunc s.rip).toNat) (i : Nat) :
    s.codeByteOk i = true ↔
      off + i < (if s.cs.hid.db then 2 ^ 32 else 2 ^ 16) ∧ off + i ≤ s.cs.hid.limit.toNat ∧
        (s.cs.hid.base.toNat + off) % 2 ^ 32 + i < 2 ^ 32 := by
  have hbits : 2 ^ s.ipWidth.bits = if s.cs.hid.db then 2 ^ 32 else 2 ^ 16 := by
    cases hdb : s.cs.hid.db <;> simp [State.ipWidth, hm, hdb, PtrWidth.bits]
  have haddr : (s.codeAddr off).toNat = (s.cs.hid.base.toNat + off) % 2 ^ 32 := by
    simp only [State.codeAddr, hm, toNat_low32, BitVec.toNat_add, BitVec.toNat_ofNat,
      Bool.false_eq_true, if_false]
    omega
  simp [State.codeByteOk, State.codeOffsetOk, hbits, haddr, hm, State.codeOffset, ← hoff, and_assoc]

/-- A byte past the first that lies outside ends the fetch with the refusal. -/
theorem fetchByte_straddles {i : Nat} (hi : i ≠ 0) (h : s.codeByteOk i = false) :
    fetchByte s i = .error (.refuse .straddlesLimit) := by
  simp [fetchByte, h, hi]

theorem fetchFrom_stops {n : Nat} {got : List Byte} {st : Stop}
    (h : fetchByte s got.length = .error st) : fetchFrom s (n + 1) got = .error st := by
  rw [fetchFrom, h, Run.error_bind]

/-- While the decoder asks for more, the fetch goes on behind the byte it has got. -/
theorem fetchFrom_more {n : Nat} {got : List Byte} {b : Byte}
    (h : fetchByte s got.length = .ok b) (hd : decode (got ++ [b]) = .needMore) :
    fetchFrom s (n + 1) got = fetchFrom s n (got ++ [b]) := by
  rw [fetchFrom, h, Run.ok_bind, hd]

/-- A fetch whose first bytes are an unfinished instruction, and whose next byte stops, stops so. -/
theorem fetch_stops {got : List Byte} {st : Stop}
    (hgot : got = [0xCD#8] ∨ got = [0xF0#8] ∨ got = [0xF0#8, 0xCD#8])
    (hbytes : ∀ j b, got[j]? = some b → fetchByte s j = .ok b)
    (hnext : fetchByte s got.length = .error st) : fetch s = .error st := by
  rw [fetch, maxLength]
  rcases hgot with rfl | rfl | rfl
  · rw [fetchFrom_more (got := []) (hbytes 0 _ rfl) rfl]
    exact fetchFrom_stops hnext
  · rw [fetchFrom_more (got := []) (hbytes 0 _ rfl) rfl]
    exact fetchFrom_stops hnext
  · rw [fetchFrom_more (got := []) (hbytes 0 _ rfl) rfl, List.nil_append,
      fetchFrom_more (got := [0xF0#8]) (hbytes 1 _ rfl) rfl]
    exact fetchFrom_stops hnext

/-- Settles O9: the byte after those fetched lies outside, so the fetch and the step are refused. -/
theorem straddlingInstructionIsRefused : Obligations.StraddlingInstructionIsRefused := by
  intro s got n off hlegal hevent htracker hgot hn hbytes hoff houtside
  have hpos : n ≠ 0 := by rcases hgot with rfl | rfl | rfl <;> simp [hn]
  have hout : s.tick.codeByteOk n = false := by
    change s.codeByteOk n = false
    refine Bool.eq_false_iff.2 fun hok => ?_
    rcases houtside with ⟨hm, hbad⟩ | ⟨hm, hbad⟩
    · obtain ⟨htop, hcanonical⟩ := (State.codeByteOk_mode64 hm n).1 hok
      rcases hbad with hbad | hbad
      · omega
      · simp [hcanonical] at hbad
    · obtain ⟨hwidth, hlimit, hspace⟩ := (State.codeByteOk_narrow hm hoff n).1 hok
      omega
  have hfetch : fetch s.tick = .error (.refuse .straddlesLimit) :=
    fetch_stops hgot hbytes (hn ▸ fetchByte_straddles hpos hout)
  rw [step_runs hlegal hevent htracker, runInstruction, hfetch]

end Sys2Proof.Machine
end

section
/-! The canonical form of a memory is unique: what it reads as determines its entries. -/

namespace Sys2Proof.Machine

/-- A memory that reads as one whose first entry is at `k` has no bound above `k`. -/
theorem Memory.bound_le_of_read_eq {m n : Memory} {lo lo' k : Nat} {b : Byte}
    (hm : Memory.wfFrom lo ((k, b) :: m) = true) (hn : Memory.wfFrom lo' n = true)
    (h : ∀ a, Memory.read ((k, b) :: m) a = n.read a) : lo' ≤ k := by
  by_contra hlt
  obtain ⟨-, -, hb, -⟩ := Memory.wfFrom_cons.1 hm
  refine hb ?_
  calc b = Memory.read ((k, b) :: m) k := by simp [Memory.read]
    _ = n.read k := h k
    _ = Memory.background := Memory.read_below hn (by omega)

theorem Memory.eq_of_read_eq {m n : Memory} {lo lo' : Nat} (hm : Memory.wfFrom lo m = true)
    (hn : Memory.wfFrom lo' n = true) (h : ∀ a, m.read a = n.read a) : m = n := by
  induction m generalizing n lo lo' with
  | nil =>
    cases n with
    | nil => rfl
    | cons c n =>
      obtain ⟨k, b⟩ := c
      -- The empty memory is canonical from every address on, from `k + 1` too.
      have := Memory.bound_le_of_read_eq (lo' := k + 1) hn (n := []) rfl fun a => (h a).symm
      omega
  | cons c m ih =>
    obtain ⟨k, b⟩ := c
    cases n with
    | nil =>
      have := Memory.bound_le_of_read_eq (lo' := k + 1) hm (n := []) rfl h
      omega
    | cons c' n =>
      obtain ⟨k', b'⟩ := c'
      obtain ⟨-, hk, hb, hm'⟩ := Memory.wfFrom_cons.1 hm
      obtain ⟨-, hk', hb', hn'⟩ := Memory.wfFrom_cons.1 hn
      have hle := Memory.bound_le_of_read_eq hm
        (Memory.wfFrom_cons.2 ⟨Nat.le_refl k', hk', hb', hn'⟩) h
      have hge := Memory.bound_le_of_read_eq hn
        (Memory.wfFrom_cons.2 ⟨Nat.le_refl k, hk, hb, hm'⟩) fun a => (h a).symm
      obtain rfl : k = k' := by omega
      obtain rfl : b = b' := by simpa [Memory.read] using h k
      have htail : ∀ a, Memory.read m a = Memory.read n a := by
        intro a
        by_cases ha : a ≤ k
        · rw [Memory.read_below hm' (by omega), Memory.read_below hn' (by omega)]
        · simpa [Memory.read, show k ≠ a by omega] using h a
      rw [ih hm' hn' htail]

/-- Settles O58: entry by entry, the two lists have the same address and the same byte. -/
theorem memoryFormIsCanonical : Obligations.MemoryFormIsCanonical :=
  fun _ _ hm hn h => Memory.eq_of_read_eq hm hn h

end Sys2Proof.Machine
end

section
/-! `LA_adjust` and the canonical test, bit by bit (20_memory.md R58). -/

namespace Sys2Proof.Machine

theorem getLsbD_laAdjust (n : Nat) (a : Word64) {k : Nat} (hk : k < 64) :
    (laAdjust n a).getLsbD k = if n ≤ k then a.getLsbD (n - 1) else a.getLsbD k := by
  have hmask : (BitVec.allOnes 64 <<< n).getLsbD k = decide (n ≤ k) := by
    rw [BitVec.getLsbD_shiftLeft, BitVec.getLsbD_allOnes, ← decide_not]
    simp [hk, show k - n < 64 by omega]
  unfold laAdjust
  split
  · rename_i hsign
    rw [BitVec.getLsbD_or, hmask, hsign]
    by_cases hn : n ≤ k <;> simp [hn]
  · rename_i hsign
    rw [BitVec.getLsbD_and, BitVec.getLsbD_not, hmask, Bool.eq_false_iff.2 hsign]
    by_cases hn : n ≤ k <;> simp [hn, hk]

theorem State.canonical_iff (s : State) (a : Word64) :
    s.canonical a = true ↔
      ∀ k, s.cfg.linearWidth ≤ k → k < 64 → a.getLsbD k = a.getLsbD (s.cfg.linearWidth - 1) := by
  rw [State.canonical, decide_eq_true_iff]
  constructor
  · intro h k hn hk
    have hbit := getLsbD_laAdjust s.cfg.linearWidth a hk
    rwa [h, if_pos hn] at hbit
  · intro h
    apply BitVec.eq_of_getLsbD_eq
    intro k hk
    rw [getLsbD_laAdjust _ _ hk]
    split
    · exact (h k ‹_› hk).symm
    · rfl

/-- Settles O60: the mask of `LA_adjust` covers bits 63 down to `N`, and a canonical address is one that
it leaves as it was. -/
theorem linearAddressAdjustment : Obligations.LinearAddressAdjustment :=
  fun s a _ _ => ⟨fun _ hk => getLsbD_laAdjust _ a hk, s.canonical_iff a⟩

end Sys2Proof.Machine
end

section
/-! Alignment checking of pushes (20_memory.md R55, R60): when a push raises `#AC`, and the deliveries
outside IA-32e mode whose first push does. -/

namespace Sys2Proof.Machine

variable {ev : Event} {t : Target} {s : State} {c : PushCtx} {ss : SegReg} {ptr : Word64}

/-- The next push is made through a gate of DPL 3, with alignment checking enabled, to an address that is
not a multiple of its width (R55). -/
def PushCtx.Unaligned (c : PushCtx) (s : State) : Prop :=
  c.gateDpl3 = true ∧ s.alignmentChecked = true ∧ (s.slotAddr c.width 0).toNat % c.width ≠ 0

theorem State.alignmentChecked_iff (s : State) :
    s.alignmentChecked = true ↔
      s.cr0.am = true ∧ s.eflags.getLsbD 18 = true ∧ s.cpl = 3#2 := by
  simp [State.alignmentChecked, State.ac, acBit, and_assoc]

theorem Target.pushCtx_unaligned_iff (t : Target) (sup : Bool) (ev : Event) (s : State) :
    (t.pushCtx sup ev).Unaligned s ↔
      t.gate.dpl = 3#2 ∧ s.cr0.am = true ∧ s.eflags.getLsbD 18 = true ∧ s.cpl = 3#2 ∧
        (s.slotAddr t.size.width 0).toNat % t.size.width ≠ 0 := by
  simp [PushCtx.Unaligned, Target.pushCtx, State.alignmentChecked_iff, and_assoc]

/-- A push tests the address of its slot, then stores there. -/
theorem push_eq (c : PushCtx) (v : Word64) (s : State) :
    push c v s =
      require (!(c.gateDpl3 && s.alignmentChecked &&
          decide ((s.slotAddr c.width 0).toNat % c.width ≠ 0)))
        (raiseCode .ac (extCode c.ext) s) >>= fun _ =>
      store (s.lowered c.width) ⟨.write, c.supervisor⟩ c.width (s.slotAddr c.width 0) v := by
  have haddr : s.slotAddr c.width 0 =
      (s.lowered c.width).stackTop ((s.lowered c.width).ptrWidth c.width) := by
    simp [State.slotAddr, State.afterPushes, State.lowered]
  rw [haddr]
  rfl

theorem push_of_unaligned (h : c.Unaligned s) (v : Word64) :
    push c v s = .error (.raise ⟨.ac, some (extCode c.ext), none⟩ s) := by
  obtain ⟨hdpl, hchecked, haddr⟩ := h
  rw [push_eq, hdpl, hchecked, decide_eq_true haddr]
  rfl

/-- What a push that passes the test raises is the store's page fault. -/
theorem push_raise_ne_ac {v : Word64} {e : Exc} {d : State} (hu : ¬ c.Unaligned s)
    (h : push c v s = .error (.raise e d)) : e.name ≠ .ac := by
  rw [push_eq, Run.bind_eq_error, require_eq_error] at h
  rcases h with ⟨htest, -⟩ | ⟨_, -, hstore⟩
  · simp only [Bool.not_eq_false', Bool.and_eq_true, decide_eq_true_eq, and_assoc] at htest
    exact absurd htest hu
  · simp [(store_raise hstore).1]

/-- The first of several pushes raises `#AC` before anything is written. -/
theorem pushAll_of_unaligned (h : c.Unaligned s) (x : Slot) (xs : List Slot) :
    ∃ d, pushAll c (x :: xs) s = .error (.raise ⟨.ac, some (extCode c.ext), none⟩ d) ∧
      d.mem = s.mem := by
  have hdrawn : c.Unaligned (s.setDraws (s.draws + x.pads c.width)) := h
  refine ⟨s.setDraws (s.draws + x.pads c.width), ?_, State.setDraws_mem ..⟩
  rw [pushAll, pushSlot, push_of_unaligned hdrawn, Run.error_bind]

/-! A delivery outside IA-32e mode whose checks pass stops as its pushes do. -/

theorem Target.offsetOk_legacy (hl : s.lma = false)
    (ho : t.gate.offset.toNat ≤ t.desc.limit.toNat) : t.offsetOk s = true := by
  simp [Target.offsetOk, hl, ho]

theorem intraPrivilege_stops {e : Stop} (hl : s.lma = false)
    (ho : t.gate.offset.toNat ≤ t.desc.limit.toNat)
    (hwrap : t.size.width * (3 + ev.codeSlots.length) ≤
      ((s.ptrWidth t.size.width).trunc s.rsp).toNat)
    (hroom : s.ss.hid.hasRoom (s.ptrWidth t.size.width)
      ((s.ptrWidth t.size.width).trunc s.rsp).toNat
      (t.size.width * (3 + ev.codeSlots.length)) = true)
    (hpush : pushAll (t.pushCtx (decide (s.cpl ≠ 3#2)) ev) (returnSlots s) s = .error e) :
    intraPrivilege ev t s = .error e := by
  have hstack : intraStack ev t s = .ok (s, s.ssp, false) := by
    simp [intraStack, hl, stackRoom, frameBytes, Nat.not_lt.2 hwrap, hroom,
      Target.offsetOk_legacy hl ho]
  have hframe : intraFrame ev t s s = .error e := by
    rw [intraFrame, hl, hpush]
    rfl
  simp only [intraPrivilege, hstack, hframe, Run.ok_bind, Run.error_bind]

theorem interPrivilege_stops {e : Stop} (hl : s.lma = false)
    (ho : t.gate.offset.toNat ≤ t.desc.limit.toNat)
    (hstack : newStackLegacy ev t.desc.dpl s = .ok (ss, ptr))
    (hroom : newStackRoom ev t ss ptr (t.size.width * (5 + ev.codeSlots.length)) s = .ok ())
    (hpush : pushAll (t.pushCtx true ev) (stackSlots s ++ returnSlots s ++ ev.codeSlots)
      (t.enterCode (enterStack ss ptr s)) = .error e) :
    interPrivilege ev t s = .error e := by
  have hnew : newStack ev t s = .ok (ss, ptr, s) := by simp [newStack, hl, hstack]
  have hssp : newShadowPointer t s = .ok (s.plSsp t.desc.dpl) := by simp [newShadowPointer, hl]
  simp only [interPrivilege, hnew, hssp, frameBytes, hroom, Target.offsetOk_legacy hl ho, hpush,
    Run.ok_bind, Run.error_bind, require_true]

theorem fromVirtual8086_stops {e : Stop} (hl : s.lma = false)
    (ho : t.gate.offset.toNat ≤ t.desc.limit.toNat)
    (hstack : newStackLegacy ev 0#2 s = .ok (ss, ptr))
    (hroom : newStackRoom ev t ss ptr (t.size.width * (9 + ev.codeSlots.length)) s = .ok ())
    (hpush : pushAll (t.pushCtx true ev)
      (dataSlots s ++ stackSlots s ++ returnSlots s ++ ev.codeSlots)
      (enterStack ss ptr (s.setFlags (gateFlags t.trap s.eflags))) = .error e) :
    fromVirtual8086 ev t s = .error e := by
  simp only [fromVirtual8086, hstack, frameBytes, hroom, Target.offsetOk_legacy hl ho, hpush,
    Run.ok_bind, Run.error_bind, require_true]

/-- The flags a delivery clears do not include `AC` (10_state.md R18, R19). -/
theorem gateFlags_ac (trap : Bool) (f : Word32) :
    (gateFlags trap f).getLsbD acBit = f.getLsbD acBit := by
  rw [getLsbD_gateFlags]
  simp [acBit]

/-! Where an open gate leads outside IA-32e mode. -/

theorem Opens.deliver_intra (h : Opens ev t s) (hvm : s.vm = false)
    (hdesc : t.desc.conforming = true ∨ t.desc.dpl = s.cpl) :
    Machine.deliver ev s = intraPrivilege ev t s := by
  rw [h.route, hvm]
  rcases hdesc with hdesc | hdesc
  · simp [hdesc]
  · simp [hdesc, BitVec.lt_irrefl]

theorem Opens.deliver_inter (h : Opens ev t s) (hvm : s.vm = false)
    (hconf : t.desc.conforming = false) (hdpl : t.desc.dpl < s.cpl) :
    Machine.deliver ev s = interPrivilege ev t s := by
  simp [h.route, hvm, hconf, hdpl]

theorem Opens.deliver_virtual8086 (h : Opens ev t s) (hvm : s.vm = true)
    (hconf : t.desc.conforming = false) (hdpl : t.desc.dpl = 0#2) (hcpl : s.cpl = 3#2) :
    Machine.deliver ev s = fromVirtual8086 ev t s := by
  simp [h.route, hvm, hconf, hdpl, hcpl]

/-- Settles O41: a push tests its own slot's address, and each of the three deliveries stops at its first
push, with the memory it began with. -/
theorem unalignedPushRaisesAlignmentCheck : Obligations.UnalignedPushRaisesAlignmentCheck := by
  constructor
  · intro ev t sup v s bad hbad
    rw [← t.pushCtx_unaligned_iff sup ev s] at hbad
    refine ⟨fun h => push_of_unaligned (hbad.1 h) v, fun h x d hpush => ?_⟩
    have hnot : ¬ (t.pushCtx sup ev).Unaligned s := fun hu => by simp [hbad.2 hu] at h
    exact push_raise_ne_ac hnot hpush
  · intro ev t s ss ptr hopens hl hgate ham hac hcpl ho
    refine ⟨fun hvm hdesc hwrap hroom haddr => ?_, fun hvm hconf hdpl hstack hroom haddr => ?_,
      fun hvm hconf hdpl hstack hroom haddr => ?_⟩
    · have hu : (t.pushCtx (decide (s.cpl ≠ 3#2)) ev).Unaligned s :=
        (Target.pushCtx_unaligned_iff ..).2 ⟨hgate, ham, hac, hcpl, haddr⟩
      obtain ⟨d, hpush, hmem⟩ := pushAll_of_unaligned hu (.word (s.eflags.setWidth 64))
        [.selector s.cs.sel, .word s.rip]
      refine ⟨d, ?_, hmem⟩
      rw [hopens.deliver_intra hvm hdesc]
      exact intraPrivilege_stops hl ho hwrap hroom hpush
    · have hu : (t.pushCtx true ev).Unaligned (t.enterCode (enterStack ss ptr s)) :=
        (Target.pushCtx_unaligned_iff ..).2 ⟨hgate, ham, hac, hcpl, haddr⟩
      obtain ⟨d, hpush, hmem⟩ := pushAll_of_unaligned hu (.selector s.ss.sel)
        (.word s.rsp :: returnSlots s ++ ev.codeSlots)
      refine ⟨d, ?_, hmem⟩
      rw [hopens.deliver_inter hvm hconf hdpl]
      exact interPrivilege_stops hl ho hstack hroom hpush
    · have hu : (t.pushCtx true ev).Unaligned
          (enterStack ss ptr (s.setFlags (gateFlags t.trap s.eflags))) :=
        (Target.pushCtx_unaligned_iff ..).2
          ⟨hgate, ham, (gateFlags_ac t.trap s.eflags).trans hac, hcpl, haddr⟩
      obtain ⟨d, hpush, hmem⟩ := pushAll_of_unaligned hu (.selector s.gs.sel)
        ([.selector s.fs.sel, .selector s.ds.sel, .selector s.es.sel] ++ stackSlots s ++
          returnSlots s ++ ev.codeSlots)
      refine ⟨d, ?_, hmem⟩
      rw [hopens.deliver_virtual8086 hvm hconf hdpl hcpl]
      exact fromVirtual8086_stops hl ho hstack hroom hpush

end Sys2Proof.Machine
end

section
/-! Decoding and encoding are inverse to each other (30_encoding.md R80 to R89). -/

namespace Sys2Proof

/-- The encoding is as long as the instruction. -/
@[simp] theorem encode_length (i : Instr) : (encode i).length = i.length := by
  cases i with
  | int3 lock => exact (Laws.EncodingLength.int3 lock).1
  | intImm8 lock imm8 => exact (Laws.EncodingLength.intImm8 lock imm8).1
  | into lock => exact (Laws.EncodingLength.into lock).1
  | int1 lock => exact (Laws.EncodingLength.int1 lock).1

/-- Every instruction has a byte, and fits into the bytes a fetch reads at most. -/
theorem Instr.length_bounds (i : Instr) : 0 < i.length ∧ i.length ≤ maxLength := by
  unfold Instr.length maxLength
  cases i <;> simp only [Instr.opcodeLength] <;> split <;> omega

theorem encode_locked {i : Instr} (h : i.locked = true) : encode i = lockByte :: encodeOpcode i := by
  rw [encode, if_pos h]

theorem encode_unlocked {i : Instr} (h : i.locked = false) : encode i = encodeOpcode i := by
  simp [encode, h]

/-- The opcode of a well-formed instruction is read back, the immediate at every value. -/
theorem decodeOpcode_encodeOpcode {i : Instr} (h : i.wellFormed = true) :
    decodeOpcode i.locked (encodeOpcode i) = .instr i i.length := by
  cases i with
  | int3 lock => rfl
  | intImm8 lock imm8 =>
    have himm : imm8 % 256 = imm8 := Nat.mod_eq_of_lt (of_decide_eq_true h)
    simp [encodeOpcode, decodeOpcode, Instr.locked, himm]
  | into lock => rfl
  | int1 lock => rfl

/-- Bytes that `decodeOpcode` answers an instruction for begin with its opcode bytes. -/
theorem decodeOpcode_eq_instr {lock : Bool} {l : List Byte} {i : Instr} {n : Nat}
    (h : decodeOpcode lock l = .instr i n) :
    i.locked = lock ∧ i.wellFormed = true ∧ n = i.length ∧
      l.take i.opcodeLength = encodeOpcode i := by
  unfold decodeOpcode at h
  split at h
  · cases h
  · split at h
    · cases h
      exact ⟨rfl, rfl, rfl, by simp [Instr.opcodeLength, encodeOpcode, *]⟩
    split at h
    · cases h
      exact ⟨rfl, rfl, rfl, by simp [Instr.opcodeLength, encodeOpcode, *]⟩
    split at h
    · cases h
      exact ⟨rfl, rfl, rfl, by simp [Instr.opcodeLength, encodeOpcode, *]⟩
    split at h
    · split at h
      · cases h
      · rename_i ib _
        cases h
        exact ⟨rfl, decide_eq_true ib.isLt, rfl, by simp [Instr.opcodeLength, encodeOpcode, *]⟩
    · cases h

/-- Bytes behind those that settle what the opcode is do not matter. -/
theorem decodeOpcode_append {lock : Bool} {l : List Byte} (h : decodeOpcode lock l ≠ .needMore)
    (r : List Byte) : decodeOpcode lock (l ++ r) = decodeOpcode lock l := by
  cases l with
  | nil => exact absurd rfl h
  | cons b rest =>
    cases rest with
    | cons ib rest => rfl
    | nil =>
      have hb : b ≠ 0xCD#8 := by
        rintro rfl
        exact h rfl
      simp [decodeOpcode, hb]

theorem decode_append {l : List Byte} (h : decode l ≠ .needMore) (r : List Byte) :
    decode (l ++ r) = decode l := by
  cases l with
  | nil => exact absurd rfl h
  | cons b rest =>
    by_cases hb : b = lockByte
    · simp only [List.cons_append, decode, if_pos hb] at h ⊢
      exact decodeOpcode_append h r
    · simp only [List.cons_append, decode, if_neg hb] at h ⊢
      exact decodeOpcode_append h r

/-- The encoding of a well-formed instruction decodes to it. -/
theorem decode_encode {i : Instr} (h : i.wellFormed = true) :
    decode (encode i) = .instr i i.length := by
  have hop := decodeOpcode_encodeOpcode h
  cases hl : i.locked with
  | true => rw [encode_locked hl, decode, if_pos rfl, ← hl, hop]
  | false =>
    rw [hl] at hop
    rw [encode_unlocked hl]
    -- No opcode is the LOCK byte, so `decode` goes straight to the opcode.
    cases i <;> exact hop

/-- Bytes that decode to an instruction begin with its encoding. -/
theorem decode_eq_instr {l : List Byte} {i : Instr} {n : Nat} (h : decode l = .instr i n) :
    i.wellFormed = true ∧ n = i.length ∧ l.take n = encode i := by
  cases l with
  | nil => cases h
  | cons b rest =>
    rw [decode] at h
    split at h
    · obtain ⟨hl, hwf, rfl, htake⟩ := decodeOpcode_eq_instr h
      refine ⟨hwf, rfl, ?_⟩
      rw [encode_locked hl, Instr.length, if_pos hl, List.take_succ_cons, htake, ‹b = lockByte›]
    · obtain ⟨hl, hwf, rfl, htake⟩ := decodeOpcode_eq_instr h
      refine ⟨hwf, rfl, ?_⟩
      rw [encode_unlocked hl, Instr.length, if_neg (by simp [hl]), htake]

/-- The beginning of an encoding is neither an instruction nor outside the entry. -/
theorem decode_take_encode {i : Instr} (h : i.wellFormed = true) {k : Nat} (hk : k < i.length) :
    decode ((encode i).take k) = .needMore := by
  by_contra hmore
  have hfirst : decode ((encode i).take k) = .instr i i.length := by
    rw [← decode_append hmore ((encode i).drop k), List.take_append_drop, decode_encode h]
  obtain ⟨-, -, htake⟩ := decode_eq_instr hfirst
  have hlen := congrArg List.length htake
  simp only [List.length_take, encode_length] at hlen
  omega

/-- A byte that is none of the four opcodes is outside the entry, with or without LOCK before it. -/
theorem decodeOpcode_outside {b : Byte} (hCC : b ≠ 0xCC#8) (hCD : b ≠ 0xCD#8) (hCE : b ≠ 0xCE#8)
    (hF1 : b ≠ 0xF1#8) (lock : Bool) : decodeOpcode lock [b] = .outside b := by
  simp [decodeOpcode, hCC, hCD, hCE, hF1]

/-- Settles O1: the encoding alone decodes to the instruction, and what follows it does not matter. -/
theorem decodeOfEncodeIsTheInstruction : Obligations.DecodeOfEncodeIsTheInstruction := by
  intro i rest hwf
  have hdecode := decode_encode hwf
  rw [decode_append (by simp [hdecode]), hdecode]

/-- Settles O2: each branch of the decoder has read the bytes its instruction is encoded by. -/
theorem decodedBytesAreTheEncoding : Obligations.DecodedBytesAreTheEncoding :=
  fun _ _ _ h => decode_eq_instr h

/-- Settles O3: each word is the encoding of its instruction. -/
theorem specWordsDecode : Obligations.SpecWordsDecode :=
  ⟨decode_encode (i := .int3 false) rfl, decode_encode (i := .intImm8 false 33) rfl,
    decode_encode (i := .intImm8 false 255) rfl, decode_encode (i := .intImm8 false 3) rfl,
    decode_encode (i := .into false) rfl, decode_encode (i := .int1 false) rfl,
    decode_encode (i := .intImm8 true 33) rfl⟩

end Sys2Proof
end

section
/-! Fetching: what the bytes at the instruction pointer make of the step (30_encoding.md R86 to R89,
60_exceptions.md R238), and where these bytes lie in plain memory (20_memory.md R51, R75). -/

namespace Sys2Proof.Machine

variable {s : State}

theorem fetchFrom_outside {n : Nat} {got : List Byte} {b x : Byte}
    (h : fetchByte s got.length = .ok b) (hd : decode (got ++ [b]) = .outside x) :
    fetchFrom s (n + 1) got = .error (.refuse (.outsideSpec x)) := by
  rw [fetchFrom, h, Run.ok_bind, hd]

/-- A step whose fetch is refused is refused. -/
theorem step_fetch_refused {r : Refusal} (hlegal : s.legalModes = true)
    (hevent : nextEvent s.interruptFlag s.pending = none) (htracker : s.endbranchWaits = false)
    (h : fetch s.tick = .error (.refuse r)) : step s = .refused r := by
  rw [step_runs hlegal hevent htracker, runInstruction, h]

/-- Settles O4: the decoder finds the byte outside the entry as soon as the fetch has got it. -/
theorem opcodesOutsideTheEntryAreRefused : Obligations.OpcodesOutsideTheEntryAreRefused := by
  intro s b hlegal hevent htracker hCC hCD hCE hF1
  have hopcode := decodeOpcode_outside hCC hCD hCE hF1
  refine ⟨fun hlock hb => ?_, fun hF0 hb => ?_⟩ <;>
    refine step_fetch_refused hlegal hevent htracker ?_
  · have hdecode : decode [b] = .outside b := by
      rw [decode, if_neg (show b ≠ lockByte from hlock), hopcode]
    exact fetchFrom_outside (got := []) hb hdecode
  · rw [fetch, maxLength, fetchFrom_more (got := []) hF0 rfl]
    exact fetchFrom_outside (got := [0xF0#8]) hb (hopcode true)

/-- The fetch of an instruction that has got its first bytes goes on until it has got the rest. -/
theorem fetchFrom_encode {i : Instr} {got rest : List Byte} {n : Nat} (hwf : i.wellFormed = true)
    (hbytes : ∀ j b, (encode i)[j]? = some b → fetchByte s j = .ok b)
    (hgot : got ++ rest = encode i) (hrest : rest ≠ []) (hn : rest.length ≤ n) :
    fetchFrom s n got = .ok i := by
  induction rest generalizing got n with
  | nil => exact absurd rfl hrest
  | cons b rest ih =>
    obtain ⟨n, rfl⟩ := Nat.exists_eq_add_one.2 (Nat.lt_of_lt_of_le (Nat.succ_pos _) hn)
    have hb : fetchByte s got.length = .ok b := hbytes _ _ (by simp [← hgot])
    by_cases hlast : rest = []
    · subst hlast
      rw [fetchFrom, hb, Run.ok_bind, hgot, decode_encode hwf]
    · have hnext : (got ++ [b]) ++ rest = encode i := by rw [← hgot, List.append_assoc]; rfl
      have hlen : (got ++ [b]).length < i.length := by
        have := List.length_pos_iff.2 hlast
        rw [← encode_length, ← hnext, List.length_append (bs := rest)]
        omega
      have hmore : decode (got ++ [b]) = .needMore := by
        rw [← decode_take_encode hwf hlen, ← hnext, List.take_left]
      rw [fetchFrom_more hb hmore]
      exact ih hnext hlast (Nat.le_of_succ_le_succ hn)

theorem fetch_encode {i : Instr} (hwf : i.wellFormed = true)
    (hbytes : ∀ j b, (encode i)[j]? = some b → fetchByte s j = .ok b) : fetch s = .ok i := by
  obtain ⟨hpos, hmax⟩ := i.length_bounds
  rw [← encode_length] at hpos hmax
  exact fetchFrom_encode hwf hbytes (List.nil_append _) (List.ne_nil_of_length_pos hpos) hmax

/-- A byte inside the code segment is fetched from its linear address when memory is plain. -/
theorem PlainMemory.fetchByte (h : PlainMemory s) {j : Nat} (hok : s.codeByteOk j = true) :
    fetchByte s j = .ok (s.mem.read (s.codeAddr (s.codeOffset j)).toNat) := by
  have hram := h.ram (s.codeAddr (s.codeOffset j)).toNat (BitVec.isLt _)
  rw [Machine.fetchByte, hok, require_true, Run.ok_bind, resolve_plain h.paging hram, Run.ok_bind,
    readByte_ram hram]

/-- In 64-bit mode an offset is its own linear address. -/
theorem State.toNat_codeAddr_mode64 (hm : s.mode64 = true) {j : Nat}
    (htop : s.rip.toNat + j < 2 ^ 64) :
    (s.codeAddr (s.codeOffset j)).toNat = s.rip.toNat + j := by
  rw [State.codeAddr, if_pos hm, State.codeOffset, State.ipWidth, if_pos hm, BitVec.toNat_ofNat]
  exact Nat.mod_eq_of_lt htop

/-- Elsewhere the base of `CS` is added and the sum cut to 32 bits. -/
theorem State.toNat_codeAddr_narrow (hm : s.mode64 = false) (off : Nat) :
    (s.codeAddr off).toNat = (s.cs.hid.base.toNat + off) % 2 ^ 32 := by
  simp only [State.codeAddr, hm, Bool.false_eq_true, if_false, toNat_low32, BitVec.toNat_add,
    BitVec.toNat_ofNat]
  omega

/-- Outside 64-bit mode the pointer's width is the default size of the code segment. -/
theorem State.toNat_trunc_rip_narrow (hm : s.mode64 = false) :
    (s.ipWidth.trunc s.rip).toNat = s.rip.toNat % (if s.cs.hid.db then 2 ^ 32 else 2 ^ 16) := by
  cases hdb : s.cs.hid.db <;>
    simp [State.ipWidth, hm, hdb, PtrWidth.trunc, toNat_low16, toNat_low32]

/-- Settles O5: the fetch reads the bytes of the encoding and the decoder answers the instruction; in
plain memory each byte is read at its linear address. -/
theorem stepRunsTheDecodedInstruction : Obligations.StepRunsTheDecodedInstruction := by
  refine ⟨fun s j off hp => ⟨fun hm htop hcanonical => ?_, fun hm hoff hlimit hwidth hspace => ?_⟩,
    fun s i hlegal hwf hevent htracker hbytes => ⟨?_, rfl⟩⟩
  · rw [hp.fetchByte ((State.codeByteOk_mode64 hm j).2 ⟨htop, hcanonical⟩),
      State.toNat_codeAddr_mode64 hm htop]
  · rw [← State.toNat_trunc_rip_narrow hm] at hoff
    rw [hp.fetchByte ((State.codeByteOk_narrow hm hoff j).2 ⟨hwidth, hlimit, hspace⟩),
      State.toNat_codeAddr_narrow hm, State.codeOffset, ← hoff, Nat.add_assoc]
  · rw [step_runs hlegal hevent htracker, runInstruction, fetch_encode hwf hbytes]

end Sys2Proof.Machine
end

section
/-! The two breakpoint encodings (40_int_instructions.md R100, 30_encoding.md R87): their events have one
vector and differ in a kind that only the virtual-8086 tests see. -/

namespace Sys2Proof.Machine

variable {s : State}

theorem realAddressMode_breakpoints :
    realAddressMode int3Event s = realAddressMode (intNEvent 3) s := rfl

/-- Both kinds are software interrupts, so `EXT` and the gate-DPL check agree. -/
theorem protectedMode_breakpoints : protectedMode int3Event s = protectedMode (intNEvent 3) s := rfl

/-- Neither kind is that of `INTO`. -/
theorem ia32eMode_breakpoints : ia32eMode int3Event s = ia32eMode (intNEvent 3) s := rfl

/-- With `VM = 0` every event but `INTO` reaches the IDT. -/
theorem ReachesIdt.of_not_vm {ev : Event} (hpe : s.cr0.pe = true) (hvm : s.vm = false)
    (hkind : ev.kind ≠ .into) : ReachesIdt ev s :=
  ⟨hpe, fun h => by simp [hvm] at h, fun _ => hkind⟩

/-- Settles O15: in real-address mode and with `VM = 0` the procedures reached do not see the kind. -/
theorem oneByteAndTwoByteBreakpointAgree : Obligations.OneByteAndTwoByteBreakpointAgree := by
  intro s h
  cases hpe : s.cr0.pe with
  | false => simp [deliver, hpe, realAddressMode_breakpoints]
  | true =>
    have hvm : s.vm = false := h.resolve_left (by simp [hpe])
    have hreaches := fun ev => ReachesIdt.of_not_vm (ev := ev) hpe hvm
    rw [(hreaches int3Event (by decide)).deliver, (hreaches (intNEvent 3) (by decide)).deliver,
      protectedMode_breakpoints, ia32eMode_breakpoints]

end Sys2Proof.Machine
end

section
/-! Outcomes of the four instructions (40_int_instructions.md R100 to R103): from what the delivery
answers to what the instruction answers, `#UD` and the refusal of `INT1`. -/

namespace Sys2Proof.Machine

variable {s t d : State} {x y : Exc} {ev : Event}

/-- An exception that records no address is delivered from the state itself. -/
theorem raiseException_of_ok (ha : x.addr = none) (h : deliver x.event s = .ok t) :
    raiseException x s = .next t := by
  rw [raiseException, recordFaultAddr, ha, h]

/-- A second exception in that delivery ends the run (60_exceptions.md R243). -/
theorem raiseException_of_raise (ha : x.addr = none)
    (h : deliver x.event s = .error (.raise y d)) :
    raiseException x s = .fault (.nestedDeliveryFailed x.name y.name) := by
  rw [raiseException, recordFaultAddr, ha, h]

theorem takeEvent_of_ok {entry : State} (h : deliver ev entry = .ok t) :
    takeEvent ev s entry = .next t := by
  rw [takeEvent, h]

/-- An exception raised before anything was written is taken from the state before the event. -/
theorem takeEvent_of_clean_raise {entry : State} (h : deliver ev entry = .error (.raise x d))
    (hm : d.mem = s.mem) : takeEvent ev s entry = raiseException x (s.setDraws (d.draws + 1)) := by
  rw [takeEvent, h]
  exact congrArg (raiseException x) (abandon_clean hm)

theorem exec_into_not_taken (hm : s.mode64 = false) (hof : s.overflow = false) :
    exec (.into false) s = .next (advance 1 s) := by
  simp [exec, execInto, hm, hof]

theorem exec_into_mode64 (hm : s.mode64 = true) (lock : Bool) :
    exec (.into lock) s = raiseException invalidOpcode s := by
  cases lock <;> simp [exec, execInto, hm]

theorem exec_int1_hwDebug (h : s.cfg.int1HwDebug = true) :
    exec (.int1 false) s = .refused .int1HardwareDebug := by
  simp [exec, execInt1, h]

theorem exec_int1_trap (h : s.cfg.int1HwDebug = false) :
    exec (.int1 false) s = takeEvent int1Event s (advance 1 s) := by
  simp [exec, execInt1, h]

/-- Settles O11: outside 64-bit mode `INTO` looks at `OF` alone. -/
theorem intoNotTakenOnlyAdvances : Obligations.IntoNotTakenOnlyAdvances :=
  fun _ hm hof => exec_into_not_taken hm hof

/-- Settles O12: the `#UD` of 64-bit mode is delivered from the instruction's own state. -/
theorem intoIsInvalidIn64BitMode : Obligations.IntoIsInvalidIn64BitMode := by
  intro s t lock hlma hl
  have hm : s.mode64 = true := by simp [State.mode64, hlma, hl]
  rw [exec_into_mode64 hm]
  exact ⟨raiseException_of_ok (x := invalidOpcode) rfl,
    fun _ _ => raiseException_of_raise (x := invalidOpcode) rfl⟩

/-- Settles O14: hardware debug is asked first, and otherwise vector 1 is delivered. -/
theorem int1UnderHardwareDebugIsRefused : Obligations.Int1UnderHardwareDebugIsRefused := by
  intro s
  refine ⟨exec_int1_hwDebug, fun hdebug t hdeliver => ?_⟩
  rw [exec_int1_trap hdebug]
  exact takeEvent_of_ok hdeliver

end Sys2Proof.Machine
end

section
/-! The tests of virtual-8086 mode (40_int_instructions.md R105, R107 to R111): which events pass them
and where each test leads. -/

namespace Sys2Proof.Machine

variable {s : State} {ev : Event}

/-- `IOPL` is two bits wide. -/
theorem State.iopl_lt_three (h : s.iopl ≠ 3#2) : s.iopl < 3#2 := by
  bv_omega

/-- The IOPL check without `CR4.VME` (R108). -/
theorem deliver_iopl_check (hpe : s.cr0.pe = true) (hvm : s.vm = true) (hkind : ev.kind = .intN)
    (hvme : s.cr4.vme = false) (hiopl : s.iopl ≠ 3#2) :
    deliver ev s = .error (raiseCode .gp 0#32 s) := by
  simp [deliver, hpe, hvm, hkind, hvme, State.iopl_lt_three hiopl]

/-- Settles O21: the check fails from the state past the instruction with nothing written, so `#GP(0)`
is taken from the state of the instruction. -/
theorem virtual8086IoplCheck : Obligations.Virtual8086IoplCheck := by
  intro s imm8 hpe hvm hvme hiopl
  have hraise : deliver (intNEvent imm8) (advance 2 s) =
      .error (.raise ⟨.gp, some 0#32, none⟩ (advance 2 s)) :=
    deliver_iopl_check (s := advance 2 s) hpe hvm rfl hvme hiopl
  exact takeEvent_of_clean_raise (d := advance 2 s) hraise rfl

/-- Only `INT n` is subject to the tests of virtual-8086 mode. -/
theorem ReachesIdt.of_not_intN (hpe : s.cr0.pe = true) (hlma : s.lma = false)
    (hkind : ev.kind ≠ .intN) : ReachesIdt ev s :=
  ⟨hpe, fun _ h => absurd h hkind, fun h => by simp [State.mode64, hlma] at h⟩

theorem trapEvent_kind_ne_intN {i : Instr} (h : ∀ l n, i ≠ .intImm8 l n) :
    (trapEvent i).kind ≠ .intN := by
  cases i with
  | intImm8 lock imm8 => exact absurd rfl (h lock imm8)
  | int3 | into | int1 => exact nofun

/-- Settles O22: an event of another kind than `INT n` reaches the IDT, here by the procedure of
`LMA = 0`. -/
theorem otherTrapsSkipTheVirtual8086Tests : Obligations.OtherTrapsSkipTheVirtual8086Tests := by
  intro s i hpe hlma hi
  rw [(ReachesIdt.of_not_intN hpe hlma (trapEvent_kind_ne_intN hi)).deliver, hlma]
  rfl

/-- The event is an `INT n` of a virtual-8086 task with `CR4.VME = 1`: its vector's redirection bit
decides (R109). -/
structure AsksRedirection (ev : Event) (s : State) : Prop where
  pe : s.cr0.pe = true
  vm : s.vm = true
  vme : s.cr4.vme = true
  intN : ev.kind = .intN

/-- Bit clear: the program's own handler (R110). -/
theorem AsksRedirection.deliver_clear (h : AsksRedirection ev s)
    (hbit : redirectionBit ev.vector s = .ok false) : deliver ev s = redirectToProgram ev s := by
  obtain ⟨hpe, hvm, hvme, hkind⟩ := h
  simp [deliver, hpe, hvm, hvme, hkind, hbit]

/-- Bit set: the procedure of protected mode, which needs `IOPL = 3` (R111). -/
theorem AsksRedirection.deliver_set (h : AsksRedirection ev s)
    (hbit : redirectionBit ev.vector s = .ok true) :
    deliver ev s =
      if s.iopl = 3#2 then protectedMode ev s else .error (raiseCode .gp 0#32 s) := by
  obtain ⟨hpe, hvm, hvme, hkind⟩ := h
  simp [deliver, hpe, hvm, hvme, hkind, hbit]

/-- With the bit set and `IOPL = 3` the event reaches the IDT. -/
theorem AsksRedirection.reachesIdt (h : AsksRedirection ev s)
    (hbit : redirectionBit ev.vector s = .ok true) (hiopl : s.iopl = 3#2) (hlma : s.lma = false) :
    ReachesIdt ev s :=
  ⟨h.pe, fun _ _ => ⟨hiopl, fun _ => ⟨hlma, hbit⟩⟩, fun _ => by simp [h.intN]⟩

/-- Settles O24: with the vector's bit set `IOPL` alone decides. -/
theorem vmeRedirectionBitSet : Obligations.VmeRedirectionBitSet := by
  intro ev s hpe hvm hvme hkind hbit
  have hasks : AsksRedirection ev s := ⟨hpe, hvm, hvme, hkind⟩
  rw [hasks.deliver_set hbit]
  exact ⟨fun hiopl => ⟨if_pos hiopl, hasks.reachesIdt hbit hiopl⟩, fun hiopl => if_neg hiopl⟩

end Sys2Proof.Machine
end

section
/-! The state in which real-address mode ends a delivery, field by field (41_delivery_gates.md R132,
R133). -/

namespace Sys2Proof.Machine

variable {s : State} {ev : Event} {w : Nat}

/-- Pushes through `SP` keep the bits of `RSP` above it (20_memory.md R59). -/
theorem State.afterPushes_rsp_sp (h : s.ptrWidth w = .sp) (k : Nat) :
    (s.afterPushes w k).rsp =
      putLow16 s.rsp ((s.rsp - BitVec.ofNat 64 (w * k)).setWidth 16) := by
  rw [State.afterPushes, h]
  rfl

theorem State.ptrWidth_real (hpe : s.cr0.pe = false) : s.ptrWidth 2 = .sp := by
  simp [State.ptrWidth, hpe]

/-- Settles O17: the delivery's end is known, and its stack pointer is `SP` lowered by three words. -/
theorem realModeDeliveryCompletes : Obligations.RealModeDeliveryCompletes := by
  intro ev s hpe hlma hp htable hwrap hroom
  have hadmits : RealModeAdmits ev s := ⟨hpe, hlma, hp, htable, hwrap, hroom⟩
  obtain ⟨m, d, hdeliver, hframe⟩ := hadmits.deliver
  refine ⟨m, d, _, _, _, rfl, rfl, ?_, hframe, hdeliver, .of_deliver hdeliver⟩
  rw [State.realEntered, State.realPushed, State.afterPushes_rsp_sp (State.ptrWidth_real hpe)]
  rfl

end Sys2Proof.Machine
end

section
/-! VME redirection (40_int_instructions.md R109, R110): the vector's bit, the pushed image, the room,
and the delivery in plain memory. -/

namespace Sys2Proof.Machine

variable {s : State} {ev : Event}

/-- `IF` cleared in the low word of the flags. -/
theorem getLsbD_low_without_if (f : Word32) {k : Nat} (hk : k < 16) :
    (f.setWidth 16 &&& ~~~(1#16 <<< ifBit)).getLsbD k = (f.getLsbD k && decide (k ≠ 9)) := by
  have hcut : f.setWidth 16 &&& ~~~(1#16 <<< ifBit) = (clearBit f ifBit).setWidth 16 := by
    rw [clearBit, BitVec.setWidth_and]
    rfl
  rw [hcut, BitVec.getLsbD_setWidth, getLsbD_clearBit (by decide), ifBit, decide_eq_true hk,
    Bool.true_and]

theorem getLsbD_if_set : ∀ k, k < 16 → (1#16 <<< ifBit).getLsbD k = decide (k = 9) := by decide

/-- The low word of the flags with `VIF` in the place of `IF`. -/
theorem getLsbD_low_with_vif (f : Word32) {k : Nat} (hk : k < 16) :
    (if f.getLsbD vifBit then (f.setWidth 16 &&& ~~~(1#16 <<< ifBit)) ||| (1#16 <<< ifBit)
      else f.setWidth 16 &&& ~~~(1#16 <<< ifBit)).getLsbD k =
        if k = 9 then f.getLsbD vifBit else f.getLsbD k := by
  cases f.getLsbD vifBit with
  | false =>
    simp only [Bool.false_eq_true, if_false, getLsbD_low_without_if f hk]
    by_cases h9 : k = 9 <;> simp [h9]
  | true =>
    simp only [if_true, BitVec.getLsbD_or, getLsbD_low_without_if f hk, getLsbD_if_set k hk]
    by_cases h9 : k = 9 <;> simp [h9]

/-- The two bits of `IOPL`, both set. -/
theorem getLsbD_iopl_three : ∀ k, k < 16 →
    (3#16 <<< ioplBit).getLsbD k = decide (k = 12 ∨ k = 13) := by decide

/-- Settles O27: the image's bits, with `IOPL = 3` and below it. -/
theorem redirectionImageBits : Obligations.RedirectionImageBits := by
  intro f k hk
  by_cases hiopl : f.extractLsb' 12 2 = 3#2
  · have himage : redirectImage f = f.setWidth 16 := if_pos hiopl
    rw [himage, if_pos hiopl, BitVec.getLsbD_setWidth, decide_eq_true hk, Bool.true_and]
  · have himage : redirectImage f = _ ||| (3#16 <<< ioplBit) := if_neg hiopl
    rw [himage, if_neg hiopl, BitVec.getLsbD_or, getLsbD_low_with_vif f hk,
      getLsbD_iopl_three k hk, vifBit]
    by_cases h9 : k = 9
    · simp [h9]
    · by_cases hplace : k = 12 ∨ k = 13 <;> simp [h9, hplace]

/-- Pushes that would wrap the pointer are refused (20_memory.md R62; log 41). -/
theorem AsksRedirection.deliver_wraps (h : AsksRedirection ev s)
    (hbit : redirectionBit ev.vector s = .ok false) (hsp : (low16 s.rsp).toNat < 6) :
    deliver ev s = .error (.refuse .stackWrap) := by
  rw [h.deliver_clear hbit, redirectToProgram, stackRoom, if_pos hsp, Run.error_bind]

theorem AsksRedirection.deliver_noRoom (h : AsksRedirection ev s)
    (hbit : redirectionBit ev.vector s = .ok false) (hsp : 6 ≤ (low16 s.rsp).toNat)
    (hroom : s.ss.hid.hasRoom .sp (low16 s.rsp).toNat 6 = false) :
    deliver ev s = .error (raiseCode .ss 0#32 s) := by
  rw [h.deliver_clear hbit, redirectToProgram, stackRoom, if_neg (Nat.not_lt.2 hsp), hroom,
    require_false, Run.error_bind]

/-- Settles O25: once the bit is known to be clear, the room is tested before anything is pushed. -/
theorem vmeRedirectionNeedsRoom : Obligations.VmeRedirectionNeedsRoom := by
  intro ev s hpe hvm hvme hkind hbit
  have hasks : AsksRedirection ev s := ⟨hpe, hvm, hvme, hkind⟩
  exact ⟨hasks.deliver_wraps hbit, hasks.deliver_noRoom hbit⟩

/-- A map with a location has the vector's bit in bit `n mod 8` of its byte `n div 8`. -/
theorem redirectionBit_located {a : Word64} (hp : PlainMemory s)
    (h : redirectionMapAddr s = .ok (some a)) (n : Nat) :
    redirectionBit n s =
      .ok ((s.bytesAt (a + BitVec.ofNat 64 (n / 8)) 0).getLsbD (n % 8)) := by
  have hlow : n % 8 < 8 := Nat.mod_lt n (by decide)
  have hvalue := s.getLsbD_value (a + BitVec.ofNat 64 (n / 8)) (w := 1) (by decide) (n % 8)
  rw [decide_eq_true hlow, Bool.true_and, Nat.div_eq_of_lt hlow, Nat.mod_mod] at hvalue
  simp only [redirectionBit, h, Run.ok_bind, hp.load, hvalue]

/-- The usual place: the 32 bytes below the I/O permission bit map (20_memory.md R70). -/
theorem redirectionMapAddr_belowIoMap {field : Nat} (hp : PlainMemory s)
    (hmap : s.cfg.redirectionMap = .belowIoMap field) (htss : s.tr.format = .tss32) :
    redirectionMapAddr s =
      .ok (some (s.tr.base + s.value 2 (s.tr.base + BitVec.ofNat 64 field) - 32#64)) := by
  simp only [redirectionMapAddr, hmap, htss, hp.load, Run.ok_bind]

theorem redirectionMapAddr_inTss {off : Nat} (hmap : s.cfg.redirectionMap = .inTss off) :
    redirectionMapAddr s = .ok (some (s.tr.base + BitVec.ofNat 64 off)) := by
  simp only [redirectionMapAddr, hmap]

/-- A redirection to the program's handler can end well: the bit is clear, memory is plain, and 6 bytes
of stack have room without a wrap (R110, 20_memory.md R62). -/
structure RedirectionAdmits (ev : Event) (s : State) : Prop extends AsksRedirection ev s where
  lma : s.lma = false
  plain : PlainMemory s
  clear : redirectionBit ev.vector s = .ok false
  noWrap : 6 ≤ (low16 s.rsp).toNat
  room : s.ss.hid.hasRoom .sp (low16 s.rsp).toNat 6 = true

/-- What a redirection pushes: the image of the flags and the return pointer (R110). -/
def redirectSlots (s : State) : List Slot :=
  [.word ((redirectImage s.eflags).setWidth 64), .selector s.cs.sel, .word s.rip]

/-- The state of a redirection when its three words have been pushed, which left memory `m`, and the
flags cleared. -/
def State.redirectPushed (s : State) (m : Memory) (d : Nat) : State :=
  (((s.setMem m).setDraws d).setRsp (s.afterPushes 2 3).rsp).setFlags
    (redirectFlags s.iopl s.eflags)

/-- The entry of the vector in the table at `V86_IVT_BASE`, read from memory `m`. -/
def State.redirectEntry (s : State) (ev : Event) (m : Memory) : Word64 :=
  (s.setMem m).value 4 (s.cfg.v86IvtBase + BitVec.ofNat 64 (4 * ev.vector))

/-- The redirection's end: `CS:IP` from the vector's entry, whose low half is the offset. -/
def State.redirectEntered (s : State) (ev : Event) (m : Memory) (d : Nat) : State :=
  enterRealCode ((s.redirectEntry ev m).extractLsb' 16 16) ((s.redirectEntry ev m).setWidth 16)
    (s.redirectPushed m d)

/-- The task's own stack is used through `SP` (R110). -/
theorem State.ptrWidth_virtual8086 (hvm : s.vm = true) : s.ptrWidth 2 = .sp := by
  simp [State.ptrWidth, hvm]

/-- The three words of a redirection are pushed. -/
theorem RedirectionAdmits.pushes (h : RedirectionAdmits ev s) :
    ∃ m d, m.wf = true ∧
      pushAll redirectPushCtx (redirectSlots s) s =
        .ok (((s.setMem m).setDraws d).setRsp (s.afterPushes 2 3).rsp) ∧
      Frame s 2 (redirectSlots s) (((s.setMem m).setDraws d).setRsp (s.afterPushes 2 3).rsp) := by
  have hfits : s.fits 2 3 := .inr (by rw [State.ptrWidth_virtual8086 h.vm]; exact h.noWrap)
  exact pushAll_plain (c := redirectPushCtx) (xs := redirectSlots s) h.plain h.lma (.inl rfl)
    (.of_dpl rfl) (show 3 ≤ 16 by omega) hfits

/-- The redirection ends well, with the image and the return pointer on the stack. -/
theorem RedirectionAdmits.deliver (h : RedirectionAdmits ev s) :
    ∃ m d, deliver ev s = .ok (s.redirectEntered ev m d) ∧
      Frame s 2 (redirectSlots s) (s.redirectEntered ev m d) := by
  obtain ⟨m, d, hm, hpush, hframe⟩ := h.pushes
  refine ⟨m, d, ?_, hframe.pointer, hframe.slots, hframe.others⟩
  have hroom : stackRoom s.ss.hid .sp (low16 s.rsp).toNat 6 (raiseCode .ss 0#32 s) = .ok () := by
    simp [stackRoom, h.room, Nat.not_lt.2 h.noWrap]
  have hplain : PlainMemory (s.redirectPushed m d) := ⟨h.plain.paging, h.plain.ram, hm⟩
  have hread : load (s.redirectPushed m d) .vector ⟨.read, false⟩ 4
      (s.cfg.v86IvtBase + BitVec.ofNat 64 (4 * ev.vector)) = .ok (s.redirectEntry ev m) :=
    hplain.load ..
  rw [h.deliver_clear h.clear, redirectToProgram, hroom, Run.ok_bind]
  change (pushAll redirectPushCtx (redirectSlots s) s >>= _) = _
  rw [hpush, Run.ok_bind]
  change (load (s.redirectPushed m d) .vector ⟨.read, false⟩ 4
    (s.cfg.v86IvtBase + BitVec.ofNat 64 (4 * ev.vector)) >>= _) = _
  rw [hread]
  rfl

/-- Settles O23: where the map has a location its byte is read there; the redirection's end is known,
and its stack pointer is `SP` lowered by three words. -/
theorem vmeRedirectionCompletes : Obligations.VmeRedirectionCompletes := by
  refine ⟨fun s n field off hp => ⟨fun hmap htss => ?_, fun hmap => ?_⟩, ?_⟩
  · exact redirectionBit_located hp (redirectionMapAddr_belowIoMap hp hmap htss) n
  · exact redirectionBit_located hp (redirectionMapAddr_inTss hmap) n
  · intro ev s hpe hlma hvm hvme hkind hp hbit hwrap hroom
    have hadmits : RedirectionAdmits ev s :=
      ⟨⟨hpe, hvm, hvme, hkind⟩, hlma, hp, hbit, hwrap, hroom⟩
    obtain ⟨m, d, hdeliver, hframe⟩ := hadmits.deliver
    refine ⟨m, d, _, _, _, rfl, rfl, ?_, hframe, hdeliver, .of_deliver hdeliver⟩
    rw [State.redirectEntered, State.redirectPushed,
      State.afterPushes_rsp_sp (State.ptrWidth_virtual8086 hvm)]
    rfl

end Sys2Proof.Machine
end

section
/-! The checks of the IDT entry (41_delivery_gates.md R134 to R136, R139 to R141): what an event that
reaches the IDT does with its entry, by either procedure, up to the gate it enters. -/

namespace Sys2Proof.Machine

variable {ev : Event} {s : State} {g : Gate} {gt : GateType}

/-- The software interrupts of 00_scope.md R10. -/
theorem EventKind.software_iff (k : EventKind) :
    k.software = true ↔ k = .intN ∨ k = .int3 ∨ k = .into := by
  cases k <;> decide

theorem EventKind.software_eq {k : EventKind} {sw : Bool}
    (h : sw = true ↔ k = .intN ∨ k = .int3 ∨ k = .into) : k.software = sw :=
  Bool.eq_iff_iff.2 (k.software_iff.trans h.symm)

/-- Where a gate whose own checks have passed leads (R136, R141). -/
def GateType.enter (ev : Event) (g : Gate) (s : State) : GateType → Run State
  | .task => taskGate ev g s
  | .procedure size trap => trapOrInterruptGate ev size trap g s

/-- What both procedures do with an entry they have read (R135, R136, R140, R141). -/
def Gate.checks (ev : Event) (s : State) (g : Gate) : Run State :=
  match g.typ with
  | none => .error (raiseCode .gp ev.vectorCode s)
  | some gt =>
    gateDplCheck ev g s >>= fun _ =>
      require g.present (raiseCode .np ev.vectorCode s) >>= fun _ => gt.enter ev g s

theorem GateRead.deliver (hg : GateRead ev g s) (hr : ReachesIdt ev s) :
    Machine.deliver ev s = g.checks ev s := by
  obtain ⟨hlim, hcan⟩ := hg.tests hr.pe
  have hread := hg.read
  rw [hr.deliver, Gate.checks]
  cases hl : s.lma with
  | false =>
    simp only [hl, Bool.false_eq_true, if_false] at hread ⊢
    simp only [protectedMode, hlim, hread, require_true, Run.ok_bind]
    cases g.typ with
    | none => rfl
    | some gt => cases gt <;> rfl
  | true =>
    simp only [hl, if_true] at hread ⊢
    simp only [ia32eMode, hr.not_into hl, hlim, hcan hl, hread, Bool.and_self, require_true,
      Run.ok_bind]
    cases htyp : g.typ with
    | none => rfl
    | some gt =>
      obtain ⟨trap, rfl⟩ := readGate64_typ hread htyp
      rfl

/-- The vector's entry lies inside the IDT (20_memory.md R63), in IA-32e mode at canonical addresses
(R139). -/
def State.EntryInIdt (s : State) (v : Nat) : Prop :=
  (if s.lma then 16 * v + 15 ≤ s.idtr.limit.toNat else 8 * v + 7 ≤ s.idtr.limit.toNat) ∧
    (s.lma = true → ∀ j, j < 16 →
      s.canonical (s.idtr.base + BitVec.ofNat 64 (16 * v) + BitVec.ofNat 64 j) = true)

/-- The model's test of it. -/
theorem State.entryInIdt_iff (pe : s.cr0.pe = true) (v : Nat) :
    (s.idtInLimits v && (!s.lma || s.canonicalBytes (s.idtEntryAddr v) 16)) = true ↔
      s.EntryInIdt v := by
  rw [Bool.and_eq_true, State.idtInLimits_iff pe, Bool.or_eq_true, State.canonicalBytes_iff,
    State.idtEntryAddr_eq pe, State.EntryInIdt]
  cases s.lma <;> simp

theorem ReachesIdt.deliver_outside (hr : ReachesIdt ev s) (hout : ¬ s.EntryInIdt ev.vector) :
    Machine.deliver ev s = .error (raiseCode .gp ev.vectorCode s) := by
  rw [← State.entryInIdt_iff hr.pe, Bool.not_eq_true] at hout
  rw [hr.deliver]
  cases hl : s.lma with
  | false =>
    have hlim : s.idtInLimits ev.vector = false := by simpa [hl] using hout
    rw [if_neg Bool.false_ne_true, protectedMode, hlim, require_false, Run.error_bind]
  | true =>
    rw [hl, Bool.not_true, Bool.false_or] at hout
    rw [if_pos rfl, ia32eMode, hr.not_into hl, hout, require_true, Run.ok_bind, require_false,
      Run.error_bind]

theorem GateRead.deliver_noGate (hg : GateRead ev g s) (hr : ReachesIdt ev s) (ht : g.typ = none) :
    Machine.deliver ev s = .error (raiseCode .gp ev.vectorCode s) := by
  rw [hg.deliver hr, Gate.checks, ht]

/-- The gate-DPL check, which has `EXT = 0`, fails whether the gate is present or not. -/
theorem GateRead.deliver_lowDpl (hg : GateRead ev g s) (hr : ReachesIdt ev s) (ht : g.typ ≠ none)
    (hsw : ev.kind.software = true) (hdpl : g.dpl < s.cpl) :
    Machine.deliver ev s = .error (raiseCode .gp (errorCode ev.vector true false) s) := by
  obtain ⟨gt, ht⟩ := Option.ne_none_iff_exists'.1 ht
  rw [hg.deliver hr, Gate.checks, ht, gateDplCheck, hsw, decide_eq_true hdpl]
  rfl

theorem GateRead.deliver_absent (hg : GateRead ev g s) (hr : ReachesIdt ev s) (ht : g.typ ≠ none)
    (hdpl : ev.kind.software = true → s.cpl ≤ g.dpl) (hp : g.present = false) :
    Machine.deliver ev s = .error (raiseCode .np ev.vectorCode s) := by
  obtain ⟨gt, ht⟩ := Option.ne_none_iff_exists'.1 ht
  rw [hg.deliver hr, Gate.checks, ht, gateDplCheck_ok hdpl, hp]
  rfl

theorem GateRead.deliver_present (hg : GateRead ev g s) (hr : ReachesIdt ev s)
    (ht : g.typ = some gt) (hdpl : ev.kind.software = true → s.cpl ≤ g.dpl)
    (hp : g.present = true) : Machine.deliver ev s = gt.enter ev g s := by
  rw [hg.deliver hr, Gate.checks, ht, gateDplCheck_ok hdpl, hp]
  rfl

/-- The entry of the mode's size, in plain memory. -/
theorem readGate_plain (hp : PlainMemory s) (pe : s.cr0.pe = true) (v : Nat) :
    ∃ g, (if s.lma then readGate64 s v else readGate32 s v) = .ok g ∧
      GateBytes s.lma
        (s.bytesAt (s.idtr.base + BitVec.ofNat 64 ((if s.lma then 16 else 8) * v))) g := by
  rw [← State.idtEntryAddr_eq pe]
  cases hl : s.lma with
  | false => exact readGate32_plain hp v
  | true => exact readGate64_plain hp hl v

/-- Settles O29: an entry outside the IDT, each check of `Gate.checks` in its order, and the fields of
the entry that was read. -/
theorem gateChecksInOrder : Obligations.GateChecksInOrder := by
  intro ev s g sw v hr hv hsw
  subst hv
  obtain rfl : ev.kind.software = sw := EventKind.software_eq hsw
  refine ⟨⟨rfl, rfl⟩, fun hout => hr.deliver_outside ?_, fun hg ht => hg.deliver_noGate hr ht,
    fun hg ht => hg.deliver_lowDpl hr ht, fun hg ht => hg.deliver_absent hr ht,
    fun hp => readGate_plain hp hr.pe _⟩
  rintro ⟨hlim, hcan⟩
  cases hl : s.lma with
  | false =>
    simp only [hl, Bool.false_eq_true, if_false] at hout hlim
    omega
  | true =>
    simp only [hl, if_true] at hout hlim
    obtain hlt | ⟨j, hj, hfalse⟩ := hout
    · omega
    · simp [hcan hl j hj] at hfalse

end Sys2Proof.Machine
end

section
/-! The checks of the code segment of an interrupt or trap gate (41_delivery_gates.md R148 to R152), and
where an open gate leads (R153, R154). -/

namespace Sys2Proof.Machine

variable {ev : Event} {s : State} {g : Gate} {h : Hidden} {size : GateSize} {trap : Bool} {t : Target}

theorem selNull_eq_false {sel : Word16} (hn : 4 ≤ sel.toNat) : selNull sel = false :=
  Bool.eq_false_iff.2 fun hnull => Nat.not_lt.2 hn ((selNull_iff sel).1 hnull)

/-- What the test of a code segment asks (R150, R151). -/
theorem State.codeSegmentOk_iff (s : State) (h : Hidden) :
    s.codeSegmentOk h = true ↔ h.s = true ∧ h.typ.getLsbD 3 = true ∧ h.dpl ≤ s.cpl ∧
      (s.lma = true → h.l = true ∧ h.db = false) := by
  cases hl : s.lma <;> simp [State.codeSegmentOk, Hidden.isCode, hl, and_assoc]

/-- The selector lies in its table, and in IA-32e mode its descriptor at canonical addresses (R149). -/
def State.DescriptorInTable (s : State) (sel : Word16) : Prop :=
  8 * (sel.toNat / 8) + 7 ≤ s.limitFor sel ∧
    (s.lma = true → ∀ j, j < 8 → s.canonical (s.placeFor sel + BitVec.ofNat 64 j) = true)

/-- The model's test of it. -/
theorem State.descriptorInTable_iff (s : State) (sel : Word16) :
    (s.selInLimits sel && (!s.lma || s.canonicalBytes (s.descriptorAddr sel) 8)) = true ↔
      s.DescriptorInTable sel := by
  rw [Bool.and_eq_true, State.selInLimits_iff, Bool.or_eq_true, State.descriptorAddr_eq,
    State.canonicalBytes_iff, Bool.not_eq_true', State.DescriptorInTable]
  cases s.lma <;> simp

theorem trapOrInterruptGate_null (hn : g.sel.toNat < 4) :
    trapOrInterruptGate ev size trap g s = .error (raiseCode .gp ev.nullCode s) := by
  rw [trapOrInterruptGate, (selNull_iff _).2 hn]
  rfl

theorem trapOrInterruptGate_outside (hn : 4 ≤ g.sel.toNat) (hout : ¬ s.DescriptorInTable g.sel) :
    trapOrInterruptGate ev size trap g s = .error (raiseCode .gp (ev.selectorCode g.sel) s) := by
  rw [← s.descriptorInTable_iff, Bool.not_eq_true] at hout
  rw [trapOrInterruptGate, selNull_eq_false hn, hout]
  rfl

theorem trapOrInterruptGate_notCode (hn : 4 ≤ g.sel.toNat) (hin : s.DescriptorInTable g.sel)
    (hread : readDescriptor s .codeDescriptor g.sel = .ok h) (hcode : s.codeSegmentOk h = false) :
    trapOrInterruptGate ev size trap g s = .error (raiseCode .gp (ev.selectorCode g.sel) s) := by
  rw [trapOrInterruptGate, selNull_eq_false hn, (s.descriptorInTable_iff _).2 hin, hread]
  simp only [Bool.not_false, require_true, Run.ok_bind, hcode, require_false, Run.error_bind]

theorem trapOrInterruptGate_absent (hn : 4 ≤ g.sel.toNat) (hin : s.DescriptorInTable g.sel)
    (hread : readDescriptor s .codeDescriptor g.sel = .ok h) (hcode : s.codeSegmentOk h = true)
    (hp : h.present = false) :
    trapOrInterruptGate ev size trap g s = .error (raiseCode .np (ev.selectorCode g.sel) s) := by
  rw [trapOrInterruptGate, selNull_eq_false hn, (s.descriptorInTable_iff _).2 hin, hread]
  simp only [Bool.not_false, require_true, Run.ok_bind, hcode, hp, require_false, Run.error_bind]

/-- Settles O30: a gate that passes enters its code segment's checks, each of which fails alone. -/
theorem codeSegmentChecksInOrder : Obligations.CodeSegmentChecksInOrder := by
  intro ev size trap g s sw i hsw hi
  subst hi
  obtain rfl : ev.kind.software = sw := EventKind.software_eq hsw
  refine ⟨fun hr hg ht hp hdpl => hg.deliver_present hr ht hdpl hp, trapOrInterruptGate_null,
    fun hn hout => trapOrInterruptGate_outside hn ?_, fun hn hlim hcan h hread => ⟨fun hbad => ?_,
      fun hs htyp hdpl hlong => trapOrInterruptGate_absent hn ⟨hlim, hcan⟩ hread
        ((s.codeSegmentOk_iff h).2 ⟨hs, htyp, hdpl, hlong⟩)⟩, fun hp u => ?_⟩
  · rintro ⟨hlim, hcan⟩
    obtain hlt | ⟨hl, j, hj, hfalse⟩ := hout
    · omega
    · simp [hcan hl j hj] at hfalse
  · refine trapOrInterruptGate_notCode hn ⟨hlim, hcan⟩ hread (Bool.eq_false_iff.2 fun hok => ?_)
    obtain ⟨hs, htyp, hdpl, hlong⟩ := (s.codeSegmentOk_iff h).1 hok
    obtain hbad | hbad | hbad | ⟨hl, hbad⟩ := hbad
    · exact absurd (hs.symm.trans hbad) (by decide)
    · exact absurd (htyp.symm.trans hbad) (by decide)
    · exact BitVec.not_lt.2 hdpl hbad
    · simp [hlong hl] at hbad
  · rw [← s.descriptorAddr_eq]
    exact readDescriptor_plain hp u g.sel

/-- From virtual-8086 mode an open gate leads to a non-conforming ring-0 segment (R153). -/
theorem Opens.deliver_virtual8086_of_lt (h : Opens ev t s) (hvm : s.vm = true)
    (hconf : t.desc.conforming = false) (hlt : t.desc.dpl < s.cpl) (hdpl : t.desc.dpl = 0#2) :
    Machine.deliver ev s = fromVirtual8086 ev t s := by
  rw [h.route, hconf, decide_eq_true hlt, hvm, decide_eq_true hdpl]
  rfl

/-- From virtual-8086 mode any other segment raises `#GP(selector)` (R153, R154). -/
theorem Opens.deliver_virtual8086_gp (h : Opens ev t s) (hvm : s.vm = true)
    (hother : t.desc.conforming = true ∨ t.desc.dpl ≠ 0#2 ∨ t.desc.dpl = s.cpl) :
    Machine.deliver ev s = .error (raiseCode .gp (ev.selectorCode t.gate.sel) s) := by
  rw [h.route, hvm]
  cases hinner : !t.desc.conforming && decide (t.desc.dpl < s.cpl) with
  | false => rfl
  | true =>
    rw [Bool.and_eq_true, Bool.not_eq_true', decide_eq_true_iff] at hinner
    obtain ⟨hconf, hlt⟩ := hinner
    have hlevel : t.desc.dpl ≠ 0#2 ∨ t.desc.dpl = s.cpl := hother.resolve_left (by simp [hconf])
    have hdpl : t.desc.dpl ≠ 0#2 := hlevel.resolve_right (BitVec.ne_of_lt hlt)
    rw [decide_eq_false hdpl]
    rfl

/-- Settles O31: the four branches at the end of `trapOrInterruptGate`. -/
theorem openGateRouting : Obligations.OpenGateRouting :=
  fun _ _ _ h => ⟨h.deliver_inter, h.deliver_intra,
    fun hvm _ => h.deliver_virtual8086_of_lt hvm, fun hvm _ => h.deliver_virtual8086_gp hvm⟩

end Sys2Proof.Machine
end

section
/-! Task gates up to the task switch (41_delivery_gates.md R143 to R147). -/

namespace Sys2Proof.Machine

variable {ev : Event} {s : State} {g : Gate} {tss : Hidden}

theorem taskGate_null (hn : g.sel.toNat < 4) :
    taskGate ev g s = .error (raiseCode .gp ev.nullCode s) := by
  rw [taskGate, (selNull_iff _).2 hn]
  rfl

/-- A selector of the GDT within its limit, as the model tests it (R144). -/
theorem State.inGdt_iff (s : State) (sel : Word16) :
    (!selLocal sel && s.selInLimits sel) = true ↔
      sel.getLsbD 2 = false ∧ 8 * (sel.toNat / 8) + 7 ≤ s.gdtr.limit.toNat := by
  rw [Bool.and_eq_true, s.selInLimits_iff, Bool.not_eq_true', selLocal, State.limitFor]
  cases sel.getLsbD 2 <;> simp

theorem taskGate_outside (hn : 4 ≤ g.sel.toNat)
    (hout : g.sel.getLsbD 2 = true ∨ s.gdtr.limit.toNat < 8 * (g.sel.toNat / 8) + 7) :
    taskGate ev g s = .error (raiseCode .gp (ev.selectorCode g.sel) s) := by
  have hfail : (!selLocal g.sel && s.selInLimits g.sel) = false := by
    rw [Bool.eq_false_iff, Ne, s.inGdt_iff]
    rintro ⟨hglobal, hlim⟩
    rcases hout with hlocal | hlt
    · exact absurd (hglobal.symm.trans hlocal) (by decide)
    · omega
  rw [taskGate, selNull_eq_false hn, hfail]
  rfl

/-- The checks of the descriptor, once it has been read (R145, R146). -/
theorem taskGate_read (hn : 4 ≤ g.sel.toNat) (hglobal : g.sel.getLsbD 2 = false)
    (hlim : 8 * (g.sel.toNat / 8) + 7 ≤ s.gdtr.limit.toNat)
    (hread : readDescriptor s .taskDescriptor g.sel = .ok tss) :
    taskGate ev g s =
      require tss.isAvailableTss (raiseCode .gp (ev.selectorCode g.sel) s) >>= fun _ =>
        require tss.present (raiseCode .np (ev.selectorCode g.sel) s) >>= fun _ =>
          .error (.refuse .taskSwitch) := by
  rw [taskGate, selNull_eq_false hn, (s.inGdt_iff _).2 ⟨hglobal, hlim⟩, hread]
  rfl

/-- Settles O32: the gate leads to the task-gate procedure, whose checks fail in their order or reach the
switch. -/
theorem taskGateChecksThenRefusal : Obligations.TaskGateChecksThenRefusal := by
  intro ev s g tss hr _ hg ht hdpl hp
  have hdeliver : deliver ev s = taskGate ev g s := hg.deliver_present hr ht hdpl hp
  rw [hdeliver]
  refine ⟨taskGate_null, taskGate_outside, fun hn hglobal hlim hread => ?_⟩
  rw [taskGate_read hn hglobal hlim hread]
  refine ⟨fun htss => ?_, fun htss hpresent => ?_, fun htss hpresent => ?_⟩
  · rw [htss]; rfl
  · rw [htss, hpresent]; rfl
  · rw [htss, hpresent]; rfl

end Sys2Proof.Machine
end

section
/-! The privilege level over a delivery (41_delivery_gates.md R150, R133, 40_int_instructions.md
R110). -/

namespace Sys2Proof.Machine

variable {ev : Event} {e u : State}

/-- A delivery keeps the level, or goes through a gate of protected mode, with `VM` cleared, to a level
that is not numerically higher. -/
theorem DeliveryCase.level (h : DeliveryCase ev e u) :
    u.cpl = e.cpl ∨ (u.cpl ≤ e.cpl ∧ e.cr0.pe = true ∧ u.vm = false) := by
  cases h
  case real eq => exact .inl (by simp [eq])
  case redirect eq => exact .inl (by simp [eq])
  case inter pe _ _ level _ _ _ _ eq =>
    exact .inr ⟨by simpa [eq] using BitVec.le_of_lt level, pe, by simp [eq, State.vm, gateFlags_vm]⟩
  case v86 pe _ _ _ _ _ _ _ eq =>
    exact .inr ⟨by simp [eq, BitVec.le_def], pe, by simp [eq, State.vm, gateFlags_vm]⟩
  case intra eq => exact .inl (by simp [eq])

/-- Settles O51: the state of the delivery has the old level, and the delivery keeps it or lowers it
through a gate. -/
theorem privilegeNumberNeverRises : Obligations.PrivilegeNumberNeverRises := by
  intro s t h
  obtain ⟨-, e, hfrom, ⟨ev, hcase⟩ | ⟨rfl, -⟩⟩ := h.delivered
  · rw [← hfrom.cpl, ← hfrom.system.cr0]
    obtain hkept | ⟨hle, hpe, hvm⟩ := hcase.level
    · exact ⟨hkept ▸ BitVec.le_refl _, fun _ => hkept, fun _ => hkept⟩
    · exact ⟨hle, by simp [hpe], by simp [hvm]⟩
  · exact ⟨hfrom.cpl ▸ BitVec.le_refl _, fun _ => hfrom.cpl, fun _ => hfrom.cpl⟩

end Sys2Proof.Machine
end

section
/-! The checks of real-address mode (41_delivery_gates.md R131, 20_memory.md R62). -/

namespace Sys2Proof.Machine

variable {ev : Event} {s : State}

/-- No room for a frame of 6 bytes below `SP`, in numbers. -/
theorem Hidden.hasRoom_sp_eq_false (h : Hidden) {sp : Nat}
    (hno : if h.s = true ∧ h.typ.getLsbD 3 = false ∧ h.typ.getLsbD 2 = true then
      sp - 6 ≤ h.limit.toNat else h.limit.toNat < sp - 1) : h.hasRoom .sp sp 6 = false := by
  have hdown : h.expandDown = true ↔
      h.s = true ∧ h.typ.getLsbD 3 = false ∧ h.typ.getLsbD 2 = true := by
    simp [Hidden.expandDown, and_assoc]
  cases hd : h.expandDown with
  | false =>
    rw [if_neg fun hall => by simp [hdown.2 hall] at hd] at hno
    simp [Hidden.hasRoom, hd, Nat.lt_sub_iff_add_lt.1 hno]
  | true =>
    rw [if_pos (hdown.1 hd)] at hno
    simp [Hidden.hasRoom, hd, Nat.not_lt.2 hno]

theorem deliver_real (pe : s.cr0.pe = false) : deliver ev s = realAddressMode ev s := by
  simp [deliver, pe]

theorem deliver_real_outside (pe : s.cr0.pe = false) (hout : s.idtr.limit.toNat < 4 * ev.vector + 3) :
    deliver ev s = .error (raisePlain .gp s) := by
  have hlim : s.idtInLimits ev.vector = false :=
    Bool.eq_false_iff.2 fun h => Nat.not_lt.2 ((State.idtInLimits_real pe _).1 h) hout
  rw [deliver_real pe, realAddressMode, hlim, require_false, Run.error_bind]

/-- A vector inside the table whose stack test fails. -/
theorem deliver_real_stack {st : Stop} (pe : s.cr0.pe = false)
    (hin : 4 * ev.vector + 3 ≤ s.idtr.limit.toNat)
    (hstack : stackRoom s.ss.hid .sp (low16 s.rsp).toNat 6 (raisePlain .ss s) = .error st) :
    deliver ev s = .error st := by
  rw [deliver_real pe, realAddressMode, (State.idtInLimits_real pe _).2 hin, require_true, Run.ok_bind,
    hstack, Run.error_bind]

/-- Settles O19: the limit of the table, then the two ways the stack test fails. -/
theorem realModeChecks : Obligations.RealModeChecks := by
  intro ev s sp pe hsp
  have hlow : (low16 s.rsp).toNat = sp := by rw [hsp]; exact toNat_low16 _
  refine ⟨deliver_real_outside pe, fun hin => ⟨fun hwrap => deliver_real_stack pe hin ?_,
    fun hfits hno => deliver_real_stack pe hin ?_⟩⟩
  · rw [hlow, stackRoom, if_pos hwrap]
  · rw [hlow, stackRoom, if_neg (Nat.not_lt.2 hfits),
      s.ss.hid.hasRoom_sp_eq_false hno, require_false]
    rfl

end Sys2Proof.Machine
end

section
/-! The end-branch tracker (42_delivery_frames.md R200, R211, R212): when tracking is enabled, what
arming writes, and the step taken while the tracker waits. -/

namespace Sys2Proof.Machine

/-- Settles O10: no event is due, so the step asks whether the tracker waits. -/
theorem waitingTrackerRefusesTheInstruction : Obligations.WaitingTrackerRefusesTheInstruction := by
  intro s hlegal hnext henabled htracker
  have hwaits : s.endbranchWaits = true := by
    rw [State.endbranchWaits, henabled, trackerBit, htracker, Bool.and_self]
  simp [step, hlegal, hnext, hwaits]

theorem State.cetOn_iff (s : State) :
    s.cetOn = true ↔ s.cr4.cet = true ∧ s.cr0.pe = true ∧ s.eflags.getLsbD 17 = false := by
  simp [State.cetOn, State.vm, vmBit, and_assoc]

/-- The usual predicate for shadow stacks (R200). -/
theorem State.shadowStackEnabled_usual {s : State} (h : s.cfg.shadowStackRule = .usual)
    (p : BitVec 2) :
    s.shadowStackEnabled p = true ↔
      s.cfg.hasCetSs = true ∧ s.cetOn = true ∧ (s.cetReg p).getLsbD 0 = true := by
  simp [State.shadowStackEnabled, h]

/-- The usual predicate for end-branch tracking (R200). -/
theorem State.endbranchEnabled_usual {s : State} (h : s.cfg.endbranchRule = .usual)
    (p : BitVec 2) :
    s.endbranchEnabled p = true ↔
      s.cfg.hasCetIbt = true ∧ s.cetOn = true ∧ (s.cetReg p).getLsbD 2 = true := by
  simp [State.endbranchEnabled, h]

/-- A one-bit mask has its bit and no other. -/
theorem getLsbD_one_shiftLeft {n k : Nat} (hk : k < 64) :
    (1#64 <<< n).getLsbD k = decide (k = n) := by
  rw [BitVec.getLsbD_shiftLeft, BitVec.getLsbD_one]
  by_cases h : k = n
  · simp [h, show n < 64 by omega]
  · by_cases hlt : k < n
    · simp [h, hlt]
    · simp [h, show k - n ≠ 0 by omega]

/-- An armed register: `TRACKER` is 1, `SUPPRESS` 0, every other bit as it was (R212). -/
theorem getLsbD_armed (v : Word64) {k : Nat} (hk : k < 64) :
    (armed v).getLsbD k = if k = 11 then true else if k = 10 then false else v.getLsbD k := by
  rw [armed, BitVec.getLsbD_and, BitVec.getLsbD_or, BitVec.getLsbD_not, getLsbD_one_shiftLeft hk,
    getLsbD_one_shiftLeft hk, trackerBit, suppressBit]
  by_cases h11 : k = 11
  · simp [h11]
  · by_cases h10 : k = 10 <;> simp [h11, h10, hk]

/-- A register that is armed on two conditions. -/
theorem getLsbD_armed_if {P Q : Prop} [Decidable P] [Decidable Q] (v : Word64) {k : Nat}
    (hk : k < 64) :
    (if P ∧ Q then armed v else v).getLsbD k =
      if P ∧ Q ∧ k = 11 then true else if P ∧ Q ∧ k = 10 then false else v.getLsbD k := by
  by_cases hP : P
  · by_cases hQ : Q
    · simp only [hP, hQ, and_self, if_true, true_and, getLsbD_armed v hk]
    · simp only [hQ, and_false, false_and, if_false]
  · simp only [hP, false_and, if_false]

theorem armEndbranch_sCet (s : State) :
    (armEndbranch s).sCet =
      if s.endbranchEnabled s.cpl = true ∧ s.cpl ≠ 3#2 then armed s.sCet else s.sCet := by
  unfold armEndbranch
  cases s.endbranchEnabled s.cpl
  · rfl
  · by_cases hcpl : s.cpl = 3#2 <;> simp [hcpl]

theorem armEndbranch_uCet (s : State) :
    (armEndbranch s).uCet =
      if s.endbranchEnabled s.cpl = true ∧ s.cpl = 3#2 then armed s.uCet else s.uCet := by
  unfold armEndbranch
  cases s.endbranchEnabled s.cpl
  · rfl
  · by_cases hcpl : s.cpl = 3#2 <;> simp [hcpl]

/-- Arming leaves the flags as they were. -/
@[simp] theorem armEndbranch_eflags (s : State) : (armEndbranch s).eflags = s.eflags := by
  obtain ⟨a, b, h⟩ := armEndbranch_form s
  simp [h]

/-- Settles O46: the predicates read the level's register, and arming writes that register alone. -/
theorem endbranchArming : Obligations.EndbranchArming := by
  refine ⟨fun s p r hr => ?_, fun s k hk => ?_⟩
  · obtain rfl : s.cetReg p = r := hr.symm
    refine ⟨fun hrule => ?_, fun hrule => ?_⟩
    · rw [State.shadowStackEnabled_usual hrule, s.cetOn_iff, and_assoc, and_assoc]
    · rw [State.endbranchEnabled_usual hrule, s.cetOn_iff, and_assoc, and_assoc]
  · rw [armEndbranch_sCet, armEndbranch_uCet]
    exact ⟨getLsbD_armed_if _ hk, getLsbD_armed_if _ hk⟩

end Sys2Proof.Machine
end

section
/-! The user shadow-stack pointer of an inter-privilege delivery (42_delivery_frames.md R182). -/

namespace Sys2Proof.Machine

variable {ev : Event} {t : Target} {s u : State}

/-- What `IA32_PL3_SSP` holds once the level in force has been left: `SSP`, adjusted in IA-32e mode,
when that is level 3 with shadow stacks enabled, else what it held (R182). -/
def State.leftPl3Ssp (s : State) : Word64 :=
  if s.shadowStackEnabled 3#2 = true ∧ s.cpl = 3#2 then
    (if s.lma then laAdjust s.cfg.linearWidth s.ssp else s.ssp)
  else s.pl3Ssp

theorem saveUserSsp_eq (s : State) : saveUserSsp s = s.setPl3Ssp s.leftPl3Ssp := by
  unfold saveUserSsp State.leftPl3Ssp
  by_cases hcpl : s.cpl = 3#2
  · cases henabled : s.shadowStackEnabled 3#2
    · rw [hcpl, henabled]
      rfl
    · simp [hcpl, henabled]
  · simp only [hcpl, decide_false, Bool.and_false, Bool.false_eq_true, if_false, and_false]
    rfl

theorem State.leftPl3Ssp_congr {u : State} (henabled : u.shadowStackEnabled 3#2 =
      s.shadowStackEnabled 3#2) (hcpl : u.cpl = s.cpl) (hlma : u.lma = s.lma) (hcfg : u.cfg = s.cfg)
    (hssp : u.ssp = s.ssp) (hpl3 : u.pl3Ssp = s.pl3Ssp) : u.leftPl3Ssp = s.leftPl3Ssp := by
  simp only [State.leftPl3Ssp, henabled, hcpl, hlma, hcfg, hssp, hpl3]

/-- Pushes change nothing that leaving a level reads. -/
theorem pushAll_leftPl3Ssp {c : PushCtx} {xs : List Slot} (h : pushAll c xs s = .ok u) :
    u.leftPl3Ssp = s.leftPl3Ssp := by
  obtain ⟨m, r, d, rfl, -⟩ := pushAll_ok h
  apply State.leftPl3Ssp_congr <;> simp

/-- Nor does entering the new stack and code segment. -/
theorem State.leftPl3Ssp_entered (s : State) (t : Target) (ss : SegReg) (ptr : Word64) (k : Nat) :
    (t.enterCode (enterStack ss ptr (s.setDraws k))).leftPl3Ssp = s.leftPl3Ssp := by
  unfold Target.enterCode enterStack
  apply State.leftPl3Ssp_congr <;> simp

/-- Finding the new stack counts draws and changes nothing else. -/
theorem newStack_draws {s1 : State} {ss : SegReg} {ptr : Word64}
    (h : newStack ev t s = .ok (ss, ptr, s1)) : ∃ n, s1 = s.setDraws n :=
  (newStack_ok h).2

/-- Settles O45: `IA32_PL3_SSP` is written between the frame and the switch, which leave it and what it
is computed from as they were; level and `CS` are those of every inter-privilege delivery. -/
theorem userShadowPointerIsSaved : Obligations.UserShadowPointerIsSaved := by
  intro ev t s u h
  have hpl3 : u.pl3Ssp = s.leftPl3Ssp := by
    simp only [interPrivilege, Run.bind_eq_ok, require_eq_ok, Prod.exists] at h
    obtain ⟨ss, ptr, s1, hstack, _, -, _, -, _, -, s2, hpush, s4, hswitch, hend⟩ := h
    obtain ⟨n, rfl⟩ := newStack_draws hstack
    have hsaved := (pushAll_leftPl3Ssp hpush).trans (s.leftPl3Ssp_entered t ss ptr n)
    rw [saveUserSsp_eq, hsaved] at hswitch
    obtain ⟨m', q, rfl, -⟩ := shadowSwitch_ok hswitch
    obtain ⟨a, b, harm⟩ := armEndbranch_form
      (((enterLevel t.desc.dpl (s2.setPl3Ssp s.leftPl3Ssp)).setSsp q).setMem m')
    rw [harm] at hend
    cases hend
    simp [enterLevel]
  obtain ⟨-, m, d, r, ss, q, pl3, sc, uc, -, -, rfl⟩ := interPrivilege_ok h
  refine ⟨hpl3, ?_, ?_, ?_⟩
  · simp
  · simp
  · simp

end Sys2Proof.Machine
end

section
/-! The supervisor shadow-stack token in plain memory (42_delivery_frames.md R204, R206, R207). -/

namespace Sys2Proof.Machine

variable {s : State} {p : Word64}

/-- The pointer passes the tests of R206 and finds a token that names it and is not busy. -/
structure State.FreeToken (s : State) (p : Word64) : Prop where
  place : p.toNat % 32 = 24
  narrow : s.mode64 = true ∨ p.toNat < 2 ^ 32
  token : s.value 8 p = p

theorem State.freeToken_iff (s : State) (p : Word64) :
    s.FreeToken p ↔
      p.toNat % 32 = 24 ∧ (s.mode64 = true ∨ p.toNat < 2 ^ 32) ∧ s.value 8 p = p :=
  ⟨fun h => ⟨h.place, h.narrow, h.token⟩, fun h => ⟨h.1, h.2.1, h.2.2⟩⟩

/-- A free token becomes the pointer with the busy bit set, and no other byte changes. -/
theorem verifyAndBusyToken_free (hp : PlainMemory s) (h : s.FreeToken p) :
    ∃ m, m.wf = true ∧ verifyAndBusyToken p s = .ok (s.setMem m) ∧ s.holds m 8 p (p ||| 1#64) ∧
      ∀ a, (∀ j, j < 8 → (s.byteAddr p j).toNat ≠ a) → m.read a = s.mem.read a := by
  obtain ⟨m, hm, hstore, hheld, hothers⟩ :=
    hp.store (s.shadowAccess .shadowWrite) (w := 8) (by omega) p (p ||| 1#64)
  refine ⟨m, hm, ?_, hheld, hothers⟩
  have hok : s.shadowPointerOk p = true := (s.shadowPointerOk_iff p).2 ⟨h.place, h.narrow⟩
  have hexchange : shadowCmpxchg8b p (p ||| 1#64) p s = .ok (p, s.setMem m) := by
    rw [shadowCmpxchg8b, hp.load, h.token, Run.ok_bind, if_pos rfl, hstore, Run.ok_bind]
  rw [verifyAndBusyToken, hok, require_true, Run.ok_bind, hexchange, Run.ok_bind, decide_eq_true rfl,
    require_true, Run.ok_bind]

/-- Anything else raises `#GP(0)` with nothing changed. -/
theorem verifyAndBusyToken_refused (hp : PlainMemory s) (h : ¬ s.FreeToken p) :
    verifyAndBusyToken p s = .error (.raise ⟨.gp, some 0#32, none⟩ s) := by
  cases hok : s.shadowPointerOk p with
  | false => rw [verifyAndBusyToken, hok, require_false, Run.error_bind, raiseCode]
  | true =>
    obtain ⟨hplace, hnarrow⟩ := (s.shadowPointerOk_iff p).1 hok
    have htoken : s.value 8 p ≠ p := fun htoken => h ⟨hplace, hnarrow, htoken⟩
    have hexchange : shadowCmpxchg8b p (p ||| 1#64) p s = .ok (s.value 8 p, s) := by
      rw [shadowCmpxchg8b, hp.load, Run.ok_bind, if_neg htoken]
    rw [verifyAndBusyToken, hok, require_true, Run.ok_bind, hexchange, Run.ok_bind,
      decide_eq_false htoken, require_false, Run.error_bind, raiseCode]

/-- Settles O42: the tests of the pointer and its token pass together or the exchange is not made. -/
theorem tokenIsVerifiedAndMadeBusy : Obligations.TokenIsVerifiedAndMadeBusy := by
  intro p s hp
  rw [← s.freeToken_iff p]
  refine ⟨fun hfree => ?_, verifyAndBusyToken_refused hp⟩
  obtain ⟨m, -, hrun, hheld, hothers⟩ := verifyAndBusyToken_free hp hfree
  exact ⟨m, hrun, hheld, hothers⟩

end Sys2Proof.Machine
end

section
/-! The new stack of a delivery to another level, in plain memory: from a 16-bit or 32-bit TSS
(42_delivery_frames.md R171 to R173) and from a 64-bit one (R174, R193). -/

namespace Sys2Proof.Machine

variable {ev : Event} {t : Target} {s : State} {d : BitVec 2} {off : Nat}

/-- A check that stops exactly when `P` holds. -/
theorem require_bind_of_iff {α : Type} {c : Bool} {P : Prop} [Decidable P] (h : c = false ↔ P)
    (st : Stop) (f : Unit → Run α) : (require c st >>= f) = if P then .error st else f () := by
  cases c with
  | false => rw [if_pos (h.1 rfl), require_false, Run.error_bind]
  | true => rw [if_neg fun hP => by simpa using h.2 hP, require_true, Run.ok_bind]

/-- The RPL of a selector, in numbers (20_memory.md R67). -/
theorem selRpl_eq_iff (sel : Word16) (d : BitVec 2) : selRpl sel = d ↔ sel.toNat % 4 = d.toNat := by
  rw [selRpl, ← BitVec.toNat_inj, BitVec.extractLsb'_toNat, Nat.shiftRight_zero]

/-- The tests of the new stack's selector fail (R172). -/
theorem State.stackSelector_iff (s : State) (sel : Word16) (d : BitVec 2) :
    (s.selInLimits sel && decide (selRpl sel = d)) = false ↔
      s.limitFor sel < 8 * (sel.toNat / 8) + 7 ∨ sel.toNat % 4 ≠ d.toNat := by
  rw [Bool.and_eq_false_iff, ← Bool.not_eq_true, s.selInLimits_iff, Nat.not_le,
    decide_eq_false_iff_not, selRpl_eq_iff]

/-- The descriptor of a selector is the one that its bytes spell. -/
theorem readDescriptor_of_bytes {sel : Word16} {h : Hidden} (hp : PlainMemory s)
    (hbytes : DescriptorBytes (s.bytesAt (s.placeFor sel)) h) (u : ReadUse) :
    readDescriptor s u sel = .ok h := by
  obtain ⟨h', hread, hbytes'⟩ := readDescriptor_plain hp u sel
  rw [s.descriptorAddr_eq] at hbytes'
  rw [hread, hbytes'.unique hbytes]

/-- The pointer of level `d` lies at this offset of a TSS whose pointers are `w` bytes wide. -/
theorem TssFormat.offset_eq {w : Nat} (format : TssFormat) (d : BitVec 2)
    (h32 : format = .tss32 → w = 4 ∧ off = 8 * d.toNat + 4)
    (h16 : format = .tss16 → w = 2 ∧ off = 4 * d.toNat + 2) :
    format.width = w ∧ d.toNat * (2 * w) + w = off := by
  cases format with
  | tss32 =>
    obtain ⟨rfl, rfl⟩ := h32 rfl
    exact ⟨rfl, by omega⟩
  | tss16 =>
    obtain ⟨rfl, rfl⟩ := h16 rfl
    exact ⟨rfl, by omega⟩

/-- Settles O33: once the TSS is known to be long enough, each check of what was read stops exactly when
its clause of the statement holds. -/
theorem newStackFromTheTss : Obligations.NewStackFromTheTss := by
  intro ev d s w off sel h hp h32 h16 hsel hbytes
  obtain ⟨hwidth, hoff⟩ := s.tr.format.offset_eq d h32 h16
  have hread := readDescriptor_of_bytes hp hbytes .stackDescriptor
  have hshort : decide (off + (w + 1) ≤ s.tr.limit.toNat) = false ↔
      s.tr.limit.toNat < off + w + 1 := by
    rw [decide_eq_false_iff_not, Nat.not_le, Nat.add_assoc]
  have hnull : (!selNull sel) = false ↔ sel.toNat < 4 := by
    rw [Bool.not_eq_false', selNull_iff]
  have hkind : (decide (h.dpl = d) && h.isWritableData) = false ↔
      h.dpl ≠ d ∨ h.isWritableData = false := by
    rw [Bool.and_eq_false_iff, decide_eq_false_iff_not]
  simp only [newStackLegacy, hwidth, hoff, hp.load, Run.ok_bind, ← hsel, hread]
  rw [require_bind_of_iff hshort, require_bind_of_iff hnull,
    require_bind_of_iff (s.stackSelector_iff sel d), require_bind_of_iff hkind,
    require_bind_of_iff Iff.rfl]
  rfl

/-- The field of the stack pointer is outside the 64-bit TSS, or not at canonical addresses. -/
theorem newStack64_outside (h : s.tr.limit.toNat < off + 7 ∨ ∃ j, j < 8 ∧
      s.canonical (s.tr.base + BitVec.ofNat 64 off + BitVec.ofNat 64 j) = false) :
    newStack64 ev off s = .error (raiseCode .ts (ev.selectorCode s.tr.sel) s) := by
  have hfail : (decide (off + 7 ≤ s.tr.limit.toNat) &&
      s.canonicalBytes (s.tr.base + BitVec.ofNat 64 off) 8) = false := by
    rw [Bool.eq_false_iff, Ne, Bool.and_eq_true, decide_eq_true_iff, State.canonicalBytes_iff]
    rintro ⟨hlim, hcan⟩
    obtain hlt | ⟨j, hj, hfalse⟩ := h
    · omega
    · simp [hcan j hj] at hfalse
  rw [newStack64, hfail, require_false, Run.error_bind]

theorem newStack64_inside (hp : PlainMemory s) (hlim : off + 7 ≤ s.tr.limit.toNat)
    (hcan : ∀ j, j < 8 →
      s.canonical (s.tr.base + BitVec.ofNat 64 off + BitVec.ofNat 64 j) = true) :
    newStack64 ev off s = .ok (s.value 8 (s.tr.base + BitVec.ofNat 64 off)) := by
  rw [newStack64, decide_eq_true hlim, (s.canonicalBytes_iff _ _).2 hcan, Bool.and_self,
    require_true, Run.ok_bind, hp.load]

/-- The offset of the stack pointer: of the level, or of the gate's IST (R174, R193). -/
theorem tss64Offset_eq {ist : BitVec 3} (hlevel : ist = 0#3 → off = 8 * d.toNat + 4)
    (hist : ist ≠ 0#3 → off = 8 * ist.toNat + 28) : tss64Offset d ist = off := by
  unfold tss64Offset
  split
  · rw [hlevel ‹_›, Nat.mul_comm]
  · rw [hist ‹_›, Nat.mul_comm]

/-- Settles O34: both deliveries take the pointer from the same field of the TSS. -/
theorem newStackFromThe64BitTss : Obligations.NewStackFromThe64BitTss := by
  intro ev t s off hp hl hlevel hist
  have hoff : tss64Offset t.desc.dpl t.gate.ist = off := tss64Offset_eq hlevel hist
  refine ⟨fun hout => ?_, fun hlim hcan => ⟨?_, newStack64_inside hp hlim hcan⟩,
    fun hne hout => ?_⟩
  · rw [newStack, hl, if_pos rfl, hoff, newStack64_outside hout]
    rfl
  · rw [newStack, hl, if_pos rfl, hoff, newStack64_inside hp hlim hcan]
    rfl
  · have hoff' : tss64Offset 0#2 t.gate.ist = off := tss64Offset_eq (absurd · hne) hist
    have hstack : intraStack ev t s = .error (raiseCode .ts (ev.selectorCode s.tr.sel) s) := by
      rw [intraStack, hl, if_pos rfl, intraStack64, if_neg hne, hoff', newStack64_outside hout]
      rfl
    rw [intraPrivilege, hstack]
    rfl

end Sys2Proof.Machine
end

section
/-! The stack check of a delivery and the check of its instruction pointer, in their order
(42_delivery_frames.md R176, R177, R188, R189, R195, R196). -/

namespace Sys2Proof.Machine

variable {ev : Event} {t : Target} {s s1 : State} {ss : SegReg} {ptr : Word64}

/-! Which pointer a push uses, and what room is (20_memory.md R59, R62). -/

theorem Hidden.expandDown_iff (h : Hidden) :
    h.expandDown = true ↔ h.s = true ∧ h.typ.getLsbD 3 = false ∧ h.typ.getLsbD 2 = true := by
  simp [Hidden.expandDown, and_assoc]

theorem Hidden.hasRoom_iff (h : Hidden) (p : PtrWidth) (sp n : Nat) :
    h.hasRoom p sp n = true ↔
      if h.s = true ∧ h.typ.getLsbD 3 = false ∧ h.typ.getLsbD 2 = true then
        h.limit.toNat < sp - n ∧ sp - 1 ≤ 2 ^ p.bits - 1
      else sp - 1 ≤ h.limit.toNat := by
  rw [← if_congr h.expandDown_iff rfl rfl, Hidden.hasRoom]
  cases h.expandDown <;> simp

theorem State.ptrWidth_eq (s : State) (w : Nat) :
    s.ptrWidth w =
      if w = 8 then .rsp else if s.cr0.pe = false ∨ s.vm = true then .sp
      else if s.ss.hid.db = true then .esp else .sp := by
  have hsp : (!s.cr0.pe || s.vm) = true ↔ s.cr0.pe = false ∨ s.vm = true := by simp
  rw [State.ptrWidth, if_congr hsp rfl rfl]
  rfl

theorem PtrWidth.toNat_trunc (p : PtrWidth) (v : Word64) :
    (p.trunc v).toNat = v.toNat % 2 ^ p.bits := by
  cases p with
  | sp => exact toNat_low16 v
  | esp => exact toNat_low32 v
  | rsp => exact (Nat.mod_eq_of_lt v.isLt).symm

/-! Where the two checks stand in each delivery: what stops them stops it. -/

/-- A stack check outside IA-32e mode, then a check of the instruction pointer: a delivery that stops as
they do. -/
theorem roomThenOffset {h : Hidden} {p : PtrWidth} {sp n : Nat} {noRoom outside : Stop} {ok : Bool}
    {run : Run State} {Outside : Prop} (hok : Outside → ok = false)
    (hrun : ∀ e, (stackRoom h p sp n noRoom >>= fun _ => require ok outside) = .error e →
      run = .error e) :
    (sp < n → run = .error (.refuse .stackWrap)) ∧
      (n ≤ sp → h.hasRoom p sp n = false → run = .error noRoom) ∧
      (n ≤ sp → h.hasRoom p sp n = true → Outside → run = .error outside) := by
  refine ⟨fun hwrap => hrun _ ?_, fun hfits hno => hrun _ ?_, fun hfits hroom hout => hrun _ ?_⟩
  · rw [stackRoom, if_pos hwrap, Run.error_bind]
  · rw [stackRoom, if_neg (Nat.not_lt.2 hfits), hno, require_false, Run.error_bind]
  · rw [stackRoom, if_neg (Nat.not_lt.2 hfits), hroom, require_true, Run.ok_bind,
      hok hout, require_false]

theorem interPrivilege_of_checks {p : Word64} {e : Stop} (hnew : newStack ev t s = .ok (ss, ptr, s1))
    (hssp : newShadowPointer t s1 = .ok p)
    (h : (newStackRoom ev t ss ptr (frameBytes t 5 ev) s1 >>= fun _ =>
      require (t.offsetOk s1) (raiseCode .gp ev.nullCode s1)) = .error e) :
    interPrivilege ev t s = .error e := by
  simp only [interPrivilege, hnew, hssp, Run.ok_bind]
  rcases Run.bind_eq_error.1 h with hroom | ⟨_, hroom, hoff⟩
  · rw [hroom, Run.error_bind]
  · rw [hroom, Run.ok_bind, hoff, Run.error_bind]

theorem fromVirtual8086_of_checks {e : Stop} (hnew : newStackLegacy ev 0#2 s = .ok (ss, ptr))
    (h : (newStackRoom ev t ss ptr (frameBytes t 9 ev) s >>= fun _ =>
      require (t.offsetOk s) (raiseCode .gp ev.nullCode s)) = .error e) :
    fromVirtual8086 ev t s = .error e := by
  simp only [fromVirtual8086, hnew, Run.ok_bind]
  rcases Run.bind_eq_error.1 h with hroom | ⟨_, hroom, hoff⟩
  · rw [hroom, Run.error_bind]
  · rw [hroom, Run.ok_bind, hoff, Run.error_bind]

/-- The checks of an intra-privilege delivery outside IA-32e mode, on the current stack. -/
theorem intraPrivilege_of_checks {e : Stop} (hl : s.lma = false)
    (h : (stackRoom s.ss.hid (s.ptrWidth t.size.width)
        ((s.ptrWidth t.size.width).trunc s.rsp).toNat (frameBytes t 3 ev)
        (raiseCode .ss ev.nullCode s) >>= fun _ =>
      require (t.offsetOk s) (raiseCode .gp ev.nullCode s)) = .error e) :
    intraPrivilege ev t s = .error e := by
  have hstack : intraStack ev t s = .error e := by
    rw [intraStack, hl, if_neg Bool.false_ne_true]
    dsimp only
    rcases Run.bind_eq_error.1 h with hroom | ⟨_, hroom, hoff⟩
    · rw [hroom, Run.error_bind]
    · rw [hroom, Run.ok_bind, hoff, Run.error_bind]
  rw [intraPrivilege, hstack, Run.error_bind]

/-- Its checks in IA-32e mode, where the table read of a shadow-stack pointer has succeeded. -/
theorem intraPrivilege_of_checks_long {e : Stop} (hl : s.lma = true) (hp : PlainMemory s)
    (hptr : intraStack64 ev t s = .ok ptr)
    (h : (require (s.frameCanonical ptr (frameBytes t 5 ev)) (raiseCode .ss ev.nullCode s) >>=
      fun _ => require (t.offsetOk s) (raiseCode .gp ev.nullCode s)) = .error e) :
    intraPrivilege ev t s = .error e := by
  obtain ⟨⟨p, check⟩, hssp⟩ := intraShadowPointer_plain hp t
  have hstack : intraStack ev t s = .error e := by
    simp only [intraStack, hl, if_true, hptr, hssp, Run.ok_bind]
    rcases Run.bind_eq_error.1 h with hroom | ⟨_, hroom, hoff⟩
    · rw [hroom, Run.error_bind]
    · rw [hroom, Run.ok_bind, hoff, Run.error_bind]
  rw [intraPrivilege, hstack, Run.error_bind]

theorem newStackRoom_legacy (hsize : t.size ≠ .bits64) (n : Nat) :
    newStackRoom ev t ss ptr n s =
      stackRoom ss.hid ss.hid.ptrWidth (ss.hid.ptrWidth.trunc ptr).toNat n
        (raiseCode .ss (ev.selectorCode ss.sel) s) := by
  unfold newStackRoom
  split
  · exact absurd ‹_› hsize
  · rfl

theorem newStackRoom_long (hsize : t.size = .bits64) (n : Nat) :
    newStackRoom ev t ss ptr n s =
      require (s.frameCanonical ptr n) (raiseCode .ss ev.nullCode s) := by
  rw [newStackRoom, hsize]

theorem Target.offsetOk_outside (hl : s.lma = false)
    (ho : t.desc.limit.toNat < t.gate.offset.toNat) : t.offsetOk s = false := by
  simp [Target.offsetOk, hl, ho]

theorem newStack_legacy (hl : s.lma = false) (h : newStackLegacy ev t.desc.dpl s = .ok (ss, ptr)) :
    newStack ev t s = .ok (ss, ptr, s) := by
  rw [newStack, hl, if_neg Bool.false_ne_true, h]
  rfl

theorem newShadowPointer_legacy (hl : s.lma = false) :
    newShadowPointer t s = .ok (s.plSsp t.desc.dpl) := by
  rw [newShadowPointer, hl]
  rfl

/-- Settles O39: the pointer and the room in numbers, then the two checks of each delivery. -/
theorem stackThenPointerChecks : Obligations.StackThenPointerChecks := by
  refine ⟨fun s h p w v => ⟨rfl, s.ptrWidth_eq w, ?_⟩, fun h p sp n => ?_, ?_⟩
  · rw [p.toNat_trunc]
    cases p <;> rfl
  · rw [h.hasRoom_iff]
    cases p <;> rfl
  · intro ev t s ss ptr n n9 k cur new hl hsize hn hn9 hk hnew hcur
    subst hn hn9 hk hnew hcur
    have hout := Target.offsetOk_outside (t := t) hl
    exact ⟨fun hstack => roomThenOffset hout fun e h =>
        interPrivilege_of_checks (newStack_legacy hl hstack) (newShadowPointer_legacy hl)
          ((newStackRoom_legacy hsize _).symm ▸ h),
      fun hstack => roomThenOffset hout fun e h =>
        fromVirtual8086_of_checks hstack ((newStackRoom_legacy hsize _).symm ▸ h),
      roomThenOffset hout fun e h => intraPrivilege_of_checks hl h⟩

/-- The pointer and every byte of the frame below it, rounded down to 16, are canonical (R176). -/
theorem State.frameCanonical_iff (s : State) (ptr : Word64) (n : Nat) :
    s.frameCanonical ptr n = true ↔ s.canonical ptr = true ∧ ∀ j, j < n →
      s.canonical ((ptr &&& ~~~15#64) - BitVec.ofNat 64 n + BitVec.ofNat 64 j) = true := by
  rw [State.frameCanonical, Bool.and_eq_true, State.canonicalBytes_iff, align16]

/-- The canonical test of the frame, then that of the instruction pointer: a delivery that stops as they
do. -/
theorem canonicalThenOffset {n : Nat} {badFrame outside : Stop} {ok : Bool} {run : Run State}
    {Outside : Prop} (hok : Outside → ok = false)
    (hrun : ∀ e, (require (s.frameCanonical ptr n) badFrame >>= fun _ => require ok outside) =
      .error e → run = .error e) :
    ((s.canonical ptr = false ∨ ∃ j, j < n ∧
        s.canonical ((ptr &&& ~~~15#64) - BitVec.ofNat 64 n + BitVec.ofNat 64 j) = false) →
      run = .error badFrame) ∧
    (s.canonical ptr = true → (∀ j, j < n →
        s.canonical ((ptr &&& ~~~15#64) - BitVec.ofNat 64 n + BitVec.ofNat 64 j) = true) →
      Outside → run = .error outside) := by
  refine ⟨fun hbad => hrun _ ?_, fun hptr hframe hout => hrun _ ?_⟩
  · have hfail : s.frameCanonical ptr n = false := by
      rw [Bool.eq_false_iff, Ne, s.frameCanonical_iff]
      rintro ⟨hptr, hframe⟩
      obtain hfalse | ⟨j, hj, hfalse⟩ := hbad
      · exact absurd (hptr.symm.trans hfalse) (by decide)
      · exact absurd ((hframe j hj).symm.trans hfalse) (by decide)
    rw [hfail, require_false, Run.error_bind]
  · rw [(s.frameCanonical_iff ptr n).2 ⟨hptr, hframe⟩, require_true, Run.ok_bind,
      hok hout, require_false]

theorem Target.offsetOk_long (t : Target) (hl : s.lma = true) :
    t.offsetOk s = s.canonical t.gate.offset := by
  rw [Target.offsetOk, hl, if_pos rfl]

/-- Settles O40: the two checks of each delivery, in the state that has counted a draw where a new stack
was found. -/
theorem canonicalStackThenPointerChecks : Obligations.CanonicalStackThenPointerChecks := by
  intro ev t s s1 ss ptr bottom n hl hsize hp hn hbottom
  have hbytes : frameBytes t 5 ev = 8 * (5 + ev.codeSlots.length) := by
    rw [frameBytes, hsize, GateSize.width]
  subst hbottom hn
  rw [← hbytes]
  have hout : s.canonical t.gate.offset = false → t.offsetOk s = false := (t.offsetOk_long hl).trans
  refine ⟨fun hnew => ?_, fun hptr => ?_⟩
  · obtain ⟨d, rfl⟩ := newStack_draws hnew
    obtain ⟨p, hssp⟩ := newShadowPointer_plain (s := s.setDraws d) ⟨hp.paging, hp.ram, hp.form⟩ t
    exact canonicalThenOffset (s := s.setDraws d) hout fun e h =>
      interPrivilege_of_checks hnew hssp ((newStackRoom_long hsize _).symm ▸ h)
  · exact canonicalThenOffset hout fun e h => intraPrivilege_of_checks_long hl hp hptr h

end Sys2Proof.Machine
end

section
/-! The shadow-stack steps of a delivery in plain memory (42_delivery_frames.md R208 to R210): the token
that is made busy, and the three values that link the old shadow stack. -/

namespace Sys2Proof.Machine

variable {s old : State} {p q o : Word64} {m : Memory}

/-- The linear instruction pointer that is pushed (20_memory.md R51; log 34). -/
theorem State.lip_eq {lip : Word64}
    (h : if old.lma = true ∧ old.cs.hid.l = true then lip = old.rip
      else lip.toNat = (old.cs.hid.base.toNat + old.rip.toNat) % 2 ^ 32) : old.lip = lip := by
  by_cases hmode : old.lma = true ∧ old.cs.hid.l = true
  · rw [if_pos hmode] at h
    simp [State.lip, State.mode64, hmode, h]
  · rw [if_neg hmode] at h
    have hlegacy : old.mode64 = false := by
      rwa [← Bool.not_eq_true, State.mode64, Bool.and_eq_true]
    rw [State.lip, hlegacy, if_neg Bool.false_ne_true]
    apply BitVec.eq_of_toNat_eq
    rw [toNat_low32, BitVec.toNat_add, h]
    omega

/-- Bytes that read as they did still hold what they held. -/
theorem State.holds.kept {m' : Memory} {n : Nat} {la v : Word64} (h : s.holds m n la v)
    (hkept : ∀ j, j < n → m'.read (s.byteAddr la j).toNat = m.read (s.byteAddr la j).toNat) :
    s.holds m' n la v :=
  fun j hj => (hkept j hj).trans (h j hj)

/-- Byte `i` at a pointer is byte `i + y` from `y` bytes below it. -/
theorem State.byteAddr_above (s : State) (p : Word64) (y i : Nat) :
    (s.byteAddr p i).toNat = (s.byteAddr (p - BitVec.ofNat 64 y) (i + y)).toNat := by
  simpa using s.byteAddr_eq (p := p) (x := 0) (y := y) (i := i) (j := i + y) rfl

/-- The `y` bytes below a pointer and the bytes from it on lie apart. -/
theorem State.byteAddr_below_ne (s : State) (p : Word64) {y i j : Nat} (hy : y ≤ 24) (hi : i < 8)
    (hj : j < y) :
    (s.byteAddr (p - BitVec.ofNat 64 y) j).toNat ≠ (s.byteAddr p i).toNat := by
  have hne := s.byteAddr_ne (p := p) (x := y) (y := 0) (i := j) (j := i) (by omega) (by omega)
    (by omega) (by omega) (by omega)
  rwa [BitVec.sub_zero] at hne

/-- Below `q` memory holds the old `CS`, the old linear instruction pointer and the old `SSP`. -/
structure State.Linked (s old : State) (m : Memory) (q o : Word64) : Prop where
  code : s.holds m 8 (q - 8#64) (old.cs.sel.setWidth 64)
  pointer : s.holds m 8 (q - 16#64) old.lip
  ssp : s.holds m 8 (q - 24#64) o

/-- A free token is made busy and the old shadow stack linked below it; no other byte changes. -/
theorem verifyAndBusyToken_then_shadowLink (old : State) (o : Word64) (hp : PlainMemory s) (hfree : s.FreeToken p)
    (hssp : s.ssp = p) :
    ∃ m, (verifyAndBusyToken p s >>= shadowLink old o) = .ok ((s.setSsp (p - 24#64)).setMem m) ∧
      s.holds m 8 p (p ||| 1#64) ∧ s.Linked old m p o ∧
      ∀ a, (∀ j, j < 32 → (s.byteAddr (p - 24#64) j).toNat ≠ a) → m.read a = s.mem.read a := by
  obtain ⟨m1, hm1, hbusy, htoken, hfirst⟩ := verifyAndBusyToken_free hp hfree
  obtain ⟨m2, -, hlink, hcode, hptr, hold, hsecond⟩ :=
    shadowLink_plain (s := s.setMem m1) old o (hp.setMem hm1) hssp
  refine ⟨m2, ?_, htoken.kept fun j hj => hsecond _ fun i hi => ?_, ⟨hcode, hptr, hold⟩,
    fun a ha => ?_⟩
  · rw [hbusy, Run.ok_bind, hlink]
    rfl
  · exact s.byteAddr_below_ne p (by omega) hj hi
  · have hkept : m2.read a = m1.read a := hsecond a fun j hj => ha j (by omega)
    rw [hkept]
    refine hfirst a fun j hj => ?_
    rw [s.byteAddr_above p 24 j]
    exact ha (j + 24) (by omega)

/-- `p` lies at the 8-byte boundary below it, or 4 bytes above it. -/
theorem align8_cases (h4 : p.toNat % 4 = 0) :
    p &&& ~~~7#64 = p ∨ p &&& ~~~7#64 = p - 4#64 := by
  have hp := p.isLt
  have ha := toNat_align8 p
  by_cases h8 : p.toNat % 8 = 0
  · exact .inl (BitVec.eq_of_toNat_eq (by omega))
  · exact .inr (BitVec.eq_of_toNat_eq (by rw [BitVec.toNat_sub, ha]; simp; omega))

/-- The upper bytes of a selector's slot are zero. -/
theorem byteOf_selector_high (sel : Word16) {j : Nat} (hj : j < 4) :
    byteOf (sel.setWidth 64) (j + 4) = byteOf 0#64 j := by
  apply BitVec.eq_of_getLsbD_eq
  intro i hi
  simp only [byteOf, BitVec.getLsbD_extractLsb', BitVec.getLsbD_setWidth]
  rw [BitVec.getLsbD_of_ge sel _ (by omega)]
  simp

/-- The shadow-stack steps that follow the token check of an intra-privilege delivery (R210): 4 zero
bytes at `p - 4`, then the link from the 8-byte boundary down. -/
def intraLink (old : State) (p : Word64) (s : State) : Run State :=
  store s (s.shadowAccess .shadowWrite) 4 (p - 4#64) 0#64 >>= fun u =>
    shadowLink old s.ssp (u.setSsp (p &&& ~~~7#64))

theorem shadowIntra_enabled (h : s.shadowStackEnabled s.cpl = true) (check : Bool) :
    shadowIntra old p check s = (verifyIf check p s >>= intraLink old p) := by
  rw [shadowIntra, if_pos h]
  rfl

/-- The zero bytes survive the link: its `CS` slot, where it covers them, holds zeros there. -/
theorem intraLink_plain (old : State) (hp : PlainMemory s) (h4 : p.toNat % 4 = 0) :
    ∃ m, intraLink old p s = .ok ((s.setSsp ((p &&& ~~~7#64) - 24#64)).setMem m) ∧
      s.holds m 4 (p - 4#64) 0#64 ∧ s.Linked old m (p &&& ~~~7#64) s.ssp ∧
      ∀ a, (∀ j, j < 24 → (s.byteAddr ((p &&& ~~~7#64) - 24#64) j).toNat ≠ a) →
        (∀ j, j < 4 → (s.byteAddr (p - 4#64) j).toNat ≠ a) → m.read a = s.mem.read a := by
  obtain ⟨m1, hm1, hstore, hzero, hfirst⟩ :=
    hp.store (s.shadowAccess .shadowWrite) (w := 4) (by omega) (p - 4#64) 0#64
  obtain ⟨m2, -, hlink, hcode, hptr, hold, hsecond⟩ :=
    shadowLink_plain (s := (s.setMem m1).setSsp (p &&& ~~~7#64)) old s.ssp
      ((hp.setMem hm1).setSsp _) rfl
  refine ⟨m2, ?_, ?_, ⟨hcode, hptr, hold⟩, fun a ha hz => (hsecond a ha).trans (hfirst a hz)⟩
  · rw [intraLink, hstore, Run.ok_bind, hlink]
    rfl
  · rcases align8_cases h4 with heq | heq
    · intro j hj
      have hbyte : (s.byteAddr (p - 4#64) j).toNat = (s.byteAddr (p - 8#64) (j + 4)).toNat :=
        s.byteAddr_eq (by omega)
      rw [hbyte, ← byteOf_selector_high old.cs.sel hj, ← heq]
      exact hcode (j + 4) (by omega)
    · refine hzero.kept fun j hj => hsecond _ fun i hi => ?_
      rw [heq]
      exact s.byteAddr_below_ne (p - 4#64) (by omega) (by omega) hi

/-- With a token check that passes: the token is busy, and the link lies right below it. -/
theorem shadowIntra_checked (old : State) (hp : PlainMemory s)
    (henabled : s.shadowStackEnabled s.cpl = true) (hfree : s.FreeToken p) :
    ∃ m, shadowIntra old p true s = .ok ((s.setSsp (p - 24#64)).setMem m) ∧
      s.holds m 8 p (p ||| 1#64) ∧ s.Linked old m p s.ssp ∧
      ∀ a, (∀ j, j < 32 → (s.byteAddr (p - 24#64) j).toNat ≠ a) → m.read a = s.mem.read a := by
  have hplace := hfree.place
  have hboundary : p &&& ~~~7#64 = p :=
    BitVec.eq_of_toNat_eq (by rw [toNat_align8]; omega)
  obtain ⟨m1, hm1, hbusy, htoken, hfirst⟩ := verifyAndBusyToken_free hp hfree
  obtain ⟨m2, hlink, -, hlinked, hsecond⟩ :=
    intraLink_plain (s := s.setMem m1) old (hp.setMem hm1) (p := p) (by omega)
  rw [hboundary] at hlink hlinked hsecond
  refine ⟨m2, ?_, htoken.kept fun j hj => hsecond _ (fun i hi => ?_) fun i hi => ?_,
    ⟨hlinked.code, hlinked.pointer, hlinked.ssp⟩, fun a ha => ?_⟩
  · rw [shadowIntra_enabled henabled, verifyIf, if_pos rfl, hbusy, Run.ok_bind, hlink]
    rfl
  · exact s.byteAddr_below_ne p (by omega) hj hi
  · exact s.byteAddr_below_ne p (y := 4) (by omega) hj hi
  · have hzero : ∀ j, j < 4 → (s.byteAddr (p - 4#64) j).toNat ≠ a := fun j hj => by
      have hbyte : (s.byteAddr (p - 4#64) j).toNat = (s.byteAddr (p - 24#64) (j + 20)).toNat :=
        s.byteAddr_eq (by omega)
      rw [hbyte]
      exact ha (j + 20) (by omega)
    have hkept : m2.read a = m1.read a := hsecond a (fun j hj => ha j (by omega)) hzero
    rw [hkept]
    refine hfirst a fun j hj => ?_
    rw [s.byteAddr_above p 24 j]
    exact ha (j + 24) (by omega)

theorem shadowIntra_refused (hp : PlainMemory s) (henabled : s.shadowStackEnabled s.cpl = true)
    (h : ¬ s.FreeToken p) :
    shadowIntra old p true s = .error (.raise ⟨.gp, some 0#32, none⟩ s) := by
  rw [shadowIntra_enabled henabled, verifyIf, if_pos rfl, verifyAndBusyToken_refused hp h,
    Run.error_bind]

theorem shadowIntra_unchecked (henabled : s.shadowStackEnabled s.cpl = true) :
    shadowIntra old p false s = intraLink old p s := by
  rw [shadowIntra_enabled henabled, verifyIf, if_neg Bool.false_ne_true, Run.ok_bind]

theorem shadowSwitch_from3 (henabled : s.shadowStackEnabled s.cpl = true)
    (hdpl : old.ss.hid.dpl = 3#2) :
    shadowSwitch old p s = verifyAndBusyToken p (s.setSsp p) := by
  simp only [shadowSwitch, henabled, hdpl, if_true]
  cases verifyAndBusyToken p (s.setSsp p) <;> rfl

theorem shadowSwitch_links (henabled : s.shadowStackEnabled s.cpl = true)
    (hdpl : old.ss.hid.dpl ≠ 3#2) :
    shadowSwitch old p s = (verifyAndBusyToken p (s.setSsp p) >>= shadowLink old s.ssp) := by
  simp only [shadowSwitch, henabled, hdpl, if_true, if_false]

end Sys2Proof.Machine
end

section
/-! An intra-privilege delivery in plain memory (42_delivery_frames.md R193 to R199, R210): the state
once its frame is written, and the shadow-stack steps that end it. -/

namespace Sys2Proof.Machine

variable {ev : Event} {t : Target} {s : State} {ptr p a : Word64} {check : Bool}

/-- A frame is a matter of memory and the stack pointer. -/
theorem Frame.congr {w : Nat} {xs : List Slot} {u v : State} (h : Frame s w xs u) (hr : v.rsp = u.rsp)
    (hm : v.mem = u.mem) : Frame s w xs v :=
  ⟨hr.trans h.pointer, fun k x hk => hm ▸ h.slots k x hk, fun a ha => hm ▸ h.others a ha⟩

/-- The state of an intra-privilege delivery once its frame, which left memory `m` and the pointer `r`,
has been written and `CS` loaded. -/
def State.intraEntered (s : State) (t : Target) (r : Word64) (m : Memory) (d : Nat) : State :=
  ((((s.setMem m).setDraws d).setRip t.gate.offset).setRsp r).setCs ⟨withRpl t.gate.sel s.cpl, t.desc⟩

/-- What an intra-privilege delivery pushes: in IA-32e mode the old stack pointer too (R197, R198). -/
def intraSlots (ev : Event) (s : State) : List Slot :=
  (if s.lma then stackSlots s else []) ++ returnSlots s ++ ev.codeSlots

/-- Once the stack is known, the frame is written whole and the shadow-stack steps follow. -/
theorem intraPrivilege_plain (hp : PlainMemory s) (hw : s.lma = decide (t.size.width = 8))
    (hstack : intraStack ev t s = .ok (s.setRsp a, p, check))
    (ha : t.aligned (intraSlots ev s).length (s.setRsp a))
    (hf : (s.setRsp a).fits t.size.width (intraSlots ev s).length) :
    ∃ m d x, x = s.intraEntered t
        ((s.setRsp a).afterPushes t.size.width (intraSlots ev s).length).rsp m d ∧
      Frame (s.setRsp a) t.size.width (intraSlots ev s) x ∧
      intraPrivilege ev t s = (shadowIntra s p check x >>= fun y =>
        .ok ((armEndbranch y).setFlags (gateFlags t.trap y.eflags))) := by
  have hp' : PlainMemory (s.setRsp a) := ⟨hp.paging, hp.ram, hp.form⟩
  obtain ⟨m, d, -, hpush, hframe⟩ := intraFrame_plain (old := s) (ev := ev) hp' hw rfl ha hf
  refine ⟨m, d, _, rfl, hframe.congr rfl rfl, ?_⟩
  simp only [intraPrivilege, hstack, hpush, Run.ok_bind, armEndbranch_eflags]
  rfl

theorem stackRoom_eq_ok {h : Hidden} {w : PtrWidth} {sp n : Nat} {st : Stop} :
    stackRoom h w sp n st = .ok () ↔ n ≤ sp ∧ h.hasRoom w sp n = true := by
  refine ⟨stackRoom_ok, fun ⟨hfits, hroom⟩ => ?_⟩
  rw [stackRoom, if_neg (Nat.not_lt.2 hfits), hroom, require_true]

/-- Outside IA-32e mode the frame is on the current stack, and no token is checked. -/
theorem intraStack_legacy (hl : s.lma = false)
    (hwrap : frameBytes t 3 ev ≤ ((s.ptrWidth t.size.width).trunc s.rsp).toNat)
    (hroom : s.ss.hid.hasRoom (s.ptrWidth t.size.width)
      ((s.ptrWidth t.size.width).trunc s.rsp).toNat (frameBytes t 3 ev) = true)
    (ho : t.gate.offset.toNat ≤ t.desc.limit.toNat) :
    intraStack ev t s = .ok (s.setRsp s.rsp, s.ssp, false) := by
  simp only [intraStack, hl, Bool.false_eq_true, if_false, stackRoom_eq_ok.2 ⟨hwrap, hroom⟩,
    Target.offsetOk_legacy hl ho, require_true, Run.ok_bind]
  rfl

/-- In IA-32e mode it is on the stack that was chosen, rounded down to 16. -/
theorem intraStack_long (hl : s.lma = true) (hptr : intraStack64 ev t s = .ok ptr)
    (hssp : intraShadowPointer t s = .ok (p, check))
    (hframe : s.frameCanonical ptr (frameBytes t 5 ev) = true)
    (ho : s.canonical t.gate.offset = true) :
    intraStack ev t s = .ok (s.setRsp (align16 ptr), p, check) := by
  simp only [intraStack, hl, if_true, hptr, hssp, hframe, t.offsetOk_long hl, ho, require_true,
    Run.ok_bind]

/-- The stack of R193: the current one, or that of the gate's IST. -/
theorem intraStack64_eq (hcurrent : t.gate.ist = 0#3 → ptr = s.rsp)
    (hist : t.gate.ist ≠ 0#3 → newStack64 ev (8 * t.gate.ist.toNat + 28) s = .ok ptr) :
    intraStack64 ev t s = .ok ptr := by
  unfold intraStack64
  split
  · rw [hcurrent ‹_›]
  · rw [tss64Offset, if_neg ‹_›, Nat.mul_comm]
    exact hist ‹_›

/-- The current shadow stack goes on, without a token check (R193). -/
theorem intraShadowPointer_current (h : t.gate.ist = 0#3 ∨ s.shadowStackEnabled s.cpl = false) :
    intraShadowPointer t s = .ok (s.ssp, false) := by
  rcases h with h | h <;> simp [intraShadowPointer, h]

/-- The shadow stack of the gate's IST, with a token check (R194, 20_memory.md R70). -/
theorem intraShadowPointer_table (hp : PlainMemory s) (hl : s.lma = true) (hist : t.gate.ist ≠ 0#3)
    (henabled : s.shadowStackEnabled s.cpl = true) :
    intraShadowPointer t s =
      .ok (s.value 8 (s.intSspTable + BitVec.ofNat 64 (8 * t.gate.ist.toNat)), true) := by
  simp [intraShadowPointer, hl, hist, henabled, istShadowPointer, hp.load, Nat.mul_comm]

/-- Settles O44: the steps with and without a token check, and the two deliveries they end. -/
theorem intraPrivilegeShadowPushes : Obligations.IntraPrivilegeShadowPushes := by
  constructor
  · intro old s p lip hp henabled hlip
    obtain rfl := State.lip_eq hlip
    rw [← s.freeToken_iff p]
    refine ⟨fun h4 => ?_, fun hfree => ?_, shadowIntra_refused hp henabled⟩
    · obtain ⟨m, hrun, hzero, hlinked, hothers⟩ := intraLink_plain old hp h4
      exact ⟨m, (shadowIntra_unchecked henabled).trans hrun, hzero, hlinked.code, hlinked.pointer,
        hlinked.ssp, hothers⟩
    · obtain ⟨m, hrun, htoken, hlinked, hothers⟩ := shadowIntra_checked old hp henabled hfree
      exact ⟨m, hrun, htoken, hlinked.code, hlinked.pointer, hlinked.ssp, hothers⟩
  · intro ev t s ptr hopens hvm hdesc hp
    rw [hopens.deliver_intra hvm hdesc]
    refine ⟨fun hl ha hwrap hroom ho => ?_, fun hl hcurrent hist hcan ho => ?_⟩
    · have hslots : intraSlots ev s = returnSlots s ++ ev.codeSlots := by
        rw [intraSlots, hl]
        rfl
      have hlen : (intraSlots ev s).length = 3 + ev.codeSlots.length := by
        rw [hslots, List.length_append]
        rfl
      obtain ⟨m, d, x, hx, hframe, hrun⟩ := intraPrivilege_plain hp hopens.width
        (intraStack_legacy hl hwrap hroom ho) (hlen ▸ ha) (hlen ▸ .inr hwrap)
      rw [hlen] at hx
      exact ⟨m, d, x, hx, hslots ▸ hframe, hrun⟩
    · have hwidth : t.size.width = 8 := of_decide_eq_true (hopens.width ▸ hl)
      have hslots : intraSlots ev s = stackSlots s ++ returnSlots s ++ ev.codeSlots := by
        rw [intraSlots, hl]
        rfl
      have hlen : (intraSlots ev s).length = 5 + ev.codeSlots.length := by
        rw [hslots, List.length_append]
        rfl
      obtain ⟨⟨p, check⟩, hssp⟩ := intraShadowPointer_plain hp t
      rw [← hwidth] at hcan
      obtain ⟨m, d, x, hx, hframe, hrun⟩ := intraPrivilege_plain hp hopens.width
        (intraStack_long hl (intraStack64_eq hcurrent hist) hssp hcan ho)
        (Target.aligned_of_align16 hwidth rfl) (.inl hwidth)
      rw [hlen, hwidth] at hx
      refine ⟨m, d, p, check, x, fun h => ?_, fun hne henabled => ?_, hx, ?_, hrun⟩
      · simpa using hssp.symm.trans (intraShadowPointer_current h)
      · simpa using hssp.symm.trans (intraShadowPointer_table hp hl hne henabled)
      · rw [hwidth, hslots] at hframe
        exact hframe

end Sys2Proof.Machine
end

section
/-! The deliveries to another level in plain memory (42_delivery_frames.md R170 to R192, R208, R209): the
state once the frame is written and the level entered, and the shadow-stack switch that ends them. -/

namespace Sys2Proof.Machine

variable {ev : Event} {t : Target} {s s1 x : State} {ss : SegReg} {ptr p : Word64} {n : Nat}

/-- The room of a new stack does not depend on the count of draws. -/
theorem newStackRoom_setDraws (h : newStackRoom ev t ss ptr n s = .ok ()) (d : Nat) :
    newStackRoom ev t ss ptr n (s.setDraws d) = .ok () := by
  by_cases hsize : t.size = .bits64
  · rw [newStackRoom_long hsize, require_eq_ok] at h ⊢
    simpa using h
  · rw [newStackRoom_legacy hsize, stackRoom_eq_ok] at h ⊢
    exact h

/-- A pointer loaded through `ESP` is seen through `SP` or `ESP` as it was given. -/
theorem Hidden.trunc_putLow32 (h : Hidden) (v : Word64) :
    h.ptrWidth.trunc (putLow32 v (ptr.setWidth 32)) = h.ptrWidth.trunc ptr := by
  have hv := v.isLt
  apply BitVec.eq_of_toNat_eq
  unfold Hidden.ptrWidth
  split <;> simp only [PtrWidth.trunc, toNat_low16, toNat_low32, toNat_putLow32,
    BitVec.toNat_setWidth] <;> omega

/-- A frame that has room on the new stack does not wrap its pointer. -/
theorem enterStack_fits (hroom : newStackRoom ev t ss ptr (t.size.width * n) s = .ok ())
    (hpe : x.cr0.pe = true) (hvm : x.vm = false) (hw : x.lma = decide (t.size.width = 8)) :
    (enterStack ss ptr x).fits t.size.width n := by
  by_cases h8 : t.size.width = 8
  · exact .inl h8
  · have hl : x.lma = false := hw.trans (decide_eq_false h8)
    have hsize : t.size ≠ .bits64 := fun h => h8 (by rw [h, GateSize.width])
    have hptr : (enterStack ss ptr x).ptrWidth t.size.width = ss.hid.ptrWidth := by
      simp [State.ptrWidth, h8, enterStack, hpe, hvm]
    have hrsp : (enterStack ss ptr x).rsp = putLow32 x.rsp (ptr.setWidth 32) := by
      simp [enterStack, hl]
    rw [newStackRoom_legacy hsize, stackRoom_eq_ok] at hroom
    right
    rw [hptr, hrsp, Hidden.trunc_putLow32]
    exact hroom.1

/-- The new shadow-stack pointer is the one of the level (R175). -/
theorem newShadowPointer_level (h : s.lma = false ∨ t.gate.ist = 0#3) :
    newShadowPointer t s = .ok (s.plSsp t.desc.dpl) := by
  rcases h with h | h <;> simp [newShadowPointer, h]

/-- The new shadow-stack pointer is that of the gate's IST (R175, 20_memory.md R70). -/
theorem newShadowPointer_table (hp : PlainMemory s) (hl : s.lma = true) (hist : t.gate.ist ≠ 0#3)
    (henabled : s.shadowStackEnabled 0#2 = true) :
    newShadowPointer t s =
      .ok (s.value 8 (s.intSspTable + BitVec.ofNat 64 (8 * t.gate.ist.toNat))) := by
  simp [newShadowPointer, hl, hist, henabled, istShadowPointer, hp.load, Nat.mul_comm]

/-- A level below another is 0, 1 or 2. -/
theorem State.plSsp_of_lt {d c : BitVec 2} (h : d < c) (s : State) :
    s.plSsp d = if d = 0#2 then s.pl0Ssp else if d = 1#2 then s.pl1Ssp else s.pl2Ssp := by
  have h2 : d ≠ 0#2 → d ≠ 1#2 → d = 2#2 := by bv_omega
  unfold State.plSsp
  split
  · rfl
  · split
    · rfl
    · rw [if_pos (h2 ‹_› ‹_›)]

/-- The state of an inter-privilege delivery once its frame, which left memory `m` and the pointer `r`,
has been written and the new level entered. -/
def State.interEntered (s : State) (t : Target) (ss : SegReg) (r : Word64) (m : Memory) (d : Nat) :
    State :=
  (((((((s.setMem m).setDraws d).setRip t.gate.offset).setRsp r).setCs
    ⟨withRpl t.gate.sel t.desc.dpl, t.desc⟩).setSs ss).setCpl t.desc.dpl).setPl3Ssp s.leftPl3Ssp

@[simp] theorem State.interEntered_mem (s : State) (t : Target) (ss : SegReg) (r : Word64)
    (m : Memory) (d : Nat) : (s.interEntered t ss r m d).mem = m := rfl

@[simp] theorem State.interEntered_rsp (s : State) (t : Target) (ss : SegReg) (r : Word64)
    (m : Memory) (d : Nat) : (s.interEntered t ss r m d).rsp = r := rfl

theorem enterStack_setDraws (ss : SegReg) (ptr : Word64) (s : State) (k : Nat) :
    enterStack ss ptr (s.setDraws k) = (enterStack ss ptr s).setDraws k := rfl

/-! Pushes see neither the code segment nor the count of draws. -/

theorem PushCtx.Aligned.enterCode {c : PushCtx} (h : c.Aligned n s) (t : Target) (k : Nat) :
    c.Aligned n (t.enterCode (s.setDraws k)) :=
  fun hdpl hchecked i hi => h hdpl hchecked i hi

theorem State.afterPushes_enterCode (s : State) (t : Target) (k w n : Nat) :
    ((t.enterCode (s.setDraws k)).afterPushes w n).rsp = (s.afterPushes w n).rsp := rfl

theorem State.fits.enterCode {w : Nat} (h : s.fits w n) (t : Target) (k : Nat) :
    (t.enterCode (s.setDraws k)).fits w n :=
  h.imp id id

theorem Frame.of_enterCode {w k : Nat} {xs : List Slot} {u : State}
    (h : Frame (t.enterCode (s.setDraws k)) w xs u) : Frame s w xs u := by
  refine ⟨h.pointer, fun i y hy => ?_, h.others⟩
  have hslot := h.slots i y hy
  cases y with
  | word v => exact hslot
  | selector sel => exact hslot

/-- Once the new stack is known, the frame is written whole and the switch of shadow stacks follows. -/
theorem interPrivilege_plain (hp : PlainMemory s) (hpe : s.cr0.pe = true) (hvm : s.vm = false)
    (hw : s.lma = decide (t.size.width = 8)) (ho : t.offsetOk s = true)
    (hnew : newStack ev t s = .ok (ss, ptr, s1)) (hssp : newShadowPointer t s1 = .ok p)
    (hroom : newStackRoom ev t ss ptr (t.size.width * (5 + ev.codeSlots.length)) s = .ok ())
    (ha : t.aligned (5 + ev.codeSlots.length) (enterStack ss ptr s)) :
    ∃ m d x, x = s.interEntered t ss
        ((enterStack ss ptr s).afterPushes t.size.width (5 + ev.codeSlots.length)).rsp m d ∧
      Frame (enterStack ss ptr s) t.size.width (stackSlots s ++ returnSlots s ++ ev.codeSlots) x ∧
      interPrivilege ev t s = (shadowSwitch s p x >>= fun y =>
        .ok ((armEndbranch y).setFlags (gateFlags t.trap y.eflags))) := by
  obtain ⟨k, rfl⟩ := newStack_draws hnew
  have hlen : (stackSlots s ++ returnSlots s ++ ev.codeSlots).length = 5 + ev.codeSlots.length := by
    rw [List.length_append]
    rfl
  have hcode := ev.codeSlots_length
  obtain ⟨m, d, -, hpush, hframe⟩ := pushAll_plain (c := t.pushCtx true ev)
    (s := t.enterCode ((enterStack ss ptr s).setDraws k))
    (xs := stackSlots s ++ returnSlots s ++ ev.codeSlots) ⟨hp.paging, hp.ram, hp.form⟩ hw
    (GateSize.width_cases _) (hlen ▸ (ha.pushes true ev).enterCode t k) (by omega)
    (hlen ▸ (enterStack_fits hroom hpe hvm hw).enterCode t k)
  have hframe' := Frame.of_enterCode (s := enterStack ss ptr s) (k := k) hframe
  rw [hlen, State.afterPushes_enterCode] at hpush hframe'
  refine ⟨m, d, _, rfl, hframe'.congr (by simp [Target.pushCtx]) (by simp), ?_⟩
  have ho' : t.offsetOk (s.setDraws k) = true := ho
  have hsaved := (pushAll_leftPl3Ssp hpush).trans (State.leftPl3Ssp_entered s t ss ptr k)
  simp only [interPrivilege, hnew, hssp, frameBytes, newStackRoom_setDraws hroom k, ho',
    enterStack_setDraws, hpush, Run.ok_bind, require_true, saveUserSsp_eq, hsaved,
    armEndbranch_eflags]
  rfl

/-- The state of a delivery from virtual-8086 mode once its frame has been written and level 0
entered. -/
def State.v86Entered (s : State) (t : Target) (ss : SegReg) (r : Word64) (m : Memory) (d n : Nat) :
    State :=
  ((((((((s.setMem m).setDraws d).setRip t.gate.offset).setRsp r).setFlags
    (gateFlags t.trap s.eflags)).setCs ⟨withRpl t.gate.sel 0#2, t.desc⟩).setSs ss).setData
      (nullSegment n) (nullSegment (n + 1)) (nullSegment (n + 2)) (nullSegment (n + 3))).setCpl 0#2

@[simp] theorem State.v86Entered_mem (s : State) (t : Target) (ss : SegReg) (r : Word64)
    (m : Memory) (d n : Nat) : (s.v86Entered t ss r m d n).mem = m := rfl

@[simp] theorem State.v86Entered_rsp (s : State) (t : Target) (ss : SegReg) (r : Word64)
    (m : Memory) (d n : Nat) : (s.v86Entered t ss r m d n).rsp = r := rfl

/-- The same from virtual-8086 mode, on the ring-0 stack, whose width is tested with `VM` cleared. -/
theorem fromVirtual8086_plain (hp : PlainMemory s) (hpe : s.cr0.pe = true)
    (hw : s.lma = decide (t.size.width = 8)) (ho : t.offsetOk s = true)
    (hnew : newStackLegacy ev 0#2 s = .ok (ss, ptr))
    (hroom : newStackRoom ev t ss ptr (t.size.width * (9 + ev.codeSlots.length)) s = .ok ())
    (ha : t.aligned (9 + ev.codeSlots.length)
      (enterStack ss ptr (s.setFlags (gateFlags t.trap s.eflags)))) :
    ∃ m d n x, x = s.v86Entered t ss ((enterStack ss ptr (s.setFlags
        (gateFlags t.trap s.eflags))).afterPushes t.size.width (9 + ev.codeSlots.length)).rsp m d n ∧
      Frame (enterStack ss ptr (s.setFlags (gateFlags t.trap s.eflags))) t.size.width
        (dataSlots s ++ stackSlots s ++ returnSlots s ++ ev.codeSlots) x ∧
      fromVirtual8086 ev t s =
        (shadowSwitchV86 s.pl0Ssp x >>= fun y => .ok (armEndbranch y)) := by
  have hlen : (dataSlots s ++ stackSlots s ++ returnSlots s ++ ev.codeSlots).length =
      9 + ev.codeSlots.length := by
    rw [List.length_append]
    rfl
  have hcode := ev.codeSlots_length
  have hvm : (s.setFlags (gateFlags t.trap s.eflags)).vm = false := gateFlags_vm _ _
  obtain ⟨m, d, -, hpush, hframe⟩ := pushAll_plain (c := t.pushCtx true ev)
    (s := enterStack ss ptr (s.setFlags (gateFlags t.trap s.eflags)))
    (xs := dataSlots s ++ stackSlots s ++ returnSlots s ++ ev.codeSlots)
    ⟨hp.paging, hp.ram, hp.form⟩ hw (GateSize.width_cases _) (hlen ▸ ha.pushes true ev) (by omega)
    (hlen ▸ enterStack_fits hroom hpe hvm hw)
  rw [hlen] at hpush hframe
  refine ⟨m, d + 4, d, _, rfl, hframe.congr (by simp [Target.pushCtx]) (by simp), ?_⟩
  simp only [fromVirtual8086, hnew, frameBytes, hroom, ho, hpush, Run.ok_bind, require_true]
  rfl

/-- Settles O43: the switch to a free token, and the two deliveries it ends. -/
theorem shadowStackSwitch : Obligations.ShadowStackSwitch := by
  constructor
  · intro old s p lip hp hplace hlip hnarrow htoken
    obtain rfl := State.lip_eq hlip
    have hfree : (s.setSsp p).FreeToken p := ⟨hplace, hnarrow, htoken⟩
    obtain ⟨m, -, hbusy, hheld, hothers⟩ := verifyAndBusyToken_free (hp.setSsp p) hfree
    refine ⟨fun henabled hdpl => ⟨m, (shadowSwitch_from3 henabled hdpl).trans hbusy, hheld, hothers⟩,
      fun henabled => ⟨m, (if_pos henabled).trans hbusy, hheld, hothers⟩, fun henabled hdpl => ?_⟩
    obtain ⟨m', hrun, hheld', hlinked, hothers'⟩ :=
      verifyAndBusyToken_then_shadowLink old s.ssp (hp.setSsp p) hfree rfl
    exact ⟨m', (shadowSwitch_links henabled hdpl).trans hrun, hheld', hlinked.code, hlinked.pointer,
      hlinked.ssp, hothers'⟩
  · intro ev t s s1 ss ptr hopens hconf hdpl hp ho
    refine ⟨fun hvm hnew hroom ha => ?_, fun hvm hl h0 hnew hroom ha => ?_⟩
    · obtain ⟨k, rfl⟩ := newStack_draws hnew
      have hp1 : PlainMemory (s.setDraws k) := ⟨hp.paging, hp.ram, hp.form⟩
      obtain ⟨p, hssp⟩ := newShadowPointer_plain hp1 t
      obtain ⟨m, d, x, hx, hframe, hrun⟩ := interPrivilege_plain hp hopens.reaches.pe hvm
        hopens.width ho hnew hssp hroom ha
      refine ⟨m, d, p, x, _, enterStack_enters ss ptr s, fun hlevel => ?_,
        fun hl hist henabled => ?_, hx, hframe, (hopens.deliver_inter hvm hconf hdpl).trans hrun⟩
      · rw [← s.plSsp_of_lt hdpl]
        exact Except.ok.inj (hssp.symm.trans (newShadowPointer_level hlevel))
      · exact Except.ok.inj (hssp.symm.trans (newShadowPointer_table hp1 hl hist henabled))
    · obtain ⟨m, d, n, x, hx, hframe, hrun⟩ := fromVirtual8086_plain hp hopens.reaches.pe
        hopens.width ho hnew hroom ha
      exact ⟨m, d, n, x, _, enterStack_enters ss ptr _, hx, hframe,
        (hopens.deliver_virtual8086_of_lt hvm hconf hdpl h0).trans hrun⟩

end Sys2Proof.Machine
end

section
/-! Where the slots of a frame lie (20_memory.md R59, R60). -/

namespace Sys2Proof.Machine

variable {s : State} {w : Nat}

theorem State.bits_ptrWidth (s : State) (w : Nat) :
    (s.ptrWidth w).bits =
      if w = 8 then 64 else if s.cr0.pe = false ∨ s.vm = true then 16
      else if s.ss.hid.db then 32 else 16 := by
  rw [s.ptrWidth_eq]
  split_ifs <;> rfl

/-- Lowering the pointer's part by what it holds lowers the pointer. -/
theorem PtrWidth.toNat_put_sub (p : PtrWidth) (v : Word64) {x : Nat}
    (hx : x ≤ v.toNat % 2 ^ p.bits) : (p.put v (v - BitVec.ofNat 64 x)).toNat = v.toNat - x := by
  have hv := v.isLt
  cases p <;> simp only [PtrWidth.bits] at hx <;>
    simp only [PtrWidth.put, toNat_putLow16, toNat_putLow32, BitVec.toNat_setWidth,
      BitVec.toNat_sub, BitVec.toNat_ofNat] <;> omega

/-- Pushes that do not wrap lower the pointer by the bytes they push. -/
theorem State.toNat_afterPushes {k : Nat} (h : w * k ≤ s.rsp.toNat % 2 ^ (s.ptrWidth w).bits) :
    (s.afterPushes w k).rsp.toNat = s.rsp.toNat - w * k :=
  (s.ptrWidth w).toNat_put_sub s.rsp h

/-- The top of a stack: outside 8-byte pushes the base of `SS` is added and the sum cut to 32 bits. -/
theorem State.toNat_stackTop (s : State) (p : PtrWidth) :
    (s.stackTop p).toNat =
      if p = .rsp then s.rsp.toNat
      else (s.ss.hid.base.toNat + s.rsp.toNat % 2 ^ p.bits) % 2 ^ 32 := by
  have hbase := s.ss.hid.base.isLt
  cases p
  case rsp => rfl
  all_goals
    rw [if_neg (by decide), State.stackTop, toNat_low32, BitVec.toNat_add]
    simp only [PtrWidth.bits, toNat_low16, toNat_low32]
    omega

theorem State.ptrWidth_eq_rsp_iff (s : State) (w : Nat) : s.ptrWidth w = .rsp ↔ w = 8 := by
  rw [s.ptrWidth_eq]
  split_ifs <;> simp [*]

/-- A slot lies below the old top by the bytes pushed so far and its own. -/
theorem State.toNat_slotAddr {k : Nat}
    (h : w * (k + 1) ≤ s.rsp.toNat % 2 ^ (s.ptrWidth w).bits) :
    (s.slotAddr w k).toNat =
      if w = 8 then s.rsp.toNat - w * (k + 1)
      else (s.ss.hid.base.toNat +
        (s.rsp.toNat % 2 ^ (s.ptrWidth w).bits - w * (k + 1))) % 2 ^ 32 := by
  have hlow : (s.rsp.toNat - w * (k + 1)) % 2 ^ (s.ptrWidth w).bits =
      s.rsp.toNat % 2 ^ (s.ptrWidth w).bits - w * (k + 1) := by
    cases hp : s.ptrWidth w <;> rw [hp] at h <;> simp only [PtrWidth.bits] at h ⊢ <;> omega
  rw [State.slotAddr, State.toNat_stackTop, State.toNat_afterPushes h, hlow,
    if_congr (s.ptrWidth_eq_rsp_iff w) rfl rfl]
  rfl

end Sys2Proof.Machine
end

section
/-! The deliveries through a gate with CET off (42_delivery_frames.md R185, R192, R199): the shadow-stack
steps and the arming that end them do nothing. -/

namespace Sys2Proof.Machine

variable {ev : Event} {s x : State}

/-- With CET off an intra-privilege delivery ends where its frame does, the flags cleared. -/
theorem CetOff.intra_end (h : CetOff x) (old : State) (p : Word64) (check : Bool) (trap : Bool) :
    (shadowIntra old p check x >>= fun y =>
      .ok ((armEndbranch y).setFlags (gateFlags trap y.eflags))) =
        .ok (x.setFlags (gateFlags trap x.eflags)) := by
  rw [shadowIntra_off h, Run.ok_bind, armEndbranch_off h]

theorem CetOff.inter_end (h : CetOff x) (old : State) (p : Word64) (trap : Bool) :
    (shadowSwitch old p x >>= fun y =>
      .ok ((armEndbranch y).setFlags (gateFlags trap y.eflags))) =
        .ok (x.setFlags (gateFlags trap x.eflags)) := by
  rw [shadowSwitch_off h, Run.ok_bind, armEndbranch_off h]

theorem CetOff.v86_end (h : CetOff x) (p : Word64) :
    (shadowSwitchV86 p x >>= fun y => .ok (armEndbranch y)) = .ok x := by
  rw [shadowSwitchV86_off h, Run.ok_bind, armEndbranch_off h]

theorem CetOff.leftPl3Ssp (h : CetOff s) : s.leftPl3Ssp = s.pl3Ssp := by
  rw [State.leftPl3Ssp, (h 3#2).1, if_neg fun hall => Bool.false_ne_true hall.1]

/-! The slot of an error code (60_exceptions.md R221; log 32). -/

theorem Event.codeSlots_none (h : ev.code = none) : ev.codeSlots = [] := by
  rw [Event.codeSlots, h]

theorem Event.codeSlots_some {c : Word32} (h : ev.code = some c) :
    ev.codeSlots = [.word (c.setWidth 64)] := by
  rw [Event.codeSlots, h]

/-- Settles O35: the place of each slot, and the delivery of O44 with CET off. -/
theorem intraPrivilegeCompletes : Obligations.IntraPrivilegeCompletes := by
  refine ⟨fun ev c sel p => ⟨Event.codeSlots_none, Event.codeSlots_some, withRpl_rpl sel p,
    withRpl_index sel p⟩, fun s w n b hb hfits => ?_, ?_⟩
  · obtain rfl : (s.ptrWidth w).bits = b := (s.bits_ptrWidth w).trans hb.symm
    exact ⟨State.toNat_afterPushes hfits, fun k hk =>
      State.toNat_slotAddr (Nat.le_trans (Nat.mul_le_mul_left w hk) hfits)⟩
  · intro ev t s hopens hl hvm hdesc hp hcet ha hwrap hroom ho
    obtain ⟨m, d, x, hx, hframe, hdeliver⟩ :=
      (intraPrivilegeShadowPushes.2 ev t s s.rsp hopens hvm hdesc hp).1 hl ha hwrap hroom ho
    have hoff : CetOff x := hcet.congr (by simp [hx]) (by simp [hx])
    rw [hoff.intra_end] at hdeliver
    refine ⟨m, d, x.setFlags (gateFlags t.trap x.eflags), ?_, hframe.congr rfl rfl,
      hdeliver, .of_deliver hdeliver⟩
    rw [hx]
    rfl

/-- Settles O36: the delivery of O44 with CET off. -/
theorem intraPrivilege64Completes : Obligations.IntraPrivilege64Completes := by
  intro ev t s ptr hopens hl hvm hdesc hp hcet hcurrent hist hptr hbytes ho
  obtain ⟨m, d, p, check, x, -, -, hx, hframe, hdeliver⟩ :=
    (intraPrivilegeShadowPushes.2 ev t s ptr hopens hvm hdesc hp).2 hl hcurrent hist
      ((s.frameCanonical_iff _ _).2 ⟨hptr, hbytes⟩) ho
  have hoff : CetOff x := hcet.congr (by simp [hx]) (by simp [hx])
  rw [hoff.intra_end] at hdeliver
  refine ⟨m, d, x.setFlags (gateFlags t.trap x.eflags), ?_, hframe.congr rfl rfl,
    hdeliver, .of_deliver hdeliver⟩
  rw [hx]
  rfl

/-- Settles O37: the delivery of O43 with CET off, which saves no user shadow-stack pointer. -/
theorem interPrivilegeCompletes : Obligations.InterPrivilegeCompletes := by
  intro ev t s s1 ss ptr hopens hvm hconf hdpl hp hcet ha hnew hroom ho
  obtain ⟨m, d, p, x, entry, henter, -, -, hx, hframe, hdeliver⟩ :=
    (shadowStackSwitch.2 ev t s s1 ss ptr hopens hconf hdpl hp ho).1 hvm hnew hroom ha
  have hoff : CetOff x := hcet.congr (by simp [hx]) (by simp [hx])
  rw [hoff.inter_end] at hdeliver
  refine ⟨m, d, x.setFlags (gateFlags t.trap x.eflags), entry, henter, ?_, hframe.congr rfl rfl,
    hdeliver, .of_deliver hdeliver⟩
  have hpl3 := hcet.leftPl3Ssp
  rw [State.leftPl3Ssp] at hpl3
  rw [hx, hpl3]
  rfl

/-- Settles O38: the delivery of O43 with CET off once `VM` is cleared. -/
theorem fromVirtual8086Completes : Obligations.FromVirtual8086Completes := by
  intro ev t s ss ptr hopens hvm hl hconf h0 hcpl hp hcet ha hnew hroom ho
  have hdpl : t.desc.dpl < s.cpl := by
    rw [h0, hcpl]
    decide
  obtain ⟨m, d, n, x, entry, henter, hx, hframe, hdeliver⟩ :=
    (shadowStackSwitch.2 ev t s s ss ptr hopens hconf hdpl hp (Target.offsetOk_legacy hl ho)).2
      hvm hl h0 hnew hroom ha
  have hoff : CetOff x := hcet.congr (by simp [hx, State.cetControl, State.vm]) (by simp [hx])
  rw [hoff.v86_end] at hdeliver
  exact ⟨m, d, n, x, entry, henter, hx, hframe, hdeliver, .of_deliver hdeliver⟩

end Sys2Proof.Machine
end

section
/-! The error code of an exception (60_exceptions.md R225, 90_conflicts.md C18). -/

namespace Sys2Proof.Machine

/-- `EXT` stands in bit 0 of a code that is even without it. -/
theorem toNat_or_extCode {n : Nat} (heven : n % 2 = 0) (hn : n < 2 ^ 32) (ext : Bool) :
    (BitVec.ofNat 32 n ||| extCode ext).toNat = n + if ext then 1 else 0 := by
  have hext : (extCode ext).toNat = if ext then 1 else 0 := by cases ext <;> rfl
  have hlt : (if ext then 1 else 0) < 2 ^ 1 := by cases ext <;> decide
  have hshift : n = (n / 2) <<< 1 := by rw [Nat.shiftLeft_eq]; omega
  rw [BitVec.toNat_or, BitVec.toNat_ofNat, Nat.mod_eq_of_lt hn, hext, hshift,
    Nat.shiftLeft_add_eq_or_of_lt hlt]

/-- The mask `FFFCH` clears the low two bits of a selector. -/
theorem and_selectorMask {n : Nat} (hn : n < 2 ^ 16) : n &&& 0xFFFC = n / 2 ^ 2 * 2 ^ 2 := by
  apply Nat.eq_of_testBit_eq
  intro i
  rw [show 0xFFFC = (2 ^ 14 - 1) * 2 ^ 2 from rfl, Nat.testBit_and, Nat.testBit_mul_two_pow,
    Nat.testBit_mul_two_pow, Nat.testBit_two_pow_sub_one, Nat.testBit_div_two_pow]
  by_cases hlow : 2 ≤ i
  · by_cases hhigh : i < 16
    · simp [hlow, show i - 2 < 14 by omega]
    · have hzero : n.testBit i = false :=
        Nat.testBit_lt_two_pow (Nat.lt_of_lt_of_le hn (Nat.pow_le_pow_right (by decide) (by omega)))
      simp [hlow, hzero]
  · simp [hlow]

/-- Settles O47: either number is even before `EXT` is put in. -/
theorem errorCodeFormula : Obligations.ErrorCodeFormula := by
  intro num ext hnum
  constructor
  · have hcode : errorCode num false ext =
        BitVec.ofNat 32 (num / 2 ^ 2 * 2 ^ 2) ||| extCode ext := by
      rw [← and_selectorMask hnum]
      rfl
    rw [hcode, toNat_or_extCode (by omega) (by omega)]
    omega
  · have hcode : errorCode num true ext = BitVec.ofNat 32 (num * 2 ^ 3 + 2) ||| extCode ext := by
      rw [← Nat.shiftLeft_eq, Nat.shiftLeft_add_eq_or_of_lt (by decide)]
      rfl
    rw [hcode, toNat_or_extCode (by omega) (by omega)]
    omega

end Sys2Proof.Machine
end

section
/-! Taking an exception: its vector, what its delivery makes of the step
(60_exceptions.md R220, R234, R240, R243). -/

namespace Sys2Proof.Machine

variable {s t d : State} {x y : Exc} {ev : Event}

/-- An exception is taken exactly when its delivery ends well. -/
theorem raiseException_eq_next_iff :
    raiseException x s = .next t ↔ deliver x.event (recordFaultAddr x s) = .ok t := by
  unfold raiseException
  split <;> simp [*]

/-- A second exception in its delivery ends the run, a recorded address or not (R243). -/
theorem raiseException_of_nested
    (h : deliver x.event (recordFaultAddr x s) = .error (.raise y d)) :
    raiseException x s = .fault (.nestedDeliveryFailed x.name y.name) := by
  rw [raiseException, h]

/-- No delivery writes the faulting-address register. -/
theorem DeliveryCase.faultAddr (h : DeliveryCase ev s t) : t.faultAddr = s.faultAddr := by
  cases h <;> rename_i eq <;> simp [eq]

/-- Settles O49: without a faulting address the delivery is made from the state itself. -/
theorem nestedDeliveryEndsTheRunOrEnters : Obligations.NestedDeliveryEndsTheRunOrEnters :=
  ⟨fun n => by cases n <;> rfl,
    fun _ _ _ _ _ haddr => ⟨raiseException_of_raise haddr, raiseException_of_ok haddr⟩⟩

/-- Settles O50: the address is recorded before the delivery, which does not write the register. -/
theorem pageFaultAddressIsRecorded : Obligations.PageFaultAddressIsRecorded := by
  intro code addr s t d y
  refine ⟨fun h => ?_, (raiseException_eq_next_iff (x := ⟨.pf, some code, some addr⟩)).2,
    raiseException_of_nested (x := ⟨.pf, some code, some addr⟩)⟩
  have hdeliver : deliver ⟨14, .exception, some code⟩ (s.setFaultAddr addr) = .ok t :=
    raiseException_eq_next_iff.1 h
  exact ⟨(deliver_ok hdeliver).faultAddr, hdeliver⟩

end Sys2Proof.Machine
end

section
/-! What an instruction is, by whether it is a LOCK form and whether it traps (40_int_instructions.md
R100 to R103, R116; 60_exceptions.md R232). -/

namespace Sys2Proof.Machine

variable {s : State} {i : Instr}

/-- Every instruction tests LOCK first. -/
theorem exec_of_locked (h : i.locked = true) : exec i s = raiseException invalidOpcode s := by
  cases i with
  | int3 lock | intImm8 lock _ | into lock | int1 lock =>
    obtain rfl : lock = true := h
    rfl

/-- An instruction that traps takes its event from the state past it. -/
theorem exec_of_traps (h : traps i s = true) :
    exec i s = takeEvent (trapEvent i) s (advance i.opcodeLength s) := by
  obtain ⟨hnot, htrap⟩ := Bool.and_eq_true_iff.1 h
  have hlock : i.locked = false := by simpa using hnot
  cases i with
  | int3 lock | intImm8 lock _ =>
    obtain rfl : lock = false := hlock
    rfl
  | into lock =>
    obtain rfl : lock = false := hlock
    obtain ⟨hmode, hof⟩ : s.mode64 = false ∧ s.overflow = true := by simpa using htrap
    simp [exec, execInto, hmode, hof, trapEvent, Instr.opcodeLength]
  | int1 lock =>
    obtain rfl : lock = false := hlock
    exact exec_int1_trap (by simpa using htrap)

/-- All that an instruction can be: its `#UD`, its trap, an `INTO` that only advances, or an `INT1` that
hardware debug takes. -/
theorem exec_cases (i : Instr) (s : State) :
    exec i s = raiseException invalidOpcode s ∨
      exec i s = takeEvent (trapEvent i) s (advance i.opcodeLength s) ∨
      exec i s = .next (advance 1 s) ∨ exec i s = .refused .int1HardwareDebug := by
  by_cases htrap : traps i s = true
  · exact .inr (.inl (exec_of_traps htrap))
  cases hlock : i.locked with
  | true => exact .inl (exec_of_locked hlock)
  | false =>
    cases i with
    | int3 lock | intImm8 lock _ => exact absurd (by simp [traps, hlock]) htrap
    | into lock =>
      obtain rfl : lock = false := hlock
      cases hmode : s.mode64 with
      | true => exact .inl (exec_into_mode64 hmode false)
      | false =>
        have hof : s.overflow = false := by simpa [traps, Instr.locked, hmode] using htrap
        exact .inr (.inr (.inl (exec_into_not_taken hmode hof)))
    | int1 lock =>
      obtain rfl : lock = false := hlock
      have hdebug : s.cfg.int1HwDebug = true := by simpa [traps, Instr.locked] using htrap
      exact .inr (.inr (.inr (exec_int1_hwDebug hdebug)))

/-- Settles O13: the instruction is its `#UD`, taken from the state of the instruction. -/
theorem lockRaisesInvalidOpcode : Obligations.LockRaisesInvalidOpcode := by
  intro s i hlock
  rw [exec_of_locked hlock]
  exact ⟨fun _ => raiseException_of_ok (x := invalidOpcode) rfl,
    fun _ _ => raiseException_of_raise (x := invalidOpcode) rfl⟩

end Sys2Proof.Machine
end

section
/-! Pending events: which one a step delivers, and that nothing else a step does touches the list
(60_exceptions.md R235, R236, R238). -/

namespace Sys2Proof.Machine

variable {s t : State} {ev : Event} {e : ExternalEvent} {before after l : List ExternalEvent}
  {f : Bool}

/-- The first event that can be taken is found, and all others stay pending in their order. -/
theorem nextEvent_append (hbefore : ∀ x ∈ before, x.takeable f = false) (he : e.takeable f = true) :
    nextEvent f (before ++ e :: after) = some (e, before ++ after) := by
  induction before with
  | nil => simp [nextEvent, he]
  | cons b before ih =>
    obtain ⟨hb, hrest⟩ := List.forall_mem_cons.1 hbefore
    simp [nextEvent, hb, ih hrest]

theorem nextEvent_eq_none (h : ∀ x ∈ l, x.takeable f = false) : nextEvent f l = none := by
  induction l with
  | nil => rfl
  | cons a l ih =>
    obtain ⟨ha, hrest⟩ := List.forall_mem_cons.1 h
    simp [nextEvent, ha, ih hrest]

/-- The oldest event that can be taken is what the step takes, from the boundary it came at. -/
theorem step_takes_event (hlegal : s.legalModes = true) (hpending : s.pending = before ++ e :: after)
    (hbefore : ∀ x ∈ before, x.takeable s.interruptFlag = false)
    (he : e.takeable s.interruptFlag = true) :
    step s = takeEvent e.event (s.tick.setPending (before ++ after))
      (s.tick.setPending (before ++ after)) := by
  simp [step, hlegal, hpending, nextEvent_append hbefore he]

/-- No delivery writes the pending events. -/
theorem DeliveryCase.pending (h : DeliveryCase ev s t) : t.pending = s.pending := by
  cases h <;> rename_i eq <;> simp [eq]

/-- Settles O6: the events as `takeable` and `event` have them, and the step that takes the oldest. -/
theorem pendingEventIsDelivered : Obligations.PendingEventIsDelivered := by
  refine ⟨fun s v => ⟨Iff.rfl, rfl, rfl, rfl⟩, ?_⟩
  intro s t e before after hlegal hpending hbefore he hdeliver
  rw [step_takes_event hlegal hpending hbefore he]
  exact ⟨takeEvent_of_ok hdeliver, (deliver_ok hdeliver).pending⟩

theorem raiseException_pending {x : Exc} (h : raiseException x s = .next t) :
    t.pending = s.pending := by
  obtain ⟨a, hcase⟩ := raiseException_next h
  exact hcase.pending

theorem takeEvent_pending {n : Nat} (h : takeEvent ev s (advance n s) = .next t) :
    t.pending = s.pending := by
  rcases takeEvent_next (before := s) (entry := advance n s) rfl h with hcase | ⟨x, m, d, a, -, hcase⟩
  · exact hcase.pending
  · exact hcase.pending

theorem exec_pending {i : Instr} (h : exec i s = .next t) : t.pending = s.pending := by
  rcases exec_cases i s with hexec | hexec | hexec | hexec <;> rw [hexec] at h
  · exact raiseException_pending h
  · exact takeEvent_pending h
  · cases h; rfl
  · cases h

theorem runInstruction_pending (h : runInstruction s = .next t) : t.pending = s.pending := by
  unfold runInstruction at h
  split at h
  · exact exec_pending h
  · exact (raiseException_pending h :)
  · cases h
  · cases h

/-- Settles O7: no pending event can be taken, so the step runs an instruction, which keeps them. -/
theorem maskedInterruptsStayPending : Obligations.MaskedInterruptsStayPending := by
  intro s t hif hmaskable h
  have hnone : nextEvent s.interruptFlag s.pending = none := by
    refine nextEvent_eq_none fun e he => ?_
    cases e with
    | interrupt v => exact hif
    | nmi => exact absurd rfl (hmaskable .nmi he)
  have hlegal := (step_cases h).1
  cases hwaits : s.endbranchWaits with
  | false =>
    rw [step_runs hlegal hnone hwaits] at h
    exact runInstruction_pending (s := s.tick) h
  | true => simp [step, hlegal, hnone, hwaits] at h

end Sys2Proof.Machine
end

section
/-! From which state a nested exception is taken: that of an instruction, of a pending event, or of a
fetch (60_exceptions.md R240 to R242, 30_encoding.md R89, 20_memory.md R57). -/

namespace Sys2Proof.Machine

variable {s dirty : State} {ev : Event} {x : Exc}

/-- A delivery that raises is abandoned, and the exception taken from the state before the event. -/
theorem takeEvent_of_raise {before entry : State} (hwf : before.mem.wf = true)
    (hmem : entry.mem = before.mem) (h : deliver ev entry = .error (.raise x dirty)) :
    ∃ m d, Abandoned x before.mem dirty.mem m ∧
      takeEvent ev before entry = raiseException x ((before.setMem m).setDraws d) := by
  obtain ⟨m, d, habandoned, hstate⟩ := abandoned_of_raise hwf hmem h
  exact ⟨m, d, habandoned, by rw [takeEvent, h, ← hstate]⟩

/-- A fault of the fetch has written nothing, so it is taken from the instruction's own state (R89). -/
theorem step_of_fetch_raise (hlegal : s.legalModes = true)
    (hevent : nextEvent s.interruptFlag s.pending = none) (htracker : s.endbranchWaits = false)
    (h : fetch s.tick = .error (.raise x dirty)) :
    ∃ d, step s = raiseException x (s.setDraws d) := by
  have hclean : abandon s.tick dirty = s.setDraws (dirty.draws + 1) := by
    rw [abandon_clean (by rw [fetchFrom_raise h])]
    rfl
  exact ⟨_, by rw [step_runs hlegal hevent htracker, runInstruction, h, ← hclean]⟩

/-- An instruction that begins outside the code segment raises `#GP(0)` (log 14). -/
theorem fetchByte_outside (h : s.codeByteOk 0 = false) :
    fetchByte s 0 = .error (.raise ⟨.gp, some 0#32, none⟩ s) := by
  rw [fetchByte, h, if_pos rfl]
  rfl

/-- Linear address of byte `n` of the instruction, in either mode (20_memory.md R51). -/
theorem State.codeAddr_codeOffset (s : State) (n : Nat) :
    s.codeAddr (s.codeOffset n) =
      if s.mode64 then s.rip + BitVec.ofNat 64 n
      else ((s.cs.hid.base + BitVec.ofNat 64
        (s.rip.toNat % (if s.cs.hid.db then 2 ^ 32 else 2 ^ 16) + n)).setWidth 32).setWidth 64 := by
  cases hm : s.mode64 with
  | true =>
    simp [State.codeAddr, hm, State.codeOffset, State.ipWidth, PtrWidth.trunc, BitVec.ofNat_add]
  | false =>
    rw [← State.toNat_trunc_rip_narrow hm, State.codeAddr, hm]
    rfl

/-- With paging on a byte inside the code segment is translated on its own (log 40): its page fault is
that of the fetch, and plain memory answers the byte it holds. -/
theorem fetchByte_paged {n : Nat} {la : Word64} (hok : s.codeByteOk n = true)
    (hpaging : s.pagingOn = true) (hla : la = s.codeAddr (s.codeOffset n)) :
    match Config.translate s la 1 s.fetchAccess with
    | .pageFault c a => fetchByte s n = .error (.raise ⟨.pf, some c, some a⟩ s)
    | .physical p => s.regionAt p.toNat = some .ram → fetchByte s n = .ok (s.mem.read p.toNat) := by
  subst hla
  have htranslate : s.translate (s.codeAddr (s.codeOffset n)) 1 s.fetchAccess =
      Config.translate s (s.codeAddr (s.codeOffset n)) 1 s.fetchAccess := if_pos hpaging
  rw [fetchByte, hok, require_true, Run.ok_bind, resolve, htranslate]
  cases Config.translate s (s.codeAddr (s.codeOffset n)) 1 s.fetchAccess with
  | pageFault c a => rfl
  | physical p =>
    intro hram
    simp [hram, readByte_ram]

/-- Settles O48: an abandoned delivery leaves what it wrote and no register, and a fetch nothing. -/
theorem abandonedDeliveryState : Obligations.AbandonedDeliveryState := by
  refine ⟨fun ev before entry dirty x => takeEvent_of_raise, ?_, ?_, ?_, ?_⟩
  · intro i s dirty x hwf htraps hraise
    rw [exec_of_traps htraps]
    exact takeEvent_of_raise hwf rfl hraise
  · intro s dirty x e before after hwf hlegal hpending hbefore he hraise
    rw [step_takes_event hlegal hpending hbefore he]
    exact takeEvent_of_raise (before := s.tick.setPending (before ++ after)) hwf rfl hraise
  · intro s dirty x got hlegal hevent htracker hgot hbytes hraise
    refine step_of_fetch_raise (dirty := dirty) hlegal hevent htracker ?_
    rcases hgot with rfl | hgot
    · exact fetchFrom_stops (got := []) hraise
    · exact fetch_stops hgot hbytes hraise
  · intro s n off la hoff hla
    rw [hoff, ← s.codeAddr_codeOffset] at hla
    refine ⟨fun hout => fetchByte_outside (Bool.eq_false_iff.2 fun hok => ?_),
      fun hok hpaging => fetchByte_paged hok hpaging hla⟩
    rcases hout with ⟨hm, hcanonical⟩ | ⟨hm, hlimit⟩
    · obtain ⟨-, hc⟩ := (State.codeByteOk_mode64 hm 0).1 hok
      simp [hcanonical] at hc
    · rw [← State.toNat_trunc_rip_narrow hm] at hoff
      obtain ⟨-, hle, -⟩ := (State.codeByteOk_narrow hm hoff 0).1 hok
      omega

end Sys2Proof.Machine
end

section
/-! What a return pops in real-address mode (60_exceptions.md R245, 41_delivery_gates.md R132). -/

namespace Sys2Proof.Machine

variable {s t u : State} {ev : Event} {w k : Nat}

/-- A delivery that ended well in real-address mode has passed the checks of R131. -/
theorem RealModeAdmits.of_deliver (pe : s.cr0.pe = false) (lma : s.lma = false) (hp : PlainMemory s)
    (h : Machine.deliver ev s = .ok u) : RealModeAdmits ev s := by
  rw [deliver_real pe] at h
  simp only [realAddressMode, Run.bind_eq_ok, require_eq_ok] at h
  obtain ⟨_, htable, _, hstack, -⟩ := h
  obtain ⟨hwrap, hroom⟩ := stackRoom_ok hstack
  exact ⟨pe, lma, hp, (State.idtInLimits_real pe _).1 htable, hwrap, hroom⟩

/-- Raising the pointer's part by what the last push took undoes that push. -/
theorem PtrWidth.put_add (p : PtrWidth) (v a b : Word64) :
    p.put (p.put v (v - (a + b))) (p.put v (v - (a + b)) + b) = p.put v (v - a) := by
  have hv := v.isLt
  have ha := a.isLt
  have hb := b.isLt
  apply BitVec.eq_of_toNat_eq
  cases p <;>
    simp only [PtrWidth.put, toNat_putLow16, toNat_putLow32, BitVec.toNat_setWidth,
      BitVec.toNat_sub, BitVec.toNat_add] <;> omega

/-- A write of the part a pointer has already changes nothing. -/
theorem PtrWidth.put_self (p : PtrWidth) (v : Word64) : p.put v v = v := by
  apply BitVec.eq_of_toNat_eq
  cases p <;>
    simp only [PtrWidth.put, toNat_putLow16, toNat_putLow32, BitVec.toNat_setWidth] <;> omega

theorem State.afterPushes_zero_rsp (s : State) (w : Nat) : (s.afterPushes w 0).rsp = s.rsp := by
  simp [State.afterPushes, PtrWidth.put_self]

/-- `t` stands on the stack of `s` after `k` pushes of `w` bytes: plain memory, and the registers a pop
reads. -/
structure OnStackOf (s : State) (w k : Nat) (t : State) : Prop where
  plain : PlainMemory t
  pointer : t.rsp = (s.afterPushes w k).rsp
  ss : t.ss = s.ss
  lma : t.lma = s.lma
  width : t.ptrWidth w = s.ptrWidth w

/-- A pop reads the slot pushed last and leaves the stack as it was before that push. -/
theorem OnStackOf.pop {v : Word64} (h : OnStackOf s w (k + 1) t) (hw : w ≤ 8)
    (hv : s.holds t.mem w (s.slotAddr w k) v) :
    pop w t = .ok (v &&& (BitVec.allOnes 64 >>> (64 - 8 * w)),
      t.setRsp (s.afterPushes w k).rsp) := by
  have htop : t.stackTop (t.ptrWidth w) = s.slotAddr w k := by
    rw [h.width, State.slotAddr]
    simp only [State.stackTop, h.pointer, h.ss]
    rfl
  have hbytes : t.holds t.mem w (t.stackTop (t.ptrWidth w)) v := by
    simpa only [State.holds, State.byteAddr, h.lma, htop] using hv
  have hraise : (t.ptrWidth w).put t.rsp (t.rsp + BitVec.ofNat 64 w) = (s.afterPushes w k).rsp := by
    rw [h.width, h.pointer]
    simp only [State.afterPushes, State.setRsp_rsp, Nat.mul_succ, BitVec.ofNat_add]
    exact PtrWidth.put_add _ _ _ _
  rw [Machine.pop, h.plain.load, Run.ok_bind, hbytes.value_eq hw, hraise]

/-- It can be popped again. -/
theorem OnStackOf.popped {j : Nat} (h : OnStackOf s w k t) :
    OnStackOf s w j (t.setRsp (s.afterPushes w j).rsp) :=
  ⟨⟨h.plain.paging, h.plain.ram, h.plain.form⟩, rfl, h.ss, h.lma, h.width⟩

/-- The pops of a return undo the pushes: the value pushed last comes first, and the pointer is where it
was before them. -/
theorem OnStackOf.popSlots {vs : List Word64} (h : OnStackOf s w vs.length t) (hw : w ≤ 8)
    (hvs : ∀ (k : Nat) (v : Word64), vs[k]? = some v → s.holds t.mem w (s.slotAddr w k) v) :
    popSlots w vs.length t =
      .ok (vs.reverse.map (· &&& (BitVec.allOnes 64 >>> (64 - 8 * w))), t.setRsp s.rsp) := by
  induction vs using List.reverseRecOn generalizing t with
  | nil =>
    have hrsp : t.rsp = s.rsp := h.pointer.trans (s.afterPushes_zero_rsp w)
    rw [← hrsp]
    rfl
  | append_singleton vs v ih =>
    rw [List.length_append] at h ⊢
    have hlast : s.holds t.mem w (s.slotAddr w vs.length) v := hvs _ _ (by simp)
    have hrest := ih (h.popped (j := vs.length)) fun k x hk =>
      hvs k x (by rw [List.getElem?_append_left (List.getElem?_eq_some_iff.1 hk).1, hk])
    rw [List.length_singleton, Machine.popSlots, h.pop hw hlast, Run.ok_bind]
    simp [hrest]

/-- The mask of a two-byte value cuts it to its low 16 bits. -/
theorem and_ffff (v : Word64) : v &&& 0xFFFF#64 = low16 v := by
  apply BitVec.eq_of_toNat_eq
  rw [toNat_low16, BitVec.toNat_and]
  exact Nat.and_two_pow_sub_one_eq_mod v.toNat 16

/-- What two bytes keep of the three values pushed (R132). -/
theorem returnValues_low (s : State) :
    [s.eflags.setWidth 64, s.cs.sel.setWidth 64, s.rip].reverse.map
      (· &&& (BitVec.allOnes 64 >>> (64 - 8 * 2))) =
        [low16 s.rip, s.cs.sel.setWidth 64, (s.eflags.setWidth 16).setWidth 64] := by
  simp [and_ffff, low16]

/-- Settles O20: the end of the delivery stands on the old stack after three pushes, each slot holding
what was pushed. -/
theorem returnPopsTheRealModeFrame : Obligations.ReturnPopsTheRealModeFrame := by
  intro ev s u pe lma hp hdeliver
  obtain ⟨m, d, hend, hframe⟩ := (RealModeAdmits.of_deliver pe lma hp hdeliver).deliver
  have hwf : u.mem.wf = true := (deliver_ok hdeliver).memory hp.form
  obtain rfl : s.realEntered ev m d = u := Except.ok.inj (hend.symm.trans hdeliver)
  have hwidth : (s.realEntered ev m d).ptrWidth 2 = .sp := State.ptrWidth_real pe
  have hstack : OnStackOf s 2 3 (s.realEntered ev m d) :=
    ⟨⟨hp.paging, hp.ram, hwf⟩, hframe.pointer, rfl, rfl,
      hwidth.trans (State.ptrWidth_real pe).symm⟩
  have hpops := hstack.popSlots (vs := [s.eflags.setWidth 64, s.cs.sel.setWidth 64, s.rip])
    (by decide) fun k v hk => by
      match k, hk with
      | 0, rfl => exact hframe.slots 0 _ rfl
      | 1, rfl => exact hframe.slots 1 _ rfl
      | 2, rfl => exact hframe.slots 2 _ rfl
  rwa [returnValues_low] at hpops

end Sys2Proof.Machine
end

section
/-! The operating modes over a delivery (60_exceptions.md R249, 00_scope.md R2). -/

namespace Sys2Proof.Machine

variable {ev : Event} {s e u : State}

/-- The mode is a matter of `PE`, `LMA`, `VM` and `CS.L`. -/
theorem State.mode_congr (cr0 : u.cr0 = e.cr0) (lma : u.lma = e.lma) (vm : u.vm = e.vm)
    (l : u.cs.hid.l = e.cs.hid.l) : u.mode = e.mode := by
  simp only [State.mode, cr0, lma, vm, l]

/-- A gate leads to 64-bit mode in IA-32e mode, to protected mode outside it (41_delivery_gates.md
R150). -/
theorem SameSystem.mode_of_gate {t : Target} (hs : SameSystem e u) (hcs : u.cs.hid = t.desc)
    (pe : e.cr0.pe = true) (code : e.codeSegmentOk t.desc = true) (vm : u.vm = false) :
    u.mode = if e.lma then .bits64 else .protectedMode := by
  have hlong : e.lma = true → t.desc.l = true := fun hl => by
    simp only [State.codeSegmentOk, hl, Bool.not_true, Bool.false_or, Bool.and_eq_true] at code
    exact code.2.1
  cases hl : e.lma <;> simp [State.mode, hs.cr0, hs.lma, pe, vm, hl, hcs, hlong]

/-- Where a gate leads from outside virtual-8086 mode: the same mode, or from compatibility mode to
64-bit mode. -/
theorem State.mode_gate_cases (pe : e.cr0.pe = true) (vm : e.vm = false)
    (hu : u.mode = if e.lma then .bits64 else .protectedMode) :
    u.mode = e.mode ∨ (e.mode = .compatibility ∧ u.mode = .bits64) := by
  rw [hu, State.mode, pe, vm]
  cases e.lma <;> cases e.cs.hid.l <;> simp

/-- Only virtual-8086 and compatibility mode are left by a delivery, the one for protected mode at level
0, the other for 64-bit mode. -/
theorem DeliveryCase.mode (h : DeliveryCase ev e u) (hlegal : e.legalModes = true) :
    u.mode = e.mode ∨ (e.mode = .virtual8086 ∧ u.mode = .protectedMode ∧ u.cpl = 0#2) ∨
      (e.mode = .compatibility ∧ u.mode = .bits64) := by
  have hs := h.sameSystem
  cases h
  case real eq =>
    exact .inl (State.mode_congr hs.cr0 hs.lma (by simp [eq, State.vm, realFlags_vm]) (by simp [eq]))
  case redirect eq =>
    exact .inl (State.mode_congr hs.cr0 hs.lma (by simp [eq, State.vm, redirectFlags_vm])
      (by simp [eq]))
  case inter pe vm code _ _ _ _ _ eq =>
    have hu := hs.mode_of_gate (by simp [eq]) pe code (by simp [eq, State.vm, gateFlags_vm])
    exact (State.mode_gate_cases pe vm hu).imp_right .inr
  case v86 pe vm code _ _ _ _ _ eq =>
    have hlma : e.lma = false := State.lma_of_real_or_virtual hlegal (.inr vm)
    have hu := hs.mode_of_gate (by simp [eq]) pe code (by simp [eq, State.vm, gateFlags_vm])
    exact .inr (.inl ⟨by simp [State.mode, pe, hlma, vm], by rw [hu, hlma]; rfl, by simp [eq]⟩)
  case intra pe vm code _ _ _ _ eq =>
    have hu := hs.mode_of_gate (by simp [eq]) pe code (by simp [eq, State.vm, gateFlags_vm])
    exact (State.mode_gate_cases pe vm hu).imp_right .inr

theorem DeliveredFrom.mode (h : DeliveredFrom s e) : e.mode = s.mode :=
  State.mode_congr h.system.cr0 h.system.lma h.vm (by rw [h.cs])

/-- Settles O52: the state of the delivery is in the old mode, and so is an `INTO` that only advances. -/
theorem modesLeftByDelivery : Obligations.ModesLeftByDelivery := by
  intro s t h
  obtain ⟨hlegal, e, hfrom, ⟨ev, hcase⟩ | ⟨rfl, -⟩⟩ := h.delivered
  · exact hfrom.mode ▸ hcase.mode (hfrom.legal hlegal)
  · exact .inl hfrom.mode

end Sys2Proof.Machine
end

section
/-! The one reset value the source states (70_reset_and_hazards.md R270). -/

namespace Sys2Proof.Machine

/-- Settles O57: `State.reset` writes the base as the source gives it. -/
theorem resetIdtBaseIsZero : Obligations.ResetIdtBaseIsZero :=
  show State.reset.idtr.base = 0#64 from rfl

end Sys2Proof.Machine
end
